-- ==== Sys2Proof/Word.lean ====
section
/-! DEFINITION. The word of the machine (spec/00_scope.md R10, spec/20_memory.md R60 to R65). A Word is a signed integer and
not a bit string, so the model holds it as an `Int`; that every word the machine holds lies in the word range is an
invariant of the state (`Machine.State.Inv` in Safety.lean), not part of the type (log 2). -/

namespace Sys2Proof

/-- R10: `WMIN`, for words of `bits` bits. -/
def leastWord (bits : Nat) : Int := -2 ^ (bits - 1)

/-- R10: `WMAX`, for words of `bits` bits. -/
def greatestWord (bits : Nat) : Int := 2 ^ (bits - 1) - 1

end Sys2Proof
end

