-- ==== Sys2Proof/Config.lean ====
section
/-! DEFINITION. The constants and the implementation parameters of spec/00_scope.md R8, the closed sets of codes of
spec/60_exceptions.md R260, and the one free value of the model. -/

namespace Sys2Proof

/-! ### Fixed constants (R8) -/

namespace Config

/-- R8, D5: `MEM_SIZE`, the number of words of the memory arena. -/
@[simp] abbrev memSize : Nat := 10000

/-- R8: `USER_LO`. -/
@[simp] abbrev userLo : Int := 0
/-- R8: `USER_HI`. -/
@[simp] abbrev userHi : Int := 3999
/-- R8: `HEAP_LO`. -/
@[simp] abbrev heapLo : Int := 4000
/-- R8: `HEAP_HI`. -/
@[simp] abbrev heapHi : Int := 6999
/-- R8: `OS_LO`. -/
@[simp] abbrev osLo : Int := 7000
/-- R8: `OS_HI`. -/
@[simp] abbrev osHi : Int := 9999

/-- R8, D29: `END_OF_LIST`, which is no address. -/
@[simp] abbrev endOfList : Int := -1

/-- R8, D30: `PCB_SIZE`. -/
@[simp] abbrev pcbSize : Int := 18

/-- R8, D25: `SYSCALL_SIZE_CEILING`. -/
@[simp] abbrev syscallSizeCeiling : Int := 3000

/-- R77, R322: `INIT_MEMORY`, the word an address reads as when nothing has written it: the spec's default 0 (log 9). -/
@[simp] abbrev initWord : Int := 0

/-- FREE VALUE (log 11): the spec does not say what the process-ID counter becomes when it has assigned the largest
Word. Applied to the counter `freeDraws` of the state. -/
opaque freePid : Nat → Int

end Config

/-! ### Statuses (R260) -/

/-- R260, R261: the ten fault codes. -/
inductive FaultCode where
  /-- An operand address outside the user range. -/
  | invalidAddress
  /-- A word outside 0..999999, or a register digit of 8 or 9. -/
  | invalidInstruction
  /-- An opcode of 13 to 99. -/
  | invalidOpcode
  /-- A mode digit of 0, 7, 8 or 9. -/
  | invalidMode
  /-- An immediate operand as a destination. -/
  | immediateMode
  /-- `pc` outside the user range, or division by zero by default. -/
  | runtime
  /-- PUSH outside the heap region. -/
  | stackOverflow
  /-- POP outside the heap region. -/
  | stackUnderflow
  /-- The model-only fault of D2: a result that is no Word. -/
  | arithmeticOverflow
  /-- A call ID outside 1..11 under the Terminate policy (D23). -/
  | invalidSystemCall
deriving DecidableEq, Repr

/-- R260: the status an engine invocation returns. -/
inductive ExitStatus where
  | fault (c : FaultCode)
  | halted
  | timeSliceExpired
  | startOfInput
  | startOfOutput
deriving DecidableEq, Repr

/-- D2: `OVERFLOW_POLICY`. -/
inductive OverflowPolicy where
  /-- A result outside the word range raises ArithmeticOverflow. -/
  | fault
  /-- A result is reduced modulo `2^WORD_BITS` into the word range. -/
  | wrap
deriving DecidableEq, Repr

/-- D23: `INVALID_SYSCALL_POLICY`. -/
inductive InvalidSyscallPolicy where
  | terminate
  | continue
deriving DecidableEq, Repr

/-- R260, D32: the table `CODE` of numeric codes; one field per name the rules apply `CODE` to. -/
structure Codes where
  invalidAddress : Int
  invalidInstruction : Int
  invalidOpcode : Int
  invalidMode : Int
  immediateMode : Int
  runtime : Int
  stackOverflow : Int
  stackUnderflow : Int
  arithmeticOverflow : Int
  invalidSystemCall : Int
  halted : Int
  timeSliceExpired : Int
  startOfInput : Int
  startOfOutput : Int
  ok : Int
  noFreeMemory : Int
  invalidSize : Int
  loadError : Int
  ready : Int
  running : Int
  waiting : Int
  inputWait : Int
  outputWait : Int
  user : Int
  os : Int
deriving DecidableEq, Repr

/-- `CODE(c)` of a fault (R260). -/
def Codes.ofFault (t : Codes) : FaultCode → Int
  | .invalidAddress => t.invalidAddress
  | .invalidInstruction => t.invalidInstruction
  | .invalidOpcode => t.invalidOpcode
  | .invalidMode => t.invalidMode
  | .immediateMode => t.immediateMode
  | .runtime => t.runtime
  | .stackOverflow => t.stackOverflow
  | .stackUnderflow => t.stackUnderflow
  | .arithmeticOverflow => t.arithmeticOverflow
  | .invalidSystemCall => t.invalidSystemCall

/-- `CODE(st)` of an exit status (R260). -/
def Codes.ofStatus (t : Codes) : ExitStatus → Int
  | .fault c => t.ofFault c
  | .halted => t.halted
  | .timeSliceExpired => t.timeSliceExpired
  | .startOfInput => t.startOfInput
  | .startOfOutput => t.startOfOutput

/-- The codes of the faults, in R260's order. -/
def Codes.faultCodes (t : Codes) : List Int :=
  [t.invalidAddress, t.invalidInstruction, t.invalidOpcode, t.invalidMode, t.immediateMode, t.runtime,
   t.stackOverflow, t.stackUnderflow, t.arithmeticOverflow, t.invalidSystemCall]

/-- The codes of the allocator's and the loader's errors (R242, R243, R333). -/
def Codes.serviceErrors (t : Codes) : List Int :=
  [t.invalidAddress, t.noFreeMemory, t.invalidSize, t.loadError]

/-- Every entry of the table. -/
def Codes.all (t : Codes) : List Int :=
  t.faultCodes ++ [t.halted, t.timeSliceExpired, t.startOfInput, t.startOfOutput, t.ok, t.noFreeMemory, t.invalidSize,
    t.loadError, t.ready, t.running, t.waiting, t.inputWait, t.outputWait, t.user, t.os]

/-- The constraints of D32 on the table. -/
def Codes.Ok (t : Codes) : Prop :=
  (t.faultCodes.Nodup ∧ ∀ c ∈ t.faultCodes, c < 0) ∧
  (0 ≤ t.halted ∧ 0 ≤ t.timeSliceExpired ∧ t.halted ≠ t.timeSliceExpired) ∧
  (t.serviceErrors.Nodup ∧ ∀ c ∈ t.serviceErrors, c < 0) ∧
  0 ≤ t.ok ∧
  (t.ready ≠ t.running ∧ t.ready ≠ t.waiting ∧ t.running ≠ t.waiting) ∧
  (t.inputWait ≠ t.outputWait ∧ t.inputWait ≠ 0 ∧ t.outputWait ≠ 0) ∧
  t.user ≠ t.os
deriving Decidable

/-- A table that meets D32: the one `State.reset` holds. DESIGN CHOICE (log 6): the spec gives no number. -/
def Codes.chosen : Codes where
  invalidAddress := -2
  invalidInstruction := -3
  invalidOpcode := -4
  invalidMode := -5
  immediateMode := -6
  runtime := -7
  stackOverflow := -8
  stackUnderflow := -9
  arithmeticOverflow := -10
  invalidSystemCall := -11
  halted := 0
  timeSliceExpired := 1
  startOfInput := 2
  startOfOutput := 3
  ok := 0
  noFreeMemory := -12
  invalidSize := -13
  loadError := -14
  ready := 1
  running := 2
  waiting := 3
  inputWait := 1
  outputWait := 2
  user := 1
  os := 0

/-! ### The parameters the spec leaves to the implementation (R8, R9) -/

/-- R8: the implementation parameters. The state carries one such record, which no step changes, so that a statement
about every state holds for every value of every parameter (log 3). -/
structure Params where
  /-- `WORD_BITS` (D1). -/
  wordBits : Nat
  /-- `OVERFLOW_POLICY` (D2). -/
  overflow : OverflowPolicy
  /-- `DIV_ZERO_CODE` (D4). -/
  divZeroCode : FaultCode
  /-- `CHECK_UNUSED_FIELDS` (D6). -/
  checkUnused : Bool
  /-- `TIME_SLICE` (D13). -/
  timeSlice : Int
  /-- `STACK_SIZE` (D39). -/
  stackSize : Int
  /-- `DEFAULT_PRIORITY` (D38). -/
  defaultPriority : Int
  /-- `SYS_SIZE_REG` (D22). -/
  sizeReg : Fin 8
  /-- `SYS_ADDR_REG` (D22). -/
  addrReg : Fin 8
  /-- `SYS_RESULT_REG` (D22). -/
  resultReg : Fin 8
  /-- `SYS_CHAR_REG` (D22). -/
  charReg : Fin 8
  /-- `INVALID_SYSCALL_POLICY` (D23). -/
  invalidSyscall : InvalidSyscallPolicy
  /-- `CODE` (D32). -/
  codes : Codes
deriving DecidableEq, Repr

/-- R10: `WMIN`. -/
def Params.wordMin (p : Params) : Int := leastWord p.wordBits

/-- R10: `WMAX`. -/
def Params.wordMax (p : Params) : Int := greatestWord p.wordBits

/-- R10: `v` is a Word: `WMIN <= v <= WMAX`. -/
def Params.IsWord (p : Params) (v : Int) : Prop := p.wordMin ≤ v ∧ v ≤ p.wordMax
deriving Decidable

/-- R9 and D32: the constraints the parameters must meet; that the codes, the stack size and the priority are
Words is part of them because the rules store them in memory words (log 5, log 6). -/
def Params.Ok (p : Params) : Prop :=
  24 ≤ p.wordBits ∧ 0 < p.timeSlice ∧ 2 ≤ p.stackSize ∧ p.codes.Ok ∧
  (∀ c ∈ p.codes.all, p.IsWord c) ∧ p.IsWord p.stackSize ∧ p.IsWord p.defaultPriority
deriving Decidable

/-- The parameters `State.reset` holds: the spec's defaults and suggested values (R8; log 4 to log 8). -/
def Params.default : Params where
  wordBits := 64
  overflow := .fault
  divZeroCode := .runtime
  checkUnused := true
  timeSlice := 200
  stackSize := 10
  defaultPriority := 128
  sizeReg := 2
  addrReg := 1
  resultReg := 0
  charReg := 1
  invalidSyscall := .terminate
  codes := .chosen

end Sys2Proof
end

