-- ==== Sys2Proof/Syntax.lean ====
section
/-! DEFINITION. The instructions: one constructor per row of spec/opcode_table.json (spec/30_encoding.md R85, R86). -/

namespace Sys2Proof

/-- An operand field pair `(m, r)` of an instruction word (R81). The mode is kept as the digit the word holds,
because the resolver has an arm for a mode outside 1..6 (R147); `wellFormed` says that it is one of the six. -/
structure Operand where
  mode : Nat
  reg : Fin 8
deriving DecidableEq, Repr

/-- R85: the thirteen instructions. An operand the opcode does not resolve (R86) is no part of the instruction (log 24),
and stream words are read from memory when the instruction runs, not by the decoder (R114; log 25). `d` names a
destination operand and `s` a source operand, as in R94. -/
inductive Instr where
  /-- Opcode 0 (R180). -/
  | halt
  /-- Opcode 1 (R161): `d <- d + s`. -/
  | add (d s : Operand)
  /-- Opcode 2 (R162): `d <- d - s`. -/
  | sub (d s : Operand)
  /-- Opcode 3 (R163): `d <- d * s`. -/
  | mul (d s : Operand)
  /-- Opcode 4 (R164): `d <- d / s`. -/
  | div (d s : Operand)
  /-- Opcode 5 (R165): `d <- s`. -/
  | move (d s : Operand)
  /-- Opcode 6 (R182): branch always. -/
  | br
  /-- Opcode 7 (R184): branch if `s < 0`. -/
  | brmi (s : Operand)
  /-- Opcode 8 (R185): branch if `s > 0`. -/
  | brpl (s : Operand)
  /-- Opcode 9 (R186): branch if `s = 0`. -/
  | brz (s : Operand)
  /-- Opcode 10 (R201). -/
  | push (s : Operand)
  /-- Opcode 11 (R202). -/
  | pop (d : Operand)
  /-- Opcode 12 (R220). -/
  | syscall (s : Operand)
deriving DecidableEq, Repr

end Sys2Proof
end

