-- ==== Sys2Proof/WellFormed.lean ====
section
/-! DEFINITION. Which instruction terms an instruction word can stand for (spec/30_encoding.md R81, R83). -/

namespace Sys2Proof

/-- R81, R83: a mode digit is legal when it is 1 to 6. (A register digit is legal when it is at most 7, which the type
of `Operand.reg` says.) -/
def modeLegal (m : Nat) : Bool := decide (1 ≤ m ∧ m ≤ 6)

/-- An operand is well formed when its mode digit is legal. -/
def Operand.wellFormed (o : Operand) : Bool := modeLegal o.mode

/-- The operands an instruction resolves, operand 1 first (R86). -/
def Instr.operands : Instr → List Operand
  | .halt => []
  | .add d s => [d, s]
  | .sub d s => [d, s]
  | .mul d s => [d, s]
  | .div d s => [d, s]
  | .move d s => [d, s]
  | .br => []
  | .brmi s => [s]
  | .brpl s => [s]
  | .brz s => [s]
  | .push s => [s]
  | .pop d => [d]
  | .syscall s => [s]

/-- An instruction is well formed when every operand it resolves is. -/
def Instr.wellFormed (i : Instr) : Bool := i.operands.all Operand.wellFormed

end Sys2Proof
end

