-- ==== Sys2Proof/Decode.lean ====
section
/-! DEFINITION. Decoding an instruction word and encoding an instruction (spec/30_encoding.md R80 to R97). -/

namespace Sys2Proof

/-! ### Decoding -/

/-- The five fields of an instruction word (R81). -/
structure Fields where
  op : Nat
  m1 : Nat
  r1 : Nat
  m2 : Nat
  r2 : Nat
deriving DecidableEq, Repr

/-- R11: decimal digit `k` of `v`, digit 0 the least significant. -/
def digit (v k : Nat) : Nat := v / 10 ^ k % 10

/-- R81: the fields of the word `n`. -/
def unpack (n : Nat) : Fields where
  op := n / 10000
  m1 := digit n 3
  r1 := digit n 2
  m2 := digit n 1
  r2 := digit n 0

/-- R83: `Checked1(op)`, whether decode checks operand field pair 1 of the opcode. -/
def checksOperand1 (checkUnused : Bool) (op : Nat) : Bool :=
  checkUnused || [1, 2, 3, 4, 5, 7, 8, 9, 10, 11, 12].contains op

/-- R83: `Checked2(op)`, whether decode checks operand field pair 2 of the opcode. -/
def checksOperand2 (checkUnused : Bool) (op : Nat) : Bool :=
  checkUnused || [1, 2, 3, 4, 5].contains op

/-- An operand from its two digits. R83 has checked that `r <= 7`, so that the reduction modulo 8 changes nothing. -/
def operandOf (m r : Nat) : Operand where
  mode := m
  reg := Fin.ofNat 8 r

/-- R84, R115: the instruction of the fields' opcode; any opcode outside 0..12 raises InvalidOpcode. -/
def instrOf (f : Fields) : Except FaultCode Instr :=
  match f.op with
  | 0 => .ok .halt
  | 1 => .ok (.add (operandOf f.m1 f.r1) (operandOf f.m2 f.r2))
  | 2 => .ok (.sub (operandOf f.m1 f.r1) (operandOf f.m2 f.r2))
  | 3 => .ok (.mul (operandOf f.m1 f.r1) (operandOf f.m2 f.r2))
  | 4 => .ok (.div (operandOf f.m1 f.r1) (operandOf f.m2 f.r2))
  | 5 => .ok (.move (operandOf f.m1 f.r1) (operandOf f.m2 f.r2))
  | 6 => .ok .br
  | 7 => .ok (.brmi (operandOf f.m1 f.r1))
  | 8 => .ok (.brpl (operandOf f.m1 f.r1))
  | 9 => .ok (.brz (operandOf f.m1 f.r1))
  | 10 => .ok (.push (operandOf f.m1 f.r1))
  | 11 => .ok (.pop (operandOf f.m1 f.r1))
  | 12 => .ok (.syscall (operandOf f.m1 f.r1))
  | _ => .error .invalidOpcode

/-- R83: the checks on the fields of a word, the first that applies. -/
def fieldFault (checkUnused : Bool) (f : Fields) : Option FaultCode :=
  if checksOperand1 checkUnused f.op && !modeLegal f.m1 then some .invalidMode
  else if checksOperand2 checkUnused f.op && !modeLegal f.m2 then some .invalidMode
  else if checksOperand1 checkUnused f.op && decide (7 < f.r1) then some .invalidInstruction
  else if checksOperand2 checkUnused f.op && decide (7 < f.r2) then some .invalidInstruction
  else none

/-- R83, then R84: the instruction the word `w` stands for, or the first fault that applies. Total on every word;
`checkUnused` is the parameter `CHECK_UNUSED_FIELDS`. -/
def decode (checkUnused : Bool) (w : Int) : Except FaultCode Instr :=
  if w < 0 ∨ 999999 < w then .error .invalidInstruction
  else
    match fieldFault checkUnused (unpack w.toNat) with
    | some c => .error c
    | none => instrOf (unpack w.toNat)

/-! ### Encoding -/

/-- R85: the opcode of an instruction. -/
def Instr.opcode : Instr → Nat
  | .halt => 0
  | .add _ _ => 1
  | .sub _ _ => 2
  | .mul _ _ => 3
  | .div _ _ => 4
  | .move _ _ => 5
  | .br => 6
  | .brmi _ => 7
  | .brpl _ => 8
  | .brz _ => 9
  | .push _ => 10
  | .pop _ => 11
  | .syscall _ => 12

/-- R91: what the assembler writes into a field pair the opcode does not use: mode 1, register 0. -/
def unusedOperand : Operand where
  mode := 1
  reg := 0

/-- R97, first line: operand 1 as the word holds it. -/
def Instr.operand1 (i : Instr) : Operand := i.operands.headD unusedOperand

/-- R97, second line: operand 2 as the word holds it. -/
def Instr.operand2 (i : Instr) : Operand := i.operands.tail.headD unusedOperand

/-- R81: `op*10000 + m1*1000 + r1*100 + m2*10 + r2`. -/
def packWord (op : Nat) (o1 o2 : Operand) : Nat :=
  op * 10000 + o1.mode * 1000 + o1.reg.val * 100 + o2.mode * 10 + o2.reg.val

/-- R97: the instruction word of an instruction. -/
def encode (i : Instr) : Int := (packWord i.opcode i.operand1 i.operand2 : Nat)

/-- R87: `s(m)`, whether a mode consumes a stream word. -/
def modeUsesStream (m : Nat) : Bool := m == 5 || m == 6

/-- R87: `t`, whether the instruction has a target word. -/
def Instr.hasTarget : Instr → Bool
  | .br => true
  | .brmi _ => true
  | .brpl _ => true
  | .brz _ => true
  | .halt => false
  | .add _ _ => false
  | .sub _ _ => false
  | .mul _ _ => false
  | .div _ _ => false
  | .move _ _ => false
  | .push _ => false
  | .pop _ => false
  | .syscall _ => false

/-- R87: the operands of the instruction that consume a stream word, in the order they consume it. -/
def Instr.streamOperands (i : Instr) : List Operand := i.operands.filter fun o => modeUsesStream o.mode

/-- R87: the length of an instruction in words. -/
def Instr.length (i : Instr) : Nat := 1 + i.streamOperands.length + (if i.hasTarget then 1 else 0)

/-- R97: all the words of one statement: the instruction word, the stream word of each operand that has one (operand 1's
before operand 2's), then the target word. `w1`, `w2` and `t` are used where the instruction has such a word. -/
def assemble (i : Instr) (w1 w2 t : Int) : List Int :=
  [encode i] ++ ((i.operands.zip [w1, w2]).filterMap fun p => if modeUsesStream p.1.mode then some p.2 else none) ++
    (if i.hasTarget then [t] else [])

/-! ### The host's numbering of an instruction's bits -/

/-- The signed word whose two's-complement form has the low `bits` bits of `w` (R10, `bits[hi:lo]`). -/
def signedWord (bits w : Nat) : Int := Int.bmod (w % 2 ^ bits : Nat) (2 ^ bits)

/-- Word `k` of the instruction whose bits are `w` (log 26): words of `bits` bits, the first the least significant. -/
def tableWord (bits nbits w k : Nat) : Int := signedWord bits (w % 2 ^ nbits / 2 ^ (bits * k))

/-- The instruction the decoder reads from an instruction whose bits are `w`, under the default parameters (log 26). The
decoder reads the first word only (R114): the stream words are read when the instruction runs. -/
def decodeTableWord (nbits w : Nat) : Option Instr :=
  (decode Params.default.checkUnused (tableWord Params.default.wordBits nbits w 0)).toOption

end Sys2Proof
end

