-- ==== Sys2Proof/Machine/State.lean ====
section
/-! DEFINITION. The state of the machine (spec/10_state.md R30 to R49), the ways a step can stop, and the power-on state
(spec/70_reset_and_hazards.md R320 to R325). -/

namespace Sys2Proof.Machine

/-- R38: the two values of `psr.mode`, the only field of the status register. -/
inductive Mode where
  | user
  | os
deriving DecidableEq, Repr

/-- R45: the memory arena as a list of `(address, Word)` pairs; an address that is not listed reads as
`Config.initWord` (log 1, log 9). Its canonical form is `Memory.wf` in Ops.lean. -/
abbrev Memory := List (Nat × Int)

/-- R307, R333: what the loader finds when it opens a program file: its name as a list of character codes, and
its lines `(address, value)` in order, or `none` where it cannot be opened or read (log 16). -/
structure ProgramFile where
  name : List Int
  lines : Option (List (Int × Int))
deriving DecidableEq, Repr

/-- R300: the payload of an interrupt; each ID uses the parts R300 gives it. -/
structure Payload where
  file : ProgramFile
  pid : Int
  ch : Int
deriving DecidableEq, Repr

/-- R300, R303: one `(id, payload)` the console supplies. -/
structure Interrupt where
  id : Int
  payload : Payload
deriving DecidableEq, Repr

/-- R279: the messages of `report(m)`. -/
inductive Report where
  /-- R284, R285: a PCB address outside the OS region. -/
  | invalidPcb
  /-- R304, R305: a completion names no waiting process. -/
  | noSuchWaitingProcess
  /-- R308: an interrupt ID outside 0..4. -/
  | invalidInterrupt
  /-- R313: one of the two deallocations failed. -/
  | freeFailed
  /-- R331: an allocation of process creation found no block. -/
  | noFreeMemory
  /-- R331: an allocation of process creation rejected its size. -/
  | invalidSize
  /-- R331: the loader answered this negative code. -/
  | loadFailed (code : Int)
deriving DecidableEq, Repr

/-- What the console is sent (R303, R279). -/
inductive HostOutput where
  | char (c : Int)
  | report (r : Report)
deriving DecidableEq, Repr

/-- The control point: which of the engine and the OS sequencer acts next (R17, R310; log 13). -/
inductive Phase where
  /-- After reset, before Boot (R330). -/
  | powerOn
  /-- At the top of the loop, in the blocking receive (R301, R310). -/
  | receive
  /-- Inside Shutdown, draining the queues (R306). -/
  | drain
  /-- After the interrupt has been handled: the stop test, then SelectNext (R310). -/
  | select
  /-- Inside RunSlice, before the next Step (R110). -/
  | engine
  /-- RunSlice has returned this status and Route has yet to run (R310, R311). -/
  | route (st : ExitStatus)
  /-- The loop has stopped (R310, R318). -/
  | stopped
deriving DecidableEq, Repr

/-- The whole state: R30's list, then the model's own fields (INVENTORY.md, State). The fields of type `Int` hold Words
(R10), but for `budget`. -/
structure State where
  /-- R31: the general registers `x[0..7]`. -/
  regs : Vector Int 8
  /-- R34: the program counter. -/
  pc : Int
  /-- R37: the stack pointer. -/
  sp : Int
  /-- R38: `psr.mode`. -/
  mode : Mode
  /-- R39: the instruction register. -/
  ir : Int
  /-- R40: the memory address register. -/
  mar : Int
  /-- R41: the memory buffer register. -/
  mbr : Int
  /-- R42, D47: the cost accumulator, unbounded. -/
  clock : Nat
  /-- R43: what is left of the time slice; may go below 0 (R118). -/
  budget : Int
  /-- R45: the memory arena. -/
  mem : Memory
  /-- R46, R241: the head of the user free list. -/
  userFreeHead : Int
  /-- R46, R241: the head of the OS free list. -/
  osFreeHead : Int
  /-- R46, R283: the head of the Ready Queue. -/
  rqHead : Int
  /-- R46, R283: the head of the Waiting Queue. -/
  wqHead : Int
  /-- R46, R282: the next process ID. -/
  nextPid : Int
  /-- R46, R306: whether a shutdown interrupt has been processed. -/
  shutdownSeen : Bool
  /-- R46: the PCB whose registers are live, or `END_OF_LIST`. -/
  current : Int
  /-- The model's: the control point (log 13). -/
  phase : Phase
  /-- The model's: the interrupts the console will supply, oldest first (log 14). -/
  inbox : List Interrupt
  /-- The model's: what the console has been sent, oldest first (log 15). -/
  outbox : List HostOutput
  /-- The model's: how many free values have been drawn (log 12). -/
  freeDraws : Nat
  /-- The model's: the implementation parameters, which no step changes (log 3). -/
  cfg : Params
deriving DecidableEq, Repr

/-- The ways a step can stop the machine for good. (A machine fault of R260 is no such stop: it is taken, and the step
answers a next state; log 19.) -/
inductive Fault where
  /-- Raised by an allocation whose walk never ends because the free list is cyclic (R242, I16: stuck). Safe (log 20). -/
  | freeListHang
  /-- Raised by a queue walk that never ends because the queue is cyclic (R284, R287). Safe (log 21). -/
  | queueHang
deriving DecidableEq, Repr

/-- The cases to which the spec gives no meaning. -/
inductive Refusal where
  /-- Raised by an arm of `exec` whose instruction has no meaning yet; none is left. Safe. -/
  | notModelled (mnemonic : String)
  /-- R242 `refuse(AllocateZero)`: an allocation of size 0. Safe (log 22). -/
  | allocateZero
  /-- R242 `refuse(CorruptFreeList)`: a free-list link outside its region. Safe (log 22). -/
  | corruptFreeList
  /-- R242 `refuse(SplitRemainderOne)`: a split that would leave one word. Safe (log 22). -/
  | splitRemainderOne
  /-- R12, I22: a memory access outside `0..MEM_SIZE-1`, raised by `load` and `store`. Safe (log 23). -/
  | memoryRange
deriving DecidableEq, Repr

/-- R48, R321 to R323: the state after power-on; Boot (R330) has not run. -/
def State.reset : State where
  regs := #v[0, 0, 0, 0, 0, 0, 0, 0]
  pc := 0
  sp := 0
  mode := .os
  ir := 0
  mar := 0
  mbr := 0
  clock := 0
  budget := 0
  mem := []
  userFreeHead := Config.heapLo
  osFreeHead := Config.osLo
  rqHead := Config.endOfList
  wqHead := Config.endOfList
  nextPid := 1
  shutdownSeen := false
  current := Config.endOfList
  phase := .powerOn
  inbox := []
  outbox := []
  freeDraws := 0
  cfg := .default

end Sys2Proof.Machine
end

