-- ==== Sys2Proof/Machine/Ops.lean ====
section
/-! DEFINITION. The named operations over registers and memory, the outcome type the rules are written in, and the taking
of a fault (spec/00_scope.md R12 to R16, spec/20_memory.md, spec/60_exceptions.md R264). -/

namespace Sys2Proof.Machine

/-! ### Range predicates (R13) -/

/-- R13: `UserAddr(a)`. -/
def UserAddr (a : Int) : Prop := Config.userLo ≤ a ∧ a ≤ Config.userHi
deriving Decidable

/-- R13: `HeapAddr(a)`. -/
def HeapAddr (a : Int) : Prop := Config.heapLo ≤ a ∧ a ≤ Config.heapHi
deriving Decidable

/-- R13: `OSAddr(a)`. -/
def OSAddr (a : Int) : Prop := Config.osLo ≤ a ∧ a ≤ Config.osHi
deriving Decidable

/-- R60: `a` is an address of the memory arena. -/
def MemAddr (a : Int) : Prop := 0 ≤ a ∧ a < (Config.memSize : Int)
deriving Decidable

/-! ### Memory as data (R45, R60, R77) -/

/-- The word at address `a`; `Config.initWord` where nothing is listed (R77). -/
def Memory.read : Memory → Nat → Int
  | [], _ => Config.initWord
  | (b, w) :: m, a => if a = b then w else Memory.read m a

/-- `m` with the word `v` put in front at address `a`; nothing is listed for the word an unlisted address reads as. -/
def Memory.put (a : Nat) (v : Int) (m : Memory) : Memory :=
  if v = Config.initWord then m else (a, v) :: m

/-- Memory with the word `v` at address `a`, in canonical form. -/
def Memory.write : Memory → Nat → Int → Memory
  | [], a, v => Memory.put a v []
  | (b, w) :: m, a, v =>
    if a < b then Memory.put a v ((b, w) :: m)
    else if a = b then Memory.put a v m
    else (b, w) :: Memory.write m a v

/-- The canonical form above address `lo`: addresses rise strictly from `lo` on and stay below `MEM_SIZE`, and no entry
equals what an unlisted address reads as. -/
def Memory.wfFrom : Nat → Memory → Bool
  | _, [] => true
  | lo, (a, v) :: m =>
    decide (lo ≤ a) && decide (a < Config.memSize) && decide (v ≠ Config.initWord) && Memory.wfFrom (a + 1) m

/-- The canonical form of memory, so that equal memories are equal data (log 1). -/
def Memory.wf (m : Memory) : Bool := Memory.wfFrom 0 m

/-! ### Registers (R31, R32) -/

/-- R31: `x[r]`. -/
def State.reg (s : State) (r : Fin 8) : Int := s.regs[r.val]

/-- R31: `x[r] <- v`. -/
def State.setReg (s : State) (r : Fin 8) (v : Int) : State := { s with regs := s.regs.set r.val v r.isLt }

/-- R34: `pc <- v`. -/
def State.setPc (s : State) (v : Int) : State := { s with pc := v }

/-- R37: `sp <- v`. -/
def State.setSp (s : State) (v : Int) : State := { s with sp := v }

/-- R38: `psr.mode <- m`. -/
def State.setMode (s : State) (m : Mode) : State := { s with mode := m }

/-- R112: what a fetch of the word `w` at `pc` leaves in `mar`, `pc`, `mbr` and `ir`. -/
def State.setFetched (s : State) (w : Int) : State :=
  { s with mar := s.pc, pc := s.pc + 1, mbr := w, ir := w }

/-- R116: the charge of a completed instruction. -/
def State.charge (s : State) (cost : Nat) : State :=
  { s with clock := s.clock + cost, budget := s.budget - cost }

/-- R110: `budget <- v`. -/
def State.setBudget (s : State) (v : Int) : State := { s with budget := v }

/-- Memory replaced. -/
def State.setMem (s : State) (m : Memory) : State := { s with mem := m }

/-- R46: `userFreeHead <- v`. -/
def State.setUserFreeHead (s : State) (v : Int) : State := { s with userFreeHead := v }

/-- R46: `osFreeHead <- v`. -/
def State.setOsFreeHead (s : State) (v : Int) : State := { s with osFreeHead := v }

/-- R46: `rqHead <- v`. -/
def State.setRqHead (s : State) (v : Int) : State := { s with rqHead := v }

/-- R46: `wqHead <- v`. -/
def State.setWqHead (s : State) (v : Int) : State := { s with wqHead := v }

/-- R46: `nextPID <- v`, with the number of free values drawn so far (log 11). -/
def State.setNextPid (s : State) (v : Int) (draws : Nat) : State := { s with nextPid := v, freeDraws := draws }

/-- R46: `shutdownSeen <- true`. -/
def State.setShutdownSeen (s : State) : State := { s with shutdownSeen := true }

/-- R46: `current <- p`. -/
def State.setCurrent (s : State) (p : Int) : State := { s with current := p }

/-- The control point moved (log 13). -/
def State.setPhase (s : State) (p : Phase) : State := { s with phase := p }

/-- R301: the interrupts left to receive. -/
def State.setInbox (s : State) (es : List Interrupt) : State := { s with inbox := es }

/-- R303, R279: one more item sent to the console. -/
def State.emit (s : State) (o : HostOutput) : State := { s with outbox := s.outbox ++ [o] }

/-- R291, R292: the live registers of a process, replaced together. -/
def State.setContext (s : State) (regs : Vector Int 8) (sp pc : Int) (m : Mode) : State :=
  { s with regs := regs, sp := sp, pc := pc, mode := m }

/-! ### What a rule's pseudocode can do (R14, R16) -/

/-- The outcome of a piece of pseudocode that yields an `α`: it goes on with a state; it raises a fault, leaving the
state reached so far (R14, R122); the machine is stuck; or the spec refuses the case (R14). -/
inductive Flow (α : Type) where
  | go (a : α) (s : State)
  | raise (c : FaultCode) (s : State)
  | stop (f : Fault)
  | refuse (r : Refusal)
deriving DecidableEq, Repr

/-- R16: pseudocode runs in order: `x`, then `f` with what `x` yields and the state it leaves. -/
def Flow.bind {α β : Type} (x : Flow α) (f : α → State → Flow β) : Flow β :=
  match x with
  | .go a s => f a s
  | .raise c s => .raise c s
  | .stop t => .stop t
  | .refuse r => .refuse r

/-! ### Memory access (R12, R65) -/

/-- R12: `MemRead(a, 1)`; an address outside the arena is refused. -/
def load (a : Int) (s : State) : Flow Int :=
  if MemAddr a then .go (s.mem.read a.toNat) s else .refuse .memoryRange

/-- R12: `MemWrite(a, 1, v)`; an address outside the arena is refused. -/
def store (a : Int) (v : Int) (s : State) : Flow Unit :=
  if MemAddr a then .go () (s.setMem (s.mem.write a.toNat v)) else .refuse .memoryRange

/-- `MemWrite(a, 1, v0)`, `MemWrite(a + 1, 1, v1)`, and so on, in order. -/
def storeBlock (a : Int) : List Int → State → Flow Unit
  | [], s => .go () s
  | v :: vs, s => (store a v s).bind fun _ s => storeBlock (a + 1) vs s

/-! ### Ending an invocation, taking a fault -/

/-- R14, R116: `exit S`: the invocation ends with status `st` and control goes to the loop's routing (R311). -/
def endInvocation (st : ExitStatus) (s : State) : State := s.setPhase (.route st)

/-- R264: taking a fault. The engine stops and returns the code to the scheduler loop: nothing is saved for the process, no
mode changes, control goes to the loop's status routing (R311); the registers stay as reached (R122). The loop then
terminates the process (`route` in Scheduler.lean). The resumption of a process is `dispatch` in Context.lean (R266). -/
def takeFault (c : FaultCode) (s : State) : State := endInvocation (.fault c) s

/-- A step's outcome from the outcome of its pseudocode: a raised fault is taken. -/
def Flow.outcome (x : Flow Unit) : Host.Outcome State Fault Refusal :=
  match x with
  | .go _ s => .next s
  | .raise c s => .next (takeFault c s)
  | .stop f => .fault f
  | .refuse r => .refused r

end Sys2Proof.Machine
end

