-- ==== Sys2Proof/Machine/HostPort.lean ====
section
/-! DEFINITION. The diagnostic dump, the host's read port (spec/60_exceptions.md R312). -/

namespace Sys2Proof.Machine

/-- R312: what a dump exposes: the registers and a memory window. -/
structure DumpView where
  label : List Int
  regs : Vector Int 8
  pc : Int
  sp : Int
  mode : Mode
  ir : Int
  mar : Int
  mbr : Int
  clock : Nat
  window : List Int
deriving DecidableEq, Repr

/-- R312, D51: the window `start .. start + length - 1` lies inside the arena and its length is not negative. Which starts
an empty window may have is open; here it is `0 .. MEM_SIZE` (DESIGN CHOICE, unsafe: log 28). -/
def WindowInMemory (start length : Int) : Prop := 0 ≤ start ∧ 0 ≤ length ∧ start + length ≤ (Config.memSize : Int)
deriving Decidable

/-- R312: the diagnostic dump, which only reads. `none` stands for the report of a window outside the arena, which is not
read (D51). That the registers are then withheld too, which the spec leaves open, and the form of the report are the model's
(DESIGN CHOICE, unsafe: log 28). -/
def dump (label : List Int) (start length : Int) (s : State) : Option DumpView :=
  if WindowInMemory start length then
    some {
      label := label, regs := s.regs, pc := s.pc, sp := s.sp, mode := s.mode, ir := s.ir, mar := s.mar, mbr := s.mbr,
      clock := s.clock,
      window := (List.range length.toNat).map fun k => s.mem.read (start.toNat + k) }
  else none

end Sys2Proof.Machine
end

