-- ==== Sys2Proof/Machine/Flags.lean ====
section
/-! DEFINITION. Results and conditions. The machine has no flags (spec/10_state.md R44): arithmetic either fits or faults
(spec/42_arithmetic_move.md R166, R167), and a conditional branch tests an operand's value (spec/43_control_transfer.md R183). -/

namespace Sys2Proof.Machine

/-- D2, R167: `v` reduced modulo `2^WORD_BITS` into `WMIN..WMAX`. -/
def wrapWord (p : Params) (v : Int) : Int := Int.bmod v (2 ^ p.wordBits)

/-- R14: `Checked(v)`, under either overflow policy. -/
def checked (v : Int) (s : State) : Flow Int :=
  if s.cfg.IsWord v then .go v s
  else
    match s.cfg.overflow with
    | .fault => .raise .arithmeticOverflow s
    | .wrap => .go (wrapWord s.cfg v) s

/-- R161: `Add(v1, v2)`. -/
def addWords (v1 v2 : Int) (s : State) : Flow Int := checked (v1 + v2) s

/-- R162: `Sub(v1, v2)`, operand 1 minus operand 2. -/
def subWords (v1 v2 : Int) (s : State) : Flow Int := checked (v1 - v2) s

/-- R163: `Mul(v1, v2)`, the exact product. -/
def mulWords (v1 v2 : Int) (s : State) : Flow Int := checked (v1 * v2) s

/-- R11: `quot_tz(a, b)`, the quotient truncated toward zero. -/
def quotTz (a b : Int) : Int := Int.tdiv a b

/-- R164: `Div(v1, v2)`. -/
def divWords (v1 v2 : Int) (s : State) : Flow Int :=
  if v2 = 0 then .raise s.cfg.divZeroCode s else checked (quotTz v1 v2) s

/-- R184: the condition of BRMI. -/
def isNegative (v : Int) : Bool := decide (v < 0)

/-- R185: the condition of BRPL. -/
def isPositive (v : Int) : Bool := decide (0 < v)

/-- R186: the condition of BRZ. -/
def isZero (v : Int) : Bool := decide (v = 0)

end Sys2Proof.Machine
end

