-- ==== Sys2Proof/Machine/Operands.lean ====
section
/-! DEFINITION. The addressing-mode resolver and the write of a destination (spec/41_addressing_modes.md R140 to R152). -/

namespace Sys2Proof.Machine

/-- R15: a destination designator. -/
inductive Dest where
  /-- `Reg(r)`. -/
  | reg (r : Fin 8)
  /-- `Mem(a)`. -/
  | mem (a : Int)
  /-- `Imm`: no destination. -/
  | imm
deriving DecidableEq, Repr

/-- R141: mode 1, Register. -/
def resolveRegister (r : Fin 8) (s : State) : Flow (Dest × Int) := .go (.reg r, s.reg r) s

/-- R142: mode 2, Register-deferred. -/
def resolveDeferred (r : Fin 8) (s : State) : Flow (Dest × Int) :=
  if UserAddr (s.reg r) then (load (s.reg r) s).bind fun v s1 => .go (.mem (s.reg r), v) s1
  else .raise .invalidAddress s

/-- R143: mode 3, Autoincrement: the register is incremented after the access, and not at all when it faults (D14). -/
def resolveAutoInc (r : Fin 8) (s : State) : Flow (Dest × Int) :=
  if UserAddr (s.reg r) then
    (load (s.reg r) s).bind fun v s1 => .go (.mem (s.reg r), v) (s1.setReg r (s.reg r + 1))
  else .raise .invalidAddress s

/-- R144: mode 4, Autodecrement: the register is decremented first, and stays so when the access faults (D14). -/
def resolveAutoDec (r : Fin 8) (s : State) : Flow (Dest × Int) :=
  (checked (s.reg r - 1) s).bind fun a s1 =>
    if UserAddr a then (load a (s1.setReg r a)).bind fun v s2 => .go (.mem a, v) s2
    else .raise .invalidAddress (s1.setReg r a)

/-- R145, R146, R181: the stream word at `pc`; `pc` outside the user range raises Runtime. -/
def streamWord (s : State) : Flow Int := if UserAddr s.pc then load s.pc s else .raise .runtime s

/-- R145: mode 5, Direct: `pc` stays advanced when the pointer word is no user address (D14). -/
def resolveDirect (s : State) : Flow (Dest × Int) :=
  (streamWord s).bind fun a s1 =>
    if UserAddr a then (load a (s1.setPc (s1.pc + 1))).bind fun v s2 => .go (.mem a, v) s2
    else .raise .invalidAddress (s1.setPc (s1.pc + 1))

/-- R146: mode 6, Immediate. -/
def resolveImmediate (s : State) : Flow (Dest × Int) :=
  (streamWord s).bind fun v s1 => .go (.imm, v) (s1.setPc (s1.pc + 1))

/-- R140: `Resolve(m, r)`. The last arm is R147's, which no decoded instruction reaches. -/
def resolve (o : Operand) (s : State) : Flow (Dest × Int) :=
  match o.mode with
  | 1 => resolveRegister o.reg s
  | 2 => resolveDeferred o.reg s
  | 3 => resolveAutoInc o.reg s
  | 4 => resolveAutoDec o.reg s
  | 5 => resolveDirect s
  | 6 => resolveImmediate s
  | _ => .raise .invalidMode s

/-- R148: `WriteDest(d, v)`. -/
def writeDest (d : Dest) (v : Int) (s : State) : Flow Unit :=
  match d with
  | .reg r => .go () (s.setReg r v)
  | .mem a => store a v s
  | .imm => .raise .immediateMode s

end Sys2Proof.Machine
end

