-- ==== Sys2Proof/Machine/Completion.lean ====
section
/-! DEFINITION. The cost of each opcode and the completion of an instruction (spec/40_engine_cycle.md R116, R117, R125). -/

namespace Sys2Proof.Machine

/-- R115: what an execute step returns: no request, or the I/O request of a blocking call. -/
inductive IoRequest where
  | none
  | input
  | output
deriving DecidableEq, Repr

/-- R125: `Cost(op)`. -/
def cost (op : Nat) : Nat :=
  match op with
  | 0 => 12
  | 1 => 3
  | 2 => 3
  | 3 => 6
  | 4 => 6
  | 5 => 2
  | 6 => 2
  | 7 => 4
  | 8 => 4
  | 9 => 4
  | 10 => 2
  | 11 => 2
  | 12 => 12
  | _ => 0

/-- R116: whether a charged instruction ends the invocation, and with which status: halt first, then I/O, then budget. -/
def exitAfter (op : Nat) (io : IoRequest) (s : State) : Option ExitStatus :=
  if op = 0 then some .halted
  else if io = .input then some .startOfInput
  else if io = .output then some .startOfOutput
  else if s.budget ≤ 0 then some .timeSliceExpired
  else none

/-- The invocation ends with `st`, or goes on. -/
def exitOrContinue (st : Option ExitStatus) (s : State) : State :=
  match st with
  | some st => endInvocation st s
  | none => s

/-- R116: `Complete(op, io)`. -/
def complete (op : Nat) (io : IoRequest) (s : State) : State :=
  exitOrContinue (exitAfter op io (s.charge (cost op))) (s.charge (cost op))

/-- R111, R117: the outcome of an instruction of opcode `op` whose execute step did `x`: completion, or, where it raised
a fault, the taking of that fault, which is not charged. -/
def finish (op : Nat) (x : Flow IoRequest) : Host.Outcome State Fault Refusal :=
  match x with
  | .go io s => .next (complete op io s)
  | .raise c s => .next (takeFault c s)
  | .stop f => .fault f
  | .refuse r => .refused r

end Sys2Proof.Machine
end

