-- ==== Sys2Proof/Machine/Arithmetic.lean ====
section
/-! DEFINITION. ADD, SUB, MUL, DIV and MOVE (spec/42_arithmetic_move.md R160 to R169). -/

namespace Sys2Proof.Machine

/-- R160: `ExecArith(f, m1, r1, m2, r2)`. -/
def execArith (f : Int → Int → State → Flow Int) (d o : Operand) (s : State) : Flow IoRequest :=
  (resolve d s).bind fun dv1 s =>
  (resolve o s).bind fun dv2 s =>
  (f dv1.2 dv2.2 s).bind fun res s =>
  (writeDest dv1.1 res s).bind fun _ s => .go .none s

/-- R161: ADD, `d <- d + o`. -/
def execAdd (d o : Operand) (s : State) : Host.Outcome State Fault Refusal := finish 1 (execArith addWords d o s)

/-- R162: SUB, `d <- d - o`. -/
def execSub (d o : Operand) (s : State) : Host.Outcome State Fault Refusal := finish 2 (execArith subWords d o s)

/-- R163: MUL, `d <- d * o`. -/
def execMul (d o : Operand) (s : State) : Host.Outcome State Fault Refusal := finish 3 (execArith mulWords d o s)

/-- R164: DIV, `d <- d / o`, truncated toward zero. -/
def execDiv (d o : Operand) (s : State) : Host.Outcome State Fault Refusal := finish 4 (execArith divWords d o s)

/-- R165: what MOVE computes: operand 2's value; operand 1's is read and discarded. -/
def moveWords (_v1 v2 : Int) (s : State) : Flow Int := .go v2 s

/-- R165: MOVE, `d <- o`; operand 1 is resolved in full (D15). -/
def execMove (d o : Operand) (s : State) : Host.Outcome State Fault Refusal := finish 5 (execArith moveWords d o s)

end Sys2Proof.Machine
end

