-- ==== Sys2Proof/Machine/Control.lean ====
section
/-! DEFINITION. HALT and the branches (spec/43_control_transfer.md R180 to R189). -/

namespace Sys2Proof.Machine

/-- R180: HALT; completion charges it and exits Halted. -/
def execHalt (s : State) : Host.Outcome State Fault Refusal := finish 0 (.go .none s)

/-- R181: `ReadTarget()`. -/
def readTarget (s : State) : Flow Int := streamWord s

/-- R182: `ExecBR()`; the target is not checked (R187). -/
def branchTo (s : State) : Flow IoRequest := (readTarget s).bind fun t s => .go .none (s.setPc t)

/-- R182: BR. -/
def execBr (s : State) : Host.Outcome State Fault Refusal := finish 6 (branchTo s)

/-- R183: `ExecBcond(cond, m1, r1)`; the path not taken reads and checks nothing. -/
def branchIf (cond : Int → Bool) (o : Operand) (s : State) : Flow IoRequest :=
  (resolve o s).bind fun dv s => if cond dv.2 then branchTo s else .go .none (s.setPc (s.pc + 1))

/-- R184: BRMI. -/
def execBrmi (o : Operand) (s : State) : Host.Outcome State Fault Refusal := finish 7 (branchIf isNegative o s)

/-- R185: BRPL. -/
def execBrpl (o : Operand) (s : State) : Host.Outcome State Fault Refusal := finish 8 (branchIf isPositive o s)

/-- R186: BRZ. -/
def execBrz (o : Operand) (s : State) : Host.Outcome State Fault Refusal := finish 9 (branchIf isZero o s)

end Sys2Proof.Machine
end

