-- ==== Sys2Proof/Machine/Stack.lean ====
section
/-! DEFINITION. PUSH and POP (spec/44_stack.md R200 to R205). -/

namespace Sys2Proof.Machine

/-- R201: the push of `v`: the cell `sp + 1` is checked, then written, then `sp` moves to it (D19). -/
def pushWord (v : Int) (s : State) : Flow IoRequest :=
  if HeapAddr (s.sp + 1) then (store (s.sp + 1) v s).bind fun _ s => .go .none (s.setSp (s.sp + 1))
  else .raise .stackOverflow s

/-- R201: PUSH. -/
def execPush (o : Operand) (s : State) : Host.Outcome State Fault Refusal :=
  finish 10 ((resolve o s).bind fun dv s => pushWord dv.2 s)

/-- R202: the pop into `d`: the cell `sp` is checked, then read, then `sp` is decremented, then `d` is written (D20). -/
def popInto (d : Dest) (s : State) : Flow IoRequest :=
  if HeapAddr s.sp then
    (load s.sp s).bind fun v s => (writeDest d v (s.setSp (s.sp - 1))).bind fun _ s => .go .none s
  else .raise .stackUnderflow s

/-- R202: POP; operand 1 is resolved in full first. -/
def execPop (d : Operand) (s : State) : Host.Outcome State Fault Refusal :=
  finish 11 ((resolve d s).bind fun dv s => popInto dv.1 s)

end Sys2Proof.Machine
end

