-- ==== Sys2Proof/Machine/Allocator.lean ====
section
/-! DEFINITION. The two free-list allocators (spec/45_system_call.md R240 to R245). -/

namespace Sys2Proof.Machine

/-- R241: the two allocator instances. -/
inductive Region where
  | user
  | os
deriving DecidableEq, Repr

/-- R241: `lo(g)`. -/
def regionLo : Region → Int
  | .user => Config.heapLo
  | .os => Config.osLo

/-- R241: `hi(g)`. -/
def regionHi : Region → Int
  | .user => Config.heapHi
  | .os => Config.osHi

/-- R241: `head(g)`. -/
def freeHead (g : Region) (s : State) : Int :=
  match g with
  | .user => s.userFreeHead
  | .os => s.osFreeHead

/-- R241: `head(g) <- v`. -/
def setFreeHead (g : Region) (v : Int) (s : State) : State :=
  match g with
  | .user => s.setUserFreeHead v
  | .os => s.setOsFreeHead v

/-- R242: what Allocate returns. -/
inductive AllocResult where
  | address (a : Int)
  | noFreeMemory
  | invalidSize
deriving DecidableEq, Repr

/-- R243: what Free returns. -/
inductive FreeResult where
  | ok
  | invalidAddress
  | invalidSize
deriving DecidableEq, Repr

/-- R242: `Link(g, prev, v)`. -/
def link (g : Region) (prev v : Int) (s : State) : Flow Unit :=
  if prev = Config.endOfList then .go () (setFreeHead g v s) else store prev v s

/-- R242: the walk's decision at the block `cur` of size `blockSize` whose link is `nxt`: take it whole, split it, or (`none`)
go on to the next block. -/
def takeBlock (g : Region) (size prev cur nxt blockSize : Int) (s : State) : Flow (Option AllocResult) :=
  if blockSize = size then
    (link g prev nxt s).bind fun _ s => .go (some (.address cur)) s
  else if size < blockSize then
    if blockSize - size = 1 then .refuse .splitRemainderOne
    else
      (store (cur + size) nxt s).bind fun _ s =>
      (store (cur + size + 1) (blockSize - size) s).bind fun _ s =>
      (link g prev (cur + size) s).bind fun _ s => .go (some (.address cur)) s
  else .go none s

/-- R242: the first-fit walk from `cur`, whose predecessor on the list is `prev`. The walk writes nothing before it takes a
block, and a block it visits starts at one of fewer than `regionFuel g` addresses, so running out of `fuel` means
that the list is cyclic and the walk never ends (I16; log 20). -/
def allocWalk (g : Region) (size : Int) : Nat → Int → Int → State → Flow AllocResult
  | 0, _, _, _ => .stop .freeListHang
  | fuel + 1, prev, cur, s =>
    if cur = Config.endOfList then .go .noFreeMemory s
    else if regionLo g ≤ cur ∧ cur + 1 ≤ regionHi g then
      (load cur s).bind fun nxt s =>
      (load (cur + 1) s).bind fun blockSize s =>
      (takeBlock g size prev cur nxt blockSize s).bind fun r s =>
        match r with
        | some a => .go a s
        | none => allocWalk g size fuel cur nxt s
    else .refuse .corruptFreeList

/-- The number of addresses of a region, one more than a block can start at. -/
def regionFuel (g : Region) : Nat := (regionHi g - regionLo g + 1).toNat

/-- R240, R242, R243: a size of 1 is rounded up to the minimum block of 2. -/
def roundSize (size : Int) : Int := if size = 1 then 2 else size

/-- R242: `Allocate(g, s)`. -/
def allocate (g : Region) (size : Int) (s : State) : Flow AllocResult :=
  if size < 0 then .go .invalidSize s
  else if size = 0 then .refuse .allocateZero
  else allocWalk g (roundSize size) (regionFuel g) Config.endOfList (freeHead g s) s

/-- R243: `Free(g, a, s)`. -/
def free (g : Region) (a size : Int) (s : State) : Flow FreeResult :=
  if size < 1 then .go .invalidSize s
  else if ¬ (regionLo g ≤ a ∧ a ≤ regionHi g) ∨ regionHi g < a + roundSize size - 1 then .go .invalidAddress s
  else
    (store a (freeHead g s) s).bind fun _ s =>
    (store (a + 1) (roundSize size) s).bind fun _ s => .go .ok (setFreeHead g a s)

/-- R245, R330: `InitFreeList(g)`: one free block that covers the region. -/
def initFreeList (g : Region) (s : State) : Flow Unit :=
  (store (regionLo g) Config.endOfList s).bind fun _ s =>
  (store (regionLo g + 1) (regionHi g - regionLo g + 1) s).bind fun _ s => .go () (setFreeHead g (regionLo g) s)

end Sys2Proof.Machine
end

