-- ==== Sys2Proof/Machine/SystemCall.lean ====
section
/-! DEFINITION. SYSCALL and the services it reaches (spec/45_system_call.md R220 to R229). -/

namespace Sys2Proof.Machine

/-- R221: the closed table of services. -/
inductive ServiceName where
  | processCreate
  | processDelete
  | processInquiry
  | memAlloc
  | memFree
  | msgSend
  | msgReceive
  | ioGetc
  | ioPutc
  | timeGet
  | timeSet
deriving DecidableEq, Repr

/-- R221: the service of a call ID; none for any other Word. -/
def serviceOf (id : Int) : Option ServiceName :=
  if id = 1 then some .processCreate
  else if id = 2 then some .processDelete
  else if id = 3 then some .processInquiry
  else if id = 4 then some .memAlloc
  else if id = 5 then some .memFree
  else if id = 6 then some .msgSend
  else if id = 7 then some .msgReceive
  else if id = 8 then some .ioGetc
  else if id = 9 then some .ioPutc
  else if id = 10 then some .timeGet
  else if id = 11 then some .timeSet
  else none

/-- R18, R220: what the dispatcher returns. -/
inductive ServiceReply where
  | done
  | blockInput
  | blockOutput
  | invalid
deriving DecidableEq, Repr

/-- R224, R225, D25: the ceiling test of the two memory services. -/
def SizeAccepted (size : Int) : Prop := 1 ≤ size ∧ size ≤ Config.syscallSizeCeiling
deriving Decidable

/-- R224: the result word of an allocation. -/
def allocCode (c : Codes) : AllocResult → Int
  | .address a => a
  | .noFreeMemory => c.noFreeMemory
  | .invalidSize => c.invalidSize

/-- R225: the result word of a deallocation. -/
def freeCode (c : Codes) : FreeResult → Int
  | .ok => c.ok
  | .invalidAddress => c.invalidAddress
  | .invalidSize => c.invalidSize

/-- R224: `MemAllocService()`. -/
def memAllocService (s : State) : Flow ServiceReply :=
  if SizeAccepted (s.reg s.cfg.sizeReg) then
    (allocate .user (s.reg s.cfg.sizeReg) s).bind fun r s =>
      .go .done (s.setReg s.cfg.resultReg (allocCode s.cfg.codes r))
  else .go .done (s.setReg s.cfg.resultReg s.cfg.codes.invalidSize)

/-- R225: `MemFreeService()`. -/
def memFreeService (s : State) : Flow ServiceReply :=
  if SizeAccepted (s.reg s.cfg.sizeReg) then
    (free .user (s.reg s.cfg.addrReg) (s.reg s.cfg.sizeReg) s).bind fun r s =>
      .go .done (s.setReg s.cfg.resultReg (freeCode s.cfg.codes r))
  else .go .done (s.setReg s.cfg.resultReg s.cfg.codes.invalidSize)

/-- R226: a stub: accepted, performs no operation, reports success. -/
def stubService (s : State) : Flow ServiceReply := .go .done s

/-- R221: `Service(id)`. -/
def service (id : Int) (s : State) : Flow ServiceReply :=
  match serviceOf id with
  | some .processCreate => stubService s
  | some .processDelete => stubService s
  | some .processInquiry => stubService s
  | some .memAlloc => memAllocService s
  | some .memFree => memFreeService s
  | some .msgSend => stubService s
  | some .msgReceive => stubService s
  | some .ioGetc => .go .blockInput s
  | some .ioPutc => .go .blockOutput s
  | some .timeGet => stubService s
  | some .timeSet => stubService s
  | none => .go .invalid s

/-- R223: `InvalidCall()`. -/
def invalidCall (s : State) : Flow IoRequest :=
  match s.cfg.invalidSyscall with
  | .terminate => .raise .invalidSystemCall s
  | .continue => .go .none (s.setReg s.cfg.resultReg s.cfg.codes.invalidSystemCall)

/-- R220: what the instruction returns for the dispatcher's reply, back in User mode. -/
def afterService (reply : ServiceReply) (s : State) : Flow IoRequest :=
  match reply with
  | .done => .go .none s
  | .blockInput => .go .input s
  | .blockOutput => .go .output s
  | .invalid => invalidCall s

/-- R220, R222: the call of service `id`: OS mode for its duration, User mode after it. -/
def callService (id : Int) (s : State) : Flow IoRequest :=
  (service id (s.setMode .os)).bind fun reply s => afterService reply (s.setMode .user)

/-- R220: SYSCALL; the call ID is operand 1's value (D21). -/
def execSyscall (o : Operand) (s : State) : Host.Outcome State Fault Refusal :=
  finish 12 ((resolve o s).bind fun dv s => callService dv.2 s)

end Sys2Proof.Machine
end

