-- ==== Sys2Proof/Machine/Dispatch.lean ====
section
/-! DEFINITION. Execute and Complete of an instruction (spec/40_engine_cycle.md R115, R116): one arm per instruction. -/

namespace Sys2Proof.Machine

/-- R115, R116: what the instruction `i` does in a state whose `pc` stands after its instruction word. -/
def exec (i : Instr) (s : State) : Host.Outcome State Fault Refusal :=
  match i with
  | .halt => Sys2Proof.Machine.execHalt s
  | .add d o => Sys2Proof.Machine.execAdd d o s
  | .sub d o => Sys2Proof.Machine.execSub d o s
  | .mul d o => Sys2Proof.Machine.execMul d o s
  | .div d o => Sys2Proof.Machine.execDiv d o s
  | .move d o => Sys2Proof.Machine.execMove d o s
  | .br => Sys2Proof.Machine.execBr s
  | .brmi o => Sys2Proof.Machine.execBrmi o s
  | .brpl o => Sys2Proof.Machine.execBrpl o s
  | .brz o => Sys2Proof.Machine.execBrz o s
  | .push o => Sys2Proof.Machine.execPush o s
  | .pop d => Sys2Proof.Machine.execPop d s
  | .syscall o => Sys2Proof.Machine.execSyscall o s

end Sys2Proof.Machine
end

