-- ==== Sys2Proof/Machine/Cycle.lean ====
section
/-! DEFINITION. The fetch-decode-execute cycle (spec/40_engine_cycle.md R110 to R115). -/

namespace Sys2Proof.Machine

/-- R112, R113: `Fetch()`; a `pc` outside the user range faults before anything changes. -/
def fetch (s : State) : Flow Unit :=
  if UserAddr s.pc then (load s.pc s).bind fun w s => .go () (s.setFetched w) else .raise .runtime s

/-- R114, R115: the fetched word decoded and run; a word that is no instruction raises its fault. -/
def decodeAndRun (s : State) : Host.Outcome State Fault Refusal :=
  match decode s.cfg.checkUnused s.ir with
  | .ok i => exec i s
  | .error c => .next (takeFault c s)

/-- R111: `Step()`, one whole instruction. -/
def engineStep (s : State) : Host.Outcome State Fault Refusal :=
  match fetch s with
  | .go _ s => decodeAndRun s
  | .raise c s => .next (takeFault c s)
  | .stop f => .fault f
  | .refuse r => .refused r

/-- R110, first line: an engine invocation starts with a full budget. -/
def startSlice (s : State) : State := (s.setBudget s.cfg.timeSlice).setPhase .engine

/-- Where `withFetchWord` places an instruction: `pc` where three words fit in the user range, else 0 (log 26). -/
def placeAt (s : State) : Int := if Config.userLo ≤ s.pc ∧ s.pc + 2 ≤ Config.userHi then s.pc else 0

/-- Three words placed where the next fetch reads them, and an invocation started there in User mode (log 26). -/
def placeInstruction (word : Nat → Int) (s : State) : State :=
  startSlice <|
    ((s.setMem (((s.mem.write (placeAt s).toNat (word 0)).write ((placeAt s).toNat + 1) (word 1)).write
      ((placeAt s).toNat + 2) (word 2))).setPc (placeAt s)).setMode .user

end Sys2Proof.Machine
end

