-- ==== Sys2Proof/Machine/Context.lean ====
section
/-! DEFINITION. The Process Control Block, and context save and restore (spec/60_exceptions.md R280, R290 to R293). -/

namespace Sys2Proof.Machine

/-! ### Field offsets of a PCB (R280, D30) -/

namespace Pcb

/-- R280: `NEXT`. -/
@[simp] abbrev next : Int := 0
/-- R280: `PID`. -/
@[simp] abbrev pid : Int := 1
/-- R280: `STATE`. -/
@[simp] abbrev state : Int := 2
/-- R280: `REASON`. -/
@[simp] abbrev reason : Int := 3
/-- R280: `PRIORITY`. -/
@[simp] abbrev priority : Int := 4
/-- R280: `STACK_SIZE`. -/
@[simp] abbrev stackSize : Int := 5
/-- R280: `STACK_START`. -/
@[simp] abbrev stackStart : Int := 6
/-- R280: `GPR0`. -/
@[simp] abbrev gpr0 : Int := 7
/-- R280: `SAVED_SP`. -/
@[simp] abbrev savedSp : Int := 15
/-- R280: `SAVED_PC`. -/
@[simp] abbrev savedPc : Int := 16
/-- R280: `SAVED_PSR`. -/
@[simp] abbrev savedPsr : Int := 17

end Pcb

/-- R291: `SaveContext(p)`: `GPR0..GPR7`, `SAVED_SP` and `SAVED_PC` are consecutive fields. -/
def saveContext (p : Int) (s : State) : Flow Unit :=
  storeBlock (p + Pcb.gpr0) (s.regs.toList ++ [s.sp, s.pc]) s

/-- R292: the saved general registers of the PCB at `p`. -/
def savedRegs (p : Int) (m : Memory) : Vector Int 8 :=
  #v[m.read (p + Pcb.gpr0).toNat, m.read (p + Pcb.gpr0 + 1).toNat, m.read (p + Pcb.gpr0 + 2).toNat,
     m.read (p + Pcb.gpr0 + 3).toNat, m.read (p + Pcb.gpr0 + 4).toNat, m.read (p + Pcb.gpr0 + 5).toNat,
     m.read (p + Pcb.gpr0 + 6).toNat, m.read (p + Pcb.gpr0 + 7).toNat]

/-- R292: `Dispatch(p)`: the live registers from the PCB, and User mode. Every word it reads lies between `GPR0` and
`SAVED_PC`, so it is refused (R12) when one of these two is outside the arena. -/
def dispatch (p : Int) (s : State) : Flow Unit :=
  if MemAddr (p + Pcb.gpr0) ∧ MemAddr (p + Pcb.savedPc) then
    .go () (s.setContext (savedRegs p s.mem) (s.mem.read (p + Pcb.savedSp).toNat)
      (s.mem.read (p + Pcb.savedPc).toNat) .user)
  else .refuse .memoryRange

end Sys2Proof.Machine
end

