-- ==== Sys2Proof/Machine/Queues.lean ====
section
/-! DEFINITION. The Ready Queue and the Waiting Queue (spec/60_exceptions.md R283 to R287). -/

namespace Sys2Proof.Machine

/-- R284, R285, D33: the whole extent of the PCB lies in the OS region. -/
def PcbInRange (p : Int) : Prop := Config.osLo ≤ p ∧ p + Config.pcbSize - 1 ≤ Config.osHi
deriving Decidable

/-- R279: `report(m)`. -/
def report (r : Report) (s : State) : State := s.emit (.report r)

/-- One more than the number of addresses a queue walk can stand at: a walk that runs out of it is on a cyclic queue and
never ends (log 21). -/
def queueFuel : Nat := Config.memSize + 1

/-- R284: the walk of InsertReady: the last entry before the place of a PCB of priority `prio`, and the entry after it. -/
def readyPlace (prio : Int) : Nat → Int → Int → State → Flow (Int × Int)
  | 0, _, _, _ => .stop .queueHang
  | fuel + 1, prev, cur, s =>
    if cur = Config.endOfList then .go (prev, cur) s
    else
      (load (cur + Pcb.priority) s).bind fun q s =>
        if prio ≤ q then (load (cur + Pcb.next) s).bind fun nxt s => readyPlace prio fuel cur nxt s
        else .go (prev, cur) s

/-- R284: the last line: the entry `prev`, or the head of the Ready Queue, is linked to `p`. -/
def linkReady (prev p : Int) (s : State) : Flow Unit :=
  if prev = Config.endOfList then .go () (s.setRqHead p) else store (prev + Pcb.next) p s

/-- R284: `InsertReady(p)`. -/
def insertReady (p : Int) (s : State) : Flow Unit :=
  if PcbInRange p then
    (store (p + Pcb.state) s.cfg.codes.ready s).bind fun _ s =>
    (load (p + Pcb.priority) s).bind fun prio s =>
    (readyPlace prio queueFuel Config.endOfList s.rqHead s).bind fun place s =>
    (store (p + Pcb.next) place.2 s).bind fun _ s => linkReady place.1 p s
  else .go () (report .invalidPcb s)

/-- R285: `InsertWaiting(p)`. -/
def insertWaiting (p : Int) (s : State) : Flow Unit :=
  if PcbInRange p then
    (store (p + Pcb.state) s.cfg.codes.waiting s).bind fun _ s =>
    (store (p + Pcb.next) s.wqHead s).bind fun _ s => .go () (s.setWqHead p)
  else .go () (report .invalidPcb s)

/-- R286: `SelectNext()`. -/
def selectNext (s : State) : Flow Int :=
  if s.rqHead = Config.endOfList then .go Config.endOfList s
  else
    (load (s.rqHead + Pcb.next) s).bind fun nxt s1 =>
    (store (s.rqHead + Pcb.next) Config.endOfList (s1.setRqHead nxt)).bind fun _ s2 => .go s.rqHead s2

/-- R287: the unlinking of the entry `cur`, whose predecessor is `prev`, from the Waiting Queue. -/
def unlinkWaiting (prev cur : Int) (s : State) : Flow Unit :=
  (load (cur + Pcb.next) s).bind fun nxt s =>
  (if prev = Config.endOfList then .go () (s.setWqHead nxt) else store (prev + Pcb.next) nxt s).bind fun _ s =>
  store (cur + Pcb.next) Config.endOfList s

/-- R287: the walk of RemoveWaiting. -/
def removeWalk (pid : Int) : Nat → Int → Int → State → Flow Int
  | 0, _, _, _ => .stop .queueHang
  | fuel + 1, prev, cur, s =>
    if cur = Config.endOfList then .go Config.endOfList s
    else
      (load (cur + Pcb.pid) s).bind fun q s =>
        if q = pid then (unlinkWaiting prev cur s).bind fun _ s => .go cur s
        else (load (cur + Pcb.next) s).bind fun nxt s => removeWalk pid fuel cur nxt s

/-- R287: `RemoveWaiting(pid)`; the wait reason is not compared (D36). -/
def removeWaiting (pid : Int) (s : State) : Flow Int := removeWalk pid queueFuel Config.endOfList s.wqHead s

end Sys2Proof.Machine
end

