-- ==== Sys2Proof/Machine/Processes.lean ====
section
/-! DEFINITION. Process creation, the loader's contract, and process termination (spec/70_reset_and_hazards.md R331 to
R333, spec/60_exceptions.md R313). -/

namespace Sys2Proof.Machine

/-- R333: the loader's loop over the lines of a file: each pair is written as it is read (D52), and the pair whose address is
-1 ends the file. -/
def loadLines : List (Int × Int) → State → Flow Int
  | [], s => .go s.cfg.codes.loadError s
  | (a, v) :: rest, s =>
    if a = -1 then .go (if UserAddr v then v else s.cfg.codes.loadError) s
    else if UserAddr a then (store a v s).bind fun _ s => loadLines rest s
    else .go s.cfg.codes.loadError s

/-- R333: `Loader.Load(file)`. -/
def loadFile (f : ProgramFile) (s : State) : Flow Int :=
  match f.lines with
  | some lines => loadLines lines s
  | none => .go s.cfg.codes.loadError s

/-- R282, R331: `nextPID <- nextPID + 1`. The spec gives no counter value after the largest Word: there it is a free
value (log 11). -/
def advancePid (s : State) : State :=
  if s.cfg.IsWord (s.nextPid + 1) then s.setNextPid (s.nextPid + 1) s.freeDraws
  else s.setNextPid (Int.bmod (Config.freePid s.freeDraws) (2 ^ s.cfg.wordBits)) (s.freeDraws + 1)

/-- R331: the report of an allocation that gave no address. -/
def allocReport : AllocResult → Report
  | .address _ => .noFreeMemory
  | .noFreeMemory => .noFreeMemory
  | .invalidSize => .invalidSize

/-- R331, D41: a creation that failed after the PCB was allocated: report, and free the PCB. -/
def abandonPcb (p : Int) (r : Report) (s : State) : Flow Unit :=
  (free .os p Config.pcbSize (report r s)).bind fun _ s => .go () s

/-- R331: the fields written when everything has been allocated and loaded, and the insertion into the Ready Queue. -/
def finishPcb (p start stack priority : Int) (s : State) : Flow Unit :=
  (store (p + Pcb.stackStart) stack s).bind fun _ s =>
  (store (p + Pcb.stackSize) s.cfg.stackSize s).bind fun _ s =>
  (store (p + Pcb.savedSp) (stack - 1) s).bind fun _ s =>
  (store (p + Pcb.savedPc) start s).bind fun _ s =>
  (store (p + Pcb.savedPsr) s.cfg.codes.user s).bind fun _ s =>
  (store (p + Pcb.priority) priority s).bind fun _ s => insertReady p s

/-- R331: from the stack's allocation on. -/
def createStack (p start priority : Int) (s : State) : Flow Unit :=
  (allocate .user s.cfg.stackSize s).bind fun r s =>
    match r with
    | .address stack => finishPcb p start stack priority s
    | .noFreeMemory => abandonPcb p (allocReport .noFreeMemory) s
    | .invalidSize => abandonPcb p (allocReport .invalidSize) s

/-- R331: the PCB zeroed and given its process ID. -/
def initPcb (p : Int) (s : State) : Flow Unit :=
  (storeBlock p (List.replicate Config.pcbSize.toNat 0) s).bind fun _ s =>
  (store (p + Pcb.pid) s.nextPid s).bind fun _ s => .go () (advancePid s)

/-- R331: `CreateProcess(file, priority)`. -/
def createProcess (file : ProgramFile) (priority : Int) (s : State) : Flow Unit :=
  (allocate .os Config.pcbSize s).bind fun r s =>
    match r with
    | .address p =>
      (initPcb p s).bind fun _ s =>
      (loadFile file s).bind fun start s =>
        if start < 0 then abandonPcb p (.loadFailed start) s else createStack p start priority s
    | .noFreeMemory => .go () (report (allocReport .noFreeMemory) s)
    | .invalidSize => .go () (report (allocReport .invalidSize) s)

/-- R313: the report when a deallocation failed. -/
def reportFree (r1 r2 : FreeResult) (s : State) : State :=
  if r1 = .ok ∧ r2 = .ok then s else report .freeFailed s

/-- R313: `TerminateProcess(p)`. -/
def terminateProcess (p : Int) (s : State) : Flow Unit :=
  (load (p + Pcb.stackStart) s).bind fun start s =>
  (load (p + Pcb.stackSize) s).bind fun size s =>
  (free .user start size s).bind fun r1 s =>
  (free .os p Config.pcbSize s).bind fun r2 s => .go () (reportFree r1 r2 s)

end Sys2Proof.Machine
end

