-- ==== Sys2Proof/Machine/Interrupts.lean ====
section
/-! DEFINITION. Interrupts: the receive, the dispatch and the handlers (spec/60_exceptions.md R300 to R308). -/

namespace Sys2Proof.Machine

/-- R304: `InputCompletion(pid, ch)`. -/
def inputCompletion (pid ch : Int) (s : State) : Flow Unit :=
  (removeWaiting pid s).bind fun p s =>
    if p = Config.endOfList then .go () (report .noSuchWaitingProcess s)
    else (store (p + Pcb.gpr0 + (s.cfg.charReg.val : Int)) ch s).bind fun _ s => insertReady p s

/-- R305: `OutputCompletion(pid)`. -/
def outputCompletion (pid : Int) (s : State) : Flow Unit :=
  (removeWaiting pid s).bind fun p s =>
    if p = Config.endOfList then .go () (report .noSuchWaitingProcess s)
    else
      (load (p + Pcb.gpr0 + (s.cfg.charReg.val : Int)) s).bind fun c s => insertReady p (s.emit (.char c))

/-- R302: `HandleInterrupt(id, payload)`, and where control goes after it: to the draining of the queues after a shutdown
interrupt (R306), else to the stop test (R310). -/
def handleInterrupt (e : Interrupt) (s : State) : Flow Unit :=
  if e.id = 0 then .go () (s.setPhase .select)
  else if e.id = 1 then
    (createProcess e.payload.file s.cfg.defaultPriority s).bind fun _ s => .go () (s.setPhase .select)
  else if e.id = 2 then .go () (s.setPhase .drain)
  else if e.id = 3 then
    (inputCompletion e.payload.pid e.payload.ch s).bind fun _ s => .go () (s.setPhase .select)
  else if e.id = 4 then
    (outputCompletion e.payload.pid s).bind fun _ s => .go () (s.setPhase .select)
  else .go () ((report .invalidInterrupt s).setPhase .select)

/-- R301: the blocking receive, and the handling of what it received. With nothing to receive the machine waits
(R318): the step changes nothing. -/
def receiveStep (s : State) : Flow Unit :=
  match s.inbox with
  | [] => .go () s
  | e :: rest => handleInterrupt e (s.setInbox rest)

/-- R306: one turn of Shutdown's two loops, or, when both queues are empty, its last line (log 27). -/
def drainStep (s : State) : Flow Unit :=
  if s.rqHead ≠ Config.endOfList then
    (selectNext s).bind fun p s => terminateProcess p s
  else if s.wqHead ≠ Config.endOfList then
    (load (s.wqHead + Pcb.next) s).bind fun nxt s1 => terminateProcess s.wqHead (s1.setWqHead nxt)
  else .go () (s.setShutdownSeen.setPhase .select)

end Sys2Proof.Machine
end

