-- ==== Sys2Proof/Machine/Scheduler.lean ====
section
/-! DEFINITION. Boot and the top-level loop (spec/70_reset_and_hazards.md R330, spec/60_exceptions.md R310, R311). -/

namespace Sys2Proof.Machine

/-- R330: `Boot()` up to the loop. -/
def boot (s : State) : Flow Unit :=
  (initFreeList .user s).bind fun _ s =>
  (initFreeList .os s).bind fun _ s => .go () (s.setPhase .receive)

/-- R310: the process `p` made current and started. -/
def startProcess (p : Int) (s : State) : Flow Unit :=
  (store (p + Pcb.state) s.cfg.codes.running s).bind fun _ s =>
  (dispatch p (s.setCurrent p)).bind fun _ s => .go () (startSlice s)

/-- R310: from the stop test to the start of RunSlice. -/
def selectStep (s : State) : Flow Unit :=
  if s.shutdownSeen = true ∧ s.rqHead = Config.endOfList ∧ s.wqHead = Config.endOfList then
    .go () (s.setPhase .stopped)
  else
    (selectNext s).bind fun p s =>
      if p = Config.endOfList then .go () (s.setPhase .receive) else startProcess p s

/-- R311: a process that asked for I/O: saved, tagged with its reason, and put into the Waiting Queue. -/
def blockProcess (p reason : Int) (s : State) : Flow Unit :=
  (saveContext p s).bind fun _ s =>
  (store (p + Pcb.reason) reason s).bind fun _ s => insertWaiting p s

/-- R311: `Route(p, st)`. -/
def route (p : Int) (st : ExitStatus) (s : State) : Flow Unit :=
  match st with
  | .timeSliceExpired => (saveContext p s).bind fun _ s => insertReady p s
  | .startOfInput => blockProcess p s.cfg.codes.inputWait s
  | .startOfOutput => blockProcess p s.cfg.codes.outputWait s
  | .halted => terminateProcess p s
  | .fault _ => terminateProcess p s

/-- R310: the routing of the status RunSlice returned, and the end of the iteration. The engine itself changes no mode when
it stops (R264), and the sequencer, which acts from here on, runs in OS mode (R70, R268, R302; log 18). -/
def routeStep (st : ExitStatus) (s : State) : Flow Unit :=
  (route s.current st (s.setMode .os)).bind fun _ s => .go () ((s.setCurrent Config.endOfList).setPhase .receive)

end Sys2Proof.Machine
end

