-- ==== Sys2Proof/Machine/Step.lean ====
section
/-! DEFINITION. One step of the machine, and the host's way to place one instruction. -/

namespace Sys2Proof.Machine

/-- One step: one instruction while the engine runs (R111), one part of the loop while the OS sequencer runs (R310;
log 13). A machine that has stopped stays as it is (R318; log 17). -/
def step (s : State) : Host.Outcome State Fault Refusal :=
  match s.phase with
  | .powerOn => (boot s).outcome
  | .receive => (receiveStep s).outcome
  | .drain => (drainStep s).outcome
  | .select => (selectStep s).outcome
  | .engine => engineStep s
  | .route st => (routeStep st s).outcome
  | .stopped => .next s

/-- The instruction whose bits are `w` (three words, the most an instruction has; R87) stored at `pc`, or at address 0
where `pc` leaves no room for it in the user range, and an engine invocation started on it in User mode (R110,
R121), so that the next step fetches and runs it (log 26). -/
def State.withFetchWord (s : State) (nbits w : Nat) : State :=
  placeInstruction (tableWord s.cfg.wordBits nbits w) s

end Sys2Proof.Machine
end

