-- ==== Sys2Proof/Safety.lean ====
section
/-! DEFINITION. The terms claims are written in: what an operand denotes, the invariants of the state, and what a step may
touch. -/

namespace Sys2Proof.Machine

/-- The word at an address given as an integer. -/
def State.word (s : State) (a : Int) : Int := s.mem.read a.toNat

/-! ### What an operand denotes, mode by mode (R141 to R146)

These say what a resolution is to give, without the order of its checks and accesses; that `resolve` gives it is a claim. -/

/-- The address of a memory operand: `x[r]` in modes 2 and 3, `x[r] - 1` in mode 4, the pointer word in mode 5. -/
def operandAddr (o : Operand) (s : State) : Int :=
  match o.mode with
  | 4 => s.reg o.reg - 1
  | 5 => s.word s.pc
  | _ => s.reg o.reg

/-- Whether the operand uses a word at `operandAddr`. -/
def operandInMemory (o : Operand) : Bool := o.mode == 2 || o.mode == 3 || o.mode == 4 || o.mode == 5

/-- Whether the operand can be resolved: the stream word and the address it uses lie in the user range. -/
def operandReady (o : Operand) (s : State) : Prop :=
  o.wellFormed = true ∧ (modeUsesStream o.mode = true → UserAddr s.pc) ∧
    (operandInMemory o = true → UserAddr (operandAddr o s))
deriving Decidable

/-- The value of the operand. -/
def operandValue (o : Operand) (s : State) : Int :=
  match o.mode with
  | 1 => s.reg o.reg
  | 6 => s.word s.pc
  | _ => s.word (operandAddr o s)

/-- The destination the operand designates (R15). -/
def operandDest (o : Operand) (s : State) : Dest :=
  match o.mode with
  | 1 => .reg o.reg
  | 6 => .imm
  | _ => .mem (operandAddr o s)

/-- The state the resolution leaves (R150): the register of modes 3 and 4, the `pc` of modes 5 and 6. -/
def operandAfter (o : Operand) (s : State) : State :=
  match o.mode with
  | 3 => s.setReg o.reg (s.reg o.reg + 1)
  | 4 => s.setReg o.reg (s.reg o.reg - 1)
  | 5 => s.setPc (s.pc + 1)
  | 6 => s.setPc (s.pc + 1)
  | _ => s

/-- Whether the operand's resolution changes its register (modes 3 and 4). -/
def operandSteps (o : Operand) : Bool := o.mode == 3 || o.mode == 4

/-- The value `v` written to the destination `d`: nothing for `Imm`. -/
def putDest (d : Dest) (v : Int) (s : State) : State :=
  match d with
  | .reg r => s.setReg r v
  | .mem a => s.setMem (s.mem.write a.toNat v)
  | .imm => s

/-- The general registers hold Words, which is part of `State.Inv`. -/
def RegsAreWords (s : State) : Prop := ∀ r, s.cfg.IsWord (s.reg r)
deriving Decidable

/-- Operand 1, then operand 2 in the state operand 1 left, can be resolved (R149). -/
def bothReady (d o : Operand) (s : State) : Prop := operandReady d s ∧ operandReady o (operandAfter d s)
deriving Decidable

/-- Operand 2's value: it is resolved in the state operand 1 left (R149). -/
def secondValue (d o : Operand) (s : State) : Int := operandValue o (operandAfter d s)

/-- The state the two resolutions leave (R149). -/
def afterBoth (d o : Operand) (s : State) : State := operandAfter o (operandAfter d s)

/-! ### Words -/

/-- The words of an interrupt that the machine may store. -/
def interruptWords (e : Interrupt) : List Int :=
  e.payload.pid :: e.payload.ch :: (e.payload.file.lines.getD []).map Prod.snd

/-- Every register and variable of the state that holds a Word (R30, R46). -/
def State.words (s : State) : List Int :=
  s.regs.toList ++ [s.pc, s.sp, s.ir, s.mar, s.mbr, s.userFreeHead, s.osFreeHead, s.rqHead, s.wqHead, s.nextPid, s.current]

/-- The word invariant: the parameters meet their constraints, memory is in canonical form, and every word the machine
holds or may receive lies in `WMIN..WMAX` (R9, R10, R45; log 2). -/
structure State.Inv (s : State) : Prop where
  params : s.cfg.Ok
  memory : s.mem.wf = true
  cells : ∀ c ∈ s.mem, s.cfg.IsWord c.2
  registers : ∀ w ∈ s.words, s.cfg.IsWord w
  inputs : ∀ e ∈ s.inbox, ∀ w ∈ interruptWords e, s.cfg.IsWord w

/-- The invocation invariant: while the engine runs, User mode and a budget in `1 .. TIME_SLICE`; when it has returned and
the sequencer has not acted yet, User mode and an overshoot of at most 11, with nothing left after an expiry; while the
sequencer acts, OS mode (R118, R121, R264, R268, R346; log 18). -/
structure State.SliceInv (s : State) : Prop where
  slice : 0 < s.cfg.timeSlice
  running : s.phase = .engine → s.mode = .user ∧ 0 < s.budget ∧ s.budget ≤ s.cfg.timeSlice
  stopped : ∀ st, s.phase = .route st → s.mode = .user ∧ -11 ≤ s.budget ∧ s.budget ≤ s.cfg.timeSlice
  expired : s.phase = .route .timeSliceExpired → s.budget ≤ 0
  sequencer : s.phase ≠ .engine → (∀ st, s.phase ≠ .route st) → s.mode = .os

/-! ### Frames -/

/-- The OS sequencer's variables, the host's streams and the parameters are the same. -/
structure SameOs (s t : State) : Prop where
  userFreeHead : t.userFreeHead = s.userFreeHead
  osFreeHead : t.osFreeHead = s.osFreeHead
  rqHead : t.rqHead = s.rqHead
  wqHead : t.wqHead = s.wqHead
  nextPid : t.nextPid = s.nextPid
  shutdownSeen : t.shutdownSeen = s.shutdownSeen
  current : t.current = s.current
  inbox : t.inbox = s.inbox
  outbox : t.outbox = s.outbox
  freeDraws : t.freeDraws = s.freeDraws
  cfg : t.cfg = s.cfg

/-- The fetch staging registers are the same (R123). -/
structure SameStaging (s t : State) : Prop where
  ir : t.ir = s.ir
  mar : t.mar = s.mar
  mbr : t.mbr = s.mbr

/-- Every word of memory but those at the addresses `as` reads as before. -/
def MemSameBut (as : List Int) (s t : State) : Prop :=
  ∀ a : Nat, (a : Int) ∉ as → t.mem.read a = s.mem.read a

/-- Every general register but those listed holds what it held. -/
def RegsSameBut (rs : List (Fin 8)) (s t : State) : Prop := ∀ r, r ∉ rs → t.reg r = s.reg r

/-- The general registers an operand writes when its resolution changes its register. -/
def steppedRegs (o : Operand) : List (Fin 8) := if operandSteps o then [o.reg] else []

/-- The general registers a destination operand writes: its own in mode 1, and the one its resolution changes. -/
def destRegs (o : Operand) : List (Fin 8) := if o.mode = 1 then [o.reg] else steppedRegs o

/-- The addresses a destination operand stores to, when it is resolved in state `s`. -/
def destAddrs (o : Operand) (s : State) : List Int := if operandInMemory o then [operandAddr o s] else []

/-- The state is not one in which an invocation has just ended with a fault. -/
def NotFaulted (t : State) : Prop := ∀ c, t.phase ≠ .route (.fault c)

/-- Two states agree on everything an ordinary instruction may look at: all but the words of the OS region. -/
structure AgreeBelowOs (s t : State) : Prop where
  regs : t.regs = s.regs
  pc : t.pc = s.pc
  sp : t.sp = s.sp
  mode : t.mode = s.mode
  clock : t.clock = s.clock
  budget : t.budget = s.budget
  phase : t.phase = s.phase
  staging : SameStaging s t
  os : SameOs s t
  mem : ∀ a : Nat, (a : Int) < Config.osLo → t.mem.read a = s.mem.read a

/-! ### Free lists and queues in memory -/

/-- R240: the blocks `(address, size)` are linked in this order from `h` on. -/
def freeChain (m : Memory) : Int → List (Int × Int) → Prop
  | h, [] => h = Config.endOfList
  | h, (b, n) :: bs => h = b ∧ m.read (b + 1).toNat = n ∧ freeChain m (m.read b.toNat) bs

/-- Two blocks share no word. -/
def BlocksApart (x y : Int × Int) : Prop := x.1 + x.2 ≤ y.1 ∨ y.1 + y.2 ≤ x.1

/-- R240, R244: the blocks are those of a sound free list of region `g`: inside the region, at least 2 words long, apart. -/
def SoundBlocks (g : Region) (bs : List (Int × Int)) : Prop :=
  (∀ b ∈ bs, regionLo g ≤ b.1 ∧ 2 ≤ b.2 ∧ b.1 + b.2 - 1 ≤ regionHi g) ∧ bs.Pairwise BlocksApart

/-- R240, R241: `bs` is the free list of region `g`, from its head. -/
def FreeList (g : Region) (bs : List (Int × Int)) (s : State) : Prop :=
  SoundBlocks g bs ∧ freeChain s.mem (freeHead g s) bs

/-- R283: the PCBs are linked in this order from `h` on. -/
def queueChain (m : Memory) : Int → List Int → Prop
  | h, [] => h = Config.endOfList
  | h, p :: ps => h = p ∧ queueChain m (m.read (p + Pcb.next).toNat) ps

/-- Two PCBs share no word. -/
def PcbsApart (p q : Int) : Prop := p + Config.pcbSize ≤ q ∨ q + Config.pcbSize ≤ p

/-- The PCBs lie in the OS region and share no word. -/
def SoundPcbs (ps : List Int) : Prop := (∀ p ∈ ps, PcbInRange p) ∧ ps.Pairwise PcbsApart

/-- The addresses of the last entry of a list, if it has one: where an insertion or a removal behind it writes a link. -/
def lastLink (ps : List Int) : List Int := ps.getLast?.toList

/-- The lines of a program file that the loader accepts: pairs at user addresses (R333). -/
def GoodLines (ls : List (Int × Int)) : Prop := ∀ l ∈ ls, UserAddr l.1

end Sys2Proof.Machine
end

