-- ==== Sys2Proof/Certificates/Slice0/Obligations.lean ====
section
/-! DEFINITION. The statements for the provers. Each docstring names the rules of spec/ it formalises; the terms are those of
Safety.lean. A statement about every state holds for every value of the implementation parameters, which the state
carries (log 3); `s.cfg.Ok` is R9 and D32. -/

open Sys2Proof Sys2Proof.Machine

/-! ### Encoding -/

/-- R81, R97: decoding the word of a well-formed instruction gives the instruction back, whether or not unused fields are
checked: no operand digit is dropped. -/
def Obligations.DecodeEncodeRoundTrip : Prop :=
  ∀ (chk : Bool) (i : Instr), i.wellFormed = true → decode chk (encode i) = .ok i

/-- R83, R84: the checks of decode, in their order, on a word written as its decimal digits; a word that passes them is
the instruction of its opcode with its operand digits (R81, R86). -/
def Obligations.DecodeChecksInOrder : Prop :=
  (∀ (chk : Bool) (w : Int), w < 0 ∨ 999999 < w → decode chk w = .error .invalidInstruction) ∧
  ∀ (chk : Bool) (op m1 r1 m2 r2 : Nat), op ≤ 99 → m1 ≤ 9 → r1 ≤ 9 → m2 ≤ 9 → r2 ≤ 9 →
    let w : Int := (op * 10000 + m1 * 1000 + r1 * 100 + m2 * 10 + r2 : Nat)
    let checked1 := chk = true ∨ op ∈ [1, 2, 3, 4, 5, 7, 8, 9, 10, 11, 12]
    let checked2 := chk = true ∨ op ∈ [1, 2, 3, 4, 5]
    let fault : Option FaultCode :=
      if checked1 ∧ ¬ (1 ≤ m1 ∧ m1 ≤ 6) then some .invalidMode
      else if checked2 ∧ ¬ (1 ≤ m2 ∧ m2 ≤ 6) then some .invalidMode
      else if checked1 ∧ ¬ r1 ≤ 7 then some .invalidInstruction
      else if checked2 ∧ ¬ r2 ≤ 7 then some .invalidInstruction
      else if 12 < op then some .invalidOpcode
      else none
    (∀ c, fault = some c → decode chk w = .error c) ∧
    (fault = none → ∃ i, decode chk w = .ok i ∧ i.opcode = op ∧
      i.operands.map (fun o => (o.mode, o.reg.val)) =
        [(m1, r1), (m2, r2)].take (if op ∈ [1, 2, 3, 4, 5] then 2 else if op ∈ [0, 6] then 0 else 1))

/-- R81, R83, R91: words of spec/95_test_vectors.md section 2.1, and the fault each illegal one reports. -/
def Obligations.SampleWordsDecode : Prop :=
  decode true 11060 = .ok (.add ⟨1, 0⟩ ⟨6, 0⟩) ∧ decode true 1010 = .ok .halt ∧ decode true 61010 = .ok .br ∧
  decode true 53231 = .ok (.move ⟨3, 2⟩ ⟨3, 1⟩) ∧ decode true 126010 = .ok (.syscall ⟨6, 0⟩) ∧
  decode true 21360 = .ok (.sub ⟨1, 3⟩ ⟨6, 0⟩) ∧ decode true 95010 = .ok (.brz ⟨5, 0⟩) ∧
  decode true 113110 = .ok (.pop ⟨3, 1⟩) ∧ decode true 0 = .error .invalidMode ∧ decode false 0 = .ok .halt ∧
  decode true 11880 = .error .invalidMode ∧ decode true 11810 = .error .invalidInstruction ∧
  decode true 131010 = .error .invalidOpcode ∧ decode true 130000 = .error .invalidMode ∧
  decode true (-5) = .error .invalidInstruction

/-- R87, R97: an assembled statement has the length R87 gives it: one word, one more for each resolved operand in mode 5
or 6, and one more for a branch's target. -/
def Obligations.AssembledLength : Prop :=
  ∀ (i : Instr) (w1 w2 t : Int),
    (assemble i w1 w2 t).length =
      1 + (i.operands.map fun o => if o.mode = 5 ∨ o.mode = 6 then 1 else 0).sum +
        (if i.opcode ∈ [6, 7, 8, 9] then 1 else 0)

/-! ### The cycle -/

/-- R111, R112: while the engine runs and the word at `pc` decodes to `i`, a step is `exec i` in the state the fetch leaves:
`mar` the word's address, `pc` one further, `mbr` and `ir` the word. -/
def Obligations.StepRunsDecodedInstruction : Prop :=
  ∀ (s : State) (i : Instr), s.phase = .engine → UserAddr s.pc →
    decode s.cfg.checkUnused (s.word s.pc) = .ok i →
    i.wellFormed = true ∧
    step s = exec i { s with mar := s.pc, pc := s.pc + 1, mbr := s.word s.pc, ir := s.word s.pc }

/-- R113: a fetch with `pc` outside the user range takes Runtime and changes nothing else; a fetched word that is no
instruction takes the fault of its decoding in the state the fetch leaves (R83, R84, R114, R122).
A fault is taken by moving the control point to the loop's routing (log 19). -/
def Obligations.FetchAndDecodeFaults : Prop :=
  ∀ s : State, s.phase = .engine →
    (¬ (0 ≤ s.pc ∧ s.pc ≤ 3999) → step s = .next { s with phase := .route (.fault .runtime) }) ∧
    ∀ c : FaultCode, 0 ≤ s.pc ∧ s.pc ≤ 3999 → decode s.cfg.checkUnused (s.word s.pc) = .error c →
      step s = .next
        { s with mar := s.pc, pc := s.pc + 1, mbr := s.word s.pc, ir := s.word s.pc, phase := .route (.fault c) }

/-- R35: how each instruction that completes leaves `pc`, with `k` the number of operand words it consumed. -/
def Obligations.PcAfterEachInstruction : Prop :=
  ∀ (s t : State) (i : Instr), s.cfg.Ok → RegsAreWords s → s.phase = .engine → UserAddr s.pc →
    decode s.cfg.checkUnused (s.word s.pc) = .ok i → step s = .next t → NotFaulted t →
    let k : Int := i.streamOperands.length
    let f := s.setFetched (s.word s.pc)
    (i = .halt → t.pc = s.pc + 1) ∧
    (i.opcode ∈ [1, 2, 3, 4, 5, 10, 11, 12] → t.pc = s.pc + 1 + k) ∧
    (i = .br → t.pc = s.word (s.pc + 1)) ∧
    (∀ o, i = .brmi o → t.pc = if operandValue o f < 0 then s.word (s.pc + 1 + k) else s.pc + 2 + k) ∧
    (∀ o, i = .brpl o → t.pc = if 0 < operandValue o f then s.word (s.pc + 1 + k) else s.pc + 2 + k) ∧
    (∀ o, i = .brz o → t.pc = if operandValue o f = 0 then s.word (s.pc + 1 + k) else s.pc + 2 + k)

/-- R116, R125: an instruction that completes is charged its opcode's cost, whatever its modes and outcome; HALT then
ends the invocation, and any other instruction but SYSCALL ends it exactly when the budget is exhausted. -/
def Obligations.CompletedInstructionIsCharged : Prop :=
  ∀ (s t : State) (i : Instr), s.phase = .engine → exec i s = .next t → NotFaulted t →
    let cost := ([12, 3, 3, 6, 6, 2, 2, 4, 4, 4, 2, 2, 12] : List Nat).getD i.opcode 0
    t.clock = s.clock + cost ∧ t.budget = s.budget - cost ∧
    (i = .halt → t.phase = .route .halted) ∧
    (i.opcode ≠ 0 → i.opcode ≠ 12 → t.phase = if t.budget ≤ 0 then .route .timeSliceExpired else .engine)

/-- R117, R122: an instruction that takes a fault leaves memory, `clock` and `budget` as they were, and no register
changed but `pc`, those of modes 3 and 4, and POP's `sp`. -/
def Obligations.FaultLeavesMemoryAndClock : Prop :=
  ∀ (s t : State) (i : Instr) (c : FaultCode), s.cfg.Ok → s.phase = .engine → exec i s = .next t →
    t.phase = .route (.fault c) →
    t.mem = s.mem ∧ t.clock = s.clock ∧ t.budget = s.budget ∧ SameStaging s t ∧ SameOs s t ∧
    RegsSameBut (i.operands.flatMap steppedRegs) s t ∧
    (t.sp = s.sp ∨ i.opcode = 11 ∧ t.sp = s.sp - 1) ∧ (t.mode = s.mode ∨ i.opcode = 12 ∧ t.mode = .user)

/-- R42, R124: no step decreases `clock`; only a step of the engine increases it, by the cost of one opcode. -/
def Obligations.ClockNeverDecreases : Prop :=
  ∀ s t : State, step s = .next t →
    s.clock ≤ t.clock ∧
    (t.clock ≠ s.clock → s.phase = .engine ∧ (t.clock = s.clock + 2 ∨ t.clock = s.clock + 3 ∨ t.clock = s.clock + 4 ∨
      t.clock = s.clock + 6 ∨ t.clock = s.clock + 12))

/-- R120, R301: while the engine runs, a step receives no interrupt, sends the console nothing, and leaves the queues and
the sequencer's other variables alone but for the user free list's head. -/
def Obligations.EngineStepTakesNoInterrupt : Prop :=
  ∀ s t : State, s.phase = .engine → step s = .next t →
    SameOs s { t with userFreeHead := s.userFreeHead }

/-! ### Operands -/

/-- R141 to R147: what each mode gives, what it changes, and the fault it raises with the state it leaves, for every
register and every state; in mode 4 the decrement of `WMIN` follows the overflow policy (D2). -/
def Obligations.ResolveEachMode : Prop :=
  ∀ (s : State) (r : Fin 8), s.cfg.Ok → s.cfg.IsWord (s.reg r) →
    let x := s.reg r
    let p := s.word s.pc
    let dec := s.setReg r (x - 1)
    let adv := s.setPc (s.pc + 1)
    resolve ⟨1, r⟩ s = .go (.reg r, x) s ∧
    resolve ⟨2, r⟩ s = (if UserAddr x then .go (.mem x, s.word x) s else .raise .invalidAddress s) ∧
    resolve ⟨3, r⟩ s =
      (if UserAddr x then .go (.mem x, s.word x) (s.setReg r (x + 1)) else .raise .invalidAddress s) ∧
    (x ≠ s.cfg.wordMin → resolve ⟨4, r⟩ s =
      (if UserAddr (x - 1) then .go (.mem (x - 1), s.word (x - 1)) dec else .raise .invalidAddress dec)) ∧
    (x = s.cfg.wordMin → s.cfg.overflow = .fault → resolve ⟨4, r⟩ s = .raise .arithmeticOverflow s) ∧
    (x = s.cfg.wordMin → s.cfg.overflow = .wrap →
      resolve ⟨4, r⟩ s = .raise .invalidAddress (s.setReg r s.cfg.wordMax)) ∧
    resolve ⟨5, r⟩ s =
      (if ¬ UserAddr s.pc then .raise .runtime s
       else if UserAddr p then .go (.mem p, s.word p) adv else .raise .invalidAddress adv) ∧
    resolve ⟨6, r⟩ s = (if UserAddr s.pc then .go (.imm, p) adv else .raise .runtime s) ∧
    ∀ m, ¬ (1 ≤ m ∧ m ≤ 6) → resolve ⟨m, r⟩ s = .raise .invalidMode s

/-- R149, R160, R183, R201, R202, R220: operand 1 is resolved first, side effects included: its fault ends the instruction in
the state it left; then operand 2's. -/
def Obligations.OperandFaultsInOrder : Prop :=
  (∀ (s s1 : State) (c : FaultCode) (o : Operand), resolve o s = .raise c s1 →
    ∀ i ∈ [Instr.brmi o, .brpl o, .brz o, .push o, .pop o, .syscall o], exec i s = .next (takeFault c s1)) ∧
  (∀ (s s1 : State) (c : FaultCode) (d o : Operand), resolve d s = .raise c s1 →
    ∀ i ∈ [Instr.add d o, .sub d o, .mul d o, .div d o, .move d o], exec i s = .next (takeFault c s1)) ∧
  (∀ (s s1 s2 : State) (p : Dest × Int) (c : FaultCode) (d o : Operand), resolve d s = .go p s1 →
    resolve o s1 = .raise c s2 →
    ∀ i ∈ [Instr.add d o, .sub d o, .mul d o, .div d o, .move d o], exec i s = .next (takeFault c s2))

/-! ### Arithmetic and move -/

/-- R160 to R163: ADD, SUB (operand 1 minus operand 2) and MUL (the exact product) of two operands that can be resolved: the
result goes to operand 1's destination when it is a Word; one that is none faults under the Fault policy; an
immediate destination faults after everything else. -/
def Obligations.AddSubMulResult : Prop :=
  ∀ (s : State) (d o : Operand), s.cfg.Ok → bothReady d o s →
    let v1 := operandValue d s
    let v2 := secondValue d o s
    let u := afterBoth d o s
    ∀ c ∈ [(Instr.add d o, 1, v1 + v2), (.sub d o, 2, v1 - v2), (.mul d o, 3, v1 * v2)],
      (s.cfg.IsWord c.2.2 → d.mode ≠ 6 →
        exec c.1 s = .next (complete c.2.1 .none (putDest (operandDest d s) c.2.2 u))) ∧
      (s.cfg.IsWord c.2.2 → d.mode = 6 → exec c.1 s = .next (takeFault .immediateMode u)) ∧
      (¬ s.cfg.IsWord c.2.2 → s.cfg.overflow = .fault → exec c.1 s = .next (takeFault .arithmeticOverflow u))

/-- R160, R164: DIV by a divisor that is not 0: the quotient truncated toward zero, said as the one `q` with
`d = q * o + m`, `m` smaller than `o` and of `d`'s sign; a divisor of 0 faults `DIV_ZERO_CODE`, before the check of
the destination. -/
def Obligations.DivResult : Prop :=
  ∀ (s : State) (d o : Operand), s.cfg.Ok → bothReady d o s →
    let v1 := operandValue d s
    let v2 := secondValue d o s
    let u := afterBoth d o s
    (v2 = 0 → exec (.div d o) s = .next (takeFault s.cfg.divZeroCode u)) ∧
    (∀ q m : Int, v2 ≠ 0 → v1 = q * v2 + m → |m| < |v2| → 0 ≤ m * v1 →
      (s.cfg.IsWord q → d.mode ≠ 6 → exec (.div d o) s = .next (complete 4 .none (putDest (operandDest d s) q u))) ∧
      (s.cfg.IsWord q → d.mode = 6 → exec (.div d o) s = .next (takeFault .immediateMode u)) ∧
      (¬ s.cfg.IsWord q → s.cfg.overflow = .fault → exec (.div d o) s = .next (takeFault .arithmeticOverflow u)))

/-- R168: the division table, at the word size of the state. -/
def Obligations.DivisionTable : Prop :=
  ∀ s : State, s.cfg.Ok →
    divWords 7 2 s = .go 3 s ∧ divWords (-7) 2 s = .go (-3) s ∧ divWords 7 (-2) s = .go (-3) s ∧
    divWords (-7) (-2) s = .go 3 s ∧ divWords 6 3 s = .go 2 s ∧ divWords 0 5 s = .go 0 s ∧ divWords 0 (-5) s = .go 0 s ∧
    divWords 1 2 s = .go 0 s ∧ divWords (-1) 2 s = .go 0 s ∧ divWords 5 0 s = .raise s.cfg.divZeroCode s ∧
    divWords 0 0 s = .raise s.cfg.divZeroCode s ∧
    (s.cfg.overflow = .fault → divWords s.cfg.wordMin (-1) s = .raise .arithmeticOverflow s) ∧
    divWords s.cfg.wordMin 1 s = .go s.cfg.wordMin s

/-- R165: MOVE: operand 2's value to operand 1's destination, operand 1 resolved in full; an immediate destination
faults. -/
def Obligations.MoveResult : Prop :=
  ∀ (s : State) (d o : Operand), s.cfg.Ok → bothReady d o s →
    let v := secondValue d o s
    let u := afterBoth d o s
    (d.mode ≠ 6 → exec (.move d o) s = .next (complete 5 .none (putDest (operandDest d s) v u))) ∧
    (d.mode = 6 → exec (.move d o) s = .next (takeFault .immediateMode u))

/-- R167, D2: under the Wrap policy a result of ADD, SUB, MUL or DIV that is no Word is reduced modulo `2^WORD_BITS` into
the word range (the quotient of DIV as in `DivResult`; of `WMIN` by -1 it becomes `WMIN`), and an immediate destination
still faults. -/
def Obligations.WrapPolicyReduces : Prop :=
  ∀ (s : State) (d o : Operand), s.cfg.Ok → s.cfg.overflow = .wrap → bothReady d o s →
    let v1 := operandValue d s
    let v2 := secondValue d o s
    let u := afterBoth d o s
    let writes (i : Instr) (r : Int) : Prop :=
      ∀ w : Int, s.cfg.IsWord w → (2 ^ s.cfg.wordBits : Int) ∣ w - r →
        (d.mode ≠ 6 → exec i s = .next (complete i.opcode .none (putDest (operandDest d s) w u))) ∧
        (d.mode = 6 → exec i s = .next (takeFault .immediateMode u))
    writes (.add d o) (v1 + v2) ∧ writes (.sub d o) (v1 - v2) ∧ writes (.mul d o) (v1 * v2) ∧
    (∀ q m : Int, v2 ≠ 0 → v1 = q * v2 + m → |m| < |v2| → 0 ≤ m * v1 → writes (.div d o) q) ∧
    (v1 = s.cfg.wordMin → v2 = -1 → d.mode ≠ 6 →
      exec (.div d o) s = .next (complete 4 .none (putDest (operandDest d s) s.cfg.wordMin u)))

/-- R149, R160, R165: the frame of the instructions that write operand 1, faults included: only the registers the two
operands write, `pc`, the charge, the control point and the word at operand 1's address change. -/
def Obligations.ArithmeticMoveFrame : Prop :=
  ∀ (s t : State) (d o : Operand), s.cfg.Ok → RegsAreWords s →
    ∀ i ∈ [Instr.add d o, .sub d o, .mul d o, .div d o, .move d o], exec i s = .next t →
      RegsSameBut (destRegs d ++ steppedRegs o) s t ∧ t.sp = s.sp ∧ t.mode = s.mode ∧ SameStaging s t ∧ SameOs s t ∧
      MemSameBut (destAddrs d s) s t

/-! ### Control transfer -/

/-- R116, R180: HALT changes nothing but the charge of 12 and ends the invocation Halted, budget left or not. -/
def Obligations.HaltResult : Prop :=
  ∀ s : State, exec .halt s =
    .next { s with clock := s.clock + 12, budget := s.budget - 12, phase := .route .halted }

/-- R181, R182, R187: BR replaces `pc` with the word at `pc`, whatever that word is; with `pc` outside the user range
it takes Runtime. -/
def Obligations.BrResult : Prop :=
  ∀ s : State,
    (UserAddr s.pc → exec .br s = .next (complete 6 .none (s.setPc (s.word s.pc)))) ∧
    (¬ UserAddr s.pc → exec .br s = .next (takeFault .runtime s))

/-- R183 to R186: the conditional branches: BRMI branches exactly when its operand's value is negative, BRPL when it is
positive, BRZ when it is zero; the target is the word at `pc` after the operand's stream word; a taken branch with
`pc` outside the user range takes Runtime, and one not taken checks nothing. -/
def Obligations.ConditionalBranchResult : Prop :=
  ∀ (s : State) (o : Operand), s.cfg.Ok → operandReady o s →
    let v := operandValue o s
    let u := operandAfter o s
    ∀ c ∈ [(Instr.brmi o, 7, decide (v < 0)), (.brpl o, 8, decide (0 < v)), (.brz o, 9, decide (v = 0))],
      (c.2.2 = true → UserAddr u.pc → exec c.1 s = .next (complete c.2.1 .none (u.setPc (s.word u.pc)))) ∧
      (c.2.2 = true → ¬ UserAddr u.pc → exec c.1 s = .next (takeFault .runtime u)) ∧
      (c.2.2 = false → exec c.1 s = .next (complete c.2.1 .none (u.setPc (u.pc + 1))))

/-- R180, R182, R183: the frame of HALT and the branches, faults included: a register changes only where operand 1 is in
mode 3 or 4, and memory does not change at all. -/
def Obligations.ControlFrame : Prop :=
  ∀ (s t : State) (i : Instr), s.cfg.Ok → i.opcode ∈ [0, 6, 7, 8, 9] → exec i s = .next t →
    RegsSameBut (i.operands.flatMap steppedRegs) s t ∧ t.sp = s.sp ∧ t.mode = s.mode ∧ SameStaging s t ∧ SameOs s t ∧
    t.mem = s.mem

/-! ### Stack -/

/-- R201, R203: PUSH writes operand 1's value at `sp + 1` and moves `sp` there when that is a heap cell, else takes
StackOverflow with memory and `sp` unchanged. -/
def Obligations.PushResult : Prop :=
  ∀ (s : State) (o : Operand), s.cfg.Ok → operandReady o s →
    let u := operandAfter o s
    let a := s.sp + 1
    (4000 ≤ a ∧ a ≤ 6999 → exec (.push o) s =
      .next (complete 10 .none ((u.setMem (s.mem.write a.toNat (operandValue o s))).setSp a))) ∧
    (¬ (4000 ≤ a ∧ a ≤ 6999) → exec (.push o) s = .next (takeFault .stackOverflow u))

/-- R202, R203: POP reads the word at `sp` when that is a heap cell, decrements `sp`, and writes the word to operand 1's
destination; an immediate destination faults after `sp` has changed; outside the heap it takes StackUnderflow. -/
def Obligations.PopResult : Prop :=
  ∀ (s : State) (d : Operand), s.cfg.Ok → operandReady d s →
    let u := operandAfter d s
    (4000 ≤ s.sp ∧ s.sp ≤ 6999 → d.mode ≠ 6 → exec (.pop d) s =
      .next (complete 11 .none (putDest (operandDest d s) (s.word s.sp) (u.setSp (s.sp - 1))))) ∧
    (4000 ≤ s.sp ∧ s.sp ≤ 6999 → d.mode = 6 →
      exec (.pop d) s = .next (takeFault .immediateMode (u.setSp (s.sp - 1)))) ∧
    (¬ (4000 ≤ s.sp ∧ s.sp ≤ 6999) → exec (.pop d) s = .next (takeFault .stackUnderflow u))

/-- R200 to R202: what PUSH stores, the next POP gives back, with `sp` where it was and no other word of memory changed. -/
def Obligations.PushThenPopRestores : Prop :=
  ∀ (s t : State) (o : Operand) (r : Fin 8), s.cfg.Ok → s.mem.wf = true → operandReady o s →
    4000 ≤ s.sp + 1 ∧ s.sp + 1 ≤ 6999 → exec (.push o) s = .next t →
    ∃ u, exec (.pop ⟨1, r⟩) t = .next u ∧ u.reg r = operandValue o s ∧ u.sp = s.sp ∧ u.mem = t.mem ∧
      MemSameBut [s.sp + 1] s u ∧ RegsSameBut (r :: steppedRegs o) s u

/-- R201, R202: the frames of PUSH and POP, faults included. PUSH stores at `sp + 1` only; POP stores at its destination only
and leaves the popped word in memory; each moves `sp` by one or not at all. -/
def Obligations.StackFrame : Prop :=
  ∀ (s t : State) (o : Operand), s.cfg.Ok → RegsAreWords s →
    (exec (.push o) s = .next t →
      RegsSameBut (steppedRegs o) s t ∧ (t.sp = s.sp ∨ t.sp = s.sp + 1) ∧ t.mode = s.mode ∧ SameStaging s t ∧
      SameOs s t ∧ MemSameBut [s.sp + 1] s t) ∧
    (exec (.pop o) s = .next t →
      RegsSameBut (destRegs o) s t ∧ (t.sp = s.sp ∨ t.sp = s.sp - 1) ∧ t.mode = s.mode ∧ SameStaging s t ∧
      SameOs s t ∧ MemSameBut (destAddrs o s) s t)

/-! ### System calls -/

/-- R222, R226, R227, R228: the services that change no memory: a stub changes nothing and the instruction completes; io_getc
and io_putc change no register and end the invocation with StartOfInput or StartOfOutput, whatever the budget (R116).
Either way the instruction is charged 12 and User mode is back. -/
def Obligations.SyscallStubsAndBlocks : Prop :=
  ∀ (s : State) (o : Operand), s.cfg.Ok → operandReady o s →
    let u := (operandAfter o s).setMode .user
    let v := { u with clock := s.clock + 12, budget := s.budget - 12 }
    (operandValue o s ∈ ([1, 2, 3, 6, 7, 10, 11] : List Int) →
      exec (.syscall o) s = .next (complete 12 .none u)) ∧
    (operandValue o s = 8 → exec (.syscall o) s = .next { v with phase := .route .startOfInput }) ∧
    (operandValue o s = 9 → exec (.syscall o) s = .next { v with phase := .route .startOfOutput })

/-- R222, R223: a call ID outside 1..11: under Terminate the fault InvalidSystemCall, under Continue its code in the result
register and the instruction completes. -/
def Obligations.SyscallInvalidId : Prop :=
  ∀ (s : State) (o : Operand), s.cfg.Ok → operandReady o s → ¬ (1 ≤ operandValue o s ∧ operandValue o s ≤ 11) →
    let u := (operandAfter o s).setMode .user
    (s.cfg.invalidSyscall = .terminate → exec (.syscall o) s = .next (takeFault .invalidSystemCall u)) ∧
    (s.cfg.invalidSyscall = .continue → exec (.syscall o) s =
      .next (complete 12 .none (u.setReg s.cfg.resultReg s.cfg.codes.invalidSystemCall)))

/-- R225, R243: mem_free: a size outside 1..3000 and an extent outside the heap are answered with their codes; any other
extent, its size rounded up to 2, is put in front of the user free list. -/
def Obligations.MemFreeResult : Prop :=
  ∀ (s : State) (o : Operand), s.cfg.Ok → operandReady o s → operandValue o s = 5 →
    let u := (operandAfter o s).setMode .user
    let size := u.reg s.cfg.sizeReg
    let a := u.reg s.cfg.addrReg
    let n := if size = 1 then 2 else size
    let inHeap := 4000 ≤ a ∧ a + n - 1 ≤ 6999
    (¬ (1 ≤ size ∧ size ≤ 3000) → exec (.syscall o) s =
      .next (complete 12 .none (u.setReg s.cfg.resultReg s.cfg.codes.invalidSize))) ∧
    (1 ≤ size ∧ size ≤ 3000 → ¬ inHeap → exec (.syscall o) s =
      .next (complete 12 .none (u.setReg s.cfg.resultReg s.cfg.codes.invalidAddress))) ∧
    (1 ≤ size ∧ size ≤ 3000 → inHeap → exec (.syscall o) s =
      .next (complete 12 .none (((u.setMem ((s.mem.write a.toNat s.userFreeHead).write (a + 1).toNat n)).setUserFreeHead
        a).setReg s.cfg.resultReg s.cfg.codes.ok)))

/-- R222, R224, R242: mem_alloc: a size outside 1..3000 is answered with its code; else, on a sound user free list, the
first block that is large enough is taken whole or split, its address answered, and no word of memory changed but the
link to it and the new header; with none, NoFreeMemory; and where that block is one word too large the case is refused. -/
def Obligations.MemAllocResult : Prop :=
  ∀ (s : State) (o : Operand), s.cfg.Ok → s.mem.wf = true → operandReady o s → operandValue o s = 4 →
    let u := (operandAfter o s).setMode .user
    let size := u.reg s.cfg.sizeReg
    let n := if size = 1 then 2 else size
    (¬ (1 ≤ size ∧ size ≤ 3000) → exec (.syscall o) s =
      .next (complete 12 .none (u.setReg s.cfg.resultReg s.cfg.codes.invalidSize))) ∧
    (1 ≤ size ∧ size ≤ 3000 → ∀ bs, FreeList .user bs s → bs.length ≤ 1500 → (∀ x ∈ bs, x.2 < n) →
      exec (.syscall o) s = .next (complete 12 .none (u.setReg s.cfg.resultReg s.cfg.codes.noFreeMemory))) ∧
    (1 ≤ size ∧ size ≤ 3000 → ∀ skipped b rest, FreeList .user (skipped ++ b :: rest) s → skipped.length ≤ 1500 →
      (∀ x ∈ skipped, x.2 < n) → n = b.2 ∨ n + 1 < b.2 →
      ∃ t, exec (.syscall o) s = .next t ∧ t.reg s.cfg.resultReg = b.1 ∧ t.mode = .user ∧ t.clock = s.clock + 12 ∧
        RegsSameBut (s.cfg.resultReg :: steppedRegs o) s t ∧
        FreeList .user (skipped ++ (if n = b.2 then rest else (b.1 + n, b.2 - n) :: rest)) t ∧
        MemSameBut (lastLink (skipped.map Prod.fst) ++ if n = b.2 then [] else [b.1 + n, b.1 + n + 1]) s t) ∧
    (1 ≤ size ∧ size ≤ 3000 → ∀ skipped b rest, FreeList .user (skipped ++ b :: rest) s → skipped.length ≤ 1500 →
      (∀ x ∈ skipped, x.2 < n) → b.2 = n + 1 → exec (.syscall o) s = .refused .splitRemainderOne)

/-- R229: the frame of SYSCALL, faults included: no register but the result register and operand 1's changes; a call other
than mem_alloc and mem_free changes no memory, and none changes the user range. -/
def Obligations.SyscallFrame : Prop :=
  ∀ (s t : State) (o : Operand), s.cfg.Ok → RegsAreWords s → exec (.syscall o) s = .next t →
    RegsSameBut (s.cfg.resultReg :: steppedRegs o) s t ∧ t.sp = s.sp ∧ SameStaging s t ∧
    SameOs s { t with userFreeHead := s.userFreeHead } ∧ (t.mode = s.mode ∨ t.mode = .user) ∧
    (∀ a : Nat, a < 4000 → t.mem.read a = s.mem.read a) ∧
    (operandValue o s ≠ 4 → operandValue o s ≠ 5 → t.mem = s.mem ∧ t.userFreeHead = s.userFreeHead)

/-! ### Every instruction runs -/

/-- R111, R115, R264: every well-formed instruction answers a next state in every state, with one exception: a mem_alloc
call of an accepted size whose walk meets a case R242 refuses (a block one word too large, on a sound list too; a link
outside the region; an address outside the arena, R12) or a cyclic list, on which it never ends (I16). No other
instruction ever stops the machine. The names of these stops are the model's (log 20, log 22, log 23). -/
def Obligations.EveryInstructionAnswers : Prop :=
  ∀ (s : State) (i : Instr), s.cfg.Ok → RegsAreWords s → i.wellFormed = true →
    (∃ t, exec i s = .next t) ∨
    ∃ o, i = .syscall o ∧ operandReady o s ∧ operandValue o s = 4 ∧
      1 ≤ (operandAfter o s).reg s.cfg.sizeReg ∧ (operandAfter o s).reg s.cfg.sizeReg ≤ 3000 ∧
      (exec i s = .refused .splitRemainderOne ∨ exec i s = .refused .corruptFreeList ∨
        exec i s = .refused .memoryRange ∨ exec i s = .fault .freeListHang)

/-- R62, R205: an instruction other than SYSCALL writes no word of the OS region, and writes a word of the heap region only
if it is PUSH. -/
def Obligations.UserInstructionsSpareSystemMemory : Prop :=
  ∀ (s t : State) (i : Instr), s.cfg.Ok → exec i s = .next t → i.opcode ≠ 12 →
    (∀ a : Nat, 7000 ≤ a → t.mem.read a = s.mem.read a) ∧
    (i.opcode ≠ 10 → ∀ a : Nat, 4000 ≤ a → t.mem.read a = s.mem.read a)

/-- R62, R151: what an instruction other than SYSCALL does depends on no word of the OS region: two states that agree on
everything else run it alike. -/
def Obligations.UserInstructionsIgnoreOsRegion : Prop :=
  ∀ (s s' t : State) (i : Instr), s.cfg.Ok → s.mem.wf = true → s'.mem.wf = true → AgreeBelowOs s s' → i.opcode ≠ 12 →
    exec i s = .next t → ∃ t', exec i s' = .next t' ∧ AgreeBelowOs t t'

/-! ### The allocators -/

/-- R242, R244: on a sound free list Allocate takes the first block that is large enough: an exact one is unlinked whole, a
larger one is split, its low part returned and the remainder put in its place; one word too large is refused. -/
def Obligations.AllocateTakesFirstFit : Prop :=
  ∀ (g : Region) (s : State) (size : Int) (skipped rest : List (Int × Int)) (b : Int × Int),
    s.mem.wf = true → 1 ≤ size → FreeList g (skipped ++ b :: rest) s → skipped.length ≤ 1500 →
    let n := if size = 1 then 2 else size
    (∀ x ∈ skipped, x.2 < n) →
    (b.2 = n → ∃ t, allocate g size s = .go (.address b.1) t ∧ FreeList g (skipped ++ rest) t ∧
      MemSameBut (lastLink (skipped.map Prod.fst)) s t) ∧
    (n + 1 < b.2 → ∃ t, allocate g size s = .go (.address b.1) t ∧
      FreeList g (skipped ++ (b.1 + n, b.2 - n) :: rest) t ∧
      MemSameBut (lastLink (skipped.map Prod.fst) ++ [b.1 + n, b.1 + n + 1]) s t) ∧
    (b.2 = n + 1 → allocate g size s = .refuse .splitRemainderOne)

/-- R242, R244: a failed allocation leaves everything as it was: a negative size is InvalidSize; with no block large enough,
the empty list included, it is NoFreeMemory. -/
def Obligations.FailedAllocationChangesNothing : Prop :=
  ∀ (g : Region) (s : State) (size : Int) (bs : List (Int × Int)),
    (size < 0 → allocate g size s = .go .invalidSize s) ∧
    (1 ≤ size → FreeList g bs s → bs.length ≤ 1500 → (∀ x ∈ bs, x.2 < if size = 1 then 2 else size) →
      allocate g size s = .go .noFreeMemory s)

/-- R243, R244: freeing an extent inside the region that overlaps no free block puts it in front of the free list, and
allocating the same size again returns the same address and gives the old list back. -/
def Obligations.FreeThenAllocateReuses : Prop :=
  ∀ (g : Region) (s : State) (a size : Int) (bs : List (Int × Int)), s.mem.wf = true → 1 ≤ size → FreeList g bs s →
    let n := if size = 1 then 2 else size
    SoundBlocks g ((a, n) :: bs) →
    ∃ t, free g a size s = .go .ok t ∧ FreeList g ((a, n) :: bs) t ∧ MemSameBut [a, a + 1] s t ∧
      ∃ u, allocate g size t = .go (.address a) u ∧ FreeList g bs u ∧ u.mem = t.mem

/-! ### Context switch and queues -/

/-- R291, R292, R293: saving the context of a PCB inside the arena and dispatching it again, with memory untouched in
between, reproduces every general register, `sp` and `pc`, and sets User mode. -/
def Obligations.SaveThenDispatchRestores : Prop :=
  ∀ (s : State) (p : Int), s.mem.wf = true → MemAddr (p + 7) → MemAddr (p + 16) →
    ∃ t, saveContext p s = .go () t ∧
      MemSameBut ((List.range 10).map fun k => p + 7 + (k : Int)) s t ∧
      ∀ u : State, u.mem = t.mem →
        dispatch p u = .go () { u with regs := s.regs, sp := s.sp, pc := s.pc, mode := .user }

/-- R283, R284: InsertReady puts a PCB into the Ready Queue behind every entry of at least its priority and before the
first of strictly lower priority, and marks it Ready; a PCB address whose extent is not inside the OS region is reported
and nothing else happens, in InsertReady as in InsertWaiting (R285). -/
def Obligations.InsertReadyKeepsOrder : Prop :=
  (∀ (s : State) (p : Int) (front back : List Int), s.mem.wf = true → SoundPcbs (p :: front ++ back) →
    (front ++ back).length ≤ 166 → queueChain s.mem s.rqHead (front ++ back) →
    (∀ q ∈ front, s.word (p + 4) ≤ s.word (q + 4)) → (∀ q ∈ back.head?, s.word (q + 4) < s.word (p + 4)) →
    ∃ t, insertReady p s = .go () t ∧ queueChain t.mem t.rqHead (front ++ p :: back) ∧
      t.word (p + 2) = s.cfg.codes.ready ∧ MemSameBut (lastLink front ++ [p, p + 2]) s t ∧ t.wqHead = s.wqHead) ∧
  (∀ (s : State) (p : Int), ¬ (7000 ≤ p ∧ p + 17 ≤ 9999) →
    insertReady p s = .go () { s with outbox := s.outbox ++ [.report .invalidPcb] } ∧
    insertWaiting p s = .go () { s with outbox := s.outbox ++ [.report .invalidPcb] })

/-- R287: RemoveWaiting unlinks the first waiting process of the given ID, and with none answers END_OF_LIST and changes
nothing. -/
def Obligations.RemoveWaitingUnlinks : Prop :=
  ∀ (s : State) (pid : Int) (front back : List Int), s.mem.wf = true → (front ++ back).length ≤ 166 →
    SoundPcbs (front ++ back) → queueChain s.mem s.wqHead (front ++ back) → (∀ q ∈ front, s.word (q + 1) ≠ pid) →
    (back = [] → removeWaiting pid s = .go (-1) s) ∧
    (∀ p ps, back = p :: ps → s.word (p + 1) = pid →
      ∃ t, removeWaiting pid s = .go p t ∧ queueChain t.mem t.wqHead (front ++ ps) ∧ t.word p = -1 ∧
        MemSameBut (lastLink front ++ [p]) s t ∧ t.rqHead = s.rqHead)

/-! ### Faults, exits and the loop -/

/-- R264, R265, R311, R313: the process whose invocation ended with a fault or a halt is terminated: its stack goes to the
user free list, its PCB to the OS free list, and the loop goes on, in OS mode (log 18), to the next interrupt.
That a fault is a next state, routed by the next step, is the model's form (log 13, log 19). -/
def Obligations.FaultOrHaltTerminatesProcess : Prop :=
  ∀ (s : State) (st : ExitStatus), s.phase = .route st → (st = .halted ∨ ∃ c, st = .fault c) →
    let p := s.current
    let a := s.word (p + 6)
    let n := s.word (p + 5)
    7000 ≤ p ∧ p + 17 ≤ 9999 → 2 ≤ n → 4000 ≤ a → a + n - 1 ≤ 6999 →
    step s = .next { s with
      mem := (((s.mem.write a.toNat s.userFreeHead).write (a + 1).toNat n).write p.toNat s.osFreeHead).write (p + 1).toNat 18
      userFreeHead := a, osFreeHead := p, current := -1, mode := .os, phase := .receive }

/-- R290, R291, R311: an expired slice saves `x[0..7]`, `sp` and `pc` into the PCB and puts the process back into the
Ready Queue, behind every process of at least its priority; the loop goes on in OS mode (log 18).
The control points are the model's (log 13). -/
def Obligations.ExpiredSliceRequeues : Prop :=
  ∀ (s : State) (front back : List Int), s.phase = .route .timeSliceExpired → s.mem.wf = true →
    let p := s.current
    SoundPcbs (p :: front ++ back) → (front ++ back).length ≤ 166 → queueChain s.mem s.rqHead (front ++ back) →
    (∀ q ∈ front, s.word (p + 4) ≤ s.word (q + 4)) → (∀ q ∈ back.head?, s.word (q + 4) < s.word (p + 4)) →
    ∃ t, step s = .next t ∧ t.phase = .receive ∧ t.current = -1 ∧ queueChain t.mem t.rqHead (front ++ p :: back) ∧
      (∀ r : Fin 8, t.word (p + 7 + (r.val : Int)) = s.reg r) ∧ t.word (p + 15) = s.sp ∧ t.word (p + 16) = s.pc ∧
      t.word (p + 2) = s.cfg.codes.ready ∧ t.regs = s.regs ∧ t.sp = s.sp ∧ t.pc = s.pc ∧ t.clock = s.clock ∧
      t.mode = .os

/-- R227, R228, R311: a blocking call saves the context, tags the PCB with the event it waits for, and moves the process to
the head of the Waiting Queue; the loop goes on in OS mode (log 18).
The control points are the model's (log 13). -/
def Obligations.BlockingCallWaits : Prop :=
  ∀ (s : State) (st : ExitStatus) (ps : List Int), s.phase = .route st → (st = .startOfInput ∨ st = .startOfOutput) →
    s.mem.wf = true →
    let p := s.current
    SoundPcbs (p :: ps) → queueChain s.mem s.wqHead ps →
    ∃ t, step s = .next t ∧ t.phase = .receive ∧ t.current = -1 ∧ queueChain t.mem t.wqHead (p :: ps) ∧
      (∀ r : Fin 8, t.word (p + 7 + (r.val : Int)) = s.reg r) ∧ t.word (p + 15) = s.sp ∧ t.word (p + 16) = s.pc ∧
      t.word (p + 3) = (if st = .startOfInput then s.cfg.codes.inputWait else s.cfg.codes.outputWait) ∧
      t.word (p + 2) = s.cfg.codes.waiting ∧ t.rqHead = s.rqHead ∧ t.mode = .os

/-- R110, R286, R292, R310: the loop starts the process at the head of the Ready Queue: marked Running, current, its saved
registers live, User mode, and a full time slice.
The control points are the model's (log 13). -/
def Obligations.SelectStartsReadyHead : Prop :=
  ∀ (s : State) (p : Int) (ps : List Int), s.phase = .select → s.mem.wf = true → SoundPcbs (p :: ps) →
    queueChain s.mem s.rqHead (p :: ps) →
    ∃ t, step s = .next t ∧ t.phase = .engine ∧ t.current = p ∧ t.mode = .user ∧ t.budget = s.cfg.timeSlice ∧
      (∀ r : Fin 8, t.reg r = s.word (p + 7 + (r.val : Int))) ∧ t.sp = s.word (p + 15) ∧ t.pc = s.word (p + 16) ∧
      t.word (p + 2) = s.cfg.codes.running ∧ queueChain t.mem t.rqHead ps ∧ MemSameBut [p, p + 2] s t ∧
      t.clock = s.clock ∧ SameStaging s t

/-- R301, R302, R308, R310, R318: the turns of the loop that start nothing: with no interrupt to receive the machine waits;
interrupt 0 changes nothing, one outside 0..4 is reported, and interrupt 2 starts the draining of the queues (R306); with
no process ready the loop goes back to its receive; after a shutdown with both queues empty it stops, and a stopped
machine stays as it is.
The control points, the wait and the stopped machine are the model's (log 13, log 14, log 17). -/
def Obligations.LoopWaitsAndStops : Prop :=
  ∀ s : State,
    (s.phase = .receive → s.inbox = [] → step s = .next s) ∧
    (∀ (e : Interrupt) (rest : List Interrupt), s.phase = .receive → s.inbox = e :: rest →
      (e.id = 0 → step s = .next { s with inbox := rest, phase := .select }) ∧
      (e.id = 2 → step s = .next { s with inbox := rest, phase := .drain }) ∧
      (¬ (0 ≤ e.id ∧ e.id ≤ 4) → step s =
        .next { s with inbox := rest, phase := .select, outbox := s.outbox ++ [.report .invalidInterrupt] })) ∧
    (s.phase = .select → s.rqHead = -1 → ¬ (s.shutdownSeen = true ∧ s.wqHead = -1) →
      step s = .next { s with phase := .receive }) ∧
    (s.phase = .select → s.rqHead = -1 → s.wqHead = -1 → s.shutdownSeen = true →
      step s = .next { s with phase := .stopped }) ∧
    (s.phase = .stopped → step s = .next s)

/-- R284, R287, R304, R305: a completion interrupt for a waiting process: input writes the character into its saved
character register, output sends the saved character to the console; the process leaves the Waiting Queue and enters
the Ready Queue behind every process of at least its priority; no other word of memory changes.
The control points are the model's (log 13). -/
def Obligations.CompletionWakesWaitingProcess : Prop :=
  ∀ (s : State) (e : Interrupt) (rest : List Interrupt) (front back above below : List Int) (p : Int),
    s.phase = .receive → s.inbox = e :: rest → s.mem.wf = true →
    SoundPcbs (front ++ p :: back ++ (above ++ below)) → (front ++ p :: back ++ (above ++ below)).length ≤ 166 →
    queueChain s.mem s.wqHead (front ++ p :: back) → queueChain s.mem s.rqHead (above ++ below) →
    (∀ q ∈ front, s.word (q + 1) ≠ e.payload.pid) → s.word (p + 1) = e.payload.pid →
    (∀ q ∈ above, s.word (p + 4) ≤ s.word (q + 4)) → (∀ q ∈ below.head?, s.word (q + 4) < s.word (p + 4)) →
    (e.id = 3 ∨ e.id = 4) →
    ∃ t, step s = .next t ∧ t.phase = .select ∧ t.inbox = rest ∧ queueChain t.mem t.rqHead (above ++ p :: below) ∧
      queueChain t.mem t.wqHead (front ++ back) ∧ t.word (p + 2) = s.cfg.codes.ready ∧
      MemSameBut (lastLink front ++ lastLink above ++ [p, p + 2, p + 7 + (s.cfg.charReg.val : Int)]) s t ∧
      (e.id = 3 → t.word (p + 7 + (s.cfg.charReg.val : Int)) = e.payload.ch ∧ t.outbox = s.outbox) ∧
      (e.id = 4 → t.word (p + 7 + (s.cfg.charReg.val : Int)) = s.word (p + 7 + (s.cfg.charReg.val : Int)) ∧
        t.outbox = s.outbox ++ [.char (s.word (p + 7 + (s.cfg.charReg.val : Int)))])

/-- R304, R305, R279: a completion interrupt for a process that does not wait is reported and changes nothing else.
The control points are the model's (log 13). -/
def Obligations.CompletionWithoutWaiterReports : Prop :=
  ∀ (s : State) (e : Interrupt) (rest : List Interrupt) (ps : List Int),
    s.phase = .receive → s.inbox = e :: rest → s.mem.wf = true → ps.length ≤ 166 → SoundPcbs ps →
    queueChain s.mem s.wqHead ps → (∀ q ∈ ps, s.word (q + 1) ≠ e.payload.pid) → (e.id = 3 ∨ e.id = 4) →
    step s = .next
      { s with inbox := rest, phase := .select, outbox := s.outbox ++ [.report .noSuchWaitingProcess] }

/-- R306: once a shutdown has emptied both queues, `shutdownSeen` is set and the machine stops; the draining terminates one
queued process a step (log 27).
The control points are the model's (log 13). -/
def Obligations.ShutdownDrainsAndStops : Prop :=
  ∀ s : State, s.phase = .drain →
    (s.rqHead = -1 → s.wqHead = -1 →
      step s = .next { s with shutdownSeen := true, phase := .select } ∧
      step { s with shutdownSeen := true, phase := .select } = .next { s with shutdownSeen := true, phase := .stopped }) ∧
    (∀ p, s.rqHead = p → 7000 ≤ p → p + 17 ≤ 9999 → ∀ a n, s.word (p + 6) = a → s.word (p + 5) = n →
      2 ≤ n → 4000 ≤ a → a + n - 1 ≤ 6999 →
      ∃ t, step s = .next t ∧ t.phase = .drain ∧ t.rqHead = s.word p ∧ t.userFreeHead = a ∧ t.osFreeHead = p ∧
        MemSameBut [a, a + 1, p, p + 1] s t) ∧
    (∀ p, s.rqHead = -1 → s.wqHead = p → 7000 ≤ p → p + 17 ≤ 9999 → ∀ a n, s.word (p + 6) = a → s.word (p + 5) = n →
      2 ≤ n → 4000 ≤ a → a + n - 1 ≤ 6999 →
      ∃ t, step s = .next t ∧ t.phase = .drain ∧ t.wqHead = s.word p ∧ t.userFreeHead = a ∧ t.osFreeHead = p ∧
        MemSameBut [a, a + 1, p, p + 1] s t)

/-! ### Boot and process creation -/

/-- R245, R330: boot makes each region one free block and enters the loop.
The control points are the model's (log 13). -/
def Obligations.BootInitialisesFreeLists : Prop :=
  ∀ s : State, s.phase = .powerOn → s.mem.wf = true →
    ∃ t, step s = .next t ∧ t.phase = .receive ∧ t.userFreeHead = 4000 ∧ t.osFreeHead = 7000 ∧
      FreeList .user [(4000, 3000)] t ∧ FreeList .os [(7000, 3000)] t ∧ MemSameBut [4000, 4001, 7000, 7001] s t

/-- R333: the loader on a file whose lines before the first one of address -1 are at user addresses: every pair is
written, and the answer is the starting address if it is a user address, else the load error. -/
def Obligations.LoaderWritesLines : Prop :=
  ∀ (s : State) (name : List Int) (ls rest : List (Int × Int)) (v : Int), GoodLines ls →
    loadFile ⟨name, some (ls ++ (-1, v) :: rest)⟩ s =
      .go (if UserAddr v then v else s.cfg.codes.loadError)
        (s.setMem (ls.foldl (fun m l => m.write l.1.toNat l.2) s.mem)) ∧
    (∀ bad : Int × Int, bad.1 ≠ -1 → ¬ UserAddr bad.1 →
      loadFile ⟨name, some (ls ++ bad :: rest)⟩ s =
        .go s.cfg.codes.loadError (s.setMem (ls.foldl (fun m l => m.write l.1.toNat l.2) s.mem))) ∧
    loadFile ⟨name, some ls⟩ s =
      .go s.cfg.codes.loadError (s.setMem (ls.foldl (fun m l => m.write l.1.toNat l.2) s.mem)) ∧
    loadFile ⟨name, none⟩ s = .go s.cfg.codes.loadError s

/-- R49, R307, R331: the first run-program interrupt after boot: the process gets the first PCB and the first stack, all
its saved registers zero, `sp` one below its stack, `pc` the starting address, and is Ready with the next process ID.
The interrupt carries its file (log 16); the control points are the model's (log 13). -/
def Obligations.FirstProcessIsCreated : Prop :=
  ∀ (s : State) (e : Interrupt) (rest : List Interrupt) (ls more : List (Int × Int)) (start : Int),
    s.phase = .receive → s.inbox = e :: rest → e.id = 1 → s.cfg.Ok → s.mem.wf = true →
    FreeList .user [(4000, 3000)] s → FreeList .os [(7000, 3000)] s → s.rqHead = -1 → s.cfg.IsWord (s.nextPid + 1) →
    s.cfg.stackSize ≤ 2998 → e.payload.file.lines = some (ls ++ (-1, start) :: more) → GoodLines ls → UserAddr start →
    ∃ t, step s = .next t ∧ t.phase = .select ∧ t.inbox = rest ∧ t.rqHead = 7000 ∧ t.nextPid = s.nextPid + 1 ∧
      t.word 7000 = -1 ∧ t.word 7001 = s.nextPid ∧ t.word 7002 = s.cfg.codes.ready ∧ t.word 7003 = 0 ∧
      t.word 7004 = s.cfg.defaultPriority ∧ t.word 7005 = s.cfg.stackSize ∧ t.word 7006 = 4000 ∧
      (∀ k : Fin 8, t.word (7007 + (k.val : Int)) = 0) ∧ t.word 7015 = 3999 ∧ t.word 7016 = start ∧
      t.word 7017 = s.cfg.codes.user ∧ FreeList .user [(4000 + s.cfg.stackSize, 3000 - s.cfg.stackSize)] t ∧
      FreeList .os [(7018, 2982)] t ∧
      (∀ a : Nat, a < 4000 → t.mem.read a = (ls.foldl (fun m l => m.write l.1.toNat l.2) s.mem).read a)

/-- R332, R333: a run-program interrupt whose file cannot be loaded is reported: the PCB is freed, no process is created,
the process ID stays consumed, and the words already loaded stay (here none: the file cannot be opened).
The interrupt carries its file (log 16, log 30); the control points are the model's (log 13). -/
def Obligations.FailedLoadIsReported : Prop :=
  ∀ (s : State) (e : Interrupt) (rest : List Interrupt),
    s.phase = .receive → s.inbox = e :: rest → e.id = 1 → s.cfg.Ok → s.mem.wf = true →
    FreeList .os [(7000, 3000)] s → s.cfg.IsWord (s.nextPid + 1) → e.payload.file.lines = none →
    ∃ t, step s = .next t ∧ t.phase = .select ∧ t.inbox = rest ∧ t.rqHead = s.rqHead ∧ t.wqHead = s.wqHead ∧
      t.nextPid = s.nextPid + 1 ∧ t.outbox = s.outbox ++ [.report (.loadFailed s.cfg.codes.loadError)] ∧
      FreeList .os [(7000, 18), (7018, 2982)] t ∧ (∀ a : Nat, a < 7000 → t.mem.read a = s.mem.read a)

/-- R282: process IDs are assigned one after the other: a step leaves the next ID as it is or adds 1 to it, unless the next
one would be no Word (there the spec states no value; log 11). -/
def Obligations.ProcessIdsAdvanceByOne : Prop :=
  ∀ s t : State, step s = .next t → s.cfg.IsWord (s.nextPid + 1) →
    t.nextPid = s.nextPid ∨ t.nextPid = s.nextPid + 1 ∧ s.phase = .receive

/-! ### Reset, modes, host port -/

/-- R321, R323: the power-on values of the sequencer's variables and of the engine's registers. -/
def Obligations.ResetPowerOnValues : Prop :=
  State.reset.rqHead = -1 ∧ State.reset.wqHead = -1 ∧ State.reset.current = -1 ∧ State.reset.nextPid = 1 ∧
  State.reset.shutdownSeen = false ∧ (∀ r, State.reset.reg r = 0) ∧ State.reset.pc = 0 ∧ State.reset.sp = 0 ∧
  State.reset.mode = .os ∧ State.reset.ir = 0 ∧ State.reset.mar = 0 ∧ State.reset.mbr = 0 ∧ State.reset.clock = 0 ∧
  State.reset.budget = 0

/-- R38, R268, R269: the mode transitions. The routing of an ended invocation leaves OS mode, the start of a process leaves
User mode, and no other step changes the mode, but that one of the engine may set User (SYSCALL's return). That the
sequencer enters OS mode as its first act after the engine has returned is the model's reading (log 18). The parameters
never change (log 3). -/
def Obligations.ModeTransitions : Prop :=
  ∀ s t : State, step s = .next t →
    t.cfg = s.cfg ∧
    (∀ st, s.phase = .route st → t.mode = .os) ∧
    (s.phase = .select → t.phase = .engine → t.mode = .user) ∧
    ((∀ st, s.phase ≠ .route st) → t.mode ≠ s.mode →
      t.mode = .user ∧ (s.phase = .engine ∨ s.phase = .select ∧ t.phase = .engine))

/-- R312: the diagnostic dump gives the registers and the words of a window inside the arena. A window outside it, or of
negative length, is reported and not read (R312, D51); that this report is the answer `none`, without the registers and with
nothing put into the outbox, that an empty window may start at `0 .. 10000` only, and that the dump is a function of the
state and no step, is the model's choice (log 28). -/
def Obligations.DumpReadsRegistersAndWindow : Prop :=
  ∀ (s : State) (label : List Int) (start length : Int),
    (¬ (0 ≤ start ∧ 0 ≤ length ∧ start + length ≤ 10000) → dump label start length s = none) ∧
    (0 ≤ start ∧ 0 ≤ length ∧ start + length ≤ 10000 →
      ∃ v, dump label start length s = some v ∧ v.label = label ∧ v.regs = s.regs ∧ v.pc = s.pc ∧ v.sp = s.sp ∧
        v.mode = s.mode ∧ v.ir = s.ir ∧ v.mar = s.mar ∧ v.mbr = s.mbr ∧ v.clock = s.clock ∧
        (v.window.length : Int) = length ∧
        ∀ k : Nat, (k : Int) < length → v.window[k]? = some (s.word (start + k)))

/-! ### Invariants -/

/-- R10, R31, R45: every step keeps the word invariant: memory stays in canonical form inside the arena, and every register,
variable and memory cell stays a Word, at every word size of at least 24 bits.
That Words are integers with this invariant, and memory a list in canonical form, is the model's choice (log 1, log 2). -/
def Obligations.StepKeepsWords : Prop := ∀ s t : State, s.Inv → step s = .next t → t.Inv

/-- Both invariants hold after reset (R48, R321 to R323, with the parameters of log 3 to log 8). -/
def Obligations.ResetHoldsInvariants : Prop := State.reset.Inv ∧ State.reset.SliceInv

/-- R118, R121, R268, R346: every step keeps the invocation invariant: the engine runs in User mode with a budget in
`1 .. TIME_SLICE`, an invocation ends with an overshoot of at most 11, and the sequencer acts in OS mode.
That the mode is User up to the sequencer's first act after an invocation is the model's reading (log 18). -/
def Obligations.StepKeepsSliceBounds : Prop := ∀ s t : State, s.SliceInv → step s = .next t → t.SliceInv
end

