-- ==== Sys2Proof/Laws/Memory.lean ====
section
/-! SUPPORT. The laws of memory as data: read after write, and the canonical form. -/

namespace Sys2Proof.Machine

@[simp] theorem Memory.read_nil (a : Nat) : Memory.read [] a = Config.initWord := rfl

@[simp] theorem Memory.read_cons (b : Nat) (w : Int) (m : Memory) (a : Nat) :
    Memory.read ((b, w) :: m) a = if a = b then w else Memory.read m a := rfl

/-- Below the addresses a canonical list starts at, every address reads as unlisted. -/
theorem Memory.read_below {m : Memory} {lo a : Nat} (h : Memory.wfFrom lo m = true) (ha : a < lo) :
    m.read a = Config.initWord := by
  induction m generalizing lo with
  | nil => rfl
  | cons c m ih =>
    obtain ⟨b, w⟩ := c
    simp only [Memory.wfFrom, Bool.and_eq_true, decide_eq_true_eq] at h
    have hab : a ≠ b := by omega
    simp only [Memory.read_cons, if_neg hab]
    exact ih h.2 (by omega)

theorem Memory.wfFrom_mono {m : Memory} {lo lo' : Nat} (h : Memory.wfFrom lo m = true) (hl : lo' ≤ lo) :
    Memory.wfFrom lo' m = true := by
  cases m with
  | nil => rfl
  | cons c m =>
    obtain ⟨b, w⟩ := c
    simp only [Memory.wfFrom, Bool.and_eq_true, decide_eq_true_eq] at h ⊢
    exact ⟨⟨⟨by omega, h.1.1.2⟩, h.1.2⟩, h.2⟩

theorem Memory.wfFrom_put {m : Memory} {lo a : Nat} {v : Int} (h : Memory.wfFrom (a + 1) m = true) (hl : lo ≤ a)
    (ha : a < Config.memSize) : Memory.wfFrom lo (Memory.put a v m) = true := by
  unfold Memory.put
  split
  · exact Memory.wfFrom_mono h (by omega)
  · simp [Memory.wfFrom, *]

theorem Memory.wfFrom_write {m : Memory} {lo a : Nat} (v : Int) (h : Memory.wfFrom lo m = true) (hl : lo ≤ a)
    (ha : a < Config.memSize) : Memory.wfFrom lo (m.write a v) = true := by
  induction m generalizing lo with
  | nil => exact Memory.wfFrom_put rfl hl ha
  | cons c m ih =>
    obtain ⟨b, w⟩ := c
    have h' := h
    simp only [Memory.wfFrom, Bool.and_eq_true, decide_eq_true_eq] at h'
    obtain ⟨⟨⟨h1, h2⟩, h3⟩, h4⟩ := h'
    simp only [Memory.write]
    split
    · refine Memory.wfFrom_put ?_ hl ha
      simp only [Memory.wfFrom, Bool.and_eq_true, decide_eq_true_eq]
      exact ⟨⟨⟨by omega, h2⟩, h3⟩, h4⟩
    · split
      · subst a
        exact Memory.wfFrom_put h4 h1 h2
      · simp only [Memory.wfFrom, Bool.and_eq_true, decide_eq_true_eq]
        exact ⟨⟨⟨h1, h2⟩, h3⟩, ih h4 (by omega)⟩

/-- Every write inside the arena keeps the canonical form (log 1). -/
theorem Memory.wf_write {m : Memory} {a : Nat} (v : Int) (h : m.wf = true) (ha : a < Config.memSize) :
    (m.write a v).wf = true := Memory.wfFrom_write v h (Nat.zero_le a) ha

theorem Memory.read_put_other {m : Memory} {a b : Nat} (v : Int) (h : b ≠ a) : (Memory.put a v m).read b = m.read b := by
  unfold Memory.put
  split
  · rfl
  · simp [h]

/-- A write leaves every other address alone (in a list of any form). -/
theorem Memory.read_write_other (m : Memory) {a b : Nat} (v : Int) (h : b ≠ a) : (m.write a v).read b = m.read b := by
  induction m with
  | nil => exact Memory.read_put_other v h
  | cons c m ih =>
    obtain ⟨d, w⟩ := c
    simp only [Memory.write]
    split
    · exact Memory.read_put_other v h
    · split
      · subst a
        simp [Memory.read_put_other v h, h]
      · simp [ih]

theorem Memory.read_put_same {m : Memory} {a : Nat} (v : Int) (h : Memory.wfFrom (a + 1) m = true) :
    (Memory.put a v m).read a = v := by
  unfold Memory.put
  split
  · rw [Memory.read_below h (by omega), ‹v = _›]
  · simp

theorem Memory.read_write_same_from {m : Memory} {lo a : Nat} (v : Int) (h : Memory.wfFrom lo m = true) :
    (m.write a v).read a = v := by
  induction m generalizing lo with
  | nil => exact Memory.read_put_same v rfl
  | cons c m ih =>
    obtain ⟨b, w⟩ := c
    have h' := h
    simp only [Memory.wfFrom, Bool.and_eq_true, decide_eq_true_eq] at h'
    simp only [Memory.write]
    split
    · refine Memory.read_put_same v ?_
      simp only [Memory.wfFrom, Bool.and_eq_true, decide_eq_true_eq]
      exact ⟨⟨⟨by omega, h'.1.1.2⟩, h'.1.2⟩, h'.2⟩
    · split
      · subst a
        exact Memory.read_put_same v h'.2
      · rename_i hn
        simp only [Memory.read_cons, if_neg hn]
        exact ih h'.2

/-- In canonical memory a read after a write to the same address gives the word written (R67). -/
theorem Memory.read_write_same {m : Memory} (a : Nat) (v : Int) (h : m.wf = true) : (m.write a v).read a = v :=
  Memory.read_write_same_from v h

/-- What an address of canonical memory reads as after a write. -/
theorem Memory.read_write {m : Memory} (h : m.wf = true) (a : Nat) (v : Int) (b : Nat) :
    (m.write a v).read b = if b = a then v else m.read b := by
  split
  · subst b; exact Memory.read_write_same a v h
  · exact Memory.read_write_other m v (by assumption)

theorem Memory.mem_put {a : Nat} {v : Int} {m : Memory} {c : Nat × Int} (h : c ∈ Memory.put a v m) :
    c = (a, v) ∨ c ∈ m := by
  unfold Memory.put at h
  split at h
  · exact Or.inr h
  · simpa using h

/-- What is listed after a write: the new entry, or an old one. -/
theorem Memory.mem_write {a : Nat} {v : Int} {m : Memory} {c : Nat × Int} (h : c ∈ m.write a v) :
    c = (a, v) ∨ c ∈ m := by
  induction m with
  | nil => exact Memory.mem_put h
  | cons d m ih =>
    obtain ⟨b, w⟩ := d
    simp only [Memory.write] at h
    split at h
    · exact Memory.mem_put h
    · split at h
      · exact (Memory.mem_put h).imp_right (List.mem_cons_of_mem _)
      · rcases List.mem_cons.mp h with rfl | h
        · exact Or.inr (List.mem_cons_self ..)
        · exact (ih h).imp_right (List.mem_cons_of_mem _)

/-- What an address reads as: the word of an unlisted address, or a listed word. -/
theorem Memory.read_listed (m : Memory) (a : Nat) : m.read a = Config.initWord ∨ (a, m.read a) ∈ m := by
  induction m with
  | nil => exact Or.inl rfl
  | cons c m ih =>
    obtain ⟨b, w⟩ := c
    simp only [Memory.read_cons]
    split
    · subst a; exact Or.inr (List.mem_cons_self ..)
    · exact ih.imp_right (List.mem_cons_of_mem _)

end Sys2Proof.Machine
end

