-- ==== Sys2Proof/Laws/Chains.lean ====
section
/-! SUPPORT. The laws of linked lists in memory: the queues (R283) and, through them, the free lists (R240). -/

namespace Sys2Proof.Machine

/-- A chain reads only the link words of its entries. -/
theorem queueChain_congr {m m' : Memory} (ps : List Int) :
    ∀ h : Int, (∀ p ∈ ps, m'.read p.toNat = m.read p.toNat) → (queueChain m' h ps ↔ queueChain m h ps) := by
  induction ps with
  | nil => exact fun _ _ => Iff.rfl
  | cons p ps ih =>
    intro h hp
    have h0 := hp p (List.mem_cons_self ..)
    simp only [queueChain, Pcb.next, Int.add_zero, h0]
    rw [ih _ fun x hx => hp x (List.mem_cons_of_mem _ hx)]

/-- From some word on, a chain is the chain of its back part; that word is the head, or the link of the front part's last
entry. -/
theorem queueChain_suffix {m : Memory} {back : List Int} (front : List Int) :
    ∀ h : Int, queueChain m h (front ++ back) →
      ∃ k, queueChain m k back ∧ (front = [] → k = h) ∧ ∀ p ∈ front.getLast?, m.read p.toNat = k := by
  induction front with
  | nil => exact fun h hc => ⟨h, hc, fun _ => rfl, by simp⟩
  | cons p ps ih =>
    intro h hc
    simp only [List.cons_append, queueChain, Pcb.next, Int.add_zero] at hc
    obtain ⟨k, h1, h2, h3⟩ := ih _ hc.2
    refine ⟨k, h1, by simp, ?_⟩
    cases ps with
    | nil => simp [h2]
    | cons q qs => simpa using h3

/-- A chain whose front part is kept but for the link of its last entry (or the head, where it is empty), which now leads to
`k`, is the front part followed by the chain from `k`. -/
theorem queueChain_relink {m m' : Memory} {back back' : List Int} {k : Int} (hk : queueChain m' k back')
    (front : List Int) :
    ∀ h : Int, queueChain m h (front ++ back) → (∀ p ∈ front.dropLast, m'.read p.toNat = m.read p.toNat) →
      (∀ p ∈ front.getLast?, m'.read p.toNat = k) → queueChain m' (if front = [] then k else h) (front ++ back') := by
  induction front with
  | nil => intro h _ _ _; simpa using hk
  | cons p ps ih =>
    intro h hc hkeep hlast
    simp only [List.cons_append, queueChain, Pcb.next, Int.add_zero, List.cons_ne_nil, if_false] at hc ⊢
    refine ⟨hc.1, ?_⟩
    cases ps with
    | nil => simpa [hlast p (by simp)] using hk
    | cons q qs =>
      have h1 : m'.read p.toNat = m.read p.toNat := hkeep p (by simp)
      have h2 := ih (m.read p.toNat) hc.2 (fun x hx => hkeep x (by simp [hx])) (by simpa using hlast)
      rw [h1]
      simpa using h2

/-- A free list is the chain of its blocks' addresses, each followed by its size. -/
theorem freeChain_iff {m : Memory} (bs : List (Int × Int)) :
    ∀ h : Int, freeChain m h bs ↔
      queueChain m h (bs.map Prod.fst) ∧ ∀ b ∈ bs, m.read (b.1 + 1).toNat = b.2 := by
  induction bs with
  | nil => simp [freeChain, queueChain]
  | cons b bs ih =>
    intro h
    obtain ⟨b, n⟩ := b
    simp only [freeChain, List.map_cons, queueChain, Pcb.next, Int.add_zero, ih, List.mem_cons, forall_eq_or_imp]
    tauto

/-- The head of a chain with an entry. -/
theorem queueChain_head {m : Memory} {h p : Int} {ps : List Int} (hc : queueChain m h (p :: ps)) :
    h = p ∧ queueChain m (m.read p.toNat) ps := by
  simpa [queueChain] using hc

/-! ### Addresses of the list's parts -/

theorem mem_lastLink {ps : List Int} {a : Int} : a ∈ lastLink ps ↔ ps.getLast? = some a := by
  simp [lastLink]

/-- Membership in a list is membership in its front or being its last entry. -/
theorem mem_dropLast_or_last {ps : List Int} {p : Int} (h : p ∈ ps) : p ∈ ps.dropLast ∨ p ∈ ps.getLast? := by
  rcases List.eq_nil_or_concat ps with rfl | ⟨xs, x, rfl⟩
  · simp at h
  · simp at h ⊢
    tauto

theorem getLastD_of_getLast? {ps : List Int} {p d : Int} (h : p ∈ ps.getLast?) : ps.getLastD d = p := by
  rw [List.getLastD_eq_getLast?]
  simp at h
  simp [h]

/-- Two members of a list are the same, or related one way or the other. -/
theorem pairwise_mem {α : Type} {R : α → α → Prop} {xs : List α} (h : xs.Pairwise R) {x y : α} (hx : x ∈ xs)
    (hy : y ∈ xs) : x = y ∨ R x y ∨ R y x := by
  induction xs with
  | nil => simp at hx
  | cons z zs ih =>
    obtain ⟨h1, h2⟩ := List.pairwise_cons.mp h
    by_cases ex : x = z
    · subst ex
      exact (List.mem_cons.mp hy).imp Eq.symm fun h => .inl (h1 y h)
    · have hx' := (List.mem_cons.mp hx).resolve_left ex
      rcases List.mem_cons.mp hy with ey | hy'
      · exact .inr (.inr (ey ▸ h1 x hx'))
      · exact ih h2 hx' hy'

/-! ### Pcbs (R280, R283) -/

theorem pcbInRange_iff {p : Int} : PcbInRange p ↔ 7000 ≤ p ∧ p + 17 ≤ 9999 := by
  show (7000 ≤ p ∧ p + 18 - 1 ≤ 9999) ↔ _
  constructor <;> rintro ⟨h1, h2⟩ <;> constructor <;> omega

theorem pcbsApart_iff {p q : Int} : PcbsApart p q ↔ p + 18 ≤ q ∨ q + 18 ≤ p := Iff.rfl

/-- Two entries of a sound list at different places are apart. -/
theorem SoundPcbs.apart {xs ys : List Int} {p q : Int} (h : SoundPcbs (xs ++ ys)) (hp : p ∈ xs) (hq : q ∈ ys) :
    PcbsApart p q := (List.pairwise_append.mp h.2).2.2 p hp q hq

theorem SoundPcbs.inRange {ps : List Int} {p : Int} (h : SoundPcbs ps) (hp : p ∈ ps) : 7000 ≤ p ∧ p + 17 ≤ 9999 :=
  pcbInRange_iff.mp (h.1 p hp)

theorem SoundPcbs.sub {ps qs : List Int} (h : SoundPcbs ps) (hs : qs.Sublist ps) : SoundPcbs qs :=
  ⟨fun p hp => h.1 p (hs.subset hp), h.2.sublist hs⟩

end Sys2Proof.Machine
end

