-- ==== Sys2Proof/Laws/State.lean ====
section
/-! SUPPORT. The small lemmas of the state: for every update of Machine/Ops.lean, what each field holds after it. -/

namespace Sys2Proof.Machine.State

variable (s : State)

/-! ### setReg -/

@[simp] theorem setReg_pc (r : Fin 8) (v : Int) : (s.setReg r v).pc = s.pc := rfl
@[simp] theorem setReg_sp (r : Fin 8) (v : Int) : (s.setReg r v).sp = s.sp := rfl
@[simp] theorem setReg_mode (r : Fin 8) (v : Int) : (s.setReg r v).mode = s.mode := rfl
@[simp] theorem setReg_ir (r : Fin 8) (v : Int) : (s.setReg r v).ir = s.ir := rfl
@[simp] theorem setReg_mar (r : Fin 8) (v : Int) : (s.setReg r v).mar = s.mar := rfl
@[simp] theorem setReg_mbr (r : Fin 8) (v : Int) : (s.setReg r v).mbr = s.mbr := rfl
@[simp] theorem setReg_clock (r : Fin 8) (v : Int) : (s.setReg r v).clock = s.clock := rfl
@[simp] theorem setReg_budget (r : Fin 8) (v : Int) : (s.setReg r v).budget = s.budget := rfl
@[simp] theorem setReg_mem (r : Fin 8) (v : Int) : (s.setReg r v).mem = s.mem := rfl
@[simp] theorem setReg_userFreeHead (r : Fin 8) (v : Int) : (s.setReg r v).userFreeHead = s.userFreeHead := rfl
@[simp] theorem setReg_osFreeHead (r : Fin 8) (v : Int) : (s.setReg r v).osFreeHead = s.osFreeHead := rfl
@[simp] theorem setReg_rqHead (r : Fin 8) (v : Int) : (s.setReg r v).rqHead = s.rqHead := rfl
@[simp] theorem setReg_wqHead (r : Fin 8) (v : Int) : (s.setReg r v).wqHead = s.wqHead := rfl
@[simp] theorem setReg_nextPid (r : Fin 8) (v : Int) : (s.setReg r v).nextPid = s.nextPid := rfl
@[simp] theorem setReg_shutdownSeen (r : Fin 8) (v : Int) : (s.setReg r v).shutdownSeen = s.shutdownSeen := rfl
@[simp] theorem setReg_current (r : Fin 8) (v : Int) : (s.setReg r v).current = s.current := rfl
@[simp] theorem setReg_phase (r : Fin 8) (v : Int) : (s.setReg r v).phase = s.phase := rfl
@[simp] theorem setReg_inbox (r : Fin 8) (v : Int) : (s.setReg r v).inbox = s.inbox := rfl
@[simp] theorem setReg_outbox (r : Fin 8) (v : Int) : (s.setReg r v).outbox = s.outbox := rfl
@[simp] theorem setReg_freeDraws (r : Fin 8) (v : Int) : (s.setReg r v).freeDraws = s.freeDraws := rfl
@[simp] theorem setReg_cfg (r : Fin 8) (v : Int) : (s.setReg r v).cfg = s.cfg := rfl

/-! ### setPc -/

@[simp] theorem setPc_regs (v : Int) : (s.setPc v).regs = s.regs := rfl
@[simp] theorem setPc_pc (v : Int) : (s.setPc v).pc = v := rfl
@[simp] theorem setPc_sp (v : Int) : (s.setPc v).sp = s.sp := rfl
@[simp] theorem setPc_mode (v : Int) : (s.setPc v).mode = s.mode := rfl
@[simp] theorem setPc_ir (v : Int) : (s.setPc v).ir = s.ir := rfl
@[simp] theorem setPc_mar (v : Int) : (s.setPc v).mar = s.mar := rfl
@[simp] theorem setPc_mbr (v : Int) : (s.setPc v).mbr = s.mbr := rfl
@[simp] theorem setPc_clock (v : Int) : (s.setPc v).clock = s.clock := rfl
@[simp] theorem setPc_budget (v : Int) : (s.setPc v).budget = s.budget := rfl
@[simp] theorem setPc_mem (v : Int) : (s.setPc v).mem = s.mem := rfl
@[simp] theorem setPc_userFreeHead (v : Int) : (s.setPc v).userFreeHead = s.userFreeHead := rfl
@[simp] theorem setPc_osFreeHead (v : Int) : (s.setPc v).osFreeHead = s.osFreeHead := rfl
@[simp] theorem setPc_rqHead (v : Int) : (s.setPc v).rqHead = s.rqHead := rfl
@[simp] theorem setPc_wqHead (v : Int) : (s.setPc v).wqHead = s.wqHead := rfl
@[simp] theorem setPc_nextPid (v : Int) : (s.setPc v).nextPid = s.nextPid := rfl
@[simp] theorem setPc_shutdownSeen (v : Int) : (s.setPc v).shutdownSeen = s.shutdownSeen := rfl
@[simp] theorem setPc_current (v : Int) : (s.setPc v).current = s.current := rfl
@[simp] theorem setPc_phase (v : Int) : (s.setPc v).phase = s.phase := rfl
@[simp] theorem setPc_inbox (v : Int) : (s.setPc v).inbox = s.inbox := rfl
@[simp] theorem setPc_outbox (v : Int) : (s.setPc v).outbox = s.outbox := rfl
@[simp] theorem setPc_freeDraws (v : Int) : (s.setPc v).freeDraws = s.freeDraws := rfl
@[simp] theorem setPc_cfg (v : Int) : (s.setPc v).cfg = s.cfg := rfl
@[simp] theorem setPc_reg (v : Int) (q : Fin 8) : (s.setPc v).reg q = s.reg q := rfl

/-! ### setSp -/

@[simp] theorem setSp_regs (v : Int) : (s.setSp v).regs = s.regs := rfl
@[simp] theorem setSp_pc (v : Int) : (s.setSp v).pc = s.pc := rfl
@[simp] theorem setSp_sp (v : Int) : (s.setSp v).sp = v := rfl
@[simp] theorem setSp_mode (v : Int) : (s.setSp v).mode = s.mode := rfl
@[simp] theorem setSp_ir (v : Int) : (s.setSp v).ir = s.ir := rfl
@[simp] theorem setSp_mar (v : Int) : (s.setSp v).mar = s.mar := rfl
@[simp] theorem setSp_mbr (v : Int) : (s.setSp v).mbr = s.mbr := rfl
@[simp] theorem setSp_clock (v : Int) : (s.setSp v).clock = s.clock := rfl
@[simp] theorem setSp_budget (v : Int) : (s.setSp v).budget = s.budget := rfl
@[simp] theorem setSp_mem (v : Int) : (s.setSp v).mem = s.mem := rfl
@[simp] theorem setSp_userFreeHead (v : Int) : (s.setSp v).userFreeHead = s.userFreeHead := rfl
@[simp] theorem setSp_osFreeHead (v : Int) : (s.setSp v).osFreeHead = s.osFreeHead := rfl
@[simp] theorem setSp_rqHead (v : Int) : (s.setSp v).rqHead = s.rqHead := rfl
@[simp] theorem setSp_wqHead (v : Int) : (s.setSp v).wqHead = s.wqHead := rfl
@[simp] theorem setSp_nextPid (v : Int) : (s.setSp v).nextPid = s.nextPid := rfl
@[simp] theorem setSp_shutdownSeen (v : Int) : (s.setSp v).shutdownSeen = s.shutdownSeen := rfl
@[simp] theorem setSp_current (v : Int) : (s.setSp v).current = s.current := rfl
@[simp] theorem setSp_phase (v : Int) : (s.setSp v).phase = s.phase := rfl
@[simp] theorem setSp_inbox (v : Int) : (s.setSp v).inbox = s.inbox := rfl
@[simp] theorem setSp_outbox (v : Int) : (s.setSp v).outbox = s.outbox := rfl
@[simp] theorem setSp_freeDraws (v : Int) : (s.setSp v).freeDraws = s.freeDraws := rfl
@[simp] theorem setSp_cfg (v : Int) : (s.setSp v).cfg = s.cfg := rfl
@[simp] theorem setSp_reg (v : Int) (q : Fin 8) : (s.setSp v).reg q = s.reg q := rfl

/-! ### setMode -/

@[simp] theorem setMode_regs (m : Mode) : (s.setMode m).regs = s.regs := rfl
@[simp] theorem setMode_pc (m : Mode) : (s.setMode m).pc = s.pc := rfl
@[simp] theorem setMode_sp (m : Mode) : (s.setMode m).sp = s.sp := rfl
@[simp] theorem setMode_mode (m : Mode) : (s.setMode m).mode = m := rfl
@[simp] theorem setMode_ir (m : Mode) : (s.setMode m).ir = s.ir := rfl
@[simp] theorem setMode_mar (m : Mode) : (s.setMode m).mar = s.mar := rfl
@[simp] theorem setMode_mbr (m : Mode) : (s.setMode m).mbr = s.mbr := rfl
@[simp] theorem setMode_clock (m : Mode) : (s.setMode m).clock = s.clock := rfl
@[simp] theorem setMode_budget (m : Mode) : (s.setMode m).budget = s.budget := rfl
@[simp] theorem setMode_mem (m : Mode) : (s.setMode m).mem = s.mem := rfl
@[simp] theorem setMode_userFreeHead (m : Mode) : (s.setMode m).userFreeHead = s.userFreeHead := rfl
@[simp] theorem setMode_osFreeHead (m : Mode) : (s.setMode m).osFreeHead = s.osFreeHead := rfl
@[simp] theorem setMode_rqHead (m : Mode) : (s.setMode m).rqHead = s.rqHead := rfl
@[simp] theorem setMode_wqHead (m : Mode) : (s.setMode m).wqHead = s.wqHead := rfl
@[simp] theorem setMode_nextPid (m : Mode) : (s.setMode m).nextPid = s.nextPid := rfl
@[simp] theorem setMode_shutdownSeen (m : Mode) : (s.setMode m).shutdownSeen = s.shutdownSeen := rfl
@[simp] theorem setMode_current (m : Mode) : (s.setMode m).current = s.current := rfl
@[simp] theorem setMode_phase (m : Mode) : (s.setMode m).phase = s.phase := rfl
@[simp] theorem setMode_inbox (m : Mode) : (s.setMode m).inbox = s.inbox := rfl
@[simp] theorem setMode_outbox (m : Mode) : (s.setMode m).outbox = s.outbox := rfl
@[simp] theorem setMode_freeDraws (m : Mode) : (s.setMode m).freeDraws = s.freeDraws := rfl
@[simp] theorem setMode_cfg (m : Mode) : (s.setMode m).cfg = s.cfg := rfl
@[simp] theorem setMode_reg (m : Mode) (q : Fin 8) : (s.setMode m).reg q = s.reg q := rfl

/-! ### setFetched -/

@[simp] theorem setFetched_regs (w : Int) : (s.setFetched w).regs = s.regs := rfl
@[simp] theorem setFetched_pc (w : Int) : (s.setFetched w).pc = s.pc + 1 := rfl
@[simp] theorem setFetched_sp (w : Int) : (s.setFetched w).sp = s.sp := rfl
@[simp] theorem setFetched_mode (w : Int) : (s.setFetched w).mode = s.mode := rfl
@[simp] theorem setFetched_ir (w : Int) : (s.setFetched w).ir = w := rfl
@[simp] theorem setFetched_mar (w : Int) : (s.setFetched w).mar = s.pc := rfl
@[simp] theorem setFetched_mbr (w : Int) : (s.setFetched w).mbr = w := rfl
@[simp] theorem setFetched_clock (w : Int) : (s.setFetched w).clock = s.clock := rfl
@[simp] theorem setFetched_budget (w : Int) : (s.setFetched w).budget = s.budget := rfl
@[simp] theorem setFetched_mem (w : Int) : (s.setFetched w).mem = s.mem := rfl
@[simp] theorem setFetched_userFreeHead (w : Int) : (s.setFetched w).userFreeHead = s.userFreeHead := rfl
@[simp] theorem setFetched_osFreeHead (w : Int) : (s.setFetched w).osFreeHead = s.osFreeHead := rfl
@[simp] theorem setFetched_rqHead (w : Int) : (s.setFetched w).rqHead = s.rqHead := rfl
@[simp] theorem setFetched_wqHead (w : Int) : (s.setFetched w).wqHead = s.wqHead := rfl
@[simp] theorem setFetched_nextPid (w : Int) : (s.setFetched w).nextPid = s.nextPid := rfl
@[simp] theorem setFetched_shutdownSeen (w : Int) : (s.setFetched w).shutdownSeen = s.shutdownSeen := rfl
@[simp] theorem setFetched_current (w : Int) : (s.setFetched w).current = s.current := rfl
@[simp] theorem setFetched_phase (w : Int) : (s.setFetched w).phase = s.phase := rfl
@[simp] theorem setFetched_inbox (w : Int) : (s.setFetched w).inbox = s.inbox := rfl
@[simp] theorem setFetched_outbox (w : Int) : (s.setFetched w).outbox = s.outbox := rfl
@[simp] theorem setFetched_freeDraws (w : Int) : (s.setFetched w).freeDraws = s.freeDraws := rfl
@[simp] theorem setFetched_cfg (w : Int) : (s.setFetched w).cfg = s.cfg := rfl
@[simp] theorem setFetched_reg (w : Int) (q : Fin 8) : (s.setFetched w).reg q = s.reg q := rfl

/-! ### charge -/

@[simp] theorem charge_regs (n : Nat) : (s.charge n).regs = s.regs := rfl
@[simp] theorem charge_pc (n : Nat) : (s.charge n).pc = s.pc := rfl
@[simp] theorem charge_sp (n : Nat) : (s.charge n).sp = s.sp := rfl
@[simp] theorem charge_mode (n : Nat) : (s.charge n).mode = s.mode := rfl
@[simp] theorem charge_ir (n : Nat) : (s.charge n).ir = s.ir := rfl
@[simp] theorem charge_mar (n : Nat) : (s.charge n).mar = s.mar := rfl
@[simp] theorem charge_mbr (n : Nat) : (s.charge n).mbr = s.mbr := rfl
@[simp] theorem charge_clock (n : Nat) : (s.charge n).clock = s.clock + n := rfl
@[simp] theorem charge_budget (n : Nat) : (s.charge n).budget = s.budget - n := rfl
@[simp] theorem charge_mem (n : Nat) : (s.charge n).mem = s.mem := rfl
@[simp] theorem charge_userFreeHead (n : Nat) : (s.charge n).userFreeHead = s.userFreeHead := rfl
@[simp] theorem charge_osFreeHead (n : Nat) : (s.charge n).osFreeHead = s.osFreeHead := rfl
@[simp] theorem charge_rqHead (n : Nat) : (s.charge n).rqHead = s.rqHead := rfl
@[simp] theorem charge_wqHead (n : Nat) : (s.charge n).wqHead = s.wqHead := rfl
@[simp] theorem charge_nextPid (n : Nat) : (s.charge n).nextPid = s.nextPid := rfl
@[simp] theorem charge_shutdownSeen (n : Nat) : (s.charge n).shutdownSeen = s.shutdownSeen := rfl
@[simp] theorem charge_current (n : Nat) : (s.charge n).current = s.current := rfl
@[simp] theorem charge_phase (n : Nat) : (s.charge n).phase = s.phase := rfl
@[simp] theorem charge_inbox (n : Nat) : (s.charge n).inbox = s.inbox := rfl
@[simp] theorem charge_outbox (n : Nat) : (s.charge n).outbox = s.outbox := rfl
@[simp] theorem charge_freeDraws (n : Nat) : (s.charge n).freeDraws = s.freeDraws := rfl
@[simp] theorem charge_cfg (n : Nat) : (s.charge n).cfg = s.cfg := rfl
@[simp] theorem charge_reg (n : Nat) (q : Fin 8) : (s.charge n).reg q = s.reg q := rfl

/-! ### setBudget -/

@[simp] theorem setBudget_regs (v : Int) : (s.setBudget v).regs = s.regs := rfl
@[simp] theorem setBudget_pc (v : Int) : (s.setBudget v).pc = s.pc := rfl
@[simp] theorem setBudget_sp (v : Int) : (s.setBudget v).sp = s.sp := rfl
@[simp] theorem setBudget_mode (v : Int) : (s.setBudget v).mode = s.mode := rfl
@[simp] theorem setBudget_ir (v : Int) : (s.setBudget v).ir = s.ir := rfl
@[simp] theorem setBudget_mar (v : Int) : (s.setBudget v).mar = s.mar := rfl
@[simp] theorem setBudget_mbr (v : Int) : (s.setBudget v).mbr = s.mbr := rfl
@[simp] theorem setBudget_clock (v : Int) : (s.setBudget v).clock = s.clock := rfl
@[simp] theorem setBudget_budget (v : Int) : (s.setBudget v).budget = v := rfl
@[simp] theorem setBudget_mem (v : Int) : (s.setBudget v).mem = s.mem := rfl
@[simp] theorem setBudget_userFreeHead (v : Int) : (s.setBudget v).userFreeHead = s.userFreeHead := rfl
@[simp] theorem setBudget_osFreeHead (v : Int) : (s.setBudget v).osFreeHead = s.osFreeHead := rfl
@[simp] theorem setBudget_rqHead (v : Int) : (s.setBudget v).rqHead = s.rqHead := rfl
@[simp] theorem setBudget_wqHead (v : Int) : (s.setBudget v).wqHead = s.wqHead := rfl
@[simp] theorem setBudget_nextPid (v : Int) : (s.setBudget v).nextPid = s.nextPid := rfl
@[simp] theorem setBudget_shutdownSeen (v : Int) : (s.setBudget v).shutdownSeen = s.shutdownSeen := rfl
@[simp] theorem setBudget_current (v : Int) : (s.setBudget v).current = s.current := rfl
@[simp] theorem setBudget_phase (v : Int) : (s.setBudget v).phase = s.phase := rfl
@[simp] theorem setBudget_inbox (v : Int) : (s.setBudget v).inbox = s.inbox := rfl
@[simp] theorem setBudget_outbox (v : Int) : (s.setBudget v).outbox = s.outbox := rfl
@[simp] theorem setBudget_freeDraws (v : Int) : (s.setBudget v).freeDraws = s.freeDraws := rfl
@[simp] theorem setBudget_cfg (v : Int) : (s.setBudget v).cfg = s.cfg := rfl
@[simp] theorem setBudget_reg (v : Int) (q : Fin 8) : (s.setBudget v).reg q = s.reg q := rfl

/-! ### setMem -/

@[simp] theorem setMem_regs (m : Memory) : (s.setMem m).regs = s.regs := rfl
@[simp] theorem setMem_pc (m : Memory) : (s.setMem m).pc = s.pc := rfl
@[simp] theorem setMem_sp (m : Memory) : (s.setMem m).sp = s.sp := rfl
@[simp] theorem setMem_mode (m : Memory) : (s.setMem m).mode = s.mode := rfl
@[simp] theorem setMem_ir (m : Memory) : (s.setMem m).ir = s.ir := rfl
@[simp] theorem setMem_mar (m : Memory) : (s.setMem m).mar = s.mar := rfl
@[simp] theorem setMem_mbr (m : Memory) : (s.setMem m).mbr = s.mbr := rfl
@[simp] theorem setMem_clock (m : Memory) : (s.setMem m).clock = s.clock := rfl
@[simp] theorem setMem_budget (m : Memory) : (s.setMem m).budget = s.budget := rfl
@[simp] theorem setMem_mem (m : Memory) : (s.setMem m).mem = m := rfl
@[simp] theorem setMem_userFreeHead (m : Memory) : (s.setMem m).userFreeHead = s.userFreeHead := rfl
@[simp] theorem setMem_osFreeHead (m : Memory) : (s.setMem m).osFreeHead = s.osFreeHead := rfl
@[simp] theorem setMem_rqHead (m : Memory) : (s.setMem m).rqHead = s.rqHead := rfl
@[simp] theorem setMem_wqHead (m : Memory) : (s.setMem m).wqHead = s.wqHead := rfl
@[simp] theorem setMem_nextPid (m : Memory) : (s.setMem m).nextPid = s.nextPid := rfl
@[simp] theorem setMem_shutdownSeen (m : Memory) : (s.setMem m).shutdownSeen = s.shutdownSeen := rfl
@[simp] theorem setMem_current (m : Memory) : (s.setMem m).current = s.current := rfl
@[simp] theorem setMem_phase (m : Memory) : (s.setMem m).phase = s.phase := rfl
@[simp] theorem setMem_inbox (m : Memory) : (s.setMem m).inbox = s.inbox := rfl
@[simp] theorem setMem_outbox (m : Memory) : (s.setMem m).outbox = s.outbox := rfl
@[simp] theorem setMem_freeDraws (m : Memory) : (s.setMem m).freeDraws = s.freeDraws := rfl
@[simp] theorem setMem_cfg (m : Memory) : (s.setMem m).cfg = s.cfg := rfl
@[simp] theorem setMem_reg (m : Memory) (q : Fin 8) : (s.setMem m).reg q = s.reg q := rfl

/-! ### setUserFreeHead -/

@[simp] theorem setUserFreeHead_regs (v : Int) : (s.setUserFreeHead v).regs = s.regs := rfl
@[simp] theorem setUserFreeHead_pc (v : Int) : (s.setUserFreeHead v).pc = s.pc := rfl
@[simp] theorem setUserFreeHead_sp (v : Int) : (s.setUserFreeHead v).sp = s.sp := rfl
@[simp] theorem setUserFreeHead_mode (v : Int) : (s.setUserFreeHead v).mode = s.mode := rfl
@[simp] theorem setUserFreeHead_ir (v : Int) : (s.setUserFreeHead v).ir = s.ir := rfl
@[simp] theorem setUserFreeHead_mar (v : Int) : (s.setUserFreeHead v).mar = s.mar := rfl
@[simp] theorem setUserFreeHead_mbr (v : Int) : (s.setUserFreeHead v).mbr = s.mbr := rfl
@[simp] theorem setUserFreeHead_clock (v : Int) : (s.setUserFreeHead v).clock = s.clock := rfl
@[simp] theorem setUserFreeHead_budget (v : Int) : (s.setUserFreeHead v).budget = s.budget := rfl
@[simp] theorem setUserFreeHead_mem (v : Int) : (s.setUserFreeHead v).mem = s.mem := rfl
@[simp] theorem setUserFreeHead_userFreeHead (v : Int) : (s.setUserFreeHead v).userFreeHead = v := rfl
@[simp] theorem setUserFreeHead_osFreeHead (v : Int) : (s.setUserFreeHead v).osFreeHead = s.osFreeHead := rfl
@[simp] theorem setUserFreeHead_rqHead (v : Int) : (s.setUserFreeHead v).rqHead = s.rqHead := rfl
@[simp] theorem setUserFreeHead_wqHead (v : Int) : (s.setUserFreeHead v).wqHead = s.wqHead := rfl
@[simp] theorem setUserFreeHead_nextPid (v : Int) : (s.setUserFreeHead v).nextPid = s.nextPid := rfl
@[simp] theorem setUserFreeHead_shutdownSeen (v : Int) : (s.setUserFreeHead v).shutdownSeen = s.shutdownSeen := rfl
@[simp] theorem setUserFreeHead_current (v : Int) : (s.setUserFreeHead v).current = s.current := rfl
@[simp] theorem setUserFreeHead_phase (v : Int) : (s.setUserFreeHead v).phase = s.phase := rfl
@[simp] theorem setUserFreeHead_inbox (v : Int) : (s.setUserFreeHead v).inbox = s.inbox := rfl
@[simp] theorem setUserFreeHead_outbox (v : Int) : (s.setUserFreeHead v).outbox = s.outbox := rfl
@[simp] theorem setUserFreeHead_freeDraws (v : Int) : (s.setUserFreeHead v).freeDraws = s.freeDraws := rfl
@[simp] theorem setUserFreeHead_cfg (v : Int) : (s.setUserFreeHead v).cfg = s.cfg := rfl
@[simp] theorem setUserFreeHead_reg (v : Int) (q : Fin 8) : (s.setUserFreeHead v).reg q = s.reg q := rfl

/-! ### setOsFreeHead -/

@[simp] theorem setOsFreeHead_regs (v : Int) : (s.setOsFreeHead v).regs = s.regs := rfl
@[simp] theorem setOsFreeHead_pc (v : Int) : (s.setOsFreeHead v).pc = s.pc := rfl
@[simp] theorem setOsFreeHead_sp (v : Int) : (s.setOsFreeHead v).sp = s.sp := rfl
@[simp] theorem setOsFreeHead_mode (v : Int) : (s.setOsFreeHead v).mode = s.mode := rfl
@[simp] theorem setOsFreeHead_ir (v : Int) : (s.setOsFreeHead v).ir = s.ir := rfl
@[simp] theorem setOsFreeHead_mar (v : Int) : (s.setOsFreeHead v).mar = s.mar := rfl
@[simp] theorem setOsFreeHead_mbr (v : Int) : (s.setOsFreeHead v).mbr = s.mbr := rfl
@[simp] theorem setOsFreeHead_clock (v : Int) : (s.setOsFreeHead v).clock = s.clock := rfl
@[simp] theorem setOsFreeHead_budget (v : Int) : (s.setOsFreeHead v).budget = s.budget := rfl
@[simp] theorem setOsFreeHead_mem (v : Int) : (s.setOsFreeHead v).mem = s.mem := rfl
@[simp] theorem setOsFreeHead_userFreeHead (v : Int) : (s.setOsFreeHead v).userFreeHead = s.userFreeHead := rfl
@[simp] theorem setOsFreeHead_osFreeHead (v : Int) : (s.setOsFreeHead v).osFreeHead = v := rfl
@[simp] theorem setOsFreeHead_rqHead (v : Int) : (s.setOsFreeHead v).rqHead = s.rqHead := rfl
@[simp] theorem setOsFreeHead_wqHead (v : Int) : (s.setOsFreeHead v).wqHead = s.wqHead := rfl
@[simp] theorem setOsFreeHead_nextPid (v : Int) : (s.setOsFreeHead v).nextPid = s.nextPid := rfl
@[simp] theorem setOsFreeHead_shutdownSeen (v : Int) : (s.setOsFreeHead v).shutdownSeen = s.shutdownSeen := rfl
@[simp] theorem setOsFreeHead_current (v : Int) : (s.setOsFreeHead v).current = s.current := rfl
@[simp] theorem setOsFreeHead_phase (v : Int) : (s.setOsFreeHead v).phase = s.phase := rfl
@[simp] theorem setOsFreeHead_inbox (v : Int) : (s.setOsFreeHead v).inbox = s.inbox := rfl
@[simp] theorem setOsFreeHead_outbox (v : Int) : (s.setOsFreeHead v).outbox = s.outbox := rfl
@[simp] theorem setOsFreeHead_freeDraws (v : Int) : (s.setOsFreeHead v).freeDraws = s.freeDraws := rfl
@[simp] theorem setOsFreeHead_cfg (v : Int) : (s.setOsFreeHead v).cfg = s.cfg := rfl
@[simp] theorem setOsFreeHead_reg (v : Int) (q : Fin 8) : (s.setOsFreeHead v).reg q = s.reg q := rfl

/-! ### setRqHead -/

@[simp] theorem setRqHead_regs (v : Int) : (s.setRqHead v).regs = s.regs := rfl
@[simp] theorem setRqHead_pc (v : Int) : (s.setRqHead v).pc = s.pc := rfl
@[simp] theorem setRqHead_sp (v : Int) : (s.setRqHead v).sp = s.sp := rfl
@[simp] theorem setRqHead_mode (v : Int) : (s.setRqHead v).mode = s.mode := rfl
@[simp] theorem setRqHead_ir (v : Int) : (s.setRqHead v).ir = s.ir := rfl
@[simp] theorem setRqHead_mar (v : Int) : (s.setRqHead v).mar = s.mar := rfl
@[simp] theorem setRqHead_mbr (v : Int) : (s.setRqHead v).mbr = s.mbr := rfl
@[simp] theorem setRqHead_clock (v : Int) : (s.setRqHead v).clock = s.clock := rfl
@[simp] theorem setRqHead_budget (v : Int) : (s.setRqHead v).budget = s.budget := rfl
@[simp] theorem setRqHead_mem (v : Int) : (s.setRqHead v).mem = s.mem := rfl
@[simp] theorem setRqHead_userFreeHead (v : Int) : (s.setRqHead v).userFreeHead = s.userFreeHead := rfl
@[simp] theorem setRqHead_osFreeHead (v : Int) : (s.setRqHead v).osFreeHead = s.osFreeHead := rfl
@[simp] theorem setRqHead_rqHead (v : Int) : (s.setRqHead v).rqHead = v := rfl
@[simp] theorem setRqHead_wqHead (v : Int) : (s.setRqHead v).wqHead = s.wqHead := rfl
@[simp] theorem setRqHead_nextPid (v : Int) : (s.setRqHead v).nextPid = s.nextPid := rfl
@[simp] theorem setRqHead_shutdownSeen (v : Int) : (s.setRqHead v).shutdownSeen = s.shutdownSeen := rfl
@[simp] theorem setRqHead_current (v : Int) : (s.setRqHead v).current = s.current := rfl
@[simp] theorem setRqHead_phase (v : Int) : (s.setRqHead v).phase = s.phase := rfl
@[simp] theorem setRqHead_inbox (v : Int) : (s.setRqHead v).inbox = s.inbox := rfl
@[simp] theorem setRqHead_outbox (v : Int) : (s.setRqHead v).outbox = s.outbox := rfl
@[simp] theorem setRqHead_freeDraws (v : Int) : (s.setRqHead v).freeDraws = s.freeDraws := rfl
@[simp] theorem setRqHead_cfg (v : Int) : (s.setRqHead v).cfg = s.cfg := rfl
@[simp] theorem setRqHead_reg (v : Int) (q : Fin 8) : (s.setRqHead v).reg q = s.reg q := rfl

/-! ### setWqHead -/

@[simp] theorem setWqHead_regs (v : Int) : (s.setWqHead v).regs = s.regs := rfl
@[simp] theorem setWqHead_pc (v : Int) : (s.setWqHead v).pc = s.pc := rfl
@[simp] theorem setWqHead_sp (v : Int) : (s.setWqHead v).sp = s.sp := rfl
@[simp] theorem setWqHead_mode (v : Int) : (s.setWqHead v).mode = s.mode := rfl
@[simp] theorem setWqHead_ir (v : Int) : (s.setWqHead v).ir = s.ir := rfl
@[simp] theorem setWqHead_mar (v : Int) : (s.setWqHead v).mar = s.mar := rfl
@[simp] theorem setWqHead_mbr (v : Int) : (s.setWqHead v).mbr = s.mbr := rfl
@[simp] theorem setWqHead_clock (v : Int) : (s.setWqHead v).clock = s.clock := rfl
@[simp] theorem setWqHead_budget (v : Int) : (s.setWqHead v).budget = s.budget := rfl
@[simp] theorem setWqHead_mem (v : Int) : (s.setWqHead v).mem = s.mem := rfl
@[simp] theorem setWqHead_userFreeHead (v : Int) : (s.setWqHead v).userFreeHead = s.userFreeHead := rfl
@[simp] theorem setWqHead_osFreeHead (v : Int) : (s.setWqHead v).osFreeHead = s.osFreeHead := rfl
@[simp] theorem setWqHead_rqHead (v : Int) : (s.setWqHead v).rqHead = s.rqHead := rfl
@[simp] theorem setWqHead_wqHead (v : Int) : (s.setWqHead v).wqHead = v := rfl
@[simp] theorem setWqHead_nextPid (v : Int) : (s.setWqHead v).nextPid = s.nextPid := rfl
@[simp] theorem setWqHead_shutdownSeen (v : Int) : (s.setWqHead v).shutdownSeen = s.shutdownSeen := rfl
@[simp] theorem setWqHead_current (v : Int) : (s.setWqHead v).current = s.current := rfl
@[simp] theorem setWqHead_phase (v : Int) : (s.setWqHead v).phase = s.phase := rfl
@[simp] theorem setWqHead_inbox (v : Int) : (s.setWqHead v).inbox = s.inbox := rfl
@[simp] theorem setWqHead_outbox (v : Int) : (s.setWqHead v).outbox = s.outbox := rfl
@[simp] theorem setWqHead_freeDraws (v : Int) : (s.setWqHead v).freeDraws = s.freeDraws := rfl
@[simp] theorem setWqHead_cfg (v : Int) : (s.setWqHead v).cfg = s.cfg := rfl
@[simp] theorem setWqHead_reg (v : Int) (q : Fin 8) : (s.setWqHead v).reg q = s.reg q := rfl

/-! ### setNextPid -/

@[simp] theorem setNextPid_regs (v : Int) (n : Nat) : (s.setNextPid v n).regs = s.regs := rfl
@[simp] theorem setNextPid_pc (v : Int) (n : Nat) : (s.setNextPid v n).pc = s.pc := rfl
@[simp] theorem setNextPid_sp (v : Int) (n : Nat) : (s.setNextPid v n).sp = s.sp := rfl
@[simp] theorem setNextPid_mode (v : Int) (n : Nat) : (s.setNextPid v n).mode = s.mode := rfl
@[simp] theorem setNextPid_ir (v : Int) (n : Nat) : (s.setNextPid v n).ir = s.ir := rfl
@[simp] theorem setNextPid_mar (v : Int) (n : Nat) : (s.setNextPid v n).mar = s.mar := rfl
@[simp] theorem setNextPid_mbr (v : Int) (n : Nat) : (s.setNextPid v n).mbr = s.mbr := rfl
@[simp] theorem setNextPid_clock (v : Int) (n : Nat) : (s.setNextPid v n).clock = s.clock := rfl
@[simp] theorem setNextPid_budget (v : Int) (n : Nat) : (s.setNextPid v n).budget = s.budget := rfl
@[simp] theorem setNextPid_mem (v : Int) (n : Nat) : (s.setNextPid v n).mem = s.mem := rfl
@[simp] theorem setNextPid_userFreeHead (v : Int) (n : Nat) : (s.setNextPid v n).userFreeHead = s.userFreeHead := rfl
@[simp] theorem setNextPid_osFreeHead (v : Int) (n : Nat) : (s.setNextPid v n).osFreeHead = s.osFreeHead := rfl
@[simp] theorem setNextPid_rqHead (v : Int) (n : Nat) : (s.setNextPid v n).rqHead = s.rqHead := rfl
@[simp] theorem setNextPid_wqHead (v : Int) (n : Nat) : (s.setNextPid v n).wqHead = s.wqHead := rfl
@[simp] theorem setNextPid_nextPid (v : Int) (n : Nat) : (s.setNextPid v n).nextPid = v := rfl
@[simp] theorem setNextPid_shutdownSeen (v : Int) (n : Nat) : (s.setNextPid v n).shutdownSeen = s.shutdownSeen := rfl
@[simp] theorem setNextPid_current (v : Int) (n : Nat) : (s.setNextPid v n).current = s.current := rfl
@[simp] theorem setNextPid_phase (v : Int) (n : Nat) : (s.setNextPid v n).phase = s.phase := rfl
@[simp] theorem setNextPid_inbox (v : Int) (n : Nat) : (s.setNextPid v n).inbox = s.inbox := rfl
@[simp] theorem setNextPid_outbox (v : Int) (n : Nat) : (s.setNextPid v n).outbox = s.outbox := rfl
@[simp] theorem setNextPid_freeDraws (v : Int) (n : Nat) : (s.setNextPid v n).freeDraws = n := rfl
@[simp] theorem setNextPid_cfg (v : Int) (n : Nat) : (s.setNextPid v n).cfg = s.cfg := rfl
@[simp] theorem setNextPid_reg (v : Int) (n : Nat) (q : Fin 8) : (s.setNextPid v n).reg q = s.reg q := rfl

/-! ### setShutdownSeen -/

@[simp] theorem setShutdownSeen_regs : (s.setShutdownSeen).regs = s.regs := rfl
@[simp] theorem setShutdownSeen_pc : (s.setShutdownSeen).pc = s.pc := rfl
@[simp] theorem setShutdownSeen_sp : (s.setShutdownSeen).sp = s.sp := rfl
@[simp] theorem setShutdownSeen_mode : (s.setShutdownSeen).mode = s.mode := rfl
@[simp] theorem setShutdownSeen_ir : (s.setShutdownSeen).ir = s.ir := rfl
@[simp] theorem setShutdownSeen_mar : (s.setShutdownSeen).mar = s.mar := rfl
@[simp] theorem setShutdownSeen_mbr : (s.setShutdownSeen).mbr = s.mbr := rfl
@[simp] theorem setShutdownSeen_clock : (s.setShutdownSeen).clock = s.clock := rfl
@[simp] theorem setShutdownSeen_budget : (s.setShutdownSeen).budget = s.budget := rfl
@[simp] theorem setShutdownSeen_mem : (s.setShutdownSeen).mem = s.mem := rfl
@[simp] theorem setShutdownSeen_userFreeHead : (s.setShutdownSeen).userFreeHead = s.userFreeHead := rfl
@[simp] theorem setShutdownSeen_osFreeHead : (s.setShutdownSeen).osFreeHead = s.osFreeHead := rfl
@[simp] theorem setShutdownSeen_rqHead : (s.setShutdownSeen).rqHead = s.rqHead := rfl
@[simp] theorem setShutdownSeen_wqHead : (s.setShutdownSeen).wqHead = s.wqHead := rfl
@[simp] theorem setShutdownSeen_nextPid : (s.setShutdownSeen).nextPid = s.nextPid := rfl
@[simp] theorem setShutdownSeen_shutdownSeen : (s.setShutdownSeen).shutdownSeen = true := rfl
@[simp] theorem setShutdownSeen_current : (s.setShutdownSeen).current = s.current := rfl
@[simp] theorem setShutdownSeen_phase : (s.setShutdownSeen).phase = s.phase := rfl
@[simp] theorem setShutdownSeen_inbox : (s.setShutdownSeen).inbox = s.inbox := rfl
@[simp] theorem setShutdownSeen_outbox : (s.setShutdownSeen).outbox = s.outbox := rfl
@[simp] theorem setShutdownSeen_freeDraws : (s.setShutdownSeen).freeDraws = s.freeDraws := rfl
@[simp] theorem setShutdownSeen_cfg : (s.setShutdownSeen).cfg = s.cfg := rfl
@[simp] theorem setShutdownSeen_reg (q : Fin 8) : (s.setShutdownSeen).reg q = s.reg q := rfl

/-! ### setCurrent -/

@[simp] theorem setCurrent_regs (p : Int) : (s.setCurrent p).regs = s.regs := rfl
@[simp] theorem setCurrent_pc (p : Int) : (s.setCurrent p).pc = s.pc := rfl
@[simp] theorem setCurrent_sp (p : Int) : (s.setCurrent p).sp = s.sp := rfl
@[simp] theorem setCurrent_mode (p : Int) : (s.setCurrent p).mode = s.mode := rfl
@[simp] theorem setCurrent_ir (p : Int) : (s.setCurrent p).ir = s.ir := rfl
@[simp] theorem setCurrent_mar (p : Int) : (s.setCurrent p).mar = s.mar := rfl
@[simp] theorem setCurrent_mbr (p : Int) : (s.setCurrent p).mbr = s.mbr := rfl
@[simp] theorem setCurrent_clock (p : Int) : (s.setCurrent p).clock = s.clock := rfl
@[simp] theorem setCurrent_budget (p : Int) : (s.setCurrent p).budget = s.budget := rfl
@[simp] theorem setCurrent_mem (p : Int) : (s.setCurrent p).mem = s.mem := rfl
@[simp] theorem setCurrent_userFreeHead (p : Int) : (s.setCurrent p).userFreeHead = s.userFreeHead := rfl
@[simp] theorem setCurrent_osFreeHead (p : Int) : (s.setCurrent p).osFreeHead = s.osFreeHead := rfl
@[simp] theorem setCurrent_rqHead (p : Int) : (s.setCurrent p).rqHead = s.rqHead := rfl
@[simp] theorem setCurrent_wqHead (p : Int) : (s.setCurrent p).wqHead = s.wqHead := rfl
@[simp] theorem setCurrent_nextPid (p : Int) : (s.setCurrent p).nextPid = s.nextPid := rfl
@[simp] theorem setCurrent_shutdownSeen (p : Int) : (s.setCurrent p).shutdownSeen = s.shutdownSeen := rfl
@[simp] theorem setCurrent_current (p : Int) : (s.setCurrent p).current = p := rfl
@[simp] theorem setCurrent_phase (p : Int) : (s.setCurrent p).phase = s.phase := rfl
@[simp] theorem setCurrent_inbox (p : Int) : (s.setCurrent p).inbox = s.inbox := rfl
@[simp] theorem setCurrent_outbox (p : Int) : (s.setCurrent p).outbox = s.outbox := rfl
@[simp] theorem setCurrent_freeDraws (p : Int) : (s.setCurrent p).freeDraws = s.freeDraws := rfl
@[simp] theorem setCurrent_cfg (p : Int) : (s.setCurrent p).cfg = s.cfg := rfl
@[simp] theorem setCurrent_reg (p : Int) (q : Fin 8) : (s.setCurrent p).reg q = s.reg q := rfl

/-! ### setPhase -/

@[simp] theorem setPhase_regs (p : Phase) : (s.setPhase p).regs = s.regs := rfl
@[simp] theorem setPhase_pc (p : Phase) : (s.setPhase p).pc = s.pc := rfl
@[simp] theorem setPhase_sp (p : Phase) : (s.setPhase p).sp = s.sp := rfl
@[simp] theorem setPhase_mode (p : Phase) : (s.setPhase p).mode = s.mode := rfl
@[simp] theorem setPhase_ir (p : Phase) : (s.setPhase p).ir = s.ir := rfl
@[simp] theorem setPhase_mar (p : Phase) : (s.setPhase p).mar = s.mar := rfl
@[simp] theorem setPhase_mbr (p : Phase) : (s.setPhase p).mbr = s.mbr := rfl
@[simp] theorem setPhase_clock (p : Phase) : (s.setPhase p).clock = s.clock := rfl
@[simp] theorem setPhase_budget (p : Phase) : (s.setPhase p).budget = s.budget := rfl
@[simp] theorem setPhase_mem (p : Phase) : (s.setPhase p).mem = s.mem := rfl
@[simp] theorem setPhase_userFreeHead (p : Phase) : (s.setPhase p).userFreeHead = s.userFreeHead := rfl
@[simp] theorem setPhase_osFreeHead (p : Phase) : (s.setPhase p).osFreeHead = s.osFreeHead := rfl
@[simp] theorem setPhase_rqHead (p : Phase) : (s.setPhase p).rqHead = s.rqHead := rfl
@[simp] theorem setPhase_wqHead (p : Phase) : (s.setPhase p).wqHead = s.wqHead := rfl
@[simp] theorem setPhase_nextPid (p : Phase) : (s.setPhase p).nextPid = s.nextPid := rfl
@[simp] theorem setPhase_shutdownSeen (p : Phase) : (s.setPhase p).shutdownSeen = s.shutdownSeen := rfl
@[simp] theorem setPhase_current (p : Phase) : (s.setPhase p).current = s.current := rfl
@[simp] theorem setPhase_phase (p : Phase) : (s.setPhase p).phase = p := rfl
@[simp] theorem setPhase_inbox (p : Phase) : (s.setPhase p).inbox = s.inbox := rfl
@[simp] theorem setPhase_outbox (p : Phase) : (s.setPhase p).outbox = s.outbox := rfl
@[simp] theorem setPhase_freeDraws (p : Phase) : (s.setPhase p).freeDraws = s.freeDraws := rfl
@[simp] theorem setPhase_cfg (p : Phase) : (s.setPhase p).cfg = s.cfg := rfl
@[simp] theorem setPhase_reg (p : Phase) (q : Fin 8) : (s.setPhase p).reg q = s.reg q := rfl

/-! ### setInbox -/

@[simp] theorem setInbox_regs (es : List Interrupt) : (s.setInbox es).regs = s.regs := rfl
@[simp] theorem setInbox_pc (es : List Interrupt) : (s.setInbox es).pc = s.pc := rfl
@[simp] theorem setInbox_sp (es : List Interrupt) : (s.setInbox es).sp = s.sp := rfl
@[simp] theorem setInbox_mode (es : List Interrupt) : (s.setInbox es).mode = s.mode := rfl
@[simp] theorem setInbox_ir (es : List Interrupt) : (s.setInbox es).ir = s.ir := rfl
@[simp] theorem setInbox_mar (es : List Interrupt) : (s.setInbox es).mar = s.mar := rfl
@[simp] theorem setInbox_mbr (es : List Interrupt) : (s.setInbox es).mbr = s.mbr := rfl
@[simp] theorem setInbox_clock (es : List Interrupt) : (s.setInbox es).clock = s.clock := rfl
@[simp] theorem setInbox_budget (es : List Interrupt) : (s.setInbox es).budget = s.budget := rfl
@[simp] theorem setInbox_mem (es : List Interrupt) : (s.setInbox es).mem = s.mem := rfl
@[simp] theorem setInbox_userFreeHead (es : List Interrupt) : (s.setInbox es).userFreeHead = s.userFreeHead := rfl
@[simp] theorem setInbox_osFreeHead (es : List Interrupt) : (s.setInbox es).osFreeHead = s.osFreeHead := rfl
@[simp] theorem setInbox_rqHead (es : List Interrupt) : (s.setInbox es).rqHead = s.rqHead := rfl
@[simp] theorem setInbox_wqHead (es : List Interrupt) : (s.setInbox es).wqHead = s.wqHead := rfl
@[simp] theorem setInbox_nextPid (es : List Interrupt) : (s.setInbox es).nextPid = s.nextPid := rfl
@[simp] theorem setInbox_shutdownSeen (es : List Interrupt) : (s.setInbox es).shutdownSeen = s.shutdownSeen := rfl
@[simp] theorem setInbox_current (es : List Interrupt) : (s.setInbox es).current = s.current := rfl
@[simp] theorem setInbox_phase (es : List Interrupt) : (s.setInbox es).phase = s.phase := rfl
@[simp] theorem setInbox_inbox (es : List Interrupt) : (s.setInbox es).inbox = es := rfl
@[simp] theorem setInbox_outbox (es : List Interrupt) : (s.setInbox es).outbox = s.outbox := rfl
@[simp] theorem setInbox_freeDraws (es : List Interrupt) : (s.setInbox es).freeDraws = s.freeDraws := rfl
@[simp] theorem setInbox_cfg (es : List Interrupt) : (s.setInbox es).cfg = s.cfg := rfl
@[simp] theorem setInbox_reg (es : List Interrupt) (q : Fin 8) : (s.setInbox es).reg q = s.reg q := rfl

/-! ### emit -/

@[simp] theorem emit_regs (o : HostOutput) : (s.emit o).regs = s.regs := rfl
@[simp] theorem emit_pc (o : HostOutput) : (s.emit o).pc = s.pc := rfl
@[simp] theorem emit_sp (o : HostOutput) : (s.emit o).sp = s.sp := rfl
@[simp] theorem emit_mode (o : HostOutput) : (s.emit o).mode = s.mode := rfl
@[simp] theorem emit_ir (o : HostOutput) : (s.emit o).ir = s.ir := rfl
@[simp] theorem emit_mar (o : HostOutput) : (s.emit o).mar = s.mar := rfl
@[simp] theorem emit_mbr (o : HostOutput) : (s.emit o).mbr = s.mbr := rfl
@[simp] theorem emit_clock (o : HostOutput) : (s.emit o).clock = s.clock := rfl
@[simp] theorem emit_budget (o : HostOutput) : (s.emit o).budget = s.budget := rfl
@[simp] theorem emit_mem (o : HostOutput) : (s.emit o).mem = s.mem := rfl
@[simp] theorem emit_userFreeHead (o : HostOutput) : (s.emit o).userFreeHead = s.userFreeHead := rfl
@[simp] theorem emit_osFreeHead (o : HostOutput) : (s.emit o).osFreeHead = s.osFreeHead := rfl
@[simp] theorem emit_rqHead (o : HostOutput) : (s.emit o).rqHead = s.rqHead := rfl
@[simp] theorem emit_wqHead (o : HostOutput) : (s.emit o).wqHead = s.wqHead := rfl
@[simp] theorem emit_nextPid (o : HostOutput) : (s.emit o).nextPid = s.nextPid := rfl
@[simp] theorem emit_shutdownSeen (o : HostOutput) : (s.emit o).shutdownSeen = s.shutdownSeen := rfl
@[simp] theorem emit_current (o : HostOutput) : (s.emit o).current = s.current := rfl
@[simp] theorem emit_phase (o : HostOutput) : (s.emit o).phase = s.phase := rfl
@[simp] theorem emit_inbox (o : HostOutput) : (s.emit o).inbox = s.inbox := rfl
@[simp] theorem emit_outbox (o : HostOutput) : (s.emit o).outbox = s.outbox ++ [o] := rfl
@[simp] theorem emit_freeDraws (o : HostOutput) : (s.emit o).freeDraws = s.freeDraws := rfl
@[simp] theorem emit_cfg (o : HostOutput) : (s.emit o).cfg = s.cfg := rfl
@[simp] theorem emit_reg (o : HostOutput) (q : Fin 8) : (s.emit o).reg q = s.reg q := rfl

/-! ### setContext -/

@[simp] theorem setContext_regs (g : Vector Int 8) (p q : Int) (m : Mode) : (s.setContext g p q m).regs = g := rfl
@[simp] theorem setContext_pc (g : Vector Int 8) (p q : Int) (m : Mode) : (s.setContext g p q m).pc = q := rfl
@[simp] theorem setContext_sp (g : Vector Int 8) (p q : Int) (m : Mode) : (s.setContext g p q m).sp = p := rfl
@[simp] theorem setContext_mode (g : Vector Int 8) (p q : Int) (m : Mode) : (s.setContext g p q m).mode = m := rfl
@[simp] theorem setContext_ir (g : Vector Int 8) (p q : Int) (m : Mode) : (s.setContext g p q m).ir = s.ir := rfl
@[simp] theorem setContext_mar (g : Vector Int 8) (p q : Int) (m : Mode) : (s.setContext g p q m).mar = s.mar := rfl
@[simp] theorem setContext_mbr (g : Vector Int 8) (p q : Int) (m : Mode) : (s.setContext g p q m).mbr = s.mbr := rfl
@[simp] theorem setContext_clock (g : Vector Int 8) (p q : Int) (m : Mode) : (s.setContext g p q m).clock = s.clock := rfl
@[simp] theorem setContext_budget (g : Vector Int 8) (p q : Int) (m : Mode) : (s.setContext g p q m).budget = s.budget := rfl
@[simp] theorem setContext_mem (g : Vector Int 8) (p q : Int) (m : Mode) : (s.setContext g p q m).mem = s.mem := rfl
@[simp] theorem setContext_userFreeHead (g : Vector Int 8) (p q : Int) (m : Mode) : (s.setContext g p q m).userFreeHead = s.userFreeHead := rfl
@[simp] theorem setContext_osFreeHead (g : Vector Int 8) (p q : Int) (m : Mode) : (s.setContext g p q m).osFreeHead = s.osFreeHead := rfl
@[simp] theorem setContext_rqHead (g : Vector Int 8) (p q : Int) (m : Mode) : (s.setContext g p q m).rqHead = s.rqHead := rfl
@[simp] theorem setContext_wqHead (g : Vector Int 8) (p q : Int) (m : Mode) : (s.setContext g p q m).wqHead = s.wqHead := rfl
@[simp] theorem setContext_nextPid (g : Vector Int 8) (p q : Int) (m : Mode) : (s.setContext g p q m).nextPid = s.nextPid := rfl
@[simp] theorem setContext_shutdownSeen (g : Vector Int 8) (p q : Int) (m : Mode) : (s.setContext g p q m).shutdownSeen = s.shutdownSeen := rfl
@[simp] theorem setContext_current (g : Vector Int 8) (p q : Int) (m : Mode) : (s.setContext g p q m).current = s.current := rfl
@[simp] theorem setContext_phase (g : Vector Int 8) (p q : Int) (m : Mode) : (s.setContext g p q m).phase = s.phase := rfl
@[simp] theorem setContext_inbox (g : Vector Int 8) (p q : Int) (m : Mode) : (s.setContext g p q m).inbox = s.inbox := rfl
@[simp] theorem setContext_outbox (g : Vector Int 8) (p q : Int) (m : Mode) : (s.setContext g p q m).outbox = s.outbox := rfl
@[simp] theorem setContext_freeDraws (g : Vector Int 8) (p q : Int) (m : Mode) : (s.setContext g p q m).freeDraws = s.freeDraws := rfl
@[simp] theorem setContext_cfg (g : Vector Int 8) (p q : Int) (m : Mode) : (s.setContext g p q m).cfg = s.cfg := rfl

/-! ### General registers -/

/-- R31: a register reads the value last written to it. -/
theorem reg_setReg (r : Fin 8) (v : Int) (q : Fin 8) : (s.setReg r v).reg q = if q = r then v else s.reg q := by
  simp only [State.reg, State.setReg, Vector.getElem_set, Fin.ext_iff, eq_comm (a := q.val)]

@[simp] theorem setReg_reg_same (r : Fin 8) (v : Int) : (s.setReg r v).reg r = v := by simp [reg_setReg]

theorem setReg_reg_other {r q : Fin 8} (v : Int) (h : q ≠ r) : (s.setReg r v).reg q = s.reg q := by
  simp [reg_setReg, h]

/-- Two states that agree on every general register agree on the register file. -/
theorem regs_ext {s t : State} (h : ∀ r, s.reg r = t.reg r) : s.regs = t.regs := by
  refine Vector.ext fun i hi => ?_
  simpa [State.reg] using h ⟨i, hi⟩

theorem reg_mem_regs (r : Fin 8) : s.reg r ∈ s.regs.toList := by
  simp [State.reg]

end Sys2Proof.Machine.State
end

