-- ==== Sys2Proof/Laws/Flow.lean ====
section
/-! SUPPORT. The laws of sequencing and of memory access: what each can do, said once. -/

namespace Sys2Proof.Machine

variable {α β : Type}

/-! ### Sequencing (R16) -/

@[simp] theorem Flow.bind_go (a : α) (s : State) (f : α → State → Flow β) : (Flow.go a s).bind f = f a s := rfl

@[simp] theorem Flow.bind_raise (c : FaultCode) (s : State) (f : α → State → Flow β) :
    (Flow.raise c s).bind f = .raise c s := rfl

@[simp] theorem Flow.bind_stop (t : Fault) (f : α → State → Flow β) : (Flow.stop t).bind f = .stop t := rfl

@[simp] theorem Flow.bind_refuse (r : Refusal) (f : α → State → Flow β) : (Flow.refuse r).bind f = .refuse r := rfl

/-- A sequence goes on exactly when both parts do. -/
theorem Flow.bind_eq_go {x : Flow α} {f : α → State → Flow β} {b : β} {t : State} :
    x.bind f = .go b t ↔ ∃ a s, x = .go a s ∧ f a s = .go b t := by
  cases x <;> simp

/-- A sequence raises a fault in its first part, or in its second after the first went on. -/
theorem Flow.bind_eq_raise {x : Flow α} {f : α → State → Flow β} {c : FaultCode} {t : State} :
    x.bind f = .raise c t ↔ x = .raise c t ∨ ∃ a s, x = .go a s ∧ f a s = .raise c t := by
  cases x <;> simp

/-- A step answers a next state when its pseudocode goes on, or when it raises a fault, which is taken. -/
theorem Flow.outcome_eq_next {x : Flow Unit} {t : State} :
    x.outcome = .next t ↔ (∃ u, x = .go u t) ∨ ∃ c s, x = .raise c s ∧ t = takeFault c s := by
  cases x <;> simp [Flow.outcome, eq_comm]

/-! ### Ending an invocation -/

@[simp] theorem takeFault_phase (c : FaultCode) (s : State) : (takeFault c s).phase = .route (.fault c) := rfl

@[simp] theorem endInvocation_phase (st : ExitStatus) (s : State) : (endInvocation st s).phase = .route st := rfl

theorem takeFault_eq (c : FaultCode) (s : State) : takeFault c s = s.setPhase (.route (.fault c)) := rfl

/-! ### Memory access (R12) -/

theorem userAddr_iff {a : Int} : UserAddr a ↔ 0 ≤ a ∧ a ≤ 3999 := Iff.rfl

theorem heapAddr_iff {a : Int} : HeapAddr a ↔ 4000 ≤ a ∧ a ≤ 6999 := Iff.rfl

theorem memAddr_iff {a : Int} : MemAddr a ↔ 0 ≤ a ∧ a < 10000 := Iff.rfl

theorem isWord_iff {p : Params} {v : Int} : p.IsWord v ↔ p.wordMin ≤ v ∧ v ≤ p.wordMax := Iff.rfl

theorem memAddr_of_userAddr {a : Int} (h : UserAddr a) : MemAddr a := by
  rw [userAddr_iff] at h; rw [memAddr_iff]; omega

theorem memAddr_of_heapAddr {a : Int} (h : HeapAddr a) : MemAddr a := by
  rw [heapAddr_iff] at h; rw [memAddr_iff]; omega

@[simp] theorem load_of_memAddr {a : Int} (h : MemAddr a) (s : State) : load a s = .go (s.mem.read a.toNat) s := if_pos h

@[simp] theorem store_of_memAddr {a : Int} (h : MemAddr a) (v : Int) (s : State) :
    store a v s = .go () (s.setMem (s.mem.write a.toNat v)) := if_pos h

/-- All a load can do: it reads a word of the arena and changes nothing. -/
theorem load_eq_go {a : Int} {s t : State} {v : Int} :
    load a s = .go v t ↔ MemAddr a ∧ v = s.mem.read a.toNat ∧ t = s := by
  by_cases h : MemAddr a <;> simp [load, h, eq_comm]

/-- All a store can do: it writes a word of the arena. -/
theorem store_eq_go {a : Int} {v : Int} {s t : State} {u : Unit} :
    store a v s = .go u t ↔ MemAddr a ∧ t = s.setMem (s.mem.write a.toNat v) := by
  by_cases h : MemAddr a <;> simp [store, h, eq_comm]

@[simp] theorem load_ne_raise {a : Int} {s t : State} {c : FaultCode} : load a s ≠ .raise c t := by
  unfold load; split <;> simp

@[simp] theorem store_ne_raise {a : Int} {v : Int} {s t : State} {c : FaultCode} : store a v s ≠ .raise c t := by
  unfold store; split <;> simp

end Sys2Proof.Machine
end

