-- ==== Sys2Proof/Laws/Sat.lean ====
section
/-! SUPPORT. What every outcome of a piece of pseudocode satisfies, so that a property of all outcomes is proved once per
operation and passed on through sequencing. -/

namespace Sys2Proof.Machine

variable {α β : Type}

/-- Every outcome of `x` that leaves a state satisfies `Q` when it goes on and `E` when it raises a fault. -/
def Flow.Sat (Q : α → State → Prop) (E : FaultCode → State → Prop) (x : Flow α) : Prop :=
  (∀ a t, x = .go a t → Q a t) ∧ ∀ c t, x = .raise c t → E c t

@[simp] theorem Flow.sat_go {Q : α → State → Prop} {E : FaultCode → State → Prop} {a : α} {s : State} :
    (Flow.go a s).Sat Q E ↔ Q a s := by
  simp [Flow.Sat]

@[simp] theorem Flow.sat_raise {Q : α → State → Prop} {E : FaultCode → State → Prop} {c : FaultCode} {s : State} :
    (Flow.raise c s).Sat Q E ↔ E c s := by
  simp [Flow.Sat]

@[simp] theorem Flow.sat_stop {Q : α → State → Prop} {E : FaultCode → State → Prop} {f : Fault} :
    (Flow.stop f).Sat Q E := by
  simp [Flow.Sat]

@[simp] theorem Flow.sat_refuse {Q : α → State → Prop} {E : FaultCode → State → Prop} {r : Refusal} :
    (Flow.refuse r).Sat Q E := by
  simp [Flow.Sat]

/-- A sequence satisfies what its second part does from every state its first part can leave. -/
theorem Flow.Sat.bind {Q : α → State → Prop} {R : β → State → Prop} {E : FaultCode → State → Prop} {x : Flow α}
    {f : α → State → Flow β} (hx : x.Sat Q E) (hf : ∀ a s, Q a s → (f a s).Sat R E) : (x.bind f).Sat R E := by
  cases x with
  | go a s => exact hf a s (Flow.sat_go.mp hx)
  | raise c s => exact Flow.sat_raise.mpr (Flow.sat_raise.mp hx)
  | stop t => exact Flow.sat_stop
  | refuse r => exact Flow.sat_refuse

theorem Flow.Sat.mono {Q Q' : α → State → Prop} {E E' : FaultCode → State → Prop} {x : Flow α} (hx : x.Sat Q E)
    (hq : ∀ a s, Q a s → Q' a s) (he : ∀ c s, E c s → E' c s) : x.Sat Q' E' :=
  ⟨fun a t h => hq a t (hx.1 a t h), fun c t h => he c t (hx.2 c t h)⟩

/-- A load answers a word of the arena and changes nothing. -/
theorem sat_load {E : FaultCode → State → Prop} (a : Int) (s : State) :
    (load a s).Sat (fun v t => MemAddr a ∧ v = s.mem.read a.toNat ∧ t = s) E :=
  ⟨fun _ _ h => load_eq_go.mp h, fun _ _ h => absurd h load_ne_raise⟩

/-- A store writes one word of the arena. -/
theorem sat_store {E : FaultCode → State → Prop} (a : Int) (v : Int) (s : State) :
    (store a v s).Sat (fun _ t => MemAddr a ∧ t = s.setMem (s.mem.write a.toNat v)) E :=
  ⟨fun _ _ h => store_eq_go.mp h, fun _ _ h => absurd h store_ne_raise⟩

/-- A step that answers a next state: its pseudocode went on, or raised the fault that is taken. -/
theorem Flow.Sat.outcome {Q : Unit → State → Prop} {E : FaultCode → State → Prop} {x : Flow Unit} (hx : x.Sat Q E)
    {t : State} (h : x.outcome = .next t) : Q () t ∨ ∃ c s, E c s ∧ t = takeFault c s := by
  rcases Flow.outcome_eq_next.mp h with ⟨u, rfl⟩ | ⟨c, s, rfl, rfl⟩
  · exact .inl (Flow.sat_go.mp hx)
  · exact .inr ⟨c, s, Flow.sat_raise.mp hx, rfl⟩

end Sys2Proof.Machine
end

