-- ==== Sys2Proof/Laws/Sequencer.lean ====
section
/-! SUPPORT. What the services of the OS sequencer leave alone: they raise no fault, and they change only memory, the heads of
the free lists and of the queues, and what the console is sent. -/

namespace Sys2Proof.Machine

variable {α β : Type}

/-- The state with everything forgotten that a service of the sequencer may change. -/
def State.forgetOs (s : State) : State :=
  { s with mem := [], userFreeHead := 0, osFreeHead := 0, rqHead := 0, wqHead := 0, outbox := [] }

/-- Pseudocode, run from a state like `s`, that raises no fault and ends in a state like `s` but for what `forgetOs` forgets. -/
def Flow.OsOnly (s : State) (x : Flow α) : Prop :=
  x.Sat (fun _ t => t.forgetOs = s.forgetOs) fun _ _ => False

theorem Flow.OsOnly.bind {s : State} {x : Flow α} {f : α → State → Flow β} (hx : x.OsOnly s)
    (hf : ∀ a t, (f a t).OsOnly t) : (x.bind f).OsOnly s :=
  Flow.Sat.bind hx fun a t h => (hf a t).mono (fun _ _ h' => h'.trans h) fun _ _ h' => h'

theorem osOnly_go {s t : State} {a : α} (h : t.forgetOs = s.forgetOs) : (Flow.go a t).OsOnly s := Flow.sat_go.mpr h

theorem osOnly_stop {s : State} {f : Fault} : (Flow.stop f : Flow α).OsOnly s := Flow.sat_stop

theorem osOnly_refuse {s : State} {r : Refusal} : (Flow.refuse r : Flow α).OsOnly s := Flow.sat_refuse

theorem osOnly_load (a : Int) (s : State) : (load a s).OsOnly s :=
  (sat_load a s).mono (fun _ _ h => by rw [h.2.2]) fun _ _ h => h

theorem osOnly_store (a : Int) (v : Int) (s : State) : (store a v s).OsOnly s :=
  (sat_store a v s).mono (fun _ _ h => by rw [h.2]; rfl) fun _ _ h => h

theorem osOnly_storeBlock (vs : List Int) : ∀ (a : Int) (s : State), (storeBlock a vs s).OsOnly s := by
  induction vs with
  | nil => exact fun _ _ => osOnly_go rfl
  | cons v vs ih => exact fun a s => (osOnly_store a v s).bind fun _ t => ih _ t

/-! ### The allocators (R242, R243) -/

theorem setFreeHead_forgetOs (g : Region) (v : Int) (s : State) : (setFreeHead g v s).forgetOs = s.forgetOs := by
  cases g <;> rfl

theorem osOnly_link (g : Region) (prev v : Int) (s : State) : (link g prev v s).OsOnly s := by
  unfold link; split
  · exact osOnly_go (setFreeHead_forgetOs g v s)
  · exact osOnly_store _ _ _

theorem osOnly_takeBlock (g : Region) (size prev cur nxt n : Int) (s : State) :
    (takeBlock g size prev cur nxt n s).OsOnly s := by
  unfold takeBlock; split
  · exact (osOnly_link _ _ _ _).bind fun _ _ => osOnly_go rfl
  · split
    · split
      · exact osOnly_refuse
      · exact (osOnly_store _ _ _).bind fun _ _ => (osOnly_store _ _ _).bind fun _ _ =>
          (osOnly_link _ _ _ _).bind fun _ _ => osOnly_go rfl
    · exact osOnly_go rfl

theorem osOnly_allocWalk (g : Region) (size : Int) (fuel : Nat) :
    ∀ (prev cur : Int) (s : State), (allocWalk g size fuel prev cur s).OsOnly s := by
  induction fuel with
  | zero => exact fun _ _ _ => osOnly_stop
  | succ n ih =>
    intro prev cur s
    unfold allocWalk; split
    · exact osOnly_go rfl
    · split
      · exact (osOnly_load _ _).bind fun _ _ => (osOnly_load _ _).bind fun _ _ =>
          (osOnly_takeBlock ..).bind fun r t => by
            cases r with
            | some a => exact osOnly_go rfl
            | none => exact ih _ _ t
      · exact osOnly_refuse

theorem osOnly_allocate (g : Region) (size : Int) (s : State) : (allocate g size s).OsOnly s := by
  unfold allocate; split
  · exact osOnly_go rfl
  · split
    · exact osOnly_refuse
    · exact osOnly_allocWalk ..

theorem osOnly_free (g : Region) (a size : Int) (s : State) : (free g a size s).OsOnly s := by
  unfold free; split
  · exact osOnly_go rfl
  · split
    · exact osOnly_go rfl
    · exact (osOnly_store _ _ _).bind fun _ _ => (osOnly_store _ _ _).bind fun _ t =>
        osOnly_go (setFreeHead_forgetOs _ _ t)

theorem osOnly_initFreeList (g : Region) (s : State) : (initFreeList g s).OsOnly s :=
  (osOnly_store _ _ _).bind fun _ _ => (osOnly_store _ _ _).bind fun _ t => osOnly_go (setFreeHead_forgetOs _ _ t)

/-! ### Context and queues (R284 to R291) -/

theorem osOnly_saveContext (p : Int) (s : State) : (saveContext p s).OsOnly s := osOnly_storeBlock _ _ _

theorem osOnly_readyPlace (prio : Int) (fuel : Nat) :
    ∀ (prev cur : Int) (s : State), (readyPlace prio fuel prev cur s).OsOnly s := by
  induction fuel with
  | zero => exact fun _ _ _ => osOnly_stop
  | succ n ih =>
    intro prev cur s
    unfold readyPlace; split
    · exact osOnly_go rfl
    · refine (osOnly_load _ _).bind fun q t => ?_
      split
      · exact (osOnly_load _ _).bind fun _ t => ih _ _ t
      · exact osOnly_go rfl

theorem osOnly_linkReady (prev p : Int) (s : State) : (linkReady prev p s).OsOnly s := by
  unfold linkReady; split
  · exact osOnly_go rfl
  · exact osOnly_store _ _ _

theorem osOnly_insertReady (p : Int) (s : State) : (insertReady p s).OsOnly s := by
  unfold insertReady; split
  · exact (osOnly_store _ _ _).bind fun _ _ => (osOnly_load _ _).bind fun _ t =>
      (osOnly_readyPlace _ _ _ _ t).bind fun _ _ => (osOnly_store _ _ _).bind fun _ t => osOnly_linkReady _ _ t
  · exact osOnly_go rfl

theorem osOnly_insertWaiting (p : Int) (s : State) : (insertWaiting p s).OsOnly s := by
  unfold insertWaiting; split
  · exact (osOnly_store _ _ _).bind fun _ _ => (osOnly_store _ _ _).bind fun _ _ => osOnly_go rfl
  · exact osOnly_go rfl

theorem osOnly_selectNext (s : State) : (selectNext s).OsOnly s := by
  unfold selectNext; split
  · exact osOnly_go rfl
  · exact (osOnly_load _ _).bind fun nxt t =>
      ((osOnly_store _ _ (t.setRqHead nxt) : Flow.OsOnly t _)).bind fun _ _ => osOnly_go rfl

theorem osOnly_unlinkWaiting (prev cur : Int) (s : State) : (unlinkWaiting prev cur s).OsOnly s := by
  refine (osOnly_load _ _).bind fun nxt t => ?_
  refine Flow.OsOnly.bind ?_ fun _ t => osOnly_store _ _ t
  split
  · exact osOnly_go rfl
  · exact osOnly_store _ _ _

theorem osOnly_removeWalk (pid : Int) (fuel : Nat) :
    ∀ (prev cur : Int) (s : State), (removeWalk pid fuel prev cur s).OsOnly s := by
  induction fuel with
  | zero => exact fun _ _ _ => osOnly_stop
  | succ n ih =>
    intro prev cur s
    unfold removeWalk; split
    · exact osOnly_go rfl
    · refine (osOnly_load _ _).bind fun q t => ?_
      split
      · exact (osOnly_unlinkWaiting _ _ t).bind fun _ _ => osOnly_go rfl
      · exact (osOnly_load _ _).bind fun _ t => ih _ _ t

theorem osOnly_removeWaiting (pid : Int) (s : State) : (removeWaiting pid s).OsOnly s := osOnly_removeWalk ..

/-! ### Processes (R313, R331, R333) -/

theorem osOnly_loadLines (ls : List (Int × Int)) : ∀ s : State, (loadLines ls s).OsOnly s := by
  induction ls with
  | nil => exact fun _ => osOnly_go rfl
  | cons l ls ih =>
    intro s
    unfold loadLines; split
    · exact osOnly_go rfl
    · split
      · exact (osOnly_store _ _ _).bind fun _ t => ih t
      · exact osOnly_go rfl

theorem osOnly_loadFile (f : ProgramFile) (s : State) : (loadFile f s).OsOnly s := by
  unfold loadFile; split
  · exact osOnly_loadLines _ _
  · exact osOnly_go rfl

theorem osOnly_abandonPcb (p : Int) (r : Report) (s : State) : (abandonPcb p r s).OsOnly s :=
  (osOnly_free _ _ _ (report r s) : Flow.OsOnly s _).bind fun _ _ => osOnly_go rfl

theorem osOnly_finishPcb (p start stack priority : Int) (s : State) :
    (finishPcb p start stack priority s).OsOnly s :=
  (osOnly_store _ _ _).bind fun _ _ => (osOnly_store _ _ _).bind fun _ _ => (osOnly_store _ _ _).bind fun _ _ =>
    (osOnly_store _ _ _).bind fun _ _ => (osOnly_store _ _ _).bind fun _ _ => (osOnly_store _ _ _).bind fun _ t =>
      osOnly_insertReady _ t

theorem osOnly_createStack (p start priority : Int) (s : State) : (createStack p start priority s).OsOnly s :=
  (osOnly_allocate _ _ _).bind fun r t => by
    cases r with
    | address a => exact osOnly_finishPcb ..
    | noFreeMemory => exact osOnly_abandonPcb ..
    | invalidSize => exact osOnly_abandonPcb ..

theorem reportFree_forgetOs (r1 r2 : FreeResult) (s : State) : (reportFree r1 r2 s).forgetOs = s.forgetOs := by
  unfold reportFree; split <;> rfl

theorem osOnly_terminateProcess (p : Int) (s : State) : (terminateProcess p s).OsOnly s :=
  (osOnly_load _ _).bind fun _ _ => (osOnly_load _ _).bind fun _ _ => (osOnly_free ..).bind fun _ _ =>
    (osOnly_free ..).bind fun _ t => osOnly_go (reportFree_forgetOs _ _ t)

/-! ### Completions and routing (R304, R305, R311) -/

theorem osOnly_inputCompletion (pid ch : Int) (s : State) : (inputCompletion pid ch s).OsOnly s :=
  (osOnly_removeWaiting _ _).bind fun p t => by
    split
    · exact osOnly_go rfl
    · exact (osOnly_store _ _ _).bind fun _ t => osOnly_insertReady _ t

theorem osOnly_outputCompletion (pid : Int) (s : State) : (outputCompletion pid s).OsOnly s :=
  (osOnly_removeWaiting _ _).bind fun p t => by
    split
    · exact osOnly_go rfl
    · exact (osOnly_load _ _).bind fun _ u => (osOnly_insertReady _ (u.emit _) : Flow.OsOnly u _)

theorem osOnly_blockProcess (p reason : Int) (s : State) : (blockProcess p reason s).OsOnly s :=
  (osOnly_saveContext _ _).bind fun _ _ => (osOnly_store _ _ _).bind fun _ t => osOnly_insertWaiting _ t

theorem osOnly_route (p : Int) (st : ExitStatus) (s : State) : (route p st s).OsOnly s := by
  cases st with
  | timeSliceExpired => exact (osOnly_saveContext _ _).bind fun _ t => osOnly_insertReady _ t
  | startOfInput => exact osOnly_blockProcess ..
  | startOfOutput => exact osOnly_blockProcess ..
  | halted => exact osOnly_terminateProcess ..
  | fault c => exact osOnly_terminateProcess ..

/-! ### The parts of the loop (R310) -/

/-- The state with the next process ID and its draws forgotten too, which process creation changes. -/
def State.forgetPid (s : State) : State := { s.forgetOs with nextPid := 0, freeDraws := 0 }

theorem advancePid_cases (s : State) : ∃ v d, advancePid s = s.setNextPid v d := by
  unfold advancePid; split
  · exact ⟨_, _, rfl⟩
  · exact ⟨_, _, rfl⟩

/-- What `OsOnly` says of a single outcome. -/
theorem Flow.OsOnly.go {s t : State} {x : Flow α} {a : α} (hx : x.OsOnly s) (h : x = .go a t) :
    t.forgetOs = s.forgetOs := hx.1 a t h

theorem Flow.OsOnly.not_raise {s t : State} {x : Flow α} {c : FaultCode} (hx : x.OsOnly s) : x ≠ .raise c t :=
  fun h => hx.2 c t h

end Sys2Proof.Machine
end

