-- ==== Sys2Proof/Laws/Allocator.lean ====
section
/-! SUPPORT. The laws of the two allocators (R240 to R245). -/

namespace Sys2Proof.Machine

/-! ### Regions -/

theorem region_bounds (g : Region) : 4000 ≤ regionLo g ∧ regionHi g ≤ 9999 ∧ regionHi g = regionLo g + 2999 := by
  cases g <;> decide

theorem memAddr_of_region {g : Region} {a : Int} (h1 : regionLo g ≤ a) (h2 : a ≤ regionHi g) : MemAddr a := by
  have := region_bounds g
  rw [memAddr_iff]; omega

theorem roundSize_ge {size : Int} (h : 1 ≤ size) : 2 ≤ roundSize size := by
  unfold roundSize; split <;> omega

theorem roundSize_cases (size : Int) : roundSize size = size ∨ size = 1 ∧ roundSize size = 2 := by
  unfold roundSize; split
  · exact .inr ⟨by assumption, rfl⟩
  · exact .inl rfl

@[simp] theorem setFreeHead_mem (g : Region) (v : Int) (s : State) : (setFreeHead g v s).mem = s.mem := by cases g <;> rfl

@[simp] theorem setFreeHead_regs (g : Region) (v : Int) (s : State) : (setFreeHead g v s).regs = s.regs := by
  cases g <;> rfl

@[simp] theorem setFreeHead_cfg (g : Region) (v : Int) (s : State) : (setFreeHead g v s).cfg = s.cfg := by cases g <;> rfl

@[simp] theorem freeHead_setFreeHead (g : Region) (v : Int) (s : State) : freeHead g (setFreeHead g v s) = v := by
  cases g <;> rfl

@[simp] theorem freeHead_setMem (g : Region) (m : Memory) (s : State) : freeHead g (s.setMem m) = freeHead g s := by
  cases g <;> rfl

/-! ### Free (R243) -/

/-- Every answer of a deallocation. -/
theorem free_cases (g : Region) (a size : Int) (s : State) :
    size < 1 ∧ free g a size s = .go .invalidSize s ∨
    1 ≤ size ∧ ¬ (regionLo g ≤ a ∧ a + roundSize size - 1 ≤ regionHi g) ∧ free g a size s = .go .invalidAddress s ∨
    1 ≤ size ∧ regionLo g ≤ a ∧ a + roundSize size - 1 ≤ regionHi g ∧
      free g a size s = .go .ok (setFreeHead g a
        (s.setMem ((s.mem.write a.toNat (freeHead g s)).write (a + 1).toNat (roundSize size)))) := by
  by_cases h : size < 1
  · exact .inl ⟨h, if_pos h⟩
  · have hn := roundSize_ge (show 1 ≤ size by omega)
    right
    unfold free
    rw [if_neg h]
    generalize roundSize size = n at *
    by_cases hr : regionLo g ≤ a ∧ a + n - 1 ≤ regionHi g
    · right
      refine ⟨by omega, hr.1, hr.2, ?_⟩
      rw [if_neg (by omega), store_of_memAddr (memAddr_of_region (g := g) hr.1 (by omega)), Flow.bind_go,
        store_of_memAddr (memAddr_of_region (g := g) (by omega) (by omega)), Flow.bind_go]
      rfl
    · exact .inl ⟨by omega, hr, by rw [if_pos (by omega)]⟩

/-- A deallocation inside the region. -/
theorem free_of_inRegion {g : Region} {a size : Int} (h : 1 ≤ size) (h1 : regionLo g ≤ a)
    (h2 : a + roundSize size - 1 ≤ regionHi g) (s : State) :
    free g a size s = .go .ok (setFreeHead g a
        (s.setMem ((s.mem.write a.toNat (freeHead g s)).write (a + 1).toNat (roundSize size)))) := by
  rcases free_cases g a size s with ⟨h', -⟩ | ⟨-, h', -⟩ | ⟨-, -, -, h'⟩
  · omega
  · exact absurd ⟨h1, h2⟩ h'
  · exact h'

/-! ### The first-fit walk (R242) -/

/-- What a free list of a region is, entry by entry. -/
theorem FreeList.block {g : Region} {bs : List (Int × Int)} {s : State} (h : FreeList g bs s) {b : Int × Int}
    (hb : b ∈ bs) : regionLo g ≤ b.1 ∧ 2 ≤ b.2 ∧ b.1 + b.2 - 1 ≤ regionHi g ∧ s.mem.read (b.1 + 1).toNat = b.2 :=
  ⟨(h.1.1 b hb).1, (h.1.1 b hb).2.1, (h.1.1 b hb).2.2, ((freeChain_iff bs _).mp h.2).2 b hb⟩

/-- The links of a free list form a chain. -/
theorem FreeList.chain {g : Region} {bs : List (Int × Int)} {s : State} (h : FreeList g bs s) :
    queueChain s.mem (freeHead g s) (bs.map Prod.fst) := ((freeChain_iff bs _).mp h.2).1

/-- One turn of the walk at a block of the region. -/
theorem allocWalk_turn {g : Region} {n : Int} {fuel : Nat} {prev cur : Int} {s : State} (h1 : regionLo g ≤ cur)
    (h2 : cur + 1 ≤ regionHi g) :
    allocWalk g n (fuel + 1) prev cur s =
      (takeBlock g n prev cur (s.mem.read cur.toNat) (s.mem.read (cur + 1).toNat) s).bind fun r t =>
        match r with
        | some a => .go a t
        | none => allocWalk g n fuel cur (s.mem.read cur.toNat) t := by
  have hbnd := region_bounds g
  conv_lhs => unfold allocWalk
  rw [if_neg (by show cur ≠ -1; omega), if_pos ⟨h1, h2⟩,
    load_of_memAddr (memAddr_of_region (g := g) h1 (by omega)), Flow.bind_go,
    load_of_memAddr (memAddr_of_region (g := g) (a := cur + 1) (by omega) (by omega))]
  show (takeBlock g n prev cur (s.mem.read cur.toNat) (s.mem.read (cur + 1).toNat) s).bind _ = _
  cases takeBlock g n prev cur (s.mem.read cur.toNat) (s.mem.read (cur + 1).toNat) s <;> rfl

/-- The walk passes over blocks that are too small, and changes nothing while it does. -/
theorem allocWalk_skip {g : Region} {n : Int} {s : State} {rest : List Int} (skipped : List (Int × Int)) :
    ∀ (fuel : Nat) (prev cur : Int), queueChain s.mem cur (skipped.map Prod.fst ++ rest) →
      (∀ b ∈ skipped, regionLo g ≤ b.1 ∧ 2 ≤ b.2 ∧ b.1 + b.2 - 1 ≤ regionHi g ∧ s.mem.read (b.1 + 1).toNat = b.2) →
      (∀ b ∈ skipped, b.2 < n) →
      ∃ k, queueChain s.mem k rest ∧
        allocWalk g n (skipped.length + fuel) prev cur s =
          allocWalk g n fuel ((skipped.map Prod.fst).getLastD prev) k s := by
  induction skipped with
  | nil => intro fuel prev cur hc _ _; exact ⟨cur, hc, by simp⟩
  | cons b bs ih =>
    intro fuel prev cur hc hb hn
    obtain ⟨h1, h2, h3, h4⟩ := hb b (List.mem_cons_self ..)
    have hlt := hn b (List.mem_cons_self ..)
    have hbnd := region_bounds g
    obtain ⟨hcur, hc'⟩ := queueChain_head hc
    obtain ⟨k, hk, he⟩ := ih fuel b.1 _ hc' (fun x hx => hb x (List.mem_cons_of_mem _ hx))
      fun x hx => hn x (List.mem_cons_of_mem _ hx)
    refine ⟨k, hk, ?_⟩
    subst hcur
    rw [List.length_cons, Nat.succ_add_eq_add_succ, Nat.add_succ, allocWalk_turn h1 (by omega), h4]
    unfold takeBlock
    rw [if_neg (by omega), if_neg (by omega), Flow.bind_go]
    refine he.trans ?_
    cases bs <;> simp [List.getLast?_cons]

/-- The walk at the end of the list: no block was large enough. -/
theorem allocWalk_end {g : Region} {n : Int} {fuel : Nat} {prev : Int} {s : State} :
    allocWalk g n (fuel + 1) prev (-1) s = .go .noFreeMemory s := by
  unfold allocWalk; exact if_pos rfl

/-- The walk at a block of the region that it takes, splits or refuses. -/
theorem allocWalk_here {g : Region} {n size : Int} {fuel : Nat} {prev cur : Int} {s : State} (h1 : regionLo g ≤ cur)
    (h2 : cur + 1 ≤ regionHi g) (h3 : s.mem.read (cur + 1).toNat = size) (h4 : n ≤ size) :
    allocWalk g n (fuel + 1) prev cur s =
      (takeBlock g n prev cur (s.mem.read cur.toNat) size s).bind fun r t =>
        match r with
        | some a => .go a t
        | none => .stop .freeListHang := by
  rw [allocWalk_turn h1 h2, h3]
  unfold takeBlock
  by_cases he : size = n
  · rw [if_pos he]
    cases link g prev (s.mem.read cur.toNat) s <;> rfl
  · rw [if_neg he, if_pos (by omega)]
    by_cases h5 : size - n = 1
    · rw [if_pos h5]; rfl
    · rw [if_neg h5]
      cases store (cur + n) (s.mem.read cur.toNat) s with
      | go u t =>
        simp only [Flow.bind_go]
        cases store (cur + n + 1) (size - n) t with
        | go u t => simp only [Flow.bind_go]; cases link g prev (cur + n) t <;> rfl
        | _ => rfl
      | _ => rfl

/-- `Link` behind a block of the region, or at the head. -/
theorem link_eq {g : Region} {prev v : Int} {s : State} (h : prev = -1 ∨ MemAddr prev) :
    link g prev v s = .go () (if prev = -1 then setFreeHead g v s else s.setMem (s.mem.write prev.toNat v)) := by
  unfold link
  by_cases hp : prev = -1
  · simp [hp]
  · have hm := h.resolve_left hp
    simp [hp, hm]

/-! ### InitFreeList (R245) -/

/-- What InitFreeList writes. -/
theorem initFreeList_eq (g : Region) (s : State) :
    initFreeList g s = .go () (setFreeHead g (regionLo g)
      (s.setMem ((s.mem.write (regionLo g).toNat (-1)).write (regionLo g + 1).toNat 3000))) := by
  have hb := region_bounds g
  have h3 : regionHi g - regionLo g + 1 = 3000 := by omega
  unfold initFreeList
  rw [store_of_memAddr (memAddr_of_region (g := g) (by omega) (by omega)), Flow.bind_go,
    store_of_memAddr (memAddr_of_region (g := g) (by omega) (by omega)), Flow.bind_go, h3]
  rfl

/-! ### What an allocation may write (R241, R242) -/

/-- Two memories read alike below an address. -/
def SameBelow (lo : Int) (s t : State) : Prop := ∀ a : Nat, (a : Int) < lo → t.mem.read a = s.mem.read a

theorem SameBelow.refl (lo : Int) (s : State) : SameBelow lo s s := fun _ _ => rfl

theorem SameBelow.trans {lo : Int} {s t u : State} (h : SameBelow lo s t) (h' : SameBelow lo t u) : SameBelow lo s u :=
  fun a ha => (h' a ha).trans (h a ha)

theorem sameBelow_write {lo a v : Int} {s t : State} (ha : lo ≤ a) (ht : t.mem = s.mem.write a.toNat v) :
    SameBelow lo s t := by
  intro b hb
  rw [ht, Memory.read_write_other _ _ (by omega)]

theorem sat_store_above {lo a v : Int} {s : State} (ha : lo ≤ a) :
    (store a v s).Sat (fun _ t => SameBelow lo s t) fun _ _ => False :=
  (sat_store a v s).mono (fun _ _ h => sameBelow_write ha (congrArg State.mem h.2)) fun _ _ h => h

theorem sat_link_above {g : Region} {prev v : Int} {s : State} (h : prev = -1 ∨ regionLo g ≤ prev) :
    (link g prev v s).Sat (fun _ t => SameBelow (regionLo g) s t) fun _ _ => False := by
  unfold link; split
  · exact Flow.sat_go.mpr fun a _ => by rw [setFreeHead_mem]
  · exact sat_store_above (h.resolve_left (by assumption))

/-- An allocation writes nothing below its region. -/
theorem sat_allocWalk_above {g : Region} {size : Int} (hs : 0 ≤ size) (fuel : Nat) : ∀ (prev cur : Int) (s : State),
    (prev = -1 ∨ regionLo g ≤ prev) →
    (allocWalk g size fuel prev cur s).Sat (fun _ t => SameBelow (regionLo g) s t) fun _ _ => False := by
  induction fuel with
  | zero => exact fun _ _ _ _ => Flow.sat_stop
  | succ k ih =>
    intro prev cur s hp
    unfold allocWalk
    split
    · exact Flow.sat_go.mpr (SameBelow.refl _ _)
    · split
      · rename_i hcur
        refine (sat_load _ _).bind fun nxt u hu => ?_
        obtain ⟨-, -, rfl⟩ := hu
        refine (sat_load _ _).bind fun sz u hu => ?_
        obtain ⟨-, -, rfl⟩ := hu
        have htake : (takeBlock g size prev cur nxt sz u).Sat (fun _ t => SameBelow (regionLo g) u t) fun _ _ => False := by
          unfold takeBlock; split
          · exact (sat_link_above hp).bind fun _ t ht => Flow.sat_go.mpr ht
          · split
            · split
              · exact Flow.sat_refuse
              · exact (sat_store_above (by omega)).bind fun _ t ht => (sat_store_above (s := t) (by omega)).bind
                  fun _ t2 ht2 => (sat_link_above (s := t2) hp).bind fun _ t3 ht3 =>
                    Flow.sat_go.mpr (ht.trans (ht2.trans ht3))
            · exact Flow.sat_go.mpr (SameBelow.refl _ _)
        refine htake.bind fun r t ht => ?_
        cases r with
        | some a => exact Flow.sat_go.mpr ht
        | none =>
          exact (ih cur nxt t (.inr hcur.1)).mono (fun _ _ h => ht.trans h) fun _ _ h => h
      · exact Flow.sat_refuse

theorem sat_allocate_above (g : Region) (size : Int) (s : State) :
    (allocate g size s).Sat (fun _ t => SameBelow (regionLo g) s t) fun _ _ => False := by
  unfold allocate; split
  · exact Flow.sat_go.mpr (SameBelow.refl _ _)
  · split
    · exact Flow.sat_refuse
    · exact sat_allocWalk_above (by have := roundSize_ge (show 1 ≤ size by omega); omega) _ _ _ _ (.inl rfl)

theorem sat_free_above (g : Region) (a size : Int) (s : State) :
    (free g a size s).Sat (fun _ t => SameBelow (regionLo g) s t) fun _ _ => False := by
  rcases free_cases g a size s with ⟨-, h⟩ | ⟨-, -, h⟩ | ⟨-, h1, -, h⟩ <;> rw [h]
  · exact Flow.sat_go.mpr (SameBelow.refl _ _)
  · exact Flow.sat_go.mpr (SameBelow.refl _ _)
  · refine Flow.sat_go.mpr (SameBelow.trans (t := s.setMem (s.mem.write a.toNat (freeHead g s)))
      (sameBelow_write h1 rfl) (sameBelow_write (a := a + 1) (v := roundSize size) (by omega) (by simp)))

end Sys2Proof.Machine
end

