-- ==== Sys2Proof/Laws/Decode.lean ====
section
/-! SUPPORT. The laws of decoding and encoding: the digits of a word, and what a decoded word has passed. -/

namespace Sys2Proof

/-- The fields of a word written as its digits (R81). -/
theorem unpack_digits {op m1 r1 m2 r2 : Nat} (h1 : m1 ≤ 9) (h2 : r1 ≤ 9) (h3 : m2 ≤ 9) (h4 : r2 ≤ 9) :
    unpack (op * 10000 + m1 * 1000 + r1 * 100 + m2 * 10 + r2) = ⟨op, m1, r1, m2, r2⟩ := by
  simp only [unpack, digit, Fields.mk.injEq]
  refine ⟨?_, ?_, ?_, ?_, ?_⟩ <;> omega

/-- A legal mode digit is 1 to 6. -/
theorem modeLegal_iff {m : Nat} : modeLegal m = true ↔ 1 ≤ m ∧ m ≤ 6 := by simp [modeLegal]

/-- A register digit read back from an operand. -/
theorem operandOf_val (o : Operand) : operandOf o.mode o.reg.val = o := by
  obtain ⟨m, r⟩ := o
  simp [operandOf]

/-- A word that decodes lies in the range of R80, passes the checks of R83, and its fields are those of the instruction. -/
theorem decode_eq_ok {chk : Bool} {w : Int} {i : Instr} :
    decode chk w = .ok i ↔
      0 ≤ w ∧ w ≤ 999999 ∧ fieldFault chk (unpack w.toNat) = none ∧ instrOf (unpack w.toNat) = .ok i := by
  unfold decode
  by_cases h : w < 0 ∨ 999999 < w
  · simp only [if_pos h, reduceCtorEq, false_iff]; omega
  · have h1 : 0 ≤ w := by omega
    have h2 : w ≤ 999999 := by omega
    simp only [if_neg h, h1, h2, true_and]
    cases fieldFault chk (unpack w.toNat) <;> simp

/-- No field check applies exactly when every checked digit is legal. -/
theorem fieldFault_eq_none {chk : Bool} {f : Fields} :
    fieldFault chk f = none ↔
      (checksOperand1 chk f.op = true → modeLegal f.m1 = true ∧ f.r1 ≤ 7) ∧
      (checksOperand2 chk f.op = true → modeLegal f.m2 = true ∧ f.r2 ≤ 7) := by
  unfold fieldFault
  cases checksOperand1 chk f.op <;> cases checksOperand2 chk f.op <;> cases modeLegal f.m1 <;> cases modeLegal f.m2 <;>
    by_cases a : 7 < f.r1 <;> by_cases b : 7 < f.r2 <;> simp [a, b] <;> omega

/-- An instruction word that decodes gives a well-formed instruction. -/
theorem decode_wellFormed {chk : Bool} {w : Int} {i : Instr} (h : decode chk w = .ok i) : i.wellFormed = true := by
  obtain ⟨-, -, hf, hi⟩ := decode_eq_ok.mp h
  obtain ⟨h1, h2⟩ := fieldFault_eq_none.mp hf
  generalize unpack w.toNat = f at *
  obtain ⟨op, m1, r1, m2, r2⟩ := f
  unfold instrOf at hi
  simp only at hi
  split at hi <;> simp only [Except.ok.injEq, reduceCtorEq] at hi <;> subst hi <;>
    simp [Instr.wellFormed, Instr.operands, Operand.wellFormed, operandOf, checksOperand1, checksOperand2] at h1 h2 ⊢ <;>
    tauto

end Sys2Proof
end

