-- ==== Sys2Proof/Laws/Words.lean ====
section
/-! SUPPORT. The laws of the word range and of checked arithmetic. -/

namespace Sys2Proof.Machine

/-- The word range is that of a two's-complement word of `wordBits` bits. -/
theorem wordRange (p : Params) (h : 0 < p.wordBits) :
    p.wordMin = -2 ^ (p.wordBits - 1) ∧ p.wordMax = 2 ^ (p.wordBits - 1) - 1 ∧
      (2 : Int) ^ p.wordBits = 2 * 2 ^ (p.wordBits - 1) := by
  refine ⟨rfl, rfl, ?_⟩
  obtain ⟨n, hn⟩ : ∃ n, p.wordBits = n + 1 := ⟨p.wordBits - 1, by omega⟩
  rw [hn, Nat.add_sub_cancel, pow_succ]; ring

/-- R9: at 24 bits or more the word range holds every instruction word and every address. -/
theorem wordRange_large {p : Params} (h : 24 ≤ p.wordBits) : p.wordMin ≤ -8388608 ∧ 8388607 ≤ p.wordMax := by
  have h2 : (2 : Int) ^ 23 ≤ 2 ^ (p.wordBits - 1) := pow_le_pow_right₀ (by norm_num) (by omega)
  unfold Params.wordMin Params.wordMax leastWord greatestWord
  norm_num at h2 ⊢
  omega

theorem isWord_of_small {p : Params} (h : 24 ≤ p.wordBits) {v : Int} (h1 : -8388608 ≤ v) (h2 : v ≤ 8388607) :
    p.IsWord v := by
  have := wordRange_large h
  exact ⟨by omega, by omega⟩

theorem isWord_of_between {p : Params} {a b v : Int} (ha : p.IsWord a) (hb : p.IsWord b) (h1 : a ≤ v) (h2 : v ≤ b) :
    p.IsWord v := by
  rw [isWord_iff] at *; omega

theorem bmod_isWord {p : Params} (h : 0 < p.wordBits) (v : Int) : p.IsWord (Int.bmod v (2 ^ p.wordBits)) := by
  obtain ⟨h1, h2, h3⟩ := wordRange p h
  have hpos : (0 : Int) < 2 ^ (p.wordBits - 1) := by positivity
  have hm : ((2 ^ p.wordBits : Nat) : Int) = 2 * 2 ^ (p.wordBits - 1) := by push_cast; exact h3
  have hm0 : 0 < 2 ^ p.wordBits := by positivity
  have a := Int.le_bmod (x := v) hm0
  have b := Int.bmod_lt (x := v) hm0
  rw [isWord_iff, h1, h2]
  rw [hm] at a b
  omega

/-- D2: a wrapped result is a Word. -/
theorem wrapWord_isWord {p : Params} (h : 0 < p.wordBits) (v : Int) : p.IsWord (wrapWord p v) := bmod_isWord h v

/-- D2: the wrapped result is the one Word congruent to the true result. -/
theorem wrapWord_eq {p : Params} (h : 0 < p.wordBits) {v w : Int} (hw : p.IsWord w)
    (hd : (2 ^ p.wordBits : Int) ∣ w - v) : wrapWord p v = w := by
  obtain ⟨h1, h2, h3⟩ := wordRange p h
  have hpos : (0 : Int) < 2 ^ (p.wordBits - 1) := by positivity
  have hm : ((2 ^ p.wordBits : Nat) : Int) = 2 * 2 ^ (p.wordBits - 1) := by push_cast; exact h3
  rw [isWord_iff, h1, h2] at hw
  have hb : Int.bmod v (2 ^ p.wordBits) = Int.bmod w (2 ^ p.wordBits) := by
    rw [Int.bmod_eq_bmod_iff_bmod_sub_eq_zero]
    apply Int.bmod_eq_zero_of_dvd
    rw [← Int.neg_sub]
    push_cast
    exact (Int.dvd_neg).mpr hd
  unfold wrapWord
  rw [hb]
  apply Int.bmod_eq_of_le <;> rw [hm] <;> omega

/-! ### Checked results (R14) -/

@[simp] theorem checked_of_isWord {v : Int} {s : State} (h : s.cfg.IsWord v) : checked v s = .go v s := if_pos h

/-- All `checked` can do: it answers the value when it is a Word, and under the Wrap policy the wrapped value otherwise. -/
theorem checked_eq_go {v w : Int} {s t : State} :
    checked v s = .go w t ↔
      t = s ∧ (s.cfg.IsWord v ∧ w = v ∨ ¬ s.cfg.IsWord v ∧ s.cfg.overflow = .wrap ∧ w = wrapWord s.cfg v) := by
  unfold checked
  by_cases h : s.cfg.IsWord v
  · simp [h, eq_comm, and_comm]
  · cases hp : s.cfg.overflow <;> simp [h, eq_comm, and_comm]

/-- A checked result raises only ArithmeticOverflow, under the Fault policy, and changes nothing. -/
theorem checked_eq_raise {v : Int} {c : FaultCode} {s t : State} :
    checked v s = .raise c t ↔
      t = s ∧ c = .arithmeticOverflow ∧ ¬ s.cfg.IsWord v ∧ s.cfg.overflow = .fault := by
  unfold checked
  by_cases h : s.cfg.IsWord v
  · simp [h]
  · cases hp : s.cfg.overflow <;> simp [h, eq_comm, and_comm]

/-- A checked result is a Word. -/
theorem checked_isWord {v w : Int} {s t : State} (hb : 0 < s.cfg.wordBits) (h : checked v s = .go w t) :
    s.cfg.IsWord w := by
  obtain ⟨-, ⟨h, rfl⟩ | ⟨-, -, rfl⟩⟩ := checked_eq_go.mp h
  · exact h
  · exact wrapWord_isWord hb v

theorem checked_ne_stop {v : Int} {s : State} {f : Fault} : checked v s ≠ .stop f := by
  unfold checked; split
  · simp
  · split <;> simp

theorem checked_ne_refuse {v : Int} {s : State} {r : Refusal} : checked v s ≠ .refuse r := by
  unfold checked; split
  · simp
  · split <;> simp

/-! ### The operations of the arithmetic instructions

Each answers a value in an unchanged state, or raises a fault in an unchanged state. -/

/-- What every operation of R161 to R165 is: it changes no state, and neither stops nor refuses. -/
structure PureOp (f : Int → Int → State → Flow Int) : Prop where
  go_state : ∀ {v1 v2 r : Int} {s t : State}, f v1 v2 s = .go r t → t = s
  raise_state : ∀ {v1 v2 : Int} {c : FaultCode} {s t : State}, f v1 v2 s = .raise c t → t = s
  answers : ∀ (v1 v2 : Int) (s : State), (∃ r, f v1 v2 s = .go r s) ∨ ∃ c, f v1 v2 s = .raise c s

theorem checked_answers (v : Int) (s : State) : (∃ r, checked v s = .go r s) ∨ ∃ c, checked v s = .raise c s := by
  unfold checked
  split
  · exact .inl ⟨_, rfl⟩
  · split
    · exact .inr ⟨_, rfl⟩
    · exact .inl ⟨_, rfl⟩

theorem pureOp_checked (f : Int → Int → Int) : PureOp (fun v1 v2 s => checked (f v1 v2) s) where
  go_state h := (checked_eq_go.mp h).1
  raise_state h := (checked_eq_raise.mp h).1
  answers _ _ _ := checked_answers _ _

theorem pureOp_add : PureOp addWords := pureOp_checked (· + ·)

theorem pureOp_sub : PureOp subWords := pureOp_checked (· - ·)

theorem pureOp_mul : PureOp mulWords := pureOp_checked (· * ·)

theorem pureOp_div : PureOp divWords where
  go_state h := by
    unfold divWords at h; split at h
    · simp at h
    · exact (checked_eq_go.mp h).1
  raise_state h := by
    unfold divWords at h; split at h
    · simp at h; exact h.2.symm
    · exact (checked_eq_raise.mp h).1
  answers v1 v2 s := by
    unfold divWords; split
    · exact .inr ⟨_, rfl⟩
    · exact checked_answers _ _

end Sys2Proof.Machine
end

