-- ==== Sys2Proof/Laws/Operands.lean ====
section
/-! SUPPORT. The laws of the resolver, of destination writes and of completion: what each can do, said once. -/

namespace Sys2Proof.Machine

/-! ### The resolver -/

/-- The stream word answers the word at `pc`, which then is a user address, and changes nothing. -/
theorem streamWord_eq_go {s t : State} {v : Int} :
    streamWord s = .go v t ↔ UserAddr s.pc ∧ v = s.word s.pc ∧ t = s := by
  unfold streamWord
  by_cases h : UserAddr s.pc
  · simp [h, memAddr_of_userAddr h, State.word, eq_comm]
  · simp [h]

/-- The stream word raises only Runtime, when `pc` is no user address, and changes nothing. -/
theorem streamWord_eq_raise {s t : State} {c : FaultCode} :
    streamWord s = .raise c t ↔ ¬ UserAddr s.pc ∧ c = .runtime ∧ t = s := by
  unfold streamWord
  by_cases h : UserAddr s.pc
  · simp [h, memAddr_of_userAddr h]
  · simp [h, eq_comm]

/-- The stream word goes on or raises; it neither stops nor refuses. -/
theorem streamWord_answers (s : State) :
    streamWord s = .go (s.word s.pc) s ∧ UserAddr s.pc ∨ streamWord s = .raise .runtime s ∧ ¬ UserAddr s.pc := by
  by_cases h : UserAddr s.pc
  · exact .inl ⟨streamWord_eq_go.mpr ⟨h, rfl, rfl⟩, h⟩
  · exact .inr ⟨streamWord_eq_raise.mpr ⟨h, rfl, rfl⟩, h⟩

/-- The six arms of the resolver, for an operand whose mode is legal. -/
theorem wellFormed_cases {o : Operand} (h : o.wellFormed = true) :
    o.mode = 1 ∨ o.mode = 2 ∨ o.mode = 3 ∨ o.mode = 4 ∨ o.mode = 5 ∨ o.mode = 6 := by
  simp only [Operand.wellFormed, modeLegal, decide_eq_true_eq] at h
  omega

/-- R147: a mode outside 1..6 raises InvalidMode and changes nothing. -/
theorem resolve_of_not_wellFormed {o : Operand} (h : o.wellFormed = false) (s : State) :
    resolve o s = .raise .invalidMode s := by
  simp only [Operand.wellFormed, modeLegal, decide_eq_false_iff_not] at h
  unfold resolve
  split <;> first | rfl | omega

/-- D2, R144: the decrement of a Word, where it is checked into a user address, is the exact decrement. -/
theorem checked_pred_user {s t : State} {x a : Int} (hc : 24 ≤ s.cfg.wordBits) (hx : s.cfg.IsWord x)
    (h : checked (x - 1) s = .go a t) (hu : UserAddr a) : t = s ∧ a = x - 1 := by
  obtain ⟨rfl, ⟨-, rfl⟩ | ⟨hn, -, rfl⟩⟩ := checked_eq_go.mp h
  · exact ⟨rfl, rfl⟩
  · exfalso
    obtain ⟨e1, e2, e3⟩ := wordRange t.cfg (by omega)
    have hl := wordRange_large hc
    rw [isWord_iff] at hx hn
    have hw : wrapWord t.cfg (x - 1) = t.cfg.wordMax :=
      wrapWord_eq (by omega) (isWord_iff.mpr ⟨by omega, by omega⟩) ⟨1, by rw [e3]; omega⟩
    rw [hw, userAddr_iff] at hu
    omega

/-- All a resolution that goes on can do: the operand was ready, it answers what the operand denotes, and it changes what
its mode changes (R141 to R146, R150). -/
theorem resolve_eq_go {o : Operand} {s t : State} {p : Dest × Int} (hc : 24 ≤ s.cfg.wordBits)
    (hw : s.cfg.IsWord (s.reg o.reg)) (h : resolve o s = .go p t) :
    operandReady o s ∧ p = (operandDest o s, operandValue o s) ∧ t = operandAfter o s := by
  obtain ⟨m, r⟩ := o
  unfold resolve at h
  simp only at h
  split at h
  · simp only [resolveRegister, Flow.go.injEq] at h
    obtain ⟨rfl, rfl⟩ := h
    exact ⟨by simp [operandReady, Operand.wellFormed, modeLegal, operandInMemory, modeUsesStream], rfl, rfl⟩
  · unfold resolveDeferred at h
    by_cases hu : UserAddr (s.reg r)
    · simp only [hu, if_true, load_of_memAddr (memAddr_of_userAddr hu), Flow.bind_go, Flow.go.injEq] at h
      obtain ⟨rfl, rfl⟩ := h
      exact ⟨⟨rfl, by simp [modeUsesStream], fun _ => hu⟩, rfl, rfl⟩
    · simp [hu] at h
  · unfold resolveAutoInc at h
    by_cases hu : UserAddr (s.reg r)
    · simp only [hu, if_true, load_of_memAddr (memAddr_of_userAddr hu), Flow.bind_go, Flow.go.injEq] at h
      obtain ⟨rfl, rfl⟩ := h
      exact ⟨⟨rfl, by simp [modeUsesStream], fun _ => hu⟩, rfl, rfl⟩
    · simp [hu] at h
  · unfold resolveAutoDec at h
    obtain ⟨a, s1, h1, h2⟩ := Flow.bind_eq_go.mp h
    by_cases hu : UserAddr a
    · obtain ⟨rfl, rfl⟩ := checked_pred_user hc hw h1 hu
      simp only [hu, if_true, load_of_memAddr (memAddr_of_userAddr hu), Flow.bind_go, Flow.go.injEq] at h2
      obtain ⟨rfl, rfl⟩ := h2
      exact ⟨⟨rfl, by simp [modeUsesStream], fun _ => hu⟩, rfl, rfl⟩
    · simp [hu] at h2
  · unfold resolveDirect at h
    obtain ⟨a, s1, h1, h2⟩ := Flow.bind_eq_go.mp h
    obtain ⟨hp, rfl, rfl⟩ := streamWord_eq_go.mp h1
    by_cases hu : UserAddr (s1.word s1.pc)
    · simp only [hu, if_true, load_of_memAddr (memAddr_of_userAddr hu), Flow.bind_go, Flow.go.injEq] at h2
      obtain ⟨rfl, rfl⟩ := h2
      exact ⟨⟨rfl, fun _ => hp, fun _ => hu⟩, rfl, rfl⟩
    · simp [hu] at h2
  · unfold resolveImmediate at h
    obtain ⟨a, s1, h1, h2⟩ := Flow.bind_eq_go.mp h
    obtain ⟨hp, rfl, rfl⟩ := streamWord_eq_go.mp h1
    simp only [Flow.go.injEq] at h2
    obtain ⟨rfl, rfl⟩ := h2
    exact ⟨⟨rfl, fun _ => hp, by simp [operandInMemory]⟩, rfl, rfl⟩
  · simp at h

/-- A resolution of a ready operand goes on with what the operand denotes. -/
theorem resolve_of_ready {o : Operand} {s : State} (hc : 24 ≤ s.cfg.wordBits) (h : operandReady o s) :
    resolve o s = .go (operandDest o s, operandValue o s) (operandAfter o s) := by
  obtain ⟨hw, hp, hm⟩ := h
  obtain ⟨m, r⟩ := o
  rcases wellFormed_cases hw with h | h | h | h | h | h <;> simp only at h <;> subst h
  · rfl
  · have hu : UserAddr (s.reg r) := hm rfl
    simp [resolve, resolveDeferred, hu, memAddr_of_userAddr hu, operandDest, operandValue, operandAfter, operandAddr,
      State.word]
  · have hu : UserAddr (s.reg r) := hm rfl
    simp [resolve, resolveAutoInc, hu, memAddr_of_userAddr hu, operandDest, operandValue, operandAfter, operandAddr,
      State.word]
  · have hu : UserAddr (s.reg r - 1) := hm rfl
    have hw : s.cfg.IsWord (s.reg r - 1) := by
      rw [userAddr_iff] at hu; exact isWord_of_small hc (by omega) (by omega)
    simp [resolve, resolveAutoDec, hu, hw, memAddr_of_userAddr hu, operandDest, operandValue, operandAfter, operandAddr,
      State.word]
  · have hu : UserAddr (s.word s.pc) := hm rfl
    have hp := hp rfl
    simp [resolve, resolveDirect, streamWord, hp, memAddr_of_userAddr hp, operandDest,
      operandValue, operandAfter, operandAddr, State.word]
    simp [State.word] at hu
    simp [hu, memAddr_of_userAddr hu]
  · have hp := hp rfl
    simp [resolve, resolveImmediate, streamWord, hp, memAddr_of_userAddr hp, operandDest, operandValue, operandAfter,
      State.word]

/-- What a resolution may do to the state, whether it goes on or raises a fault: nothing, its register in modes 3 and 4, or
the advance of `pc` in modes 5 and 6 (R150). -/
def ResolveEffect (o : Operand) (s t : State) : Prop :=
  t = s ∨ (operandSteps o = true ∧ ∃ v, t = s.setReg o.reg v) ∨ (modeUsesStream o.mode = true ∧ t = s.setPc (s.pc + 1))

/-- A resolution goes on or raises a fault; it never stops or refuses, and its effect on the state is one of R150's. -/
theorem resolve_answers (o : Operand) (s : State) :
    (∃ p t, resolve o s = .go p t ∧ ResolveEffect o s t) ∨ ∃ c t, resolve o s = .raise c t ∧ ResolveEffect o s t := by
  obtain ⟨m, r⟩ := o
  unfold resolve
  simp only
  split
  · exact .inl ⟨_, _, rfl, .inl rfl⟩
  · unfold resolveDeferred
    by_cases hu : UserAddr (s.reg r)
    · simp only [hu, if_true, load_of_memAddr (memAddr_of_userAddr hu), Flow.bind_go]
      exact .inl ⟨_, _, rfl, .inl rfl⟩
    · simp only [hu, if_false]
      exact .inr ⟨_, _, rfl, .inl rfl⟩
  · unfold resolveAutoInc
    by_cases hu : UserAddr (s.reg r)
    · simp only [hu, if_true, load_of_memAddr (memAddr_of_userAddr hu), Flow.bind_go]
      exact .inl ⟨_, _, rfl, .inr (.inl ⟨rfl, _, rfl⟩)⟩
    · simp only [hu, if_false]
      exact .inr ⟨_, _, rfl, .inl rfl⟩
  · unfold resolveAutoDec
    rcases checked_answers (s.reg r - 1) s with ⟨a, ha⟩ | ⟨c, hc⟩
    · rw [ha, Flow.bind_go]
      by_cases hu : UserAddr a
      · simp only [hu, if_true, load_of_memAddr (memAddr_of_userAddr hu), Flow.bind_go]
        exact .inl ⟨_, _, rfl, .inr (.inl ⟨rfl, _, rfl⟩)⟩
      · simp only [hu, if_false]
        exact .inr ⟨_, _, rfl, .inr (.inl ⟨rfl, _, rfl⟩)⟩
    · rw [hc, Flow.bind_raise]
      exact .inr ⟨_, _, rfl, .inl rfl⟩
  · unfold resolveDirect
    rcases streamWord_answers s with ⟨h, -⟩ | ⟨h, -⟩
    · rw [h, Flow.bind_go]
      by_cases hu : UserAddr (s.word s.pc)
      · simp only [hu, if_true, load_of_memAddr (memAddr_of_userAddr hu), Flow.bind_go]
        exact .inl ⟨_, _, rfl, .inr (.inr ⟨rfl, rfl⟩)⟩
      · simp only [hu, if_false]
        exact .inr ⟨_, _, rfl, .inr (.inr ⟨rfl, rfl⟩)⟩
    · rw [h, Flow.bind_raise]
      exact .inr ⟨_, _, rfl, .inl rfl⟩
  · unfold resolveImmediate
    rcases streamWord_answers s with ⟨h, -⟩ | ⟨h, -⟩
    · rw [h, Flow.bind_go]
      exact .inl ⟨_, _, rfl, .inr (.inr ⟨rfl, rfl⟩)⟩
    · rw [h, Flow.bind_raise]
      exact .inr ⟨_, _, rfl, .inl rfl⟩
  · exact .inr ⟨_, _, rfl, .inl rfl⟩

theorem resolve_go_effect {o : Operand} {s t : State} {p : Dest × Int} (h : resolve o s = .go p t) :
    ResolveEffect o s t := by
  rcases resolve_answers o s with ⟨q, u, hq, he⟩ | ⟨c, u, hq, he⟩ <;> rw [hq] at h <;> simp at h
  exact h.2 ▸ he

theorem resolve_raise_effect {o : Operand} {s t : State} {c : FaultCode} (h : resolve o s = .raise c t) :
    ResolveEffect o s t := by
  rcases resolve_answers o s with ⟨q, u, hq, he⟩ | ⟨d, u, hq, he⟩ <;> rw [hq] at h <;> simp at h
  exact h.2 ▸ he

/-! ### Destinations (R148) -/

/-- A destination an operand of the machine can designate: a register, a user address, or none. -/
def DestOk : Dest → Prop
  | .reg _ => True
  | .mem a => UserAddr a
  | .imm => True

/-- What a resolved operand designates is a register, a user address, or none. -/
theorem resolve_go_dest {o : Operand} {s t : State} {p : Dest × Int} (h : resolve o s = .go p t) : DestOk p.1 := by
  obtain ⟨m, r⟩ := o
  unfold resolve at h
  simp only at h
  split at h
  · simp only [resolveRegister, Flow.go.injEq] at h
    rw [← h.1]; trivial
  · unfold resolveDeferred at h
    by_cases hu : UserAddr (s.reg r)
    · simp only [hu, if_true, load_of_memAddr (memAddr_of_userAddr hu), Flow.bind_go, Flow.go.injEq] at h
      rw [← h.1]; exact hu
    · simp [hu] at h
  · unfold resolveAutoInc at h
    by_cases hu : UserAddr (s.reg r)
    · simp only [hu, if_true, load_of_memAddr (memAddr_of_userAddr hu), Flow.bind_go, Flow.go.injEq] at h
      rw [← h.1]; exact hu
    · simp [hu] at h
  · unfold resolveAutoDec at h
    obtain ⟨a, s1, h1, h2⟩ := Flow.bind_eq_go.mp h
    by_cases hu : UserAddr a
    · simp only [hu, if_true, load_of_memAddr (memAddr_of_userAddr hu), Flow.bind_go, Flow.go.injEq] at h2
      rw [← h2.1]; exact hu
    · simp [hu] at h2
  · unfold resolveDirect at h
    obtain ⟨a, s1, h1, h2⟩ := Flow.bind_eq_go.mp h
    by_cases hu : UserAddr a
    · simp only [hu, if_true, load_of_memAddr (memAddr_of_userAddr hu), Flow.bind_go, Flow.go.injEq] at h2
      rw [← h2.1]; exact hu
    · simp [hu] at h2
  · unfold resolveImmediate at h
    obtain ⟨a, s1, h1, h2⟩ := Flow.bind_eq_go.mp h
    simp only [Flow.go.injEq] at h2
    rw [← h2.1]; trivial
  · simp at h

/-- All a write of a destination can do: the write, or ImmediateMode with nothing changed. -/
theorem writeDest_answers {d : Dest} (hd : DestOk d) (v : Int) (s : State) :
    d ≠ .imm ∧ writeDest d v s = .go () (putDest d v s) ∨ d = .imm ∧ writeDest d v s = .raise .immediateMode s := by
  cases d with
  | reg r => exact .inl ⟨by simp, rfl⟩
  | mem a => exact .inl ⟨by simp, store_of_memAddr (memAddr_of_userAddr hd) v s⟩
  | imm => exact .inr ⟨rfl, rfl⟩

/-- The designator is `Imm` in mode 6 only. -/
theorem operandDest_eq_imm {o : Operand} {s : State} : operandDest o s = .imm ↔ o.mode = 6 := by
  unfold operandDest
  split <;> simp_all

/-- Where a ready operand's destination lies. -/
theorem operandDest_ok {o : Operand} {s : State} (h : operandReady o s) : DestOk (operandDest o s) := by
  obtain ⟨hw, -, hm⟩ := h
  obtain ⟨m, r⟩ := o
  rcases wellFormed_cases hw with h | h | h | h | h | h <;> simp only at h <;> subst h
  · trivial
  · exact hm rfl
  · exact hm rfl
  · exact hm rfl
  · exact hm rfl
  · trivial

/-! ### Completion (R116) -/

theorem exitOrContinue_cases (st : Option ExitStatus) (s : State) :
    exitOrContinue st s = s ∧ st = none ∨ ∃ e, st = some e ∧ exitOrContinue st s = s.setPhase (.route e) := by
  cases st with
  | none => exact .inl ⟨rfl, rfl⟩
  | some e => exact .inr ⟨e, rfl, rfl⟩

/-- Completion changes the charge and the control point only, and leaves no fault. -/
theorem complete_eq (op : Nat) (io : IoRequest) (s : State) :
    complete op io s = s.charge (cost op) ∧ exitAfter op io (s.charge (cost op)) = none ∨
      ∃ st, exitAfter op io (s.charge (cost op)) = some st ∧ (∀ c, st ≠ .fault c) ∧
        complete op io s = (s.charge (cost op)).setPhase (.route st) := by
  unfold complete
  rcases exitOrContinue_cases (exitAfter op io (s.charge (cost op))) (s.charge (cost op)) with ⟨h, hn⟩ | ⟨e, he, h⟩
  · exact .inl ⟨h, hn⟩
  · refine .inr ⟨e, he, ?_, h⟩
    intro c hc
    subst hc
    unfold exitAfter at he
    split at he
    · simp at he
    · split at he
      · simp at he
      · split at he
        · simp at he
        · split at he <;> simp at he

/-- All an instruction can do: complete after its execute step went on, or take the fault it raised. -/
theorem finish_eq_next {op : Nat} {x : Flow IoRequest} {t : State} :
    finish op x = .next t ↔
      (∃ io s, x = .go io s ∧ t = complete op io s) ∨ ∃ c s, x = .raise c s ∧ t = takeFault c s := by
  cases x <;> simp [finish, eq_comm]

@[simp] theorem finish_go (op : Nat) (io : IoRequest) (s : State) : finish op (.go io s) = .next (complete op io s) := rfl

@[simp] theorem finish_raise (op : Nat) (c : FaultCode) (s : State) : finish op (.raise c s) = .next (takeFault c s) := rfl

/-- The control point after completion (R116). -/
theorem complete_phase (op : Nat) (io : IoRequest) (s : State) :
    (complete op io s).phase =
      if op = 0 then .route .halted
      else if io = .input then .route .startOfInput
      else if io = .output then .route .startOfOutput
      else if s.budget - cost op ≤ 0 then .route .timeSliceExpired
      else s.phase := by
  unfold complete exitAfter
  by_cases h0 : op = 0
  · simp [h0, exitOrContinue]
  · cases io
    · by_cases h : s.budget - (cost op : Int) ≤ 0
      · have h' : (s.charge (cost op)).budget ≤ 0 := h
        rw [if_neg h0, if_neg (by simp), if_neg (by simp), if_pos h', if_neg h0, if_neg (by simp), if_neg (by simp),
          if_pos h]
        rfl
      · have h' : ¬ (s.charge (cost op)).budget ≤ 0 := h
        rw [if_neg h0, if_neg (by simp), if_neg (by simp), if_neg h', if_neg h0, if_neg (by simp), if_neg (by simp),
          if_neg h]
        rfl
    · simp [h0, exitOrContinue]
    · simp [h0, exitOrContinue]

/-! ### Fields after completion -/

variable (op : Nat) (io : IoRequest) (s : State)

@[simp] theorem complete_regs : (complete op io s).regs = s.regs := by
  rcases complete_eq op io s with ⟨h, -⟩ | ⟨_, -, -, h⟩ <;> simp [h]

@[simp] theorem complete_pc : (complete op io s).pc = s.pc := by
  rcases complete_eq op io s with ⟨h, -⟩ | ⟨_, -, -, h⟩ <;> simp [h]

@[simp] theorem complete_sp : (complete op io s).sp = s.sp := by
  rcases complete_eq op io s with ⟨h, -⟩ | ⟨_, -, -, h⟩ <;> simp [h]

@[simp] theorem complete_mode : (complete op io s).mode = s.mode := by
  rcases complete_eq op io s with ⟨h, -⟩ | ⟨_, -, -, h⟩ <;> simp [h]

@[simp] theorem complete_ir : (complete op io s).ir = s.ir := by
  rcases complete_eq op io s with ⟨h, -⟩ | ⟨_, -, -, h⟩ <;> simp [h]

@[simp] theorem complete_mar : (complete op io s).mar = s.mar := by
  rcases complete_eq op io s with ⟨h, -⟩ | ⟨_, -, -, h⟩ <;> simp [h]

@[simp] theorem complete_mbr : (complete op io s).mbr = s.mbr := by
  rcases complete_eq op io s with ⟨h, -⟩ | ⟨_, -, -, h⟩ <;> simp [h]

@[simp] theorem complete_mem : (complete op io s).mem = s.mem := by
  rcases complete_eq op io s with ⟨h, -⟩ | ⟨_, -, -, h⟩ <;> simp [h]

@[simp] theorem complete_userFreeHead : (complete op io s).userFreeHead = s.userFreeHead := by
  rcases complete_eq op io s with ⟨h, -⟩ | ⟨_, -, -, h⟩ <;> simp [h]

@[simp] theorem complete_osFreeHead : (complete op io s).osFreeHead = s.osFreeHead := by
  rcases complete_eq op io s with ⟨h, -⟩ | ⟨_, -, -, h⟩ <;> simp [h]

@[simp] theorem complete_rqHead : (complete op io s).rqHead = s.rqHead := by
  rcases complete_eq op io s with ⟨h, -⟩ | ⟨_, -, -, h⟩ <;> simp [h]

@[simp] theorem complete_wqHead : (complete op io s).wqHead = s.wqHead := by
  rcases complete_eq op io s with ⟨h, -⟩ | ⟨_, -, -, h⟩ <;> simp [h]

@[simp] theorem complete_nextPid : (complete op io s).nextPid = s.nextPid := by
  rcases complete_eq op io s with ⟨h, -⟩ | ⟨_, -, -, h⟩ <;> simp [h]

@[simp] theorem complete_shutdownSeen : (complete op io s).shutdownSeen = s.shutdownSeen := by
  rcases complete_eq op io s with ⟨h, -⟩ | ⟨_, -, -, h⟩ <;> simp [h]

@[simp] theorem complete_current : (complete op io s).current = s.current := by
  rcases complete_eq op io s with ⟨h, -⟩ | ⟨_, -, -, h⟩ <;> simp [h]

@[simp] theorem complete_inbox : (complete op io s).inbox = s.inbox := by
  rcases complete_eq op io s with ⟨h, -⟩ | ⟨_, -, -, h⟩ <;> simp [h]

@[simp] theorem complete_outbox : (complete op io s).outbox = s.outbox := by
  rcases complete_eq op io s with ⟨h, -⟩ | ⟨_, -, -, h⟩ <;> simp [h]

@[simp] theorem complete_freeDraws : (complete op io s).freeDraws = s.freeDraws := by
  rcases complete_eq op io s with ⟨h, -⟩ | ⟨_, -, -, h⟩ <;> simp [h]

@[simp] theorem complete_cfg : (complete op io s).cfg = s.cfg := by
  rcases complete_eq op io s with ⟨h, -⟩ | ⟨_, -, -, h⟩ <;> simp [h]

@[simp] theorem complete_clock : (complete op io s).clock = s.clock + cost op := by
  rcases complete_eq op io s with ⟨h, -⟩ | ⟨_, -, -, h⟩ <;> simp [h]

@[simp] theorem complete_budget : (complete op io s).budget = s.budget - cost op := by
  rcases complete_eq op io s with ⟨h, -⟩ | ⟨_, -, -, h⟩ <;> simp [h]

@[simp] theorem complete_reg (r : Fin 8) : (complete op io s).reg r = s.reg r := by
  rcases complete_eq op io s with ⟨h, -⟩ | ⟨_, -, -, h⟩ <;> simp [h]

end Sys2Proof.Machine
end

