-- ==== Sys2Proof/Laws/Instructions.lean ====
section
/-! SUPPORT. The execute steps of the instructions: for each shared operation, every way it can end, said once. -/

namespace Sys2Proof.Machine

/-! ### Arithmetic and move (R160, R165) -/

theorem pureOp_move : PureOp moveWords where
  go_state h := by simp only [moveWords, Flow.go.injEq] at h; exact h.2.symm
  raise_state h := by simp [moveWords] at h
  answers _ v2 _ := .inl ⟨v2, rfl⟩

/-- Every way the execute step of ADD, SUB, MUL, DIV and MOVE can end: the fault of operand 1's resolution, that of operand
2's, that of the operation, that of an immediate destination, or the written result. -/
theorem execArith_cases {f : Int → Int → State → Flow Int} (hf : PureOp f) (d o : Operand) (s : State) :
    (∃ c s1, resolve d s = .raise c s1 ∧ execArith f d o s = .raise c s1) ∨
    ∃ p s1, resolve d s = .go p s1 ∧
      ((∃ c s2, resolve o s1 = .raise c s2 ∧ execArith f d o s = .raise c s2) ∨
      ∃ q s2, resolve o s1 = .go q s2 ∧
        ((∃ c, f p.2 q.2 s2 = .raise c s2 ∧ execArith f d o s = .raise c s2) ∨
        ∃ v, f p.2 q.2 s2 = .go v s2 ∧
          (p.1 = .imm ∧ execArith f d o s = .raise .immediateMode s2 ∨
           p.1 ≠ .imm ∧ execArith f d o s = .go .none (putDest p.1 v s2)))) := by
  unfold execArith
  rcases resolve_answers d s with ⟨p, s1, h1, -⟩ | ⟨c, s1, h1, -⟩
  · refine .inr ⟨p, s1, h1, ?_⟩
    rw [h1, Flow.bind_go]
    rcases resolve_answers o s1 with ⟨q, s2, h2, -⟩ | ⟨c, s2, h2, -⟩
    · refine .inr ⟨q, s2, h2, ?_⟩
      rw [h2, Flow.bind_go]
      rcases hf.answers p.2 q.2 s2 with ⟨v, h3⟩ | ⟨c, h3⟩
      · refine .inr ⟨v, h3, ?_⟩
        rw [h3, Flow.bind_go]
        rcases writeDest_answers (resolve_go_dest h1) v s2 with ⟨h4, h5⟩ | ⟨h4, h5⟩
        · exact .inr ⟨h4, by rw [h5]; rfl⟩
        · exact .inl ⟨h4, by rw [h5]; rfl⟩
      · exact .inl ⟨c, h3, by rw [h3]; rfl⟩
    · exact .inl ⟨c, s2, h2, by rw [h2]; rfl⟩
  · exact .inl ⟨c, s1, h1, by rw [h1]; rfl⟩

/-- The execute step on two operands that can be resolved. -/
theorem execArith_of_ready (f : Int → Int → State → Flow Int) {d o : Operand} {s : State} (hc : 24 ≤ s.cfg.wordBits)
    (h : bothReady d o s) :
    execArith f d o s =
      (f (operandValue d s) (secondValue d o s) (afterBoth d o s)).bind fun v t =>
        (writeDest (operandDest d s) v t).bind fun _ t => .go .none t := by
  have hc' : 24 ≤ (operandAfter d s).cfg.wordBits := by
    unfold operandAfter; split <;> exact hc
  unfold execArith
  rw [resolve_of_ready hc h.1, Flow.bind_go, resolve_of_ready hc' h.2, Flow.bind_go]
  rfl

/-! ### Branches (R182, R183) -/

/-- Every way the execute step of BR can end. -/
theorem branchTo_cases (s : State) :
    UserAddr s.pc ∧ branchTo s = .go .none (s.setPc (s.word s.pc)) ∨
    ¬ UserAddr s.pc ∧ branchTo s = .raise .runtime s := by
  unfold branchTo readTarget
  rcases streamWord_answers s with ⟨h, hu⟩ | ⟨h, hu⟩ <;> simp [h, hu]

/-- Every way the execute step of a conditional branch can end. -/
theorem branchIf_cases (cond : Int → Bool) (o : Operand) (s : State) :
    (∃ c s1, resolve o s = .raise c s1 ∧ branchIf cond o s = .raise c s1) ∨
    ∃ p s1, resolve o s = .go p s1 ∧
      (cond p.2 = true ∧ UserAddr s1.pc ∧ branchIf cond o s = .go .none (s1.setPc (s1.word s1.pc)) ∨
       cond p.2 = true ∧ ¬ UserAddr s1.pc ∧ branchIf cond o s = .raise .runtime s1 ∨
       cond p.2 = false ∧ branchIf cond o s = .go .none (s1.setPc (s1.pc + 1))) := by
  unfold branchIf
  rcases resolve_answers o s with ⟨p, s1, h1, -⟩ | ⟨c, s1, h1, -⟩
  · refine .inr ⟨p, s1, h1, ?_⟩
    rw [h1, Flow.bind_go]
    cases hp : cond p.2
    · simp
    · rcases branchTo_cases s1 with ⟨hu, hb⟩ | ⟨hu, hb⟩ <;> simp [hu, hb]
  · exact .inl ⟨c, s1, h1, by rw [h1]; rfl⟩

/-! ### Stack (R201, R202) -/

/-- Every way a push can end. -/
theorem pushWord_cases (v : Int) (s : State) :
    HeapAddr (s.sp + 1) ∧
      pushWord v s = .go .none ((s.setMem (s.mem.write (s.sp + 1).toNat v)).setSp (s.sp + 1)) ∨
    ¬ HeapAddr (s.sp + 1) ∧ pushWord v s = .raise .stackOverflow s := by
  unfold pushWord
  by_cases h : HeapAddr (s.sp + 1)
  · left; simp [h, memAddr_of_heapAddr h]
  · right; simp [h]

/-- Every way a pop into a destination can end. -/
theorem popInto_cases {d : Dest} (hd : DestOk d) (s : State) :
    HeapAddr s.sp ∧ d ≠ .imm ∧ popInto d s = .go .none (putDest d (s.word s.sp) (s.setSp (s.sp - 1))) ∨
    HeapAddr s.sp ∧ d = .imm ∧ popInto d s = .raise .immediateMode (s.setSp (s.sp - 1)) ∨
    ¬ HeapAddr s.sp ∧ popInto d s = .raise .stackUnderflow s := by
  unfold popInto
  by_cases h : HeapAddr s.sp
  · rcases writeDest_answers hd (s.word s.sp) (s.setSp (s.sp - 1)) with ⟨h1, h2⟩ | ⟨h1, h2⟩
    · left; simp only [State.word] at h2 ⊢; simp [h, memAddr_of_heapAddr h, h1, h2]
    · refine .inr (.inl ⟨h, h1, ?_⟩)
      rw [if_pos h, load_of_memAddr (memAddr_of_heapAddr h), Flow.bind_go]
      exact congrArg (fun x => Flow.bind x _) h2
  · right; right; simp [h]

/-- Every way the execute step of PUSH can end. -/
theorem execPush_cases (o : Operand) (s : State) :
    (∃ c s1, resolve o s = .raise c s1 ∧ execPush o s = .next (takeFault c s1)) ∨
    ∃ p s1, resolve o s = .go p s1 ∧ execPush o s = finish 10 (pushWord p.2 s1) := by
  unfold execPush
  rcases resolve_answers o s with ⟨p, s1, h1, -⟩ | ⟨c, s1, h1, -⟩
  · exact .inr ⟨p, s1, h1, by rw [h1]; rfl⟩
  · exact .inl ⟨c, s1, h1, by rw [h1]; rfl⟩

/-- Every way the execute step of POP can end. -/
theorem execPop_cases (d : Operand) (s : State) :
    (∃ c s1, resolve d s = .raise c s1 ∧ execPop d s = .next (takeFault c s1)) ∨
    ∃ p s1, resolve d s = .go p s1 ∧ execPop d s = finish 11 (popInto p.1 s1) := by
  unfold execPop
  rcases resolve_answers d s with ⟨p, s1, h1, -⟩ | ⟨c, s1, h1, -⟩
  · exact .inr ⟨p, s1, h1, by rw [h1]; rfl⟩
  · exact .inl ⟨c, s1, h1, by rw [h1]; rfl⟩

/-! ### System calls (R220 to R228) -/

/-- Every way the execute step of SYSCALL can end. -/
theorem execSyscall_cases (o : Operand) (s : State) :
    (∃ c s1, resolve o s = .raise c s1 ∧ execSyscall o s = .next (takeFault c s1)) ∨
    ∃ p s1, resolve o s = .go p s1 ∧ execSyscall o s = finish 12 (callService p.2 s1) := by
  unfold execSyscall
  rcases resolve_answers o s with ⟨p, s1, h1, -⟩ | ⟨c, s1, h1, -⟩
  · exact .inr ⟨p, s1, h1, by rw [h1]; rfl⟩
  · exact .inl ⟨c, s1, h1, by rw [h1]; rfl⟩

/-- The call IDs, by what their service does (R221, R226). -/
theorem service_cases (id : Int) (s : State) :
    id = 4 ∧ service id s = memAllocService s ∨ id = 5 ∧ service id s = memFreeService s ∨
    id = 8 ∧ service id s = .go .blockInput s ∨ id = 9 ∧ service id s = .go .blockOutput s ∨
    id ∈ ([1, 2, 3, 6, 7, 10, 11] : List Int) ∧ service id s = .go .done s ∨
    ¬ (1 ≤ id ∧ id ≤ 11) ∧ service id s = .go .invalid s := by
  by_cases h : 1 ≤ id ∧ id ≤ 11
  · obtain ⟨h1, h2⟩ := h
    interval_cases id <;> simp [service, serviceOf, stubService]
  · right; right; right; right; right
    refine ⟨h, ?_⟩
    unfold service serviceOf
    have : ∀ k : Int, 1 ≤ k → k ≤ 11 → id ≠ k := fun k h1 h2 hk => h (hk ▸ ⟨h1, h2⟩)
    simp [this]

/-- What an invalid call does (R223, D23). -/
theorem invalidCall_cases (s : State) :
    s.cfg.invalidSyscall = .terminate ∧ invalidCall s = .raise .invalidSystemCall s ∨
    s.cfg.invalidSyscall = .continue ∧
      invalidCall s = .go .none (s.setReg s.cfg.resultReg s.cfg.codes.invalidSystemCall) := by
  unfold invalidCall
  cases h : s.cfg.invalidSyscall <;> simp

/-- The answer of mem_free, in each of its four cases (R225, R243). -/
theorem memFreeService_cases (s : State) :
    let size := s.reg s.cfg.sizeReg
    let a := s.reg s.cfg.addrReg
    let n := roundSize size
    ¬ (1 ≤ size ∧ size ≤ 3000) ∧
      memFreeService s = .go .done (s.setReg s.cfg.resultReg s.cfg.codes.invalidSize) ∨
    (1 ≤ size ∧ size ≤ 3000) ∧ ¬ (4000 ≤ a ∧ a + n - 1 ≤ 6999) ∧
      memFreeService s = .go .done (s.setReg s.cfg.resultReg s.cfg.codes.invalidAddress) ∨
    (1 ≤ size ∧ size ≤ 3000) ∧ (4000 ≤ a ∧ a + n - 1 ≤ 6999) ∧
      memFreeService s = .go .done (((s.setMem ((s.mem.write a.toNat s.userFreeHead).write (a + 1).toNat n)).setUserFreeHead
        a).setReg s.cfg.resultReg s.cfg.codes.ok) := by
  intro size a n
  by_cases h : SizeAccepted size
  · right
    have hs : 1 ≤ size ∧ size ≤ 3000 := h
    have he : memFreeService s = (free .user a size s).bind fun r s =>
        .go .done (s.setReg s.cfg.resultReg (freeCode s.cfg.codes r)) := if_pos h
    rw [he]
    rcases free_cases .user a size s with ⟨h1, -⟩ | ⟨-, h1, h2⟩ | ⟨-, h1, h2, h3⟩
    · omega
    · exact .inl ⟨hs, h1, by rw [h2]; rfl⟩
    · exact .inr ⟨hs, ⟨h1, h2⟩, by rw [h3]; rfl⟩
  · exact .inl ⟨h, if_neg h⟩

/-! ### Dispatch -/

/-- Which of the six shapes an instruction has. -/
theorem exec_cases (i : Instr) (s : State) :
    i = .halt ∧ exec i s = finish 0 (.go .none s) ∨ i = .br ∧ exec i s = finish 6 (branchTo s) ∨
    (∃ f d o, PureOp f ∧ i.operands = [d, o] ∧ i.opcode ∈ [1, 2, 3, 4, 5] ∧ exec i s = finish i.opcode (execArith f d o s)) ∨
    (∃ cond o, i.operands = [o] ∧ i.opcode ∈ [7, 8, 9] ∧ exec i s = finish i.opcode (branchIf cond o s)) ∨
    (∃ o, i = .push o ∧ exec i s = execPush o s) ∨ (∃ o, i = .pop o ∧ exec i s = execPop o s) ∨
    ∃ o, i = .syscall o ∧ exec i s = execSyscall o s := by
  cases i with
  | halt => exact .inl ⟨rfl, rfl⟩
  | br => exact .inr (.inl ⟨rfl, rfl⟩)
  | add d o => exact .inr (.inr (.inl ⟨_, d, o, pureOp_add, rfl, by simp [Instr.opcode], rfl⟩))
  | sub d o => exact .inr (.inr (.inl ⟨_, d, o, pureOp_sub, rfl, by simp [Instr.opcode], rfl⟩))
  | mul d o => exact .inr (.inr (.inl ⟨_, d, o, pureOp_mul, rfl, by simp [Instr.opcode], rfl⟩))
  | div d o => exact .inr (.inr (.inl ⟨_, d, o, pureOp_div, rfl, by simp [Instr.opcode], rfl⟩))
  | move d o => exact .inr (.inr (.inl ⟨_, d, o, pureOp_move, rfl, by simp [Instr.opcode], rfl⟩))
  | brmi o => exact .inr (.inr (.inr (.inl ⟨_, o, rfl, by simp [Instr.opcode], rfl⟩)))
  | brpl o => exact .inr (.inr (.inr (.inl ⟨_, o, rfl, by simp [Instr.opcode], rfl⟩)))
  | brz o => exact .inr (.inr (.inr (.inl ⟨_, o, rfl, by simp [Instr.opcode], rfl⟩)))
  | push o => exact .inr (.inr (.inr (.inr (.inl ⟨o, rfl, rfl⟩))))
  | pop o => exact .inr (.inr (.inr (.inr (.inr (.inl ⟨o, rfl, rfl⟩)))))
  | syscall o => exact .inr (.inr (.inr (.inr (.inr (.inr ⟨o, rfl, rfl⟩)))))

/-! ### What an instruction may touch -/

/-- The state with everything forgotten that an instruction's execute step may change. -/
def State.forgetRun (s : State) : State :=
  { s with regs := #v[0, 0, 0, 0, 0, 0, 0, 0], pc := 0, sp := 0, mode := .os, mem := [], userFreeHead := 0 }

/-- A resolution leaves everything alone but the registers and `pc` (R150, R151). -/
theorem ResolveEffect.frame {o : Operand} {s t : State} (h : ResolveEffect o s t) :
    t.forgetRun = s.forgetRun ∧ t.mem = s.mem ∧ t.sp = s.sp ∧ t.mode = s.mode ∧ t.userFreeHead = s.userFreeHead := by
  rcases h with rfl | ⟨-, v, rfl⟩ | ⟨-, rfl⟩ <;> exact ⟨rfl, rfl, rfl, rfl, rfl⟩

theorem putDest_forgetRun (d : Dest) (v : Int) (s : State) : (putDest d v s).forgetRun = s.forgetRun := by
  cases d <;> rfl

@[simp] theorem putDest_sp (d : Dest) (v : Int) (s : State) : (putDest d v s).sp = s.sp := by cases d <;> rfl

@[simp] theorem putDest_mode (d : Dest) (v : Int) (s : State) : (putDest d v s).mode = s.mode := by cases d <;> rfl

@[simp] theorem putDest_pc (d : Dest) (v : Int) (s : State) : (putDest d v s).pc = s.pc := by cases d <;> rfl

@[simp] theorem putDest_userFreeHead (d : Dest) (v : Int) (s : State) : (putDest d v s).userFreeHead = s.userFreeHead := by
  cases d <;> rfl

/-- An execute step's outcome leaves everything alone but what `forgetRun` forgets; a fault leaves memory alone (R122), and
only a completed SYSCALL asks for I/O, writes `userFreeHead` or ends in a mode of its own. -/
def RunEffect (op : Nat) (s : State) (x : Flow IoRequest) : Prop :=
  x.Sat
    (fun io t => t.forgetRun = s.forgetRun ∧ (op ≠ 12 → io = .none ∧ t.userFreeHead = s.userFreeHead ∧ t.mode = s.mode) ∧
      (t.mode = s.mode ∨ t.mode = .user))
    fun _ t => t.forgetRun = s.forgetRun ∧ t.mem = s.mem ∧ t.userFreeHead = s.userFreeHead ∧
      (t.mode = s.mode ∨ op = 12 ∧ t.mode = .user)

theorem runEffect_execArith {f : Int → Int → State → Flow Int} (hf : PureOp f) (op : Nat) (d o : Operand) (s : State) :
    RunEffect op s (execArith f d o s) := by
  rcases execArith_cases hf d o s with ⟨c, s1, h1, he⟩ | ⟨p, s1, h1, h⟩
  · have e1 := (resolve_raise_effect h1).frame
    rw [he]; exact Flow.sat_raise.mpr ⟨e1.1, e1.2.1, e1.2.2.2.2, .inl e1.2.2.2.1⟩
  · have e1 := (resolve_go_effect h1).frame
    rcases h with ⟨c, s2, h2, he⟩ | ⟨q, s2, h2, h⟩
    · have e2 := (resolve_raise_effect h2).frame
      rw [he]
      exact Flow.sat_raise.mpr ⟨e2.1.trans e1.1, e2.2.1.trans e1.2.1, e2.2.2.2.2.trans e1.2.2.2.2,
        .inl (e2.2.2.2.1.trans e1.2.2.2.1)⟩
    · have e2 := (resolve_go_effect h2).frame
      have e := And.intro (e2.1.trans e1.1) (And.intro (e2.2.1.trans e1.2.1) (And.intro
        (e2.2.2.2.2.trans e1.2.2.2.2) (e2.2.2.2.1.trans e1.2.2.2.1)))
      rcases h with ⟨c, -, he⟩ | ⟨v, -, ⟨-, he⟩ | ⟨-, he⟩⟩
      · rw [he]; exact Flow.sat_raise.mpr ⟨e.1, e.2.1, e.2.2.1, .inl e.2.2.2⟩
      · rw [he]; exact Flow.sat_raise.mpr ⟨e.1, e.2.1, e.2.2.1, .inl e.2.2.2⟩
      · rw [he]
        exact Flow.sat_go.mpr ⟨(putDest_forgetRun ..).trans e.1,
          fun _ => ⟨rfl, (putDest_userFreeHead ..).trans e.2.2.1, (putDest_mode ..).trans e.2.2.2⟩,
          .inl ((putDest_mode ..).trans e.2.2.2)⟩

theorem runEffect_branchTo (op : Nat) (s : State) : RunEffect op s (branchTo s) := by
  rcases branchTo_cases s with ⟨-, he⟩ | ⟨-, he⟩ <;> rw [he]
  · exact Flow.sat_go.mpr ⟨rfl, fun _ => ⟨rfl, rfl, rfl⟩, .inl rfl⟩
  · exact Flow.sat_raise.mpr ⟨rfl, rfl, rfl, .inl rfl⟩

theorem runEffect_branchIf (cond : Int → Bool) (op : Nat) (o : Operand) (s : State) :
    RunEffect op s (branchIf cond o s) := by
  rcases branchIf_cases cond o s with ⟨c, s1, h1, he⟩ | ⟨p, s1, h1, h⟩
  · have e := (resolve_raise_effect h1).frame
    rw [he]; exact Flow.sat_raise.mpr ⟨e.1, e.2.1, e.2.2.2.2, .inl e.2.2.2.1⟩
  · have e := (resolve_go_effect h1).frame
    rcases h with ⟨-, -, he⟩ | ⟨-, -, he⟩ | ⟨-, he⟩ <;> rw [he]
    · exact Flow.sat_go.mpr ⟨e.1, fun _ => ⟨rfl, e.2.2.2.2, e.2.2.2.1⟩, .inl e.2.2.2.1⟩
    · exact Flow.sat_raise.mpr ⟨e.1, e.2.1, e.2.2.2.2, .inl e.2.2.2.1⟩
    · exact Flow.sat_go.mpr ⟨e.1, fun _ => ⟨rfl, e.2.2.2.2, e.2.2.2.1⟩, .inl e.2.2.2.1⟩

theorem runEffect_pushWord (op : Nat) (v : Int) (s : State) : RunEffect op s (pushWord v s) := by
  rcases pushWord_cases v s with ⟨-, he⟩ | ⟨-, he⟩ <;> rw [he]
  · exact Flow.sat_go.mpr ⟨rfl, fun _ => ⟨rfl, rfl, rfl⟩, .inl rfl⟩
  · exact Flow.sat_raise.mpr ⟨rfl, rfl, rfl, .inl rfl⟩

theorem runEffect_popInto {d : Dest} (hd : DestOk d) (op : Nat) (s : State) : RunEffect op s (popInto d s) := by
  rcases popInto_cases hd s with ⟨-, -, he⟩ | ⟨-, -, he⟩ | ⟨-, he⟩ <;> rw [he]
  · exact Flow.sat_go.mpr ⟨putDest_forgetRun .., fun _ => ⟨rfl, putDest_userFreeHead .., putDest_mode ..⟩,
      .inl (putDest_mode ..)⟩
  · exact Flow.sat_raise.mpr ⟨rfl, rfl, rfl, .inl rfl⟩
  · exact Flow.sat_raise.mpr ⟨rfl, rfl, rfl, .inl rfl⟩

theorem RunEffect.trans {op : Nat} {s s1 : State} {x : Flow IoRequest} (h : RunEffect op s1 x)
    (e : s1.forgetRun = s.forgetRun ∧ s1.mem = s.mem ∧ s1.sp = s.sp ∧ s1.mode = s.mode ∧
      s1.userFreeHead = s.userFreeHead) : RunEffect op s x := by
  obtain ⟨e1, e2, -, e3, e4⟩ := e
  refine Flow.Sat.mono h (fun io t h => ?_) fun c t h => ?_
  · rw [e1, e4, e3] at h; exact h
  · rw [e1, e2, e4, e3] at h; exact h

/-- The allocator of the user region changes only memory and `userFreeHead`. -/
theorem allocate_user_frame (size : Int) (s : State) :
    (allocate .user size s).Sat (fun _ t => ∃ m h, t = (s.setMem m).setUserFreeHead h) fun _ _ => False := by
  have hlink : ∀ prev v (u : State), (∃ m h, u = (s.setMem m).setUserFreeHead h) →
      (link .user prev v u).Sat (fun _ t => ∃ m h, t = (s.setMem m).setUserFreeHead h) fun _ _ => False := by
    rintro prev v u ⟨m, h, rfl⟩
    unfold link; split
    · exact Flow.sat_go.mpr ⟨m, v, rfl⟩
    · exact (sat_store ..).mono (fun _ _ ⟨_, h⟩ => ⟨_, _, h⟩) fun _ _ h => h
  have hwalk : ∀ (n : Int) (fuel : Nat) (prev cur : Int),
      (allocWalk .user n fuel prev cur s).Sat (fun _ t => ∃ m h, t = (s.setMem m).setUserFreeHead h)
        fun _ _ => False := by
    intro n fuel
    induction fuel with
    | zero => intro prev cur; exact Flow.sat_stop
    | succ k ih =>
      intro prev cur
      unfold allocWalk
      split
      · exact Flow.sat_go.mpr ⟨s.mem, s.userFreeHead, rfl⟩
      · split
        · refine (sat_load _ _).bind fun nxt u hu => ?_
          obtain ⟨-, -, rfl⟩ := hu
          refine (sat_load _ _).bind fun sz u hu => ?_
          obtain ⟨-, -, rfl⟩ := hu
          unfold takeBlock
          split
          · rw [show ∀ (x : Flow Unit) (f : Option AllocResult → State → Flow AllocResult),
              (x.bind fun _ t => Flow.go (some (AllocResult.address cur)) t).bind f =
                x.bind fun _ t => f (some (AllocResult.address cur)) t from fun x f => by cases x <;> rfl]
            exact (hlink _ _ _ ⟨u.mem, u.userFreeHead, rfl⟩).bind fun _ t h => Flow.sat_go.mpr h
          · split
            · split
              · exact Flow.sat_refuse
              · refine Flow.Sat.bind (Q := fun r t => r ≠ none ∧ ∃ m h, t = (u.setMem m).setUserFreeHead h) ?_
                  fun r t h => ?_
                · refine (sat_store _ _ _).bind fun _ t ht => (sat_store _ _ _).bind fun _ t2 ht2 => ?_
                  refine (hlink _ _ t2 ⟨t2.mem, t2.userFreeHead, ?_⟩).bind fun _ t3 ht3 => Flow.sat_go.mpr ⟨by simp, ht3⟩
                  rw [ht2.2, ht.2]; rfl
                · cases r with
                  | none => exact absurd rfl h.1
                  | some a => exact Flow.sat_go.mpr h.2
            · exact ih _ _
        · exact Flow.sat_refuse
  unfold allocate
  split
  · exact Flow.sat_go.mpr ⟨s.mem, s.userFreeHead, rfl⟩
  · split
    · exact Flow.sat_refuse
    · exact hwalk _ _ _ _

/-- What a service may change: memory, `userFreeHead` and the result register; it never raises a fault. -/
theorem service_frame (id : Int) (s : State) :
    (service id s).Sat (fun _ t => ∃ m h rs, t = { s with mem := m, userFreeHead := h, regs := rs } ∧
      (∀ r, r ≠ s.cfg.resultReg → rs[r.val] = s.regs[r.val]) ∧
      (id ≠ 4 → id ≠ 5 → t = s)) fun _ _ => False := by
  have hreg : ∀ (v : Int) (r : Fin 8), r ≠ s.cfg.resultReg →
      (s.regs.set s.cfg.resultReg.val v s.cfg.resultReg.isLt)[r.val] = s.regs[r.val] := by
    intro v r hr
    rw [Vector.getElem_set_ne]
    exact fun h => hr (Fin.ext h.symm)
  rcases service_cases id s with ⟨h1, h⟩ | ⟨h1, h⟩ | ⟨h1, h⟩ | ⟨h1, h⟩ | ⟨h1, h⟩ | ⟨h1, h⟩ <;> rw [h]
  · unfold memAllocService
    split
    · refine (allocate_user_frame _ s).bind fun r t ht => ?_
      obtain ⟨m, h', rfl⟩ := ht
      exact Flow.sat_go.mpr ⟨m, h', _, rfl, hreg _, by simp [h1]⟩
    · exact Flow.sat_go.mpr ⟨s.mem, s.userFreeHead, _, rfl, hreg _, by simp [h1]⟩
  · rcases memFreeService_cases s with ⟨-, h⟩ | ⟨-, -, h⟩ | ⟨-, -, h⟩ <;> rw [h] <;>
      exact Flow.sat_go.mpr ⟨_, _, _, rfl, hreg _, by simp [h1]⟩
  all_goals exact Flow.sat_go.mpr ⟨_, _, _, rfl, fun _ _ => rfl, fun _ _ => rfl⟩

/-- A service writes nothing below the heap. -/
theorem sat_service_above (id : Int) (s : State) :
    (service id s).Sat (fun _ t => SameBelow 4000 s t) fun _ _ => False := by
  rcases service_cases id s with ⟨-, h⟩ | ⟨-, h⟩ | ⟨-, h⟩ | ⟨-, h⟩ | ⟨-, h⟩ | ⟨-, h⟩ <;> rw [h]
  · unfold memAllocService
    split
    · exact (sat_allocate_above .user _ s).bind fun r t ht => Flow.sat_go.mpr ht
    · exact Flow.sat_go.mpr (SameBelow.refl _ _)
  · unfold memFreeService
    split
    · exact (sat_free_above .user _ _ s).bind fun r t ht => Flow.sat_go.mpr ht
    · exact Flow.sat_go.mpr (SameBelow.refl _ _)
  all_goals exact Flow.sat_go.mpr (SameBelow.refl _ _)

/-- A call writes nothing below the heap (R62). -/
theorem sat_callService_above (id : Int) (s : State) :
    (callService id s).Sat (fun _ t => SameBelow 4000 s t) fun _ t => SameBelow 4000 s t := by
  unfold callService
  refine Flow.Sat.bind ((sat_service_above id (s.setMode .os)).mono (fun _ _ h => h) fun _ _ h => h.elim) ?_
  intro reply t ht
  cases reply with
  | done => exact Flow.sat_go.mpr ht
  | blockInput => exact Flow.sat_go.mpr ht
  | blockOutput => exact Flow.sat_go.mpr ht
  | invalid =>
    simp only [afterService]
    rcases invalidCall_cases (t.setMode .user) with ⟨-, h⟩ | ⟨-, h⟩ <;> rw [h]
    · exact Flow.sat_raise.mpr ht
    · exact Flow.sat_go.mpr ht

/-- Every way a call can end: the service stops or refuses, or User mode is back in the state the service left, which the
reply of an invalid call may change once more. -/
theorem callService_frame (id : Int) (s : State) :
    (callService id s).Sat
      (fun _ t => ∃ m h rs, t = { s with mem := m, userFreeHead := h, regs := rs, mode := .user } ∧
        (∀ r, r ≠ s.cfg.resultReg → rs[r.val] = s.regs[r.val]) ∧
        (id ≠ 4 → id ≠ 5 → m = s.mem ∧ h = s.userFreeHead))
      fun c t => c = .invalidSystemCall ∧ t = s.setMode .user := by
  unfold callService
  have hs := service_frame id (s.setMode .os)
  have hinv : ∀ t, service id (s.setMode .os) = .go .invalid t → t = s.setMode .os := by
    intro t ht
    rcases service_cases id (s.setMode .os) with ⟨h1, h⟩ | ⟨h1, h⟩ | ⟨h1, h⟩ | ⟨h1, h⟩ | ⟨h1, h⟩ | ⟨h1, h⟩ <;> rw [h] at ht
    · unfold memAllocService at ht
      split at ht
      · obtain ⟨_, _, _, h3⟩ := Flow.bind_eq_go.mp ht; simp at h3
      · simp at ht
    · rcases memFreeService_cases (s.setMode .os) with ⟨-, h⟩ | ⟨-, -, h⟩ | ⟨-, -, h⟩ <;> rw [h] at ht <;> simp at ht
    all_goals simp at ht
    exact ht.symm
  cases hx : service id (s.setMode .os) with
  | stop f => exact Flow.sat_stop
  | refuse r => exact Flow.sat_refuse
  | raise c t => exact absurd hx (fun h => hs.2 c t h)
  | go reply t =>
    obtain ⟨m, h, rs, rfl, hr, hm⟩ := hs.1 reply t hx
    have hgo : ∀ io, (Flow.go (io : IoRequest) (State.setMode
        { s.setMode .os with mem := m, userFreeHead := h, regs := rs } .user)).Sat
        (fun _ t => ∃ m h rs, t = { s with mem := m, userFreeHead := h, regs := rs, mode := .user } ∧
          (∀ r, r ≠ s.cfg.resultReg → rs[r.val] = s.regs[r.val]) ∧
          (id ≠ 4 → id ≠ 5 → m = s.mem ∧ h = s.userFreeHead))
        (fun c t => c = .invalidSystemCall ∧ t = s.setMode .user) := fun io =>
      Flow.sat_go.mpr ⟨m, h, rs, rfl, hr, fun h4 h5 => ⟨congrArg State.mem (hm h4 h5), congrArg State.userFreeHead (hm h4 h5)⟩⟩
    rw [Flow.bind_go]
    cases reply with
    | done => exact hgo _
    | blockInput => exact hgo _
    | blockOutput => exact hgo _
    | invalid =>
      have hi := hinv _ hx
      rw [hi]
      rcases invalidCall_cases ((s.setMode .os).setMode .user) with ⟨-, hc⟩ | ⟨-, hc⟩
      · simp only [afterService, hc]; exact Flow.sat_raise.mpr ⟨rfl, rfl⟩
      · simp only [afterService, hc]
        refine Flow.sat_go.mpr ⟨s.mem, s.userFreeHead, _, rfl, fun r hr => ?_, fun _ _ => ⟨rfl, rfl⟩⟩
        rw [Vector.getElem_set_ne]
        · rfl
        · exact fun h => hr (Fin.ext h.symm)

theorem runEffect_callService (id : Int) (s : State) : RunEffect 12 s (callService id s) := by
  refine (callService_frame id s).mono ?_ ?_
  · rintro io t ⟨m, h, rs, rfl, -, -⟩
    exact ⟨rfl, fun h => absurd rfl h, .inr rfl⟩
  · rintro c t ⟨-, rfl⟩
    exact ⟨rfl, rfl, rfl, .inr ⟨rfl, rfl⟩⟩

/-- Every instruction is the completion, or the taking of the fault, of an execute step that touches only what `forgetRun`
forgets. -/
theorem exec_eq_finish (i : Instr) (s : State) : ∃ x, exec i s = finish i.opcode x ∧ RunEffect i.opcode s x := by
  rcases exec_cases i s with ⟨rfl, h⟩ | ⟨rfl, h⟩ | ⟨f, d, o, hf, -, -, h⟩ | ⟨cond, o, -, -, h⟩ | ⟨o, rfl, h⟩ |
    ⟨o, rfl, h⟩ | ⟨o, rfl, h⟩
  · exact ⟨_, h, Flow.sat_go.mpr ⟨rfl, fun _ => ⟨rfl, rfl, rfl⟩, .inl rfl⟩⟩
  · exact ⟨_, h, runEffect_branchTo _ _⟩
  · exact ⟨_, h, runEffect_execArith hf _ _ _ _⟩
  · exact ⟨_, h, runEffect_branchIf _ _ _ _⟩
  · refine ⟨_, h, ?_⟩
    rcases resolve_answers o s with ⟨p, s1, h1, e⟩ | ⟨c, s1, h1, e⟩
    · rw [h1, Flow.bind_go]; exact (runEffect_pushWord _ _ _).trans e.frame
    · rw [h1, Flow.bind_raise]
      exact Flow.sat_raise.mpr ⟨e.frame.1, e.frame.2.1, e.frame.2.2.2.2, .inl e.frame.2.2.2.1⟩
  · refine ⟨_, h, ?_⟩
    rcases resolve_answers o s with ⟨p, s1, h1, e⟩ | ⟨c, s1, h1, e⟩
    · rw [h1, Flow.bind_go]; exact (runEffect_popInto (resolve_go_dest h1) _ _).trans e.frame
    · rw [h1, Flow.bind_raise]
      exact Flow.sat_raise.mpr ⟨e.frame.1, e.frame.2.1, e.frame.2.2.2.2, .inl e.frame.2.2.2.1⟩
  · refine ⟨_, h, ?_⟩
    rcases resolve_answers o s with ⟨p, s1, h1, e⟩ | ⟨c, s1, h1, e⟩
    · rw [h1, Flow.bind_go]; exact (runEffect_callService _ _).trans e.frame
    · rw [h1, Flow.bind_raise]
      exact Flow.sat_raise.mpr ⟨e.frame.1, e.frame.2.1, e.frame.2.2.2.2, .inl e.frame.2.2.2.1⟩

/-- A next state of an instruction: the completion of what its execute step left, or its fault taken in that state. -/
theorem exec_next {i : Instr} {s t : State} (h : exec i s = .next t) :
    (∃ io u, t = complete i.opcode io u ∧ u.forgetRun = s.forgetRun ∧
      (i.opcode ≠ 12 → io = .none ∧ u.userFreeHead = s.userFreeHead ∧ u.mode = s.mode) ∧
      (u.mode = s.mode ∨ u.mode = .user)) ∨
    ∃ c u, t = takeFault c u ∧ u.forgetRun = s.forgetRun ∧ u.mem = s.mem ∧ u.userFreeHead = s.userFreeHead ∧
      (u.mode = s.mode ∨ i.opcode = 12 ∧ u.mode = .user) := by
  obtain ⟨x, hx, hr⟩ := exec_eq_finish i s
  rw [hx] at h
  rcases finish_eq_next.mp h with ⟨io, u, rfl, rfl⟩ | ⟨c, u, rfl, rfl⟩
  · exact .inl ⟨io, u, rfl, Flow.sat_go.mp hr⟩
  · exact .inr ⟨c, u, rfl, Flow.sat_raise.mp hr⟩

end Sys2Proof.Machine
end

