-- ==== Sys2Proof/Laws/Queues.lean ====
section
/-! SUPPORT. The laws of context save and restore and of the two queues (R283 to R293). -/

namespace Sys2Proof.Machine

theorem memAddr_of_pcb {p a : Int} (h : 7000 ≤ p ∧ p + 17 ≤ 9999) (h1 : p ≤ a) (h2 : a ≤ p + 17) : MemAddr a := by
  rw [memAddr_iff]; omega

/-! ### Blocks of words -/

/-- What a block of words leaves in memory. -/
def Memory.writeBlock (m : Memory) (a : Int) : List Int → Memory
  | [] => m
  | v :: vs => Memory.writeBlock (m.write a.toNat v) (a + 1) vs

/-- A block inside the arena is written whole. -/
theorem storeBlock_eq (vs : List Int) : ∀ (a : Int) (s : State), 0 ≤ a → a + vs.length ≤ 10000 →
    storeBlock a vs s = .go () (s.setMem (s.mem.writeBlock a vs)) := by
  induction vs with
  | nil => exact fun _ _ _ _ => rfl
  | cons v vs ih =>
    intro a s h1 h2
    rw [List.length_cons] at h2
    push_cast at h2
    unfold storeBlock
    rw [store_of_memAddr (by rw [memAddr_iff]; omega), Flow.bind_go, ih _ _ (by omega) (by omega)]
    rfl

theorem Memory.wf_writeBlock (vs : List Int) : ∀ (m : Memory) (a : Int), m.wf = true → 0 ≤ a → a + vs.length ≤ 10000 →
    (m.writeBlock a vs).wf = true := by
  induction vs with
  | nil => exact fun _ _ h _ _ => h
  | cons v vs ih =>
    intro m a h h1 h2
    rw [List.length_cons] at h2
    push_cast at h2
    refine ih _ _ (Memory.wf_write v h ?_) (by omega) (by omega)
    show a.toNat < 10000
    omega

/-- A block leaves the words outside it alone. -/
theorem Memory.read_writeBlock_other (vs : List Int) : ∀ (m : Memory) (a : Int) (b : Nat), 0 ≤ a →
    ((b : Int) < a ∨ a + vs.length ≤ b) → (m.writeBlock a vs).read b = m.read b := by
  induction vs with
  | nil => exact fun _ _ _ _ _ => rfl
  | cons v vs ih =>
    intro m a b h1 h2
    rw [List.length_cons] at h2
    push_cast at h2
    refine (ih _ _ b (by omega) (by omega)).trans (Memory.read_write_other m v (by omega))

/-- Word `k` of a block, read back. -/
theorem Memory.read_writeBlock (vs : List Int) : ∀ (m : Memory) (a : Int) (k : Nat) (hk : k < vs.length), m.wf = true →
    0 ≤ a → a + vs.length ≤ 10000 → (m.writeBlock a vs).read (a + k).toNat = vs[k] := by
  induction vs with
  | nil => intro _ _ k hk; simp at hk
  | cons v vs ih =>
    intro m a k hk h h1 h2
    rw [List.length_cons] at h2
    push_cast at h2
    have hw : (m.write a.toNat v).wf = true := Memory.wf_write v h (by show a.toNat < 10000; omega)
    cases k with
    | zero =>
      refine (Memory.read_writeBlock_other vs _ _ _ (by omega) (by omega)).trans ?_
      simp [Memory.read_write_same _ v h]
    | succ k =>
      have := ih (m.write a.toNat v) (a + 1) k (by simpa using hk) hw (by omega) (by omega)
      rw [show a + 1 + (k : Int) = a + ((k + 1 : Nat) : Int) by push_cast; ring] at this
      exact this

/-! ### The walks (R284, R287) -/

/-- InsertReady's walk passes over the entries of at least the new priority, and changes nothing. -/
theorem readyPlace_skip {prio : Int} {s : State} {rest : List Int} (front : List Int) :
    ∀ (fuel : Nat) (prev cur : Int), queueChain s.mem cur (front ++ rest) → (∀ p ∈ front, 7000 ≤ p ∧ p + 17 ≤ 9999) →
      (∀ p ∈ front, prio ≤ s.word (p + 4)) →
      ∃ k, queueChain s.mem k rest ∧
        readyPlace prio (front.length + fuel) prev cur s = readyPlace prio fuel (front.getLastD prev) k s := by
  induction front with
  | nil => intro fuel prev cur hc _ _; exact ⟨cur, hc, by simp⟩
  | cons p ps ih =>
    intro fuel prev cur hc hb hn
    have h1 := hb p (List.mem_cons_self ..)
    have hle := hn p (List.mem_cons_self ..)
    obtain ⟨hcur, hc'⟩ := queueChain_head hc
    obtain ⟨k, hk, he⟩ := ih fuel p _ hc' (fun x hx => hb x (List.mem_cons_of_mem _ hx))
      fun x hx => hn x (List.mem_cons_of_mem _ hx)
    refine ⟨k, hk, ?_⟩
    subst hcur
    rw [List.length_cons, Nat.succ_add_eq_add_succ, Nat.add_succ]
    conv_lhs => unfold readyPlace
    rw [if_neg (by show cur ≠ -1; omega), load_of_memAddr (memAddr_of_pcb h1 (by simp) (by simp)), Flow.bind_go,
      if_pos (show prio ≤ s.mem.read (cur + Pcb.priority).toNat from hle), load_of_memAddr (memAddr_of_pcb h1 (by simp) (by simp)), Flow.bind_go]
    simp only [Pcb.next, Int.add_zero]
    refine he.trans ?_
    cases ps <;> simp [List.getLast?_cons]

/-- InsertReady's walk at the end of the queue. -/
theorem readyPlace_end {prio : Int} {fuel : Nat} {prev : Int} {s : State} :
    readyPlace prio (fuel + 1) prev (-1) s = .go (prev, -1) s := by
  unfold readyPlace; exact if_pos rfl

/-- InsertReady's walk at an entry of lower priority. -/
theorem readyPlace_here {prio : Int} {fuel : Nat} {prev cur : Int} {s : State} (h : 7000 ≤ cur ∧ cur + 17 ≤ 9999)
    (hp : s.word (cur + 4) < prio) : readyPlace prio (fuel + 1) prev cur s = .go (prev, cur) s := by
  unfold readyPlace
  rw [if_neg (by show cur ≠ -1; omega), load_of_memAddr (memAddr_of_pcb h (by simp) (by simp)), Flow.bind_go]
  exact if_neg (by show ¬ prio ≤ s.word (cur + 4); omega)

/-- RemoveWaiting's walk passes over the entries of other processes, and changes nothing. -/
theorem removeWalk_skip {pid : Int} {s : State} {rest : List Int} (front : List Int) :
    ∀ (fuel : Nat) (prev cur : Int), queueChain s.mem cur (front ++ rest) → (∀ p ∈ front, 7000 ≤ p ∧ p + 17 ≤ 9999) →
      (∀ p ∈ front, s.word (p + 1) ≠ pid) →
      ∃ k, queueChain s.mem k rest ∧
        removeWalk pid (front.length + fuel) prev cur s = removeWalk pid fuel (front.getLastD prev) k s := by
  induction front with
  | nil => intro fuel prev cur hc _ _; exact ⟨cur, hc, by simp⟩
  | cons p ps ih =>
    intro fuel prev cur hc hb hn
    have h1 := hb p (List.mem_cons_self ..)
    have hne := hn p (List.mem_cons_self ..)
    obtain ⟨hcur, hc'⟩ := queueChain_head hc
    obtain ⟨k, hk, he⟩ := ih fuel p _ hc' (fun x hx => hb x (List.mem_cons_of_mem _ hx))
      fun x hx => hn x (List.mem_cons_of_mem _ hx)
    refine ⟨k, hk, ?_⟩
    subst hcur
    rw [List.length_cons, Nat.succ_add_eq_add_succ, Nat.add_succ]
    conv_lhs => unfold removeWalk
    rw [if_neg (by show cur ≠ -1; omega), load_of_memAddr (memAddr_of_pcb h1 (by simp) (by simp)), Flow.bind_go,
      if_neg (show ¬ s.mem.read (cur + Pcb.pid).toNat = pid from hne), load_of_memAddr (memAddr_of_pcb h1 (by simp) (by simp)), Flow.bind_go]
    simp only [Pcb.next, Int.add_zero]
    refine he.trans ?_
    cases ps <;> simp [List.getLast?_cons]

/-- RemoveWaiting's walk at the end of the queue. -/
theorem removeWalk_end {pid : Int} {fuel : Nat} {prev : Int} {s : State} :
    removeWalk pid (fuel + 1) prev (-1) s = .go (-1) s := by
  unfold removeWalk; exact if_pos rfl

/-- RemoveWaiting's walk at the entry it looks for. -/
theorem removeWalk_here {pid : Int} {fuel : Nat} {prev cur : Int} {s : State} (h : 7000 ≤ cur ∧ cur + 17 ≤ 9999)
    (hp : s.word (cur + 1) = pid) :
    removeWalk pid (fuel + 1) prev cur s = (unlinkWaiting prev cur s).bind fun _ t => .go cur t := by
  unfold removeWalk
  rw [if_neg (by show cur ≠ -1; omega), load_of_memAddr (memAddr_of_pcb h (by simp) (by simp)), Flow.bind_go]
  exact if_pos hp

/-! ### Context (R291, R292) -/

/-- Saving the context of a PCB inside the arena. -/
theorem saveContext_eq {p : Int} {s : State} (h1 : 0 ≤ p + 7) (h2 : p + 17 ≤ 10000) :
    saveContext p s = .go () (s.setMem (s.mem.writeBlock (p + 7) (s.regs.toList ++ [s.sp, s.pc]))) :=
  storeBlock_eq _ _ _ h1 (by simp; omega)

/-- Dispatching a PCB inside the arena. -/
theorem dispatch_eq {p : Int} {s : State} (h1 : 0 ≤ p + 7) (h2 : p + 16 ≤ 9999) :
    dispatch p s = .go () (s.setContext (savedRegs p s.mem) (s.word (p + 15)) (s.word (p + 16)) .user) := by
  unfold dispatch
  rw [if_pos (by simp only [memAddr_iff, Pcb.gpr0, Pcb.savedPc]; omega)]
  rfl

/-- The saved registers, one by one. -/
theorem savedRegs_get (p : Int) (m : Memory) (r : Fin 8) :
    (savedRegs p m)[r.val] = m.read (p + 7 + (r.val : Int)).toNat := by
  fin_cases r <;> simp [savedRegs]

end Sys2Proof.Machine
end

