-- ==== Sys2Proof/Laws/Frames.lean ====
section
/-! SUPPORT. The laws of the frames of Safety.lean: from what a piece of pseudocode may touch to what stays the same. -/

namespace Sys2Proof.Machine

/-- A field that `forgetRun` keeps is the same in two states it makes equal. -/
theorem field_of_forgetRun {α : Type} (f : State → α) {s t : State} (hf : ∀ s, f s.forgetRun = f s)
    (h : t.forgetRun = s.forgetRun) : f t = f s := by
  rw [← hf t, h, hf]

/-- A field that `forgetOs` keeps is the same in two states it makes equal. -/
theorem field_of_forgetOs {α : Type} (f : State → α) {s t : State} (hf : ∀ s, f s.forgetOs = f s)
    (h : t.forgetOs = s.forgetOs) : f t = f s := by
  rw [← hf t, h, hf]

theorem sameOs_of_forgetRun {s t : State} (h : t.forgetRun = s.forgetRun) (hu : t.userFreeHead = s.userFreeHead) :
    SameOs s t where
  userFreeHead := hu
  osFreeHead := field_of_forgetRun State.osFreeHead (fun _ => rfl) h
  rqHead := field_of_forgetRun State.rqHead (fun _ => rfl) h
  wqHead := field_of_forgetRun State.wqHead (fun _ => rfl) h
  nextPid := field_of_forgetRun State.nextPid (fun _ => rfl) h
  shutdownSeen := field_of_forgetRun State.shutdownSeen (fun _ => rfl) h
  current := field_of_forgetRun State.current (fun _ => rfl) h
  inbox := field_of_forgetRun State.inbox (fun _ => rfl) h
  outbox := field_of_forgetRun State.outbox (fun _ => rfl) h
  freeDraws := field_of_forgetRun State.freeDraws (fun _ => rfl) h
  cfg := field_of_forgetRun State.cfg (fun _ => rfl) h

theorem sameStaging_of_forgetRun {s t : State} (h : t.forgetRun = s.forgetRun) : SameStaging s t where
  ir := field_of_forgetRun State.ir (fun _ => rfl) h
  mar := field_of_forgetRun State.mar (fun _ => rfl) h
  mbr := field_of_forgetRun State.mbr (fun _ => rfl) h

theorem SameOs.takeFault {s u : State} (h : SameOs s u) (c : FaultCode) : SameOs s (takeFault c u) :=
  ⟨h.1, h.2, h.3, h.4, h.5, h.6, h.7, h.8, h.9, h.10, h.11⟩

theorem SameOs.complete {s u : State} (h : SameOs s u) (op : Nat) (io : IoRequest) : SameOs s (complete op io u) :=
  ⟨by simp [h.1], by simp [h.2], by simp [h.3], by simp [h.4], by simp [h.5], by simp [h.6], by simp [h.7],
    by simp [h.8], by simp [h.9], by simp [h.10], by simp [h.11]⟩

theorem SameStaging.takeFault {s u : State} (h : SameStaging s u) (c : FaultCode) : SameStaging s (takeFault c u) :=
  ⟨h.1, h.2, h.3⟩

theorem SameStaging.complete {s u : State} (h : SameStaging s u) (op : Nat) (io : IoRequest) :
    SameStaging s (complete op io u) := ⟨by simp [h.1], by simp [h.2], by simp [h.3]⟩

/-! ### Registers -/

theorem reg_setReg {s : State} {r q : Fin 8} {v : Int} : (s.setReg r v).reg q = if q = r then v else s.reg q := by
  unfold State.reg State.setReg
  simp only [Vector.getElem_set]
  by_cases h : q = r
  · simp [h]
  · rw [if_neg (fun h' => h (Fin.ext h'.symm)), if_neg h]

theorem RegsSameBut.refl (l : List (Fin 8)) (s : State) : RegsSameBut l s s := fun _ _ => rfl

theorem RegsSameBut.mono {l l' : List (Fin 8)} {s t : State} (h : RegsSameBut l s t) (hl : ∀ r ∈ l, r ∈ l') :
    RegsSameBut l' s t := fun r hr => h r fun h' => hr (hl r h')

theorem RegsSameBut.trans {l l' : List (Fin 8)} {s t u : State} (h : RegsSameBut l s t) (h' : RegsSameBut l' t u) :
    RegsSameBut (l ++ l') s u := by
  intro r hr
  rw [List.mem_append, not_or] at hr
  exact (h' r hr.2).trans (h r hr.1)

theorem RegsSameBut.complete {l : List (Fin 8)} {s u : State} (h : RegsSameBut l s u) (op : Nat) (io : IoRequest) :
    RegsSameBut l s (complete op io u) := fun r hr => (complete_reg ..).trans (h r hr)

/-- A resolution changes no register but its own, in modes 3 and 4. -/
theorem ResolveEffect.regs {o : Operand} {s t : State} (h : ResolveEffect o s t) : RegsSameBut (steppedRegs o) s t := by
  intro r hr
  rcases h with rfl | ⟨hs, v, rfl⟩ | ⟨-, rfl⟩
  · rfl
  · simp [steppedRegs, hs] at hr
    rw [reg_setReg, if_neg hr]
  · rfl

/-- A written destination changes the register it designates, or one word of memory. -/
theorem putDest_regs (d : Dest) (v : Int) (s : State) :
    RegsSameBut (match d with | .reg r => [r] | _ => []) s (putDest d v s) := by
  cases d with
  | reg r => intro q hq; simp at hq; exact reg_setReg.trans (if_neg hq)
  | mem a => exact RegsSameBut.refl _ _
  | imm => exact RegsSameBut.refl _ _

/-! ### Memory -/

theorem MemSameBut.refl (as : List Int) (s : State) : MemSameBut as s s := fun _ _ => rfl

/-- One write inside the addresses named. -/
theorem memSameBut_write {as : List Int} {s t u : State} (h : MemSameBut as s t) {a v : Int} (ha : a ∈ as) (h0 : 0 ≤ a)
    (hu : u.mem = t.mem.write a.toNat v) : MemSameBut as s u := by
  intro b hb
  rw [hu, Memory.read_write_other _ _ (fun e => hb (by rw [e, Int.toNat_of_nonneg h0]; exact ha))]
  exact h b hb

/-! ### The registers an instruction may write -/

/-- The general registers an instruction may write: those of its destination and of its operands' resolutions, and the
result register of a SYSCALL. -/
def writtenRegs (cfg : Params) : Instr → List (Fin 8)
  | .halt => []
  | .add d o => destRegs d ++ steppedRegs o
  | .sub d o => destRegs d ++ steppedRegs o
  | .mul d o => destRegs d ++ steppedRegs o
  | .div d o => destRegs d ++ steppedRegs o
  | .move d o => destRegs d ++ steppedRegs o
  | .br => []
  | .brmi o => steppedRegs o
  | .brpl o => steppedRegs o
  | .brz o => steppedRegs o
  | .push o => steppedRegs o
  | .pop d => destRegs d
  | .syscall o => cfg.resultReg :: steppedRegs o

/-- An execute step writes general registers only among `ls`, and only among `es` when it faults; `sp` moves as said. -/
def RegEffect (ls es : List (Fin 8)) (sp spFault : Int → Prop) (s : State) (x : Flow IoRequest) : Prop :=
  x.Sat (fun _ t => RegsSameBut ls s t ∧ sp t.sp) fun _ t => RegsSameBut es s t ∧ spFault t.sp

/-- A resolved operand designates its own register only in mode 1, where resolution changes nothing. -/
theorem resolve_go_reg {o : Operand} {s t : State} {p : Dest × Int} (h : resolve o s = .go p t) :
    RegsSameBut (destRegs o) s t ∧ ∀ r, p.1 = .reg r → r ∈ destRegs o := by
  have he := (resolve_go_effect h).regs
  obtain ⟨m, q⟩ := o
  unfold resolve at h
  simp only at h
  split at h
  · simp only [resolveRegister, Flow.go.injEq] at h
    refine ⟨he.mono (by simp [steppedRegs, operandSteps]), ?_⟩
    rintro r hr
    rw [← h.1] at hr
    simp only [Dest.reg.injEq] at hr
    simp [destRegs, hr]
  · refine ⟨he.mono (by simp [steppedRegs, operandSteps]), fun r hr => ?_⟩
    unfold resolveDeferred at h; split at h
    · obtain ⟨_, _, _, h2⟩ := Flow.bind_eq_go.mp h
      simp only [Flow.go.injEq] at h2; rw [← h2.1] at hr; simp at hr
    · simp at h
  · refine ⟨he.mono (by simp [destRegs]), fun r hr => ?_⟩
    unfold resolveAutoInc at h; split at h
    · obtain ⟨_, _, _, h2⟩ := Flow.bind_eq_go.mp h
      simp only [Flow.go.injEq] at h2; rw [← h2.1] at hr; simp at hr
    · simp at h
  · refine ⟨he.mono (by simp [destRegs]), fun r hr => ?_⟩
    unfold resolveAutoDec at h
    obtain ⟨_, _, _, h1⟩ := Flow.bind_eq_go.mp h
    split at h1
    · obtain ⟨_, _, _, h2⟩ := Flow.bind_eq_go.mp h1
      simp only [Flow.go.injEq] at h2; rw [← h2.1] at hr; simp at hr
    · simp at h1
  · refine ⟨he.mono (by simp [steppedRegs, operandSteps]), fun r hr => ?_⟩
    unfold resolveDirect at h
    obtain ⟨_, _, _, h1⟩ := Flow.bind_eq_go.mp h
    split at h1
    · obtain ⟨_, _, _, h2⟩ := Flow.bind_eq_go.mp h1
      simp only [Flow.go.injEq] at h2; rw [← h2.1] at hr; simp at hr
    · simp at h1
  · refine ⟨he.mono (by simp [steppedRegs, operandSteps]), fun r hr => ?_⟩
    unfold resolveImmediate at h
    obtain ⟨_, _, _, h2⟩ := Flow.bind_eq_go.mp h
    simp only [Flow.go.injEq] at h2; rw [← h2.1] at hr; simp at hr
  · simp at h

/-- The registers a written destination changes are those its operand may write. -/
theorem putDest_destRegs {o : Operand} {s t : State} {p : Dest × Int} (h : resolve o s = .go p t) (v : Int) (u : State) :
    RegsSameBut (destRegs o) u (putDest p.1 v u) :=
  (putDest_regs p.1 v u).mono (by
    have := (resolve_go_reg h).2
    cases hp : p.1 with
    | reg r => simpa using this r hp
    | mem a => simp
    | imm => simp)

theorem regEffect_execArith {f : Int → Int → State → Flow Int} (hf : PureOp f) (d o : Operand) (s : State) :
    RegEffect (destRegs d ++ steppedRegs o) (steppedRegs d ++ steppedRegs o) (· = s.sp) (· = s.sp) s
      (execArith f d o s) := by
  rcases execArith_cases hf d o s with ⟨c, s1, h1, he⟩ | ⟨p, s1, h1, h⟩
  · have e := resolve_raise_effect h1
    rw [he]; exact Flow.sat_raise.mpr ⟨e.regs.mono (by simp +contextual), e.frame.2.2.1⟩
  · have e := resolve_go_effect h1
    rcases h with ⟨c, s2, h2, he⟩ | ⟨q, s2, h2, h⟩
    · have e2 := resolve_raise_effect h2
      rw [he]; exact Flow.sat_raise.mpr ⟨e.regs.trans e2.regs, e2.frame.2.2.1.trans e.frame.2.2.1⟩
    · have e2 := resolve_go_effect h2
      have hsp := e2.frame.2.2.1.trans e.frame.2.2.1
      rcases h with ⟨c, -, he⟩ | ⟨v, -, ⟨-, he⟩ | ⟨-, he⟩⟩
      · rw [he]; exact Flow.sat_raise.mpr ⟨e.regs.trans e2.regs, hsp⟩
      · rw [he]; exact Flow.sat_raise.mpr ⟨e.regs.trans e2.regs, hsp⟩
      · rw [he]
        refine Flow.sat_go.mpr ⟨?_, (putDest_sp ..).trans hsp⟩
        exact (((resolve_go_reg h1).1.trans e2.regs).trans (putDest_destRegs h1 v s2)).mono (by simp; tauto)

theorem regEffect_branchTo (s : State) : RegEffect [] [] (· = s.sp) (· = s.sp) s (branchTo s) := by
  rcases branchTo_cases s with ⟨-, he⟩ | ⟨-, he⟩ <;> rw [he]
  · exact Flow.sat_go.mpr ⟨RegsSameBut.refl _ _, rfl⟩
  · exact Flow.sat_raise.mpr ⟨RegsSameBut.refl _ _, rfl⟩

theorem regEffect_branchIf (cond : Int → Bool) (o : Operand) (s : State) :
    RegEffect (steppedRegs o) (steppedRegs o) (· = s.sp) (· = s.sp) s (branchIf cond o s) := by
  rcases branchIf_cases cond o s with ⟨c, s1, h1, he⟩ | ⟨p, s1, h1, h⟩
  · have e := resolve_raise_effect h1
    rw [he]; exact Flow.sat_raise.mpr ⟨e.regs, e.frame.2.2.1⟩
  · have e := resolve_go_effect h1
    rcases h with ⟨-, -, he⟩ | ⟨-, -, he⟩ | ⟨-, he⟩ <;> rw [he]
    · exact Flow.sat_go.mpr ⟨e.regs, e.frame.2.2.1⟩
    · exact Flow.sat_raise.mpr ⟨e.regs, e.frame.2.2.1⟩
    · exact Flow.sat_go.mpr ⟨e.regs, e.frame.2.2.1⟩

/-- An instruction's execute step, with all that it may touch. -/
theorem exec_effect (i : Instr) (s : State) :
    ∃ x, exec i s = finish i.opcode x ∧ RunEffect i.opcode s x ∧
      RegEffect (writtenRegs s.cfg i) (i.operands.flatMap steppedRegs)
        (fun v => v = s.sp ∨ i.opcode = 10 ∧ v = s.sp + 1 ∨ i.opcode = 11 ∧ v = s.sp - 1)
        (fun v => v = s.sp ∨ i.opcode = 11 ∧ v = s.sp - 1) s x := by
  have arith : ∀ {f : Int → Int → State → Flow Int} (hf : PureOp f) (d o : Operand),
      RegEffect (destRegs d ++ steppedRegs o) ([d, o].flatMap steppedRegs) (· = s.sp) (· = s.sp) s (execArith f d o s) :=
    fun hf d o => by simpa using regEffect_execArith hf d o s
  have branch : ∀ (cond : Int → Bool) (o : Operand),
      RegEffect (steppedRegs o) ([o].flatMap steppedRegs) (· = s.sp) (· = s.sp) s (branchIf cond o s) :=
    fun cond o => by simpa using regEffect_branchIf cond o s
  have weak : ∀ {ls es : List (Fin 8)} {x : Flow IoRequest} {op : Nat}, RegEffect ls es (· = s.sp) (· = s.sp) s x →
      RegEffect ls es (fun v => v = s.sp ∨ op = 10 ∧ v = s.sp + 1 ∨ op = 11 ∧ v = s.sp - 1)
        (fun v => v = s.sp ∨ op = 11 ∧ v = s.sp - 1) s x :=
    fun h => Flow.Sat.mono h (fun _ _ h => ⟨h.1, .inl h.2⟩) fun _ _ h => ⟨h.1, .inl h.2⟩
  cases i with
  | halt =>
    exact ⟨_, rfl, Flow.sat_go.mpr ⟨rfl, fun _ => ⟨rfl, rfl, rfl⟩, .inl rfl⟩,
      Flow.sat_go.mpr ⟨RegsSameBut.refl _ _, .inl rfl⟩⟩
  | br => exact ⟨_, rfl, runEffect_branchTo _ _, weak (regEffect_branchTo s)⟩
  | add d o => exact ⟨_, rfl, runEffect_execArith pureOp_add _ _ _ _, weak (arith pureOp_add d o)⟩
  | sub d o => exact ⟨_, rfl, runEffect_execArith pureOp_sub _ _ _ _, weak (arith pureOp_sub d o)⟩
  | mul d o => exact ⟨_, rfl, runEffect_execArith pureOp_mul _ _ _ _, weak (arith pureOp_mul d o)⟩
  | div d o => exact ⟨_, rfl, runEffect_execArith pureOp_div _ _ _ _, weak (arith pureOp_div d o)⟩
  | move d o => exact ⟨_, rfl, runEffect_execArith pureOp_move _ _ _ _, weak (arith pureOp_move d o)⟩
  | brmi o => exact ⟨_, rfl, runEffect_branchIf _ _ _ _, weak (branch _ o)⟩
  | brpl o => exact ⟨_, rfl, runEffect_branchIf _ _ _ _, weak (branch _ o)⟩
  | brz o => exact ⟨_, rfl, runEffect_branchIf _ _ _ _, weak (branch _ o)⟩
  | push o =>
    refine ⟨_, rfl, ?_⟩
    rcases resolve_answers o s with ⟨p, s1, h1, e⟩ | ⟨c, s1, h1, e⟩
    · rw [h1, Flow.bind_go]
      refine ⟨(runEffect_pushWord _ _ _).trans e.frame, ?_⟩
      have hsp := e.frame.2.2.1
      rcases pushWord_cases p.2 s1 with ⟨-, he⟩ | ⟨-, he⟩ <;> rw [he]
      · exact Flow.sat_go.mpr ⟨e.regs, .inr (.inl ⟨rfl, by simp [hsp]⟩)⟩
      · exact Flow.sat_raise.mpr ⟨by simpa [Instr.operands] using e.regs, .inl hsp⟩
    · rw [h1, Flow.bind_raise]
      exact ⟨Flow.sat_raise.mpr ⟨e.frame.1, e.frame.2.1, e.frame.2.2.2.2, .inl e.frame.2.2.2.1⟩,
        Flow.sat_raise.mpr ⟨by simpa [Instr.operands] using e.regs, .inl e.frame.2.2.1⟩⟩
  | pop d =>
    refine ⟨_, rfl, ?_⟩
    rcases resolve_answers d s with ⟨p, s1, h1, e⟩ | ⟨c, s1, h1, e⟩
    · rw [h1, Flow.bind_go]
      refine ⟨(runEffect_popInto (resolve_go_dest h1) _ _).trans e.frame, ?_⟩
      have hsp := e.frame.2.2.1
      rcases popInto_cases (resolve_go_dest h1) s1 with ⟨-, -, he⟩ | ⟨-, -, he⟩ | ⟨-, he⟩ <;> rw [he]
      · refine Flow.sat_go.mpr ⟨?_, .inr (.inr ⟨rfl, by simp [hsp]⟩)⟩
        have h2 : RegsSameBut (destRegs d) s1 (putDest p.1 (s1.word s1.sp) (s1.setSp (s1.sp - 1))) :=
          putDest_destRegs h1 _ (s1.setSp (s1.sp - 1))
        exact ((resolve_go_reg h1).1.trans h2).mono (by simp [writtenRegs])
      · have h2 : RegsSameBut (steppedRegs d) s (s1.setSp (s1.sp - 1)) := e.regs
        exact Flow.sat_raise.mpr ⟨by simpa [Instr.operands] using h2, .inr ⟨rfl, by simp [hsp]⟩⟩
      · exact Flow.sat_raise.mpr ⟨by simpa [Instr.operands] using e.regs, .inl hsp⟩
    · rw [h1, Flow.bind_raise]
      exact ⟨Flow.sat_raise.mpr ⟨e.frame.1, e.frame.2.1, e.frame.2.2.2.2, .inl e.frame.2.2.2.1⟩,
        Flow.sat_raise.mpr ⟨by simpa [Instr.operands] using e.regs, .inl e.frame.2.2.1⟩⟩
  | syscall o =>
    refine ⟨_, rfl, ?_⟩
    rcases resolve_answers o s with ⟨p, s1, h1, e⟩ | ⟨c, s1, h1, e⟩
    · rw [h1, Flow.bind_go]
      refine ⟨(runEffect_callService _ _).trans e.frame, ?_⟩
      have hcfg : s1.cfg = s.cfg := field_of_forgetRun State.cfg (fun _ => rfl) e.frame.1
      refine (callService_frame p.2 s1).mono ?_ ?_
      · rintro io t ⟨m, h, rs, rfl, hr, -⟩
        refine ⟨?_, .inl e.frame.2.2.1⟩
        rw [hcfg] at hr
        have h2 : RegsSameBut [s.cfg.resultReg] s1
            { s1 with mem := m, userFreeHead := h, regs := rs, mode := .user } := fun r h => hr r (by simpa using h)
        exact (e.regs.trans h2).mono (by simp [writtenRegs]; tauto)
      · rintro c t ⟨-, rfl⟩
        exact ⟨by simpa [Instr.operands] using (show RegsSameBut (steppedRegs o) s (s1.setMode .user) from e.regs),
          .inl e.frame.2.2.1⟩
    · rw [h1, Flow.bind_raise]
      exact ⟨Flow.sat_raise.mpr ⟨e.frame.1, e.frame.2.1, e.frame.2.2.2.2, .inl e.frame.2.2.2.1⟩,
        Flow.sat_raise.mpr ⟨by simpa [Instr.operands] using e.regs, .inl e.frame.2.2.1⟩⟩

end Sys2Proof.Machine
end

