-- ==== Sys2Proof/Laws/PerInstr.lean ====
section
/-! SUPPORT. Families of statements about each instruction as syntax, with one lemma per constructor. -/

namespace Sys2Proof

/-- The word of a well-formed instruction is one a decoder accepts the range of (R81, R97). -/
def Laws.EncodeInRange.Statement (i : Instr) : Prop := i.wellFormed = true → 0 ≤ encode i ∧ encode i ≤ 999999

/-- R85: the opcodes are 0 to 12. -/
theorem Instr.opcode_le (i : Instr) : i.opcode ≤ 12 := by cases i <;> simp [Instr.opcode]

/-- A packed word with a legal opcode and legal digits has at most six digits. -/
theorem packWord_le {op : Nat} {o1 o2 : Operand} (hop : op ≤ 12) (h1 : o1.wellFormed = true) (h2 : o2.wellFormed = true) :
    packWord op o1 o2 ≤ 999999 := by
  simp only [Operand.wellFormed, modeLegal, decide_eq_true_eq] at h1 h2
  have := o1.reg.isLt
  have := o2.reg.isLt
  unfold packWord
  omega

/-- The family, for any instruction whose two field pairs are legal. -/
theorem encode_inRange {i : Instr} (hop : i.opcode ≤ 12) (h1 : i.operand1.wellFormed = true)
    (h2 : i.operand2.wellFormed = true) : 0 ≤ encode i ∧ encode i ≤ 999999 :=
  ⟨Int.natCast_nonneg _, by unfold encode; exact_mod_cast packWord_le hop h1 h2⟩

theorem wellFormed_two {d s : Operand} (h : ([d, s].all Operand.wellFormed) = true) :
    d.wellFormed = true ∧ s.wellFormed = true := by simpa using h

theorem wellFormed_one {s : Operand} (h : ([s].all Operand.wellFormed) = true) : s.wellFormed = true := by simpa using h

theorem Laws.EncodeInRange.halt : Laws.EncodeInRange.Statement .halt := fun _ => encode_inRange (Instr.opcode_le _) rfl rfl

theorem Laws.EncodeInRange.add (d s : Operand) : Laws.EncodeInRange.Statement (.add d s) := fun h =>
  encode_inRange (Instr.opcode_le _) (wellFormed_two h).1 (wellFormed_two h).2

theorem Laws.EncodeInRange.sub (d s : Operand) : Laws.EncodeInRange.Statement (.sub d s) := fun h =>
  encode_inRange (Instr.opcode_le _) (wellFormed_two h).1 (wellFormed_two h).2

theorem Laws.EncodeInRange.mul (d s : Operand) : Laws.EncodeInRange.Statement (.mul d s) := fun h =>
  encode_inRange (Instr.opcode_le _) (wellFormed_two h).1 (wellFormed_two h).2

theorem Laws.EncodeInRange.div (d s : Operand) : Laws.EncodeInRange.Statement (.div d s) := fun h =>
  encode_inRange (Instr.opcode_le _) (wellFormed_two h).1 (wellFormed_two h).2

theorem Laws.EncodeInRange.move (d s : Operand) : Laws.EncodeInRange.Statement (.move d s) := fun h =>
  encode_inRange (Instr.opcode_le _) (wellFormed_two h).1 (wellFormed_two h).2

theorem Laws.EncodeInRange.br : Laws.EncodeInRange.Statement .br := fun _ => encode_inRange (Instr.opcode_le _) rfl rfl

theorem Laws.EncodeInRange.brmi (s : Operand) : Laws.EncodeInRange.Statement (.brmi s) := fun h =>
  encode_inRange (Instr.opcode_le _) (wellFormed_one h) rfl

theorem Laws.EncodeInRange.brpl (s : Operand) : Laws.EncodeInRange.Statement (.brpl s) := fun h =>
  encode_inRange (Instr.opcode_le _) (wellFormed_one h) rfl

theorem Laws.EncodeInRange.brz (s : Operand) : Laws.EncodeInRange.Statement (.brz s) := fun h =>
  encode_inRange (Instr.opcode_le _) (wellFormed_one h) rfl

theorem Laws.EncodeInRange.push (s : Operand) : Laws.EncodeInRange.Statement (.push s) := fun h =>
  encode_inRange (Instr.opcode_le _) (wellFormed_one h) rfl

theorem Laws.EncodeInRange.pop (d : Operand) : Laws.EncodeInRange.Statement (.pop d) := fun h =>
  encode_inRange (Instr.opcode_le _) (wellFormed_one h) rfl

theorem Laws.EncodeInRange.syscall (s : Operand) : Laws.EncodeInRange.Statement (.syscall s) := fun h =>
  encode_inRange (Instr.opcode_le _) (wellFormed_one h) rfl

end Sys2Proof
end

