-- ==== Sys2Proof/Laws/Steps.lean ====
section
/-! SUPPORT. One step, by the control point it starts from: what it can answer. -/

namespace Sys2Proof.Machine

/-- A step of the engine: the fetch faults, the decoding faults in the state the fetch leaves, or the decoded instruction
runs in that state (R111 to R115). -/
theorem step_engine {s t : State} (hp : s.phase = .engine) (h : step s = .next t) :
    ¬ UserAddr s.pc ∧ t = takeFault .runtime s ∨
    UserAddr s.pc ∧ (∃ c, decode s.cfg.checkUnused (s.word s.pc) = .error c ∧
      t = takeFault c (s.setFetched (s.word s.pc))) ∨
    UserAddr s.pc ∧ ∃ i, decode s.cfg.checkUnused (s.word s.pc) = .ok i ∧
      exec i (s.setFetched (s.word s.pc)) = .next t := by
  unfold step at h
  simp only [hp, engineStep, fetch] at h
  by_cases hu : UserAddr s.pc
  · right
    simp only [if_pos hu, load_of_memAddr (memAddr_of_userAddr hu), Flow.bind_go, decodeAndRun] at h
    have hir : (s.setFetched (s.mem.read s.pc.toNat)).ir = s.mem.read s.pc.toNat := rfl
    rw [hir] at h
    simp only [State.word]
    cases hd : decode s.cfg.checkUnused (s.mem.read s.pc.toNat) with
    | ok i => simp only [State.setFetched_cfg, hd] at h; exact .inr ⟨hu, i, rfl, h⟩
    | error c =>
      simp only [State.setFetched_cfg, hd, Host.Outcome.next.injEq] at h
      exact .inl ⟨hu, c, rfl, h.symm⟩
  · left
    simp only [if_neg hu, Host.Outcome.next.injEq] at h
    exact ⟨hu, h.symm⟩

/-- A step of the sequencer runs pseudocode that raises no fault. -/
theorem outcome_osOnly {s t : State} {x : Flow Unit} (hx : x.OsOnly s) (h : x.outcome = .next t) :
    t.forgetOs = s.forgetOs := by
  rcases Flow.outcome_eq_next.mp h with ⟨u, rfl⟩ | ⟨c, v, rfl, -⟩
  · exact hx.go rfl
  · exact absurd rfl hx.not_raise

/-- Pseudocode that raises no fault, followed by one update. -/
theorem outcome_then {s t : State} {x : Flow Unit} (hx : x.OsOnly s) (f : State → State)
    (h : (x.bind fun _ u => .go () (f u)).outcome = .next t) : ∃ u : State, u.forgetOs = s.forgetOs ∧ t = f u := by
  rcases Flow.outcome_eq_next.mp h with ⟨_, h⟩ | ⟨c, v, h, -⟩
  · obtain ⟨_, u, h1, h2⟩ := Flow.bind_eq_go.mp h
    simp only [Flow.go.injEq] at h2
    exact ⟨u, hx.go h1, h2.2.symm⟩
  · rcases Flow.bind_eq_raise.mp h with h | ⟨_, u, -, h⟩
    · exact absurd h hx.not_raise
    · simp at h

/-- Boot. -/
theorem step_powerOn {s t : State} (hp : s.phase = .powerOn) (h : step s = .next t) :
    ∃ u : State, u.forgetOs = s.forgetOs ∧ t = u.setPhase .receive := by
  unfold step boot at h
  simp only [hp] at h
  refine outcome_then (x := (initFreeList .user s).bind fun _ s => initFreeList .os s)
    ((osOnly_initFreeList _ _).bind fun _ _ => osOnly_initFreeList _ _) (·.setPhase .receive) ?_
  rw [← h]
  cases initFreeList .user s <;> rfl

/-- The turns of a shutdown. -/
theorem step_drain {s t : State} (hp : s.phase = .drain) (h : step s = .next t) :
    t.forgetOs = s.forgetOs ∨ t = s.setShutdownSeen.setPhase .select := by
  unfold step drainStep at h
  simp only [hp] at h
  by_cases h1 : s.rqHead ≠ Config.endOfList
  · rw [if_pos h1] at h
    exact .inl (outcome_osOnly ((osOnly_selectNext _).bind fun _ _ => osOnly_terminateProcess ..) h)
  · rw [if_neg h1] at h
    by_cases h2 : s.wqHead ≠ Config.endOfList
    · rw [if_pos h2] at h
      exact .inl (outcome_osOnly ((osOnly_load _ _).bind fun nxt u =>
        (osOnly_terminateProcess _ (u.setWqHead nxt) : Flow.OsOnly u _)) h)
    · rw [if_neg h2] at h
      simp only [Flow.outcome, Host.Outcome.next.injEq] at h
      exact .inr h.symm

/-- The routing of an ended invocation, in OS mode. -/
theorem step_route {s t : State} {st : ExitStatus} (hp : s.phase = .route st) (h : step s = .next t) :
    ∃ u : State, u.forgetOs = (s.setMode .os).forgetOs ∧ t = (u.setCurrent Config.endOfList).setPhase .receive := by
  unfold step routeStep at h
  simp only [hp] at h
  exact outcome_then (osOnly_route ..) _ h

/-- A stopped machine. -/
theorem step_stopped {s t : State} (hp : s.phase = .stopped) (h : step s = .next t) : t = s := by
  unfold step at h
  simp only [hp, Host.Outcome.next.injEq] at h
  exact h.symm

/-- From the stop test to the start of an invocation. -/
theorem step_select {s t : State} (hp : s.phase = .select) (h : step s = .next t) :
    t = s.setPhase .stopped ∨ t = s.setPhase .receive ∨
    ∃ (u : State) (p : Int) (regs : Vector Int 8) (sp pc : Int), u.forgetOs = s.forgetOs ∧ u.cfg = s.cfg ∧
      t = startSlice ((u.setCurrent p).setContext regs sp pc .user) := by
  unfold step selectStep at h
  simp only [hp] at h
  by_cases h1 : s.shutdownSeen = true ∧ s.rqHead = Config.endOfList ∧ s.wqHead = Config.endOfList
  · rw [if_pos h1] at h
    simp only [Flow.outcome, Host.Outcome.next.injEq] at h
    exact .inl h.symm
  · rw [if_neg h1] at h
    right
    have hsel := osOnly_selectNext s
    have h0 : s.rqHead = Config.endOfList → selectNext s = .go Config.endOfList s := fun h => by
      unfold selectNext; rw [if_pos h]
    have h0' : ∀ p u, selectNext s = .go p u → p = s.rqHead := by
      intro p u hsn
      unfold selectNext at hsn
      split at hsn
      · simp only [Flow.go.injEq] at hsn; rw [← hsn.1]; exact Eq.symm (by assumption)
      · obtain ⟨_, _, -, h2⟩ := Flow.bind_eq_go.mp hsn
        obtain ⟨_, _, -, h3⟩ := Flow.bind_eq_go.mp h2
        simp only [Flow.go.injEq] at h3
        exact h3.1.symm
    rcases Flow.outcome_eq_next.mp h with ⟨_, h⟩ | ⟨c, v, h, -⟩
    · obtain ⟨p, u, h2, h3⟩ := Flow.bind_eq_go.mp h
      have hu := hsel.go h2
      by_cases hpe : p = Config.endOfList
      · have hr : s.rqHead = Config.endOfList := (h0' p u h2).symm.trans hpe
        rw [h0 hr] at h2
        simp only [Flow.go.injEq] at h2
        rw [if_pos hpe] at h3
        simp only [Flow.go.injEq] at h3
        rw [← h2.2] at h3
        exact .inl h3.2.symm
      · right
        rw [if_neg hpe] at h3
        unfold startProcess at h3
        obtain ⟨_, v, h4, h5⟩ := Flow.bind_eq_go.mp h3
        obtain ⟨-, rfl⟩ := store_eq_go.mp h4
        obtain ⟨_, w, h6, h7⟩ := Flow.bind_eq_go.mp h5
        unfold dispatch at h6
        split at h6
        · simp only [Flow.go.injEq] at h6 h7
          rw [← h7.2, ← h6.2]
          exact ⟨u.setMem (u.mem.write (p + Pcb.state).toNat u.cfg.codes.running), p, _, _, _, hu, field_of_forgetOs State.cfg (fun _ => rfl) hu, rfl⟩
        · simp at h6
    · exfalso
      rcases Flow.bind_eq_raise.mp h with h | ⟨p, u, -, h⟩
      · exact hsel.not_raise h
      · split at h
        · simp at h
        · unfold startProcess at h
          rcases Flow.bind_eq_raise.mp h with h | ⟨_, _, -, h⟩
          · simp at h
          · rcases Flow.bind_eq_raise.mp h with h | ⟨_, _, -, h⟩
            · unfold dispatch at h; split at h <;> simp at h
            · simp at h

/-! ### The receive -/

theorem forgetPid_of_forgetOs {s t : State} (h : t.forgetOs = s.forgetOs) : t.forgetPid = s.forgetPid := by
  unfold State.forgetPid
  rw [h]

/-- Process creation changes nothing but what `forgetPid` forgets; the next process ID stays, or is advanced once. -/
theorem createProcess_effect (file : ProgramFile) (priority : Int) (s : State) :
    (createProcess file priority s).Sat
      (fun _ t => t.forgetOs = s.forgetOs ∨ t.forgetOs = (advancePid s).forgetOs) fun _ _ => False := by
  unfold createProcess
  refine Flow.Sat.bind (osOnly_allocate _ _ _) fun r t ht => ?_
  cases r with
  | noFreeMemory => exact Flow.sat_go.mpr (.inl ht)
  | invalidSize => exact Flow.sat_go.mpr (.inl ht)
  | address p =>
    have hadv : ∀ u : State, u.forgetOs = s.forgetOs → (advancePid u).forgetOs = (advancePid s).forgetOs := by
      intro u hu
      have e1 : u.nextPid = s.nextPid := field_of_forgetOs State.nextPid (fun _ => rfl) hu
      have e2 : u.freeDraws = s.freeDraws := field_of_forgetOs State.freeDraws (fun _ => rfl) hu
      have e3 : u.cfg = s.cfg := field_of_forgetOs State.cfg (fun _ => rfl) hu
      unfold advancePid
      rw [e1, e2, e3]
      split
      · show (u.forgetOs).setNextPid _ _ = (s.forgetOs).setNextPid _ _; rw [hu]; rfl
      · show (u.forgetOs).setNextPid _ _ = (s.forgetOs).setNextPid _ _; rw [hu]; rfl
    unfold initPcb
    have hinit : ((storeBlock p (List.replicate Config.pcbSize.toNat 0) t).bind fun _ s =>
        (store (p + Pcb.pid) s.nextPid s).bind fun _ s => Flow.go () (advancePid s)).Sat
        (fun _ u => u.forgetOs = (advancePid s).forgetOs) fun _ _ => False :=
      Flow.Sat.bind (osOnly_storeBlock _ _ _) fun _ u hu => Flow.Sat.bind (osOnly_store _ _ _) fun _ v hv =>
        Flow.sat_go.mpr (hadv v (hv.trans (hu.trans ht)))
    refine hinit.bind fun _ u hu => Flow.Sat.bind (osOnly_loadFile _ _) fun start v hv => ?_
    by_cases hs : start < 0
    · simp only [if_pos hs]
      exact (osOnly_abandonPcb _ _ _).mono (fun _ _ h => .inr (h.trans (hv.trans hu))) fun _ _ h => h
    · simp only [if_neg hs]
      exact (osOnly_createStack _ _ _ _).mono (fun _ _ h => .inr (h.trans (hv.trans hu))) fun _ _ h => h

/-- The receive: waiting, or the handling of one interrupt. -/
theorem step_receive {s t : State} (hp : s.phase = .receive) (h : step s = .next t) :
    s.inbox = [] ∧ t = s ∨ ∃ (e : Interrupt) (rest : List Interrupt) (u : State) (ph : Phase), s.inbox = e :: rest ∧ t = u.setPhase ph ∧ (ph = .select ∨ ph = .drain) ∧
      (u.forgetOs = (s.setInbox rest).forgetOs ∨ u.forgetOs = (advancePid (s.setInbox rest)).forgetOs) := by
  unfold step receiveStep at h
  simp only [hp] at h
  cases hi : s.inbox with
  | nil =>
    simp only [hi, Flow.outcome, Host.Outcome.next.injEq] at h
    exact .inl ⟨rfl, h.symm⟩
  | cons e rest =>
    simp only [hi] at h
    refine .inr ⟨e, rest, ?_⟩
    unfold handleInterrupt at h
    split at h
    · simp only [Flow.outcome, Host.Outcome.next.injEq] at h
      exact ⟨_, _, rfl, h.symm, .inl rfl, .inl rfl⟩
    · split at h
      · rcases Flow.outcome_eq_next.mp h with ⟨_, h⟩ | ⟨c, v, h, -⟩
        · obtain ⟨_, u, h1, h2⟩ := Flow.bind_eq_go.mp h
          simp only [Flow.go.injEq] at h2
          exact ⟨u, _, rfl, h2.2.symm, .inl rfl, (createProcess_effect _ _ _).1 _ _ h1⟩
        · exfalso
          rcases Flow.bind_eq_raise.mp h with h | ⟨_, u, -, h⟩
          · exact (createProcess_effect _ _ _).2 _ _ h
          · simp at h
      · split at h
        · simp only [Flow.outcome, Host.Outcome.next.injEq] at h
          exact ⟨_, _, rfl, h.symm, .inr rfl, .inl rfl⟩
        · split at h
          · obtain ⟨u, hu, rfl⟩ := outcome_then (osOnly_inputCompletion ..) _ h
            exact ⟨u, _, rfl, rfl, .inl rfl, .inl hu⟩
          · split at h
            · obtain ⟨u, hu, rfl⟩ := outcome_then (osOnly_outputCompletion ..) _ h
              exact ⟨u, _, rfl, rfl, .inl rfl, .inl hu⟩
            · simp only [Flow.outcome, Host.Outcome.next.injEq] at h
              exact ⟨report .invalidInterrupt (s.setInbox rest), .select, rfl, h.symm, .inl rfl, .inl rfl⟩

end Sys2Proof.Machine
end

