-- ==== Sys2Proof/Tests/Slice0.lean ====
section
/-! SUPPORT. The model's own tests. Expected results come from spec/95_test_vectors.md (section named in each group) or
are worked out by hand from the rule named; the last part shows, for every statement with hypotheses, a concrete state that
meets them. -/

namespace Sys2Proof.Tests

open Sys2Proof Sys2Proof.Machine

/-! ### Helpers -/

/-- A process running in an engine invocation with 200 units left, at `pc`. -/
def at_ (pc : Int) (mem : Memory) : State :=
  { State.reset with pc := pc, mem := mem, mode := .user, budget := 200, phase := .engine }

/-- The same with given general registers. -/
def with_ (regs : Vector Int 8) (s : State) : State := { s with regs := regs }

/-- Only `x[1]` and `x[2]` are given. -/
def regs12 (a b : Int) : Vector Int 8 := #v[0, a, b, 0, 0, 0, 0, 0]

/-- Only `x[0]` is given. -/
def regs0 (a : Int) : Vector Int 8 := #v[a, 0, 0, 0, 0, 0, 0, 0]

/-- Whether the outcome is a next state of which `p` holds. -/
def next_ (x : Host.Outcome State Fault Refusal) (p : State → Bool) : Bool :=
  match x with
  | .next t => p t
  | .fault _ => false
  | .refused _ => false

theorem next_spec {x : Host.Outcome State Fault Refusal} {p : State → Bool} (h : next_ x p = true) :
    ∃ t, x = .next t ∧ p t = true := by
  cases x with
  | next t => exact ⟨t, rfl, h⟩
  | fault _ => simp [next_] at h
  | refused _ => simp [next_] at h

/-- Whether the state is not one just after a fault. -/
def unfaulted (t : State) : Bool :=
  match t.phase with
  | .route (.fault _) => false
  | _ => true

theorem unfaulted_spec {t : State} (h : unfaulted t = true) : NotFaulted t := by
  intro c hc
  simp [unfaulted, hc] at h

theorem goesOn_spec {x : Host.Outcome State Fault Refusal} (h : next_ x unfaulted = true) :
    ∃ t, x = .next t ∧ NotFaulted t := by
  obtain ⟨t, h1, h2⟩ := next_spec h
  exact ⟨t, h1, unfaulted_spec h2⟩

/-! ### Well-formedness: each check refuses an ill-formed term -/

theorem test_wellFormed_mode_zero : (Instr.brz ⟨0, 0⟩).wellFormed = false := by decide
theorem test_wellFormed_mode_seven : (Instr.push ⟨7, 3⟩).wellFormed = false := by decide
theorem test_wellFormed_second_operand : (Instr.add ⟨1, 0⟩ ⟨0, 0⟩).wellFormed = false := by decide
theorem test_wellFormed_first_operand : (Instr.move ⟨9, 0⟩ ⟨1, 0⟩).wellFormed = false := by decide
theorem test_wellFormed_accepts : (Instr.div ⟨6, 7⟩ ⟨4, 0⟩).wellFormed = true := by decide

/-! ### Decode: words written out from the encoding (section 2.1, and the words of 2.4 to 2.7) -/

theorem test_decode_halt : decode true 1010 = .ok .halt := by decide
theorem test_decode_add : decode true 11060 = .ok (.add ⟨1, 0⟩ ⟨6, 0⟩) := by decide
theorem test_decode_sub : decode true 21360 = .ok (.sub ⟨1, 3⟩ ⟨6, 0⟩) := by decide
theorem test_decode_mul : decode true 31060 = .ok (.mul ⟨1, 0⟩ ⟨6, 0⟩) := by decide
theorem test_decode_div : decode true 46060 = .ok (.div ⟨6, 0⟩ ⟨6, 0⟩) := by decide
theorem test_decode_move : decode true 53231 = .ok (.move ⟨3, 2⟩ ⟨3, 1⟩) := by decide
theorem test_decode_br : decode true 61010 = .ok .br := by decide
theorem test_decode_brmi : decode true 71010 = .ok (.brmi ⟨1, 0⟩) := by decide
theorem test_decode_brpl : decode true 81310 = .ok (.brpl ⟨1, 3⟩) := by decide
theorem test_decode_brz : decode true 95010 = .ok (.brz ⟨5, 0⟩) := by decide
theorem test_decode_push : decode true 106010 = .ok (.push ⟨6, 0⟩) := by decide
theorem test_decode_pop : decode true 113110 = .ok (.pop ⟨3, 1⟩) := by decide
theorem test_decode_syscall : decode true 121310 = .ok (.syscall ⟨1, 3⟩) := by decide
theorem test_decode_zero : decode true 0 = .error .invalidMode ∧ decode false 0 = .ok .halt := by decide
theorem test_decode_br_unchecked : decode true 60000 = .error .invalidMode ∧ decode false 60000 = .ok .br := by decide
theorem test_decode_modes : decode true 11000 = .error .invalidMode ∧ decode true 17060 = .error .invalidMode := by decide
theorem test_decode_registers :
    decode true 11810 = .error .invalidInstruction ∧ decode true 11069 = .error .invalidInstruction := by decide
theorem test_decode_order : decode true 11880 = .error .invalidMode ∧ decode true 130000 = .error .invalidMode := by decide
theorem test_decode_opcode : decode true 131010 = .error .invalidOpcode ∧ decode true 991010 = .error .invalidOpcode := by
  decide
theorem test_decode_range : decode true 999999 = .error .invalidMode ∧ decode true 1000000 = .error .invalidInstruction ∧
    decode true (-5) = .error .invalidInstruction := by decide

/-! ### Encode (section 2.4 to 2.7), and the host's numbering (log 26) -/

theorem test_encode : encode (.add ⟨1, 0⟩ ⟨6, 0⟩) = 11060 ∧ encode .halt = 1010 ∧ encode (.brz ⟨5, 0⟩) = 95010 ∧
    encode (.move ⟨3, 2⟩ ⟨3, 1⟩) = 53231 ∧ encode (.pop ⟨3, 1⟩) = 113110 := by decide
theorem test_assemble : assemble (.brz ⟨5, 0⟩) 300 0 40 = [95010, 300, 40] ∧
    assemble (.add ⟨5, 0⟩ ⟨6, 0⟩) 300 1 0 = [15060, 300, 1] ∧ assemble .br 0 0 7 = [61010, 7] := by decide
theorem test_tableWord : decodeTableWord 64 11060 = some (.add ⟨1, 0⟩ ⟨6, 0⟩) ∧ decodeTableWord 64 131010 = none ∧
    decodeTableWord 24 1010 = some .halt ∧ decodeTableWord 64 (2 ^ 64 - 5) = none := by decide
theorem test_withFetchWord :
    next_ (step (State.reset.withFetchWord 128 (51160 + 2 ^ 64 * 100))) (fun t => t.reg 1 == 100 && t.pc == 2) = true := by
  decide

/-! ### One step of each instruction -/

/-- Section 2.5: HALT at 2, and 2.2: HALT at 3999. -/
theorem test_halt : next_ (step { at_ 2 [(2, 1010)] with clock := 3 })
    (fun t => t.pc == 3 && t.clock == 15 && t.phase == .route .halted) = true := by decide
theorem test_halt_last_cell : next_ (step (at_ 3999 [(3999, 1010)]))
    (fun t => t.mar == 3999 && t.pc == 4000 && t.phase == .route .halted) = true := by decide

/-- Section 1 (L1-1), and 2.3: `ADD (R1)+, (R1)+`. -/
theorem test_add : next_ (step (with_ (regs0 3) (at_ 0 [(0, 11060), (1, 4)])))
    (fun t => t.reg 0 == 7 && t.clock == 3 && t.pc == 2 && t.mar == 0 && t.ir == 11060) = true := by decide
theorem test_add_twice_autoincrement : next_ (step (with_ (regs12 100 0) (at_ 0 [(0, 13131), (100, 9), (101, 5)])))
    (fun t => t.mem.read 100 == 14 && t.mem.read 101 == 5 && t.reg 1 == 102) = true := by decide

/-- Section 2.4. -/
theorem test_sub : next_ (step (with_ (regs0 5) (at_ 0 [(0, 21060), (1, 7)]))) (fun t => t.reg 0 == -2) = true := by decide
theorem test_sub_overflow : next_ (step (with_ (regs0 (-2 ^ 63)) (at_ 0 [(0, 21060), (1, 1)])))
    (fun t => t.phase == .route (.fault .arithmeticOverflow) && t.reg 0 == -2 ^ 63 && t.pc == 2 && t.clock == 0) = true := by
  decide

/-- Section 2.4. -/
theorem test_mul : next_ (step (with_ (regs0 (-6)) (at_ 0 [(0, 31060), (1, 7)])))
    (fun t => t.reg 0 == -42 && t.clock == 6) = true := by decide
theorem test_mul_overflow : next_ (step (with_ (regs0 (-2 ^ 63)) (at_ 0 [(0, 31060), (1, -1)])))
    (fun t => t.phase == .route (.fault .arithmeticOverflow)) = true := by decide

/-- Section 2.4. -/
theorem test_div : next_ (step (with_ (regs0 (-7)) (at_ 0 [(0, 41060), (1, 2)])))
    (fun t => t.reg 0 == -3 && t.clock == 6) = true := by decide
theorem test_div_zero_before_immediate : next_ (step (at_ 0 [(0, 46060), (1, 5)]))
    (fun t => t.phase == .route (.fault .runtime) && t.pc == 3) = true := by decide

/-- Section 2.4. -/
theorem test_move : next_ (step (with_ (regs12 7 0) (at_ 0 [(0, 55011), (1, 200)])))
    (fun t => t.mem.read 200 == 7 && t.clock == 2) = true := by decide
theorem test_move_destination_checked : next_ (step (with_ (regs12 7 5000) (at_ 0 [(0, 52211)])))
    (fun t => t.phase == .route (.fault .invalidAddress) && t.mem == [(0, 52211)]) = true := by decide

/-- Section 2.5. -/
theorem test_br : next_ (step (at_ 10 [(10, 61010), (11, 5000)])) (fun t => t.pc == 5000 && t.clock == 2) = true := by decide
theorem test_br_last_cell : next_ (step (at_ 3999 [(3999, 61010)]))
    (fun t => t.phase == .route (.fault .runtime) && t.pc == 4000 && t.clock == 0) = true := by decide
theorem test_brmi : next_ (step (with_ (regs0 (-1)) (at_ 4 [(4, 71010), (5, 20)]))) (fun t => t.pc == 20) = true := by decide
theorem test_brmi_zero : next_ (step (at_ 4 [(4, 71010), (5, 20)])) (fun t => t.pc == 6 && t.clock == 4) = true := by decide
theorem test_brpl : next_ (step (with_ (regs0 2) (at_ 4 [(4, 81010), (5, 2)]))) (fun t => t.pc == 2) = true := by decide
theorem test_brpl_zero : next_ (step (at_ 4 [(4, 81010), (5, 2)])) (fun t => t.pc == 6) = true := by decide
theorem test_brz_direct : next_ (step (at_ 8 [(8, 95010), (9, 300), (10, 40)])) (fun t => t.pc == 40) = true := by decide
theorem test_brz_immediate : next_ (step (at_ 8 [(8, 96010), (9, 1), (10, 40)])) (fun t => t.pc == 11) = true := by decide

/-- Section 2.6. -/
theorem test_push : next_ (step { at_ 0 [(0, 106010), (1, 5)] with sp := 4009 })
    (fun t => t.mem.read 4010 == 5 && t.sp == 4010 && t.clock == 2) = true := by decide
theorem test_push_overflow : next_ (step { at_ 0 [(0, 101010)] with sp := 6999 })
    (fun t => t.phase == .route (.fault .stackOverflow) && t.sp == 6999 && t.mem == [(0, 101010)]) = true := by decide
theorem test_pop_autoincrement : next_ (step { with_ (regs12 100 0) (at_ 0 [(0, 113110), (4010, 4)]) with sp := 4010 })
    (fun t => t.mem.read 100 == 4 && t.reg 1 == 101 && t.sp == 4009 && t.mem.read 4010 == 4) = true := by decide
theorem test_pop_immediate : next_ (step { at_ 0 [(0, 116010), (1, 3)] with sp := 4011 })
    (fun t => t.phase == .route (.fault .immediateMode) && t.sp == 4010 && t.pc == 2) = true := by decide

/-- Section 2.7: the user list is `[(4010, 2990)]`. -/
def afterOneStack (x1 x2 id : Int) : State :=
  { with_ (regs12 x1 x2) (at_ 0 [(0, 126010), (1, id), (4010, -1), (4011, 2990)]) with userFreeHead := 4010 }

theorem test_syscall_alloc : next_ (step (afterOneStack 0 5 4))
    (fun t => t.reg 0 == 4010 && t.userFreeHead == 4015 && t.mem.read 4015 == -1 && t.mem.read 4016 == 2985 &&
      t.clock == 12 && t.mode == .user) = true := by decide
theorem test_syscall_split_refused : step (afterOneStack 0 2989 4) = .refused .splitRemainderOne := by rfl

/-! ### The sequencer and the data it starts from -/

theorem test_reset_memory : State.reset.mem.wf = true ∧ State.reset.cfg.Ok := by decide
/-- R61 to R65: writing 0 lists nothing, and memory stays in canonical form. -/
theorem test_memory_write : Memory.write (Memory.write [(5, 1)] 3 7) 5 0 = [(3, 7)] := by decide
/-- Section 2.8: interrupt 7 is reported. -/
theorem test_invalid_interrupt : next_ (step { State.reset with phase := .receive, inbox := [⟨7, ⟨⟨[], none⟩, 0, 0⟩⟩] })
    (fun t => t.outbox == [.report .invalidInterrupt] && t.phase == .select) = true := by decide
/-- R268: the sequencer acts in OS mode once the engine has returned: the routing of a halt leaves it. -/
theorem test_route_mode : next_ (step { at_ 3 [(7005, 10), (7006, 4000)] with current := 7000, phase := .route .halted })
    (fun t => t.mode == .os && t.phase == .receive && t.userFreeHead == 4000 && t.osFreeHead == 7000) = true := by decide
/-- Section 2.8: a PCB whose last word would be 10007 is reported. -/
theorem test_insertReady_range : insertReady 9990 State.reset = .go () (report .invalidPcb State.reset) := by decide

/-! ### The hypotheses of the statements can be met

One theorem per statement with hypotheses: concrete states and operands that meet them, at boundary values of each clause. -/

/-- The parameters with the Wrap policy, and with Continue for invalid calls. -/
def lenient : Params := { Params.default with overflow := .wrap, invalidSyscall := .continue }

/-- The largest Word under the default parameters. -/
def big : Int := 2 ^ 63 - 1

/-- `x[1]` and `x[2]`, in a process at address 0 of empty memory. -/
def two (x1 x2 : Int) : State := with_ (regs12 x1 x2) (at_ 0 [])

theorem witness_DecodeEncodeRoundTrip : (Instr.add ⟨6, 7⟩ ⟨1, 0⟩).wellFormed = true ∧ Instr.halt.wellFormed = true := by
  decide

/-- Each clause at a boundary: below and above the range, each check in turn, the last legal opcode, the first illegal. -/
theorem witness_DecodeChecksInOrder :
    decode true (-1) = .error .invalidInstruction ∧ decode true 1000000 = .error .invalidInstruction ∧
    decode true 10767 = .error .invalidMode ∧ decode true 16777 = .error .invalidMode ∧
    decode true 16867 = .error .invalidInstruction ∧ decode true 16768 = .error .invalidInstruction ∧
    decode true 131010 = .error .invalidOpcode ∧ decode false 990000 = .error .invalidOpcode ∧
    decode true 126767 = .ok (.syscall ⟨6, 7⟩) ∧ decode true 16767 = .ok (.add ⟨6, 7⟩ ⟨6, 7⟩) := by decide

theorem witness_StepRunsDecodedInstruction :
    ((at_ 0 [(0, 1010)]).phase = .engine ∧ UserAddr 0 ∧ decode true ((at_ 0 [(0, 1010)]).word 0) = .ok .halt) ∧
    ((at_ 3999 [(3999, 61010)]).phase = .engine ∧ UserAddr 3999 ∧
      decode true ((at_ 3999 [(3999, 61010)]).word 3999) = .ok .br) := by decide

theorem witness_FetchAndDecodeFaults :
    (at_ (-1) []).phase = .engine ∧ ¬ (0 ≤ (at_ (-1) []).pc ∧ (at_ (-1) []).pc ≤ 3999) ∧
    ¬ (0 ≤ (at_ 4000 []).pc ∧ (at_ 4000 []).pc ≤ 3999) ∧
    decode true ((at_ 0 []).word 0) = .error .invalidMode ∧
    decode true ((at_ 3999 [(3999, 131010)]).word 3999) = .error .invalidOpcode := by decide

/-- The hypotheses of `PcAfterEachInstruction`. -/
def PcHypotheses (s : State) (i : Instr) : Prop :=
  s.cfg.Ok ∧ RegsAreWords s ∧ s.phase = .engine ∧ UserAddr s.pc ∧ decode s.cfg.checkUnused (s.word s.pc) = .ok i ∧
    ∃ t, step s = .next t ∧ NotFaulted t

/-- One instruction of each clause, the branches taken and not taken. -/
theorem witness_PcAfterEachInstruction :
    PcHypotheses (at_ 3999 [(3999, 1010)]) .halt ∧
    PcHypotheses (at_ 0 [(0, 15060), (1, 300), (2, 1)]) (.add ⟨5, 0⟩ ⟨6, 0⟩) ∧
    PcHypotheses (at_ 0 [(0, 61010), (1, 7)]) .br ∧
    PcHypotheses (with_ (regs0 (-1)) (at_ 4 [(4, 71010), (5, 20)])) (.brmi ⟨1, 0⟩) ∧
    PcHypotheses (at_ 3999 [(3999, 71010)]) (.brmi ⟨1, 0⟩) ∧
    PcHypotheses (with_ (regs0 1) (at_ 4 [(4, 81010), (5, 20)])) (.brpl ⟨1, 0⟩) ∧
    PcHypotheses (at_ 4 [(4, 81010), (5, 20)]) (.brpl ⟨1, 0⟩) ∧
    PcHypotheses (at_ 8 [(8, 95010), (9, 300), (10, 40)]) (.brz ⟨5, 0⟩) ∧
    PcHypotheses (at_ 8 [(8, 96010), (9, 1), (10, 40)]) (.brz ⟨6, 0⟩) := by
  refine ⟨?_, ?_, ?_, ?_, ?_, ?_, ?_, ?_, ?_⟩ <;>
    exact ⟨by decide, by decide, rfl, by decide, by decide, goesOn_spec (by decide)⟩

/-- HALT; an ADD that goes on; one that uses the budget up exactly; a SYSCALL. -/
theorem witness_CompletedInstructionIsCharged :
    (∃ t, exec .halt (at_ 0 []) = .next t ∧ NotFaulted t) ∧
    (∃ t, exec (.add ⟨1, 0⟩ ⟨1, 0⟩) { at_ 0 [] with budget := 4 } = .next t ∧ NotFaulted t) ∧
    (∃ t, exec (.add ⟨1, 0⟩ ⟨1, 0⟩) { at_ 0 [] with budget := 3 } = .next t ∧ NotFaulted t) ∧
    (∃ t, exec (.syscall ⟨6, 0⟩) (at_ 0 [(0, 10)]) = .next t ∧ NotFaulted t) :=
  ⟨goesOn_spec (by decide), goesOn_spec (by decide), goesOn_spec (by decide), goesOn_spec (by decide)⟩

theorem faults_spec {x : Host.Outcome State Fault Refusal} {c : FaultCode}
    (h : next_ x (fun t => decide (t.phase = .route (.fault c))) = true) :
    ∃ t, x = .next t ∧ t.phase = .route (.fault c) := by
  obtain ⟨t, h1, h2⟩ := next_spec h
  exact ⟨t, h1, of_decide_eq_true h2⟩

/-- A fault after an autoincrement, POP's fault after `sp` has moved, and SYSCALL's fault back in User mode. -/
theorem witness_FaultLeavesMemoryAndClock :
    (two 100 0).cfg.Ok ∧ (two 100 0).phase = .engine ∧
    (∃ t, exec (.div ⟨3, 1⟩ ⟨1, 0⟩) (two 100 0) = .next t ∧ t.phase = .route (.fault .runtime)) ∧
    (∃ t, exec (.pop ⟨6, 0⟩) { at_ 0 [] with sp := 4000 } = .next t ∧ t.phase = .route (.fault .immediateMode)) ∧
    (∃ t, exec (.syscall ⟨1, 0⟩) (at_ 0 []) = .next t ∧ t.phase = .route (.fault .invalidSystemCall)) :=
  ⟨by decide, rfl, faults_spec (by decide), faults_spec (by decide), faults_spec (by decide)⟩

/-- Steps that leave the clock, and steps of the engine that move it. -/
theorem witness_ClockNeverDecreases :
    (∃ t, step State.reset = .next t ∧ (t.clock == 0) = true) ∧
    (∃ t, step (at_ 0 [(0, 1010)]) = .next t ∧ (t.clock == 12) = true) ∧
    (∃ t, step (at_ 0 [(0, 11010)]) = .next t ∧ (t.clock == 3) = true) :=
  ⟨next_spec (p := fun t => t.clock == 0) (by decide), next_spec (p := fun t => t.clock == 12) (by decide),
    next_spec (p := fun t => t.clock == 3) (by decide)⟩

theorem witness_EngineStepTakesNoInterrupt :
    (afterOneStack 0 5 4).phase = .engine ∧
    ∃ t, step (afterOneStack 0 5 4) = .next t ∧ (t.userFreeHead == 4015) = true :=
  ⟨rfl, next_spec (p := fun t => t.userFreeHead == 4015) (by decide)⟩

/-- The bounds of the user range for each mode, and the least Word for mode 4 under both policies. -/
theorem witness_ResolveEachMode :
    (two (-2 ^ 63) big).cfg.Ok ∧ (∀ r, (two (-2 ^ 63) big).cfg.IsWord ((two (-2 ^ 63) big).reg r)) ∧
    (two (-2 ^ 63) big).reg 1 = (two (-2 ^ 63) big).cfg.wordMin ∧ (two (-2 ^ 63) big).cfg.overflow = .fault ∧
    ({ two (-2 ^ 63) big with cfg := lenient }).cfg.Ok ∧ lenient.overflow = .wrap ∧ lenient.wordMin = -2 ^ 63 ∧
    (two 0 3999).cfg.IsWord ((two 0 3999).reg 1) ∧ (two 0 3999).reg 1 ≠ (two 0 3999).cfg.wordMin ∧
    UserAddr ((two 0 3999).reg 1) ∧ UserAddr ((two 0 3999).reg 2) ∧ ¬ UserAddr ((two 4000 (-1)).reg 1) ∧
    ¬ UserAddr ((two 4000 (-1)).reg 2) ∧ UserAddr ((two 4000 (-1)).reg 1 - 1) := by decide

/-- A fault of operand 1, and a fault of operand 2 after operand 1's increment. -/
theorem witness_OperandFaultsInOrder :
    resolve ⟨2, 1⟩ (two 4000 0) = .raise .invalidAddress (two 4000 0) ∧
    resolve ⟨3, 1⟩ (two 3999 0) = .go (.mem 3999, 0) ((two 3999 0).setReg 1 4000) ∧
    resolve ⟨2, 1⟩ ((two 3999 0).setReg 1 4000) = .raise .invalidAddress ((two 3999 0).setReg 1 4000) := by decide

/-- The largest Word as a result, one more than it, and an immediate destination. -/
theorem witness_AddSubMulResult :
    (two big 0).cfg.Ok ∧ bothReady ⟨1, 1⟩ ⟨1, 2⟩ (two big 0) ∧ (two big 0).cfg.IsWord (big + 0) ∧
    bothReady ⟨1, 1⟩ ⟨1, 2⟩ (two big 1) ∧ ¬ (two big 1).cfg.IsWord (big + 1) ∧ (two big 1).cfg.overflow = .fault ∧
    bothReady ⟨6, 0⟩ ⟨5, 0⟩ (two 0 0) ∧ bothReady ⟨4, 1⟩ ⟨3, 2⟩ (two 4000 0) := by decide

/-- A divisor of 0; a quotient with a remainder of the dividend's sign; an immediate destination; the one overflow. -/
theorem witness_DivResult :
    (two (-7) 2).cfg.Ok ∧ bothReady ⟨1, 1⟩ ⟨1, 0⟩ (two (-7) 2) ∧ secondValue ⟨1, 1⟩ ⟨1, 0⟩ (two (-7) 2) = 0 ∧
    bothReady ⟨1, 1⟩ ⟨1, 2⟩ (two (-7) 2) ∧
    ((-7 : Int) = -3 * 2 + -1 ∧ |(-1 : Int)| < |2| ∧ (0 : Int) ≤ -1 * -7) ∧ (two (-7) 2).cfg.IsWord (-3) ∧
    bothReady ⟨6, 0⟩ ⟨1, 2⟩ (two 0 2) ∧ bothReady ⟨1, 1⟩ ⟨1, 2⟩ (two (-2 ^ 63) (-1)) ∧
    ((-2 ^ 63 : Int) = 2 ^ 63 * -1 + 0 ∧ |(0 : Int)| < |-1| ∧ (0 : Int) ≤ 0 * -2 ^ 63) ∧
    ¬ (two (-2 ^ 63) (-1)).cfg.IsWord (2 ^ 63) ∧ (two 0 0).cfg.overflow = .fault := by decide

theorem witness_DivisionTable : (at_ 0 []).cfg.Ok ∧ (at_ 0 []).cfg.overflow = .fault := by decide

theorem witness_MoveResult :
    (two 0 3999).cfg.Ok ∧ bothReady ⟨2, 1⟩ ⟨3, 2⟩ (two 0 3999) ∧ bothReady ⟨6, 0⟩ ⟨1, 2⟩ (two 0 3999) := by decide

/-- The largest Word and 1: their sum wraps to the least Word; its difference and product with 1 are Words. The least Word
divided by -1: its quotient wraps to the least Word. An immediate destination. -/
theorem witness_WrapPolicyReduces :
    lenient.Ok ∧ lenient.overflow = .wrap ∧ bothReady ⟨1, 1⟩ ⟨1, 2⟩ { two big 1 with cfg := lenient } ∧
    bothReady ⟨6, 0⟩ ⟨1, 2⟩ { two big 1 with cfg := lenient } ∧
    lenient.IsWord (-2 ^ 63) ∧ ((2 ^ lenient.wordBits : Int) ∣ -2 ^ 63 - (big + 1)) ∧
    ((2 ^ lenient.wordBits : Int) ∣ big - 1 - (big - 1)) ∧ ((2 ^ lenient.wordBits : Int) ∣ big - big * 1) ∧
    bothReady ⟨1, 1⟩ ⟨1, 2⟩ { two (-2 ^ 63) (-1) with cfg := lenient } ∧
    operandValue ⟨1, 1⟩ { two (-2 ^ 63) (-1) with cfg := lenient } = lenient.wordMin ∧
    ((-2 ^ 63 : Int) = 2 ^ 63 * -1 + 0 ∧ |(0 : Int)| < |-1| ∧ (0 : Int) ≤ 0 * -2 ^ 63) ∧
    ((2 ^ lenient.wordBits : Int) ∣ -2 ^ 63 - 2 ^ 63) := by decide

theorem next_exists {x : Host.Outcome State Fault Refusal} (h : next_ x (fun _ => true) = true) : ∃ t, x = .next t := by
  obtain ⟨t, ht, _⟩ := next_spec h
  exact ⟨t, ht⟩

/-- A store to memory, a step of both registers, and a fault. -/
theorem witness_ArithmeticMoveFrame :
    (two 0 3999).cfg.Ok ∧ RegsAreWords (two 0 3999) ∧ (∃ t, exec (.add ⟨2, 2⟩ ⟨1, 1⟩) (two 0 3999) = .next t) ∧
    (∃ t, exec (.move ⟨3, 1⟩ ⟨3, 2⟩) (two 0 3999) = .next t) ∧ (∃ t, exec (.div ⟨3, 1⟩ ⟨1, 0⟩) (two 0 3999) = .next t) :=
  ⟨by decide, by decide, next_exists (by decide), next_exists (by decide), next_exists (by decide)⟩

theorem witness_BrResult : UserAddr (at_ 0 []).pc ∧ UserAddr (at_ 3999 []).pc ∧ ¬ UserAddr (at_ 4000 []).pc ∧
    ¬ UserAddr (at_ (-1) []).pc := by decide

/-- Taken and not taken, for each condition at 1, 0 and -1, with the target word inside and outside the user range. -/
theorem witness_ConditionalBranchResult :
    (at_ 0 []).cfg.Ok ∧ operandReady ⟨1, 1⟩ (two 1 (-1)) ∧ operandValue ⟨1, 1⟩ (two 1 (-1)) = 1 ∧
    operandValue ⟨1, 2⟩ (two 1 (-1)) = -1 ∧ operandValue ⟨1, 0⟩ (two 1 (-1)) = 0 ∧
    UserAddr (operandAfter ⟨1, 1⟩ (two 1 (-1))).pc ∧ operandReady ⟨6, 0⟩ (at_ 3999 []) ∧
    ¬ UserAddr (operandAfter ⟨6, 0⟩ (at_ 3999 [])).pc := by decide

theorem witness_ControlFrame :
    (two 0 3999).cfg.Ok ∧ Instr.halt.opcode ∈ [0, 6, 7, 8, 9] ∧ (Instr.brz ⟨3, 2⟩).opcode ∈ [0, 6, 7, 8, 9] ∧
    (∃ t, exec .halt (two 0 3999) = .next t) ∧ (∃ t, exec (.brz ⟨3, 2⟩) (two 0 3999) = .next t) ∧
    (∃ t, exec (.brmi ⟨4, 1⟩) (two 0 3999) = .next t) ∧ (∃ t, exec .br (at_ 4000 []) = .next t) :=
  ⟨by decide, by decide, by decide, next_exists (by decide), next_exists (by decide), next_exists (by decide),
    next_exists (by decide)⟩

/-- `sp + 1` at 4000, 6999, 7000 and 3999. -/
theorem witness_PushResult :
    (∀ sp ∈ ([3999, 6998] : List Int), (at_ 0 []).cfg.Ok ∧ operandReady ⟨3, 1⟩ { two 0 0 with sp := sp } ∧
      4000 ≤ sp + 1 ∧ sp + 1 ≤ 6999) ∧
    (∀ sp ∈ ([3998, 6999] : List Int), operandReady ⟨3, 1⟩ { two 0 0 with sp := sp } ∧
      ¬ (4000 ≤ sp + 1 ∧ sp + 1 ≤ 6999)) := by decide

/-- `sp` at 4000, 6999, 3999 and 7000, and an immediate destination. -/
theorem witness_PopResult :
    (∀ sp ∈ ([4000, 6999] : List Int), (at_ 0 []).cfg.Ok ∧ operandReady ⟨3, 1⟩ { two 0 0 with sp := sp } ∧
      operandReady ⟨6, 0⟩ { two 0 0 with sp := sp } ∧ 4000 ≤ sp ∧ sp ≤ 6999) ∧
    (∀ sp ∈ ([3999, 7000] : List Int), operandReady ⟨3, 1⟩ { two 0 0 with sp := sp } ∧ ¬ (4000 ≤ sp ∧ sp ≤ 6999)) := by
  decide

theorem witness_PushThenPopRestores :
    (at_ 0 []).cfg.Ok ∧ (at_ 0 []).mem.wf = true ∧ operandReady ⟨3, 1⟩ { two 0 0 with sp := 6998 } ∧
    (4000 ≤ (6998 : Int) + 1 ∧ (6998 : Int) + 1 ≤ 6999) ∧ ∃ t, exec (.push ⟨3, 1⟩) { two 0 0 with sp := 6998 } = .next t :=
  ⟨by decide, by decide, by decide, by decide, next_exists (by decide)⟩

theorem witness_StackFrame :
    (two 0 3999).cfg.Ok ∧ RegsAreWords { two 0 3999 with sp := 4000 } ∧
    (∃ t, exec (.push ⟨3, 2⟩) { two 0 3999 with sp := 4000 } = .next t) ∧
    (∃ t, exec (.pop ⟨3, 2⟩) { two 0 3999 with sp := 4000 } = .next t) ∧
    (∃ t, exec (.pop ⟨6, 2⟩) { two 0 3999 with sp := 4000 } = .next t) :=
  ⟨by decide, by decide, next_exists (by decide), next_exists (by decide), next_exists (by decide)⟩

/-- Call IDs 1 and 11, 8 and 9. -/
theorem witness_SyscallStubsAndBlocks :
    (two 1 11).cfg.Ok ∧ operandReady ⟨1, 1⟩ (two 1 11) ∧ operandReady ⟨1, 2⟩ (two 1 11) ∧
    operandValue ⟨1, 1⟩ (two 1 11) ∈ ([1, 2, 3, 6, 7, 10, 11] : List Int) ∧
    operandValue ⟨1, 2⟩ (two 1 11) ∈ ([1, 2, 3, 6, 7, 10, 11] : List Int) ∧
    operandValue ⟨1, 1⟩ (two 8 9) = 8 ∧ operandValue ⟨1, 2⟩ (two 8 9) = 9 := by decide

/-- Call IDs 0 and 12, under each policy. -/
theorem witness_SyscallInvalidId :
    (two 0 12).cfg.Ok ∧ operandReady ⟨1, 1⟩ (two 0 12) ∧ operandReady ⟨1, 2⟩ (two 0 12) ∧
    ¬ (1 ≤ operandValue ⟨1, 1⟩ (two 0 12) ∧ operandValue ⟨1, 1⟩ (two 0 12) ≤ 11) ∧
    ¬ (1 ≤ operandValue ⟨1, 2⟩ (two 0 12) ∧ operandValue ⟨1, 2⟩ (two 0 12) ≤ 11) ∧
    (two 0 12).cfg.invalidSyscall = .terminate ∧ lenient.Ok ∧ lenient.invalidSyscall = .continue := by decide

/-- The call ID 5 as an immediate, with `x[1]` and `x[2]` given. -/
def freeing (a size : Int) : State := with_ (regs12 a size) (at_ 0 [(0, 5)])

/-- What every clause asks of the state, and the size and the address it reads. -/
def FreeHypotheses (a size : Int) : Prop :=
  (freeing a size).cfg.Ok ∧ operandReady ⟨6, 0⟩ (freeing a size) ∧ operandValue ⟨6, 0⟩ (freeing a size) = 5 ∧
    ((operandAfter ⟨6, 0⟩ (freeing a size)).setMode .user).reg (freeing a size).cfg.sizeReg = size ∧
    ((operandAfter ⟨6, 0⟩ (freeing a size)).setMode .user).reg (freeing a size).cfg.addrReg = a
deriving Decidable

/-- Sizes 0 and 3001; extents below the heap and past its end; extents that begin at its first and end at its last word. -/
theorem witness_MemFreeResult :
    (∀ size ∈ ([0, 3001] : List Int), FreeHypotheses 4000 size ∧ ¬ (1 ≤ size ∧ size ≤ 3000)) ∧
    (∀ p ∈ ([(3999, 2), (6999, 2), (4001, 3000)] : List (Int × Int)), FreeHypotheses p.1 p.2 ∧ (1 ≤ p.2 ∧ p.2 ≤ 3000) ∧
      ¬ (4000 ≤ p.1 ∧ p.1 + p.2 - 1 ≤ 6999)) ∧
    (∀ p ∈ ([(4000, 3000), (6998, 2)] : List (Int × Int)), FreeHypotheses p.1 p.2 ∧ (1 ≤ p.2 ∧ p.2 ≤ 3000) ∧
      4000 ≤ p.1 ∧ p.1 + p.2 - 1 ≤ 6999) ∧
    (FreeHypotheses 6998 1 ∧ 6998 + 2 - 1 ≤ 6999) ∧ FreeHypotheses 6999 1 ∧ ¬ 6999 + 2 - 1 ≤ 6999 := by decide

/-- A free list of the user region: one block of `n` words at 4000. -/
def oneBlock (n x2 id : Int) : State :=
  { with_ (regs12 0 x2) (at_ 0 [(0, id), (4000, -1), (4001, n)]) with userFreeHead := 4000 }

/-- A block at 4000 followed by one at 4100 (section 1, L1-5, and section 2.7). -/
def twoBlocks (n m : Int) : State :=
  { at_ 0 [(4000, 4100), (4001, n), (4100, -1), (4101, m)] with userFreeHead := 4000 }

theorem freeList_oneBlock {n x2 id : Int} (h : 2 ≤ n ∧ n ≤ 3000) : FreeList .user [(4000, n)] (oneBlock n x2 id) :=
  ⟨⟨by simpa [regionLo, regionHi] using ⟨h.1, by omega⟩, by simp⟩, rfl, rfl, rfl⟩

theorem freeList_twoBlocks {n m : Int} (h : 2 ≤ n ∧ n ≤ 100 ∧ 2 ≤ m ∧ m ≤ 2900) :
    FreeList .user [(4000, n), (4100, m)] (twoBlocks n m) :=
  ⟨⟨by simp [regionLo, regionHi]; omega, by simp [BlocksApart]; omega⟩, rfl, rfl, rfl, rfl, rfl⟩

/-- Sizes 0 and 3001; an exact block of 3000; a split that leaves two words; a block one word too large; no block large
enough. -/
theorem witness_MemAllocResult :
    (∀ x ∈ ([0, 3001, 3000, 2999, 2998, 1] : List Int), (oneBlock 3000 x 4).cfg.Ok ∧ (oneBlock 3000 x 4).mem.wf = true ∧
      operandReady ⟨6, 0⟩ (oneBlock 3000 x 4) ∧ operandValue ⟨6, 0⟩ (oneBlock 3000 x 4) = 4 ∧
      ((operandAfter ⟨6, 0⟩ (oneBlock 3000 x 4)).setMode .user).reg (oneBlock 3000 x 4).cfg.sizeReg = x) ∧
    FreeList .user [(4000, 3000)] (oneBlock 3000 3000 4) ∧ FreeList .user [(4000, 3000)] (oneBlock 3000 2998 4) ∧
    FreeList .user [(4000, 3000)] (oneBlock 3000 2999 4) ∧ FreeList .user [(4000, 2999)] (oneBlock 2999 3000 4) ∧
    (¬ (1 ≤ (0 : Int)) ∧ ¬ (3001 : Int) ≤ 3000) ∧ (2998 : Int) + 1 < 3000 ∧ (2999 : Int) < 3000 ∧ (3000 : Int) = 2999 + 1 :=
  ⟨by decide, freeList_oneBlock (by decide), freeList_oneBlock (by decide), freeList_oneBlock (by decide),
    freeList_oneBlock (by decide), by decide, by decide, by decide, by decide⟩

theorem witness_SyscallFrame :
    (afterOneStack 0 5 4).cfg.Ok ∧ RegsAreWords (afterOneStack 0 5 4) ∧
    (∃ t, exec (.syscall ⟨6, 0⟩) (oneBlock 3000 5 4) = .next t) ∧ (∃ t, exec (.syscall ⟨6, 0⟩) (oneBlock 3000 5 8) = .next t) ∧
    operandValue ⟨6, 0⟩ (oneBlock 3000 5 8) ≠ 4 ∧ operandValue ⟨6, 0⟩ (oneBlock 3000 5 8) ≠ 5 :=
  ⟨by decide, by decide, next_exists (by decide), next_exists (by decide), by decide, by decide⟩

/-- The hypotheses, and the exception: a block one word too large on a sound list, and a link outside the region. -/
theorem witness_EveryInstructionAnswers :
    ((two 0 3999).cfg.Ok ∧ RegsAreWords (two 0 3999) ∧ (Instr.add ⟨4, 1⟩ ⟨3, 2⟩).wellFormed = true ∧
      (Instr.syscall ⟨6, 0⟩).wellFormed = true) ∧
    exec (.syscall ⟨6, 0⟩) (oneBlock 3000 2999 4) = .refused .splitRemainderOne ∧
    exec (.syscall ⟨6, 0⟩) { oneBlock 3000 5 4 with userFreeHead := 3999 } = .refused .corruptFreeList :=
  ⟨by decide, rfl, rfl⟩

theorem witness_UserInstructionsSpareSystemMemory :
    (two 0 3999).cfg.Ok ∧ (∃ t, exec (.push ⟨1, 2⟩) { two 0 3999 with sp := 3999 } = .next t) ∧
    (∃ t, exec (.move ⟨2, 2⟩ ⟨1, 2⟩) (two 0 3999) = .next t) :=
  ⟨by decide, next_exists (by decide), next_exists (by decide)⟩

/-- Two states that differ in the word at 7000. -/
theorem witness_UserInstructionsIgnoreOsRegion :
    (two 0 3999).cfg.Ok ∧ ({ two 0 3999 with mem := [(7000, 1)] } : State).mem.wf = true ∧
    AgreeBelowOs (two 0 3999) { two 0 3999 with mem := [(7000, 1)] } ∧ (Instr.move ⟨2, 2⟩ ⟨1, 2⟩).opcode ≠ 12 ∧
    ∃ t, exec (.move ⟨2, 2⟩ ⟨1, 2⟩) (two 0 3999) = .next t :=
  ⟨by decide, by decide, ⟨rfl, rfl, rfl, rfl, rfl, rfl, rfl, ⟨rfl, rfl, rfl⟩, ⟨rfl, rfl, rfl, rfl, rfl, rfl, rfl, rfl, rfl,
    rfl, rfl⟩, fun a h => by
      have : (a : Int) < 7000 := h
      show Memory.read [(7000, 1)] a = Memory.read [] a
      simp only [Memory.read]
      rw [if_neg (by omega)]⟩, by decide, next_exists (by decide)⟩

/-- An exact block behind a smaller one, a split of the first block, and a block one word too large. -/
theorem witness_AllocateTakesFirstFit :
    (twoBlocks 2 3).mem.wf = true ∧ FreeList .user [(4000, 2), (4100, 3)] (twoBlocks 2 3) ∧
    FreeList .user [(4000, 5), (4100, 3)] (twoBlocks 5 3) ∧ FreeList .user [(4000, 3000)] (oneBlock 3000 0 0) ∧
    ((3 : Int) = 3 ∧ (2 : Int) < 3 ∧ (3 : Int) + 1 < 5 ∧ (3000 : Int) = 2999 + 1) :=
  ⟨by decide, freeList_twoBlocks (by decide), freeList_twoBlocks (by decide), freeList_oneBlock (by decide), by decide⟩

/-- A negative size; the list of L1-5 with a request of 6; the empty list. -/
theorem witness_FailedAllocationChangesNothing :
    (-1 : Int) < 0 ∧ FreeList .user [(4000, 5), (4100, 3)] (twoBlocks 5 3) ∧
    (∀ x ∈ [((4000 : Int), (5 : Int)), (4100, 3)], x.2 < 6) ∧ FreeList .user [] { at_ 0 [] with userFreeHead := -1 } :=
  ⟨by decide, freeList_twoBlocks (by decide), by decide, ⟨⟨by simp, by simp⟩, rfl⟩⟩

/-- The last two words of the heap region, freed beside a block of 3; a size of 1 is rounded up to them. -/
theorem witness_FreeThenAllocateReuses :
    (twoBlocks 5 3).mem.wf = true ∧ FreeList .user [(4000, 5), (4100, 3)] (twoBlocks 5 3) ∧
    SoundBlocks .user [(6998, 2), (4000, 5), (4100, 3)] :=
  ⟨by decide, freeList_twoBlocks (by decide), by simp [SoundBlocks, regionLo, regionHi, BlocksApart]⟩

/-- A PCB at each end of the OS region. -/
theorem witness_SaveThenDispatchRestores :
    (two 1 2).mem.wf = true ∧ MemAddr (7000 + 7) ∧ MemAddr (7000 + 16) ∧ MemAddr (9982 + 7) ∧ MemAddr (9982 + 16) := by
  decide

/-- Ready processes at 7018 (priority 5) and 9982 (priority 4), and one of priority 5 at 7000 that is in no queue. -/
def readyState : State :=
  { at_ 0 [(7004, 5), (7018, 9982), (7022, 5), (9982, -1), (9986, 4)] with rqHead := 7018, wqHead := -1, current := 7000 }

theorem sound_three : SoundPcbs (7000 :: [7018] ++ [9982]) := by simp [SoundPcbs, PcbInRange, PcbsApart]

theorem chain_ready : queueChain readyState.mem readyState.rqHead ([7018] ++ [9982]) := ⟨rfl, rfl, rfl⟩

theorem witness_InsertReadyKeepsOrder :
    readyState.mem.wf = true ∧ SoundPcbs (7000 :: [7018] ++ [9982]) ∧
    queueChain readyState.mem readyState.rqHead ([7018] ++ [9982]) ∧ readyState.word (7000 + 4) ≤ readyState.word (7018 + 4) ∧
    readyState.word (9982 + 4) < readyState.word (7000 + 4) ∧ ¬ 7000 ≤ (6999 : Int) ∧ ¬ (9983 : Int) + 17 ≤ 9999 :=
  ⟨by decide, sound_three, chain_ready, by decide, by decide, by decide, by decide⟩

/-- Waiting processes at 7018 (process ID 1) and 9982 (process ID 2), and one at 7000 that is in no queue. -/
def waitingState : State :=
  { at_ 0 [(7018, 9982), (7019, 1), (9982, -1), (9983, 2)] with rqHead := -1, wqHead := 7018, current := 7000 }

theorem chain_waiting : queueChain waitingState.mem waitingState.wqHead ([7018] ++ [9982]) := ⟨rfl, rfl, rfl⟩

theorem sound_two : SoundPcbs ([7018] ++ [9982]) := by simp [SoundPcbs, PcbInRange, PcbsApart]

/-- The process IDs 2 (the second entry) and 3 (none). -/
theorem witness_RemoveWaitingUnlinks :
    waitingState.mem.wf = true ∧ SoundPcbs ([7018] ++ [9982]) ∧
    queueChain waitingState.mem waitingState.wqHead ([7018] ++ [9982]) ∧
    (∀ q ∈ ([7018] : List Int), waitingState.word (q + 1) ≠ 2) ∧ waitingState.word (9982 + 1) = 2 ∧
    (∀ q ∈ ([7018, 9982] : List Int), waitingState.word (q + 1) ≠ 3) :=
  ⟨by decide, sound_two, chain_waiting, by decide, by decide, by decide⟩

/-- A running process at 7000 whose stack is the `n` words at `a`, just after a halt or a fault. -/
def ended (a n : Int) (st : ExitStatus) : State :=
  { at_ 0 [(7005, n), (7006, a)] with current := 7000, phase := .route st, budget := 0 }

theorem witness_FaultOrHaltTerminatesProcess :
    (ended 4000 3000 .halted).phase = .route .halted ∧ (ended 6998 2 (.fault .runtime)).phase = .route (.fault .runtime) ∧
    (ended 4000 3000 .halted).word (7000 + 6) = 4000 ∧ (ended 4000 3000 .halted).word (7000 + 5) = 3000 ∧
    (7000 ≤ (7000 : Int) ∧ (7000 : Int) + 17 ≤ 9999 ∧ (4000 : Int) + 3000 - 1 ≤ 6999 ∧ (6998 : Int) + 2 - 1 ≤ 6999) := by
  decide

theorem witness_ExpiredSliceRequeues :
    ({ readyState with phase := .route .timeSliceExpired } : State).mem.wf = true ∧ readyState.current = 7000 ∧
    SoundPcbs (7000 :: [7018] ++ [9982]) ∧ queueChain readyState.mem readyState.rqHead ([7018] ++ [9982]) ∧
    readyState.word (7000 + 4) ≤ readyState.word (7018 + 4) ∧ readyState.word (9982 + 4) < readyState.word (7000 + 4) :=
  ⟨by decide, rfl, sound_three, chain_ready, by decide, by decide⟩

theorem witness_BlockingCallWaits :
    ({ waitingState with phase := .route .startOfInput } : State).mem.wf = true ∧ waitingState.current = 7000 ∧
    SoundPcbs (7000 :: ([7018] ++ [9982])) ∧ queueChain waitingState.mem waitingState.wqHead ([7018] ++ [9982]) :=
  ⟨by decide, rfl, sound_three, chain_waiting⟩

theorem witness_SelectStartsReadyHead :
    ({ readyState with phase := .select } : State).phase = .select ∧ readyState.mem.wf = true ∧
    SoundPcbs (7018 :: [9982]) ∧ queueChain readyState.mem readyState.rqHead (7018 :: [9982]) :=
  ⟨rfl, by decide, sound_two, chain_ready⟩

/-- An interrupt with this ID, process ID and character. -/
def interrupt (id pid ch : Int) : Interrupt := ⟨id, ⟨⟨[], none⟩, pid, ch⟩⟩

/-- The loop at its receive with that interrupt to come. -/
def receiving (e : Interrupt) (s : State) : State := { s with phase := .receive, inbox := [e] }

/-- Each clause: nothing to receive, IDs 0, 2, -1 and 5, and the two turns that find no process ready. -/
theorem witness_LoopWaitsAndStops :
    ({ State.reset with phase := .receive } : State).inbox = [] ∧
    (receiving (interrupt 0 0 0) State.reset).inbox = [interrupt 0 0 0] ∧ (interrupt 2 0 0).id = 2 ∧
    ¬ (0 ≤ (interrupt (-1) 0 0).id ∧ (interrupt (-1) 0 0).id ≤ 4) ∧
    ¬ (0 ≤ (interrupt 5 0 0).id ∧ (interrupt 5 0 0).id ≤ 4) ∧
    State.reset.rqHead = -1 ∧ State.reset.wqHead = -1 ∧ State.reset.shutdownSeen = false ∧
    ({ State.reset with phase := .select, shutdownSeen := true } : State).shutdownSeen = true := by decide

/-- Waiting processes at 7018 (process ID 1) and 9982 (process ID 2, priority 5); ready ones at 7036 (priority 5) and 7054
(priority 4). -/
def wakingState : State :=
  { at_ 0 [(7018, 9982), (7019, 1), (7036, 7054), (7040, 5), (7054, -1), (7058, 4), (9982, -1), (9983, 2), (9986, 5)] with
    mode := .os, rqHead := 7036, wqHead := 7018 }

theorem witness_CompletionWakesWaitingProcess :
    (receiving (interrupt 3 2 104) wakingState).phase = .receive ∧ wakingState.mem.wf = true ∧
    SoundPcbs ([7018] ++ 9982 :: [] ++ ([7036] ++ [7054])) ∧
    queueChain wakingState.mem wakingState.wqHead ([7018] ++ 9982 :: []) ∧
    queueChain wakingState.mem wakingState.rqHead ([7036] ++ [7054]) ∧
    (∀ q ∈ ([7018] : List Int), wakingState.word (q + 1) ≠ (interrupt 3 2 104).payload.pid) ∧
    wakingState.word (9982 + 1) = (interrupt 3 2 104).payload.pid ∧
    wakingState.word (9982 + 4) ≤ wakingState.word (7036 + 4) ∧ wakingState.word (7054 + 4) < wakingState.word (9982 + 4) ∧
    (interrupt 4 2 0).id = 4 :=
  ⟨rfl, by decide, by simp [SoundPcbs, PcbInRange, PcbsApart], ⟨rfl, rfl, rfl⟩, ⟨rfl, rfl, rfl⟩, by decide, by decide,
    by decide, by decide, rfl⟩

theorem witness_CompletionWithoutWaiterReports :
    (receiving (interrupt 4 3 0) waitingState).inbox = interrupt 4 3 0 :: [] ∧ waitingState.mem.wf = true ∧
    SoundPcbs ([7018] ++ [9982]) ∧ queueChain waitingState.mem waitingState.wqHead ([7018] ++ [9982]) ∧
    (∀ q ∈ ([7018, 9982] : List Int), waitingState.word (q + 1) ≠ (interrupt 4 3 0).payload.pid) :=
  ⟨rfl, by decide, sound_two, chain_waiting, by decide⟩

/-- Both queues empty; a ready process with a stack; a waiting process with a stack. -/
theorem witness_ShutdownDrainsAndStops :
    ({ State.reset with phase := .drain } : State).rqHead = -1 ∧
    ({ ended 4000 3000 .halted with phase := .drain, rqHead := 7000 } : State).word (7000 + 6) = 4000 ∧
    ({ ended 6998 2 .halted with phase := .drain, rqHead := -1, wqHead := 7000 } : State).word (7000 + 5) = 2 ∧
    (2 ≤ (2 : Int) ∧ (4000 : Int) + 3000 - 1 ≤ 6999 ∧ (6998 : Int) + 2 - 1 ≤ 6999) := by decide

theorem witness_BootInitialisesFreeLists : State.reset.phase = .powerOn ∧ State.reset.mem.wf = true := by decide

/-- Lines at both ends of the user range; then, as the line that ends the load, an address of 4000. -/
theorem witness_LoaderWritesLines :
    GoodLines [(0, 11060), (3999, 1010)] ∧ ¬ UserAddr ((4000, 1) : Int × Int).1 ∧ ((4000, 1) : Int × Int).1 ≠ -1 :=
  ⟨by intro l hl; fin_cases hl <;> decide, by decide, by decide⟩

/-- After boot: both regions one free block, nothing in a queue. -/
def booted (e : Interrupt) : State :=
  { State.reset with
    mem := [(4000, -1), (4001, 3000), (7000, -1), (7001, 3000)], phase := .receive, inbox := [e] }

/-- Program P1 of section 3, as interrupt 1 carries it. -/
def programP1 : Interrupt := ⟨1, ⟨⟨[112, 49], some ([(0, 11060), (1, 4), (2, 1010)] ++ (-1, 0) :: [])⟩, 0, 0⟩⟩

theorem freeLists_booted (e : Interrupt) :
    FreeList .user [(4000, 3000)] (booted e) ∧ FreeList .os [(7000, 3000)] (booted e) :=
  ⟨⟨⟨by simp [regionLo, regionHi], by simp⟩, rfl, rfl, rfl⟩, ⟨⟨by simp [regionLo, regionHi], by simp⟩, rfl, rfl, rfl⟩⟩

theorem witness_FirstProcessIsCreated :
    (booted programP1).phase = .receive ∧ (booted programP1).inbox = [programP1] ∧ programP1.id = 1 ∧
    (booted programP1).cfg.Ok ∧ (booted programP1).mem.wf = true ∧ FreeList .user [(4000, 3000)] (booted programP1) ∧
    FreeList .os [(7000, 3000)] (booted programP1) ∧ (booted programP1).rqHead = -1 ∧
    (booted programP1).cfg.IsWord ((booted programP1).nextPid + 1) ∧ (booted programP1).cfg.stackSize ≤ 2998 ∧
    programP1.payload.file.lines = some ([(0, 11060), (1, 4), (2, 1010)] ++ (-1, 0) :: []) ∧
    GoodLines [(0, 11060), (1, 4), (2, 1010)] ∧ UserAddr 0 :=
  ⟨rfl, rfl, rfl, by decide, by decide, (freeLists_booted _).1, (freeLists_booted _).2, rfl, by decide, by decide, rfl,
    by intro l hl; fin_cases hl <;> decide, by decide⟩

theorem witness_FailedLoadIsReported :
    (booted (interrupt 1 0 0)).phase = .receive ∧ (booted (interrupt 1 0 0)).inbox = [interrupt 1 0 0] ∧
    (booted (interrupt 1 0 0)).cfg.Ok ∧ (booted (interrupt 1 0 0)).mem.wf = true ∧
    FreeList .os [(7000, 3000)] (booted (interrupt 1 0 0)) ∧
    (booted (interrupt 1 0 0)).cfg.IsWord ((booted (interrupt 1 0 0)).nextPid + 1) ∧
    (interrupt 1 0 0).payload.file.lines = none :=
  ⟨rfl, rfl, by decide, by decide, (freeLists_booted _).2, by decide, rfl⟩

/-- The ID stays, and the ID goes on by 1. -/
theorem witness_ProcessIdsAdvanceByOne :
    State.reset.cfg.IsWord (State.reset.nextPid + 1) ∧ (∃ t, step State.reset = .next t ∧ (t.nextPid == 1) = true) ∧
    ∃ t, step (booted programP1) = .next t ∧ (t.nextPid == 2) = true :=
  ⟨by decide, next_spec (p := fun t => t.nextPid == 1) (by decide), next_spec (p := fun t => t.nextPid == 2) (by decide)⟩

/-- The mode stays at reset; the start of a process and the routing of an ended invocation change it. -/
theorem witness_ModeTransitions :
    (∃ t, step State.reset = .next t ∧ (t.mode == .os) = true) ∧
    (∃ t, step { readyState with phase := .select, mode := .os } = .next t ∧
      (t.mode == .user && t.phase == .engine) = true) ∧
    ∃ t, step (ended 4000 3000 .halted) = .next t ∧ (t.mode == .os) = true :=
  ⟨next_spec (p := fun t => t.mode == .os) (by decide),
    next_spec (p := fun t => t.mode == .user && t.phase == .engine) (by decide),
    next_spec (p := fun t => t.mode == .os) (by decide)⟩

theorem witness_DumpReadsRegistersAndWindow :
    (0 ≤ (9999 : Int) ∧ 0 ≤ (1 : Int) ∧ (9999 : Int) + 1 ≤ 10000) ∧ (0 : Int) ≤ 0 ∧ ¬ (9999 : Int) + 2 ≤ 10000 ∧
    ¬ 0 ≤ (-1 : Int) := by decide

theorem witness_StepKeepsWords : State.reset.Inv ∧ ∃ t, step State.reset = .next t :=
  ⟨⟨by decide, by decide, by simp [State.reset], by decide, by simp [State.reset]⟩, next_exists (by decide)⟩

/-- A running invocation: ADD with a budget of 1, which ends it with an overshoot of 2. -/
theorem witness_StepKeepsSliceBounds :
    ({ at_ 0 [(0, 11010)] with budget := 1 } : State).SliceInv ∧
    ∃ t, step { at_ 0 [(0, 11010)] with budget := 1 } = .next t ∧
      (t.phase == .route .timeSliceExpired && t.budget == -2) = true :=
  ⟨⟨by decide, fun _ => ⟨rfl, by decide, by decide⟩, fun _ h => by simp [at_] at h, fun h => by simp [at_] at h,
      fun h => absurd rfl h⟩,
    next_spec (p := fun t => t.phase == .route .timeSliceExpired && t.budget == -2) (by decide)⟩

end Sys2Proof.Tests
end

/-! # The word invariant is kept by every step (R10, R31, R45)

The invariant is taken apart into named fields over fixed parameters, each update of the state keeps them, each piece of
pseudocode keeps them in every outcome, and the step runs one such piece. -/

namespace Sys2Proof.Machine

variable {α β : Type}

/-! ### The invariant, field by field -/

/-- `State.Inv` with the parameters fixed to `p` and one field for each register and variable, so that an update of the
state has to establish only the field it writes. -/
structure State.HoldsWords (p : Params) (s : State) : Prop where
  cfg : s.cfg = p
  params : p.Ok
  memory : s.mem.wf = true
  cells : ∀ c ∈ s.mem, p.IsWord c.2
  regs : ∀ r, p.IsWord (s.reg r)
  pc : p.IsWord s.pc
  sp : p.IsWord s.sp
  ir : p.IsWord s.ir
  mar : p.IsWord s.mar
  mbr : p.IsWord s.mbr
  userFreeHead : p.IsWord s.userFreeHead
  osFreeHead : p.IsWord s.osFreeHead
  rqHead : p.IsWord s.rqHead
  wqHead : p.IsWord s.wqHead
  nextPid : p.IsWord s.nextPid
  current : p.IsWord s.current
  inputs : ∀ e ∈ s.inbox, ∀ w ∈ interruptWords e, p.IsWord w

theorem forall_mem_regs {s : State} {P : Int → Prop} : (∀ w ∈ s.regs.toList, P w) ↔ ∀ r, P (s.reg r) := by
  constructor
  · exact fun h r => h _ (s.reg_mem_regs r)
  · intro h w hw
    obtain ⟨i, hi, rfl⟩ := List.getElem_of_mem hw
    simpa [State.reg] using h ⟨i, by simpa using hi⟩

/-- The words of a state are its general registers and the eleven scalar registers and variables. -/
theorem forall_mem_words {s : State} {P : Int → Prop} :
    (∀ w ∈ s.words, P w) ↔ (∀ r, P (s.reg r)) ∧ P s.pc ∧ P s.sp ∧ P s.ir ∧ P s.mar ∧ P s.mbr ∧ P s.userFreeHead ∧
      P s.osFreeHead ∧ P s.rqHead ∧ P s.wqHead ∧ P s.nextPid ∧ P s.current := by
  simp only [State.words, List.forall_mem_append, List.forall_mem_cons, forall_mem_regs, List.not_mem_nil, false_imp_iff,
    implies_true, and_true]

theorem State.inv_iff_holdsWords {s : State} : s.Inv ↔ s.HoldsWords s.cfg := by
  constructor
  · rintro ⟨hp, hm, hc, hw, hi⟩
    obtain ⟨hr, h1, h2, h3, h4, h5, h6, h7, h8, h9, h10, h11⟩ := forall_mem_words.mp hw
    exact ⟨rfl, hp, hm, hc, hr, h1, h2, h3, h4, h5, h6, h7, h8, h9, h10, h11, hi⟩
  · rintro ⟨-, hp, hm, hc, hr, h1, h2, h3, h4, h5, h6, h7, h8, h9, h10, h11, hi⟩
    exact ⟨hp, hm, hc, forall_mem_words.mpr ⟨hr, h1, h2, h3, h4, h5, h6, h7, h8, h9, h10, h11⟩, hi⟩

namespace State.HoldsWords

variable {p : Params} {s : State}

theorem inv (h : s.HoldsWords p) : s.Inv := by
  obtain rfl := h.cfg
  exact State.inv_iff_holdsWords.mpr h

/-! ### The Words at hand -/

theorem wordBits (h : s.HoldsWords p) : 24 ≤ p.wordBits := h.params.1

/-- An integer of at most 24 bits, such as an address or a size, is a Word. -/
theorem small (h : s.HoldsWords p) {v : Int} (h1 : -8388608 ≤ v) (h2 : v ≤ 8388607) : p.IsWord v :=
  isWord_of_small h.wordBits h1 h2

/-- One more than a user address is a Word: the advance of `pc`, and the increment of mode 3. -/
theorem succ_userAddr (h : s.HoldsWords p) {a : Int} (ha : UserAddr a) : p.IsWord (a + 1) := by
  rw [userAddr_iff] at ha
  exact h.small (by omega) (by omega)

theorem addr (h : s.HoldsWords p) {a : Int} (ha : MemAddr a) : p.IsWord a := by
  rw [memAddr_iff] at ha
  exact h.small (by omega) (by omega)

/-- D32: a numeric code is a Word. -/
theorem code (h : s.HoldsWords p) {c : Int} (hc : c ∈ s.cfg.codes.all) : p.IsWord c := by
  obtain ⟨-, -, -, -, hcodes, -⟩ := h.params
  exact hcodes c (h.cfg ▸ hc)

theorem stackSize (h : s.HoldsWords p) : p.IsWord s.cfg.stackSize := by
  obtain ⟨-, -, -, -, -, hsize, -⟩ := h.params
  rwa [h.cfg]

theorem defaultPriority (h : s.HoldsWords p) : p.IsWord s.cfg.defaultPriority := by
  obtain ⟨-, -, -, -, -, -, hprio⟩ := h.params
  rwa [h.cfg]

theorem read (h : s.HoldsWords p) (a : Nat) : p.IsWord (s.mem.read a) := by
  rcases s.mem.read_listed a with h0 | hmem
  · rw [h0]; exact h.small (by simp) (by simp)
  · exact h.cells _ hmem

theorem freeHead (h : s.HoldsWords p) (g : Region) : p.IsWord (freeHead g s) := by
  cases g with
  | user => exact h.userFreeHead
  | os => exact h.osFreeHead

/-! ### One rule for each update of the state -/

theorem setReg (h : s.HoldsWords p) (r : Fin 8) {v : Int} (hv : p.IsWord v) : (s.setReg r v).HoldsWords p :=
  { h with
    regs := fun q => by
      rw [State.reg_setReg]; split
      · exact hv
      · exact h.regs q }

theorem setPc (h : s.HoldsWords p) {v : Int} (hv : p.IsWord v) : (s.setPc v).HoldsWords p := { h with pc := hv }

theorem setSp (h : s.HoldsWords p) {v : Int} (hv : p.IsWord v) : (s.setSp v).HoldsWords p := { h with sp := hv }

theorem setMode (h : s.HoldsWords p) (m : Mode) : (s.setMode m).HoldsWords p := { h with }

theorem setFetched (h : s.HoldsWords p) {w : Int} (hw : p.IsWord w) (hpc : p.IsWord (s.pc + 1)) :
    (s.setFetched w).HoldsWords p := { h with mar := h.pc, pc := hpc, mbr := hw, ir := hw }

theorem charge (h : s.HoldsWords p) (n : Nat) : (s.charge n).HoldsWords p := { h with }

theorem setBudget (h : s.HoldsWords p) (v : Int) : (s.setBudget v).HoldsWords p := { h with }

theorem setUserFreeHead (h : s.HoldsWords p) {v : Int} (hv : p.IsWord v) : (s.setUserFreeHead v).HoldsWords p :=
  { h with userFreeHead := hv }

theorem setOsFreeHead (h : s.HoldsWords p) {v : Int} (hv : p.IsWord v) : (s.setOsFreeHead v).HoldsWords p :=
  { h with osFreeHead := hv }

theorem setFreeHead (h : s.HoldsWords p) (g : Region) {v : Int} (hv : p.IsWord v) : (setFreeHead g v s).HoldsWords p := by
  cases g with
  | user => exact h.setUserFreeHead hv
  | os => exact h.setOsFreeHead hv

theorem setRqHead (h : s.HoldsWords p) {v : Int} (hv : p.IsWord v) : (s.setRqHead v).HoldsWords p :=
  { h with rqHead := hv }

theorem setWqHead (h : s.HoldsWords p) {v : Int} (hv : p.IsWord v) : (s.setWqHead v).HoldsWords p :=
  { h with wqHead := hv }

theorem setNextPid (h : s.HoldsWords p) {v : Int} (hv : p.IsWord v) (draws : Nat) :
    (s.setNextPid v draws).HoldsWords p := { h with nextPid := hv }

theorem setShutdownSeen (h : s.HoldsWords p) : s.setShutdownSeen.HoldsWords p := { h with }

theorem setCurrent (h : s.HoldsWords p) {v : Int} (hv : p.IsWord v) : (s.setCurrent v).HoldsWords p :=
  { h with current := hv }

theorem setPhase (h : s.HoldsWords p) (ph : Phase) : (s.setPhase ph).HoldsWords p := { h with }

theorem setInbox (h : s.HoldsWords p) {es : List Interrupt}
    (hes : ∀ e ∈ es, ∀ w ∈ interruptWords e, p.IsWord w) : (s.setInbox es).HoldsWords p := { h with inputs := hes }

theorem emit (h : s.HoldsWords p) (o : HostOutput) : (s.emit o).HoldsWords p := { h with }

theorem report (h : s.HoldsWords p) (r : Report) : (report r s).HoldsWords p := h.emit _

theorem setContext (h : s.HoldsWords p) {rs : Vector Int 8} {sp pc : Int} (hrs : ∀ r : Fin 8, p.IsWord rs[r.val])
    (hsp : p.IsWord sp) (hpc : p.IsWord pc) (m : Mode) : (s.setContext rs sp pc m).HoldsWords p :=
  { h with regs := hrs, sp := hsp, pc := hpc }

/-- A Word written inside the arena keeps the canonical form and the cells Words. -/
theorem write (h : s.HoldsWords p) {a v : Int} (ha : MemAddr a) (hv : p.IsWord v) :
    (s.setMem (s.mem.write a.toNat v)).HoldsWords p :=
  { h with
    memory := Memory.wf_write v h.memory (by rw [memAddr_iff] at ha; simp; omega)
    cells := fun c hc => by
      rcases Memory.mem_write hc with rfl | hc
      · exact hv
      · exact h.cells c hc }

theorem takeFault (h : s.HoldsWords p) (c : FaultCode) : (takeFault c s).HoldsWords p := h.setPhase _

theorem complete (h : s.HoldsWords p) (op : Nat) (io : IoRequest) : (complete op io s).HoldsWords p := by
  rcases complete_eq op io s with ⟨he, -⟩ | ⟨st, -, -, he⟩ <;> rw [he]
  · exact h.charge _
  · exact (h.charge _).setPhase _

/-- R282, log 11: the next process ID is a Word, by its test or by the reduction of the free value. -/
theorem advancePid (h : s.HoldsWords p) : (advancePid s).HoldsWords p := by
  have hbits := h.wordBits
  unfold Machine.advancePid
  rw [h.cfg]
  split
  · exact h.setNextPid (by assumption) _
  · exact h.setNextPid (bmod_isWord (by omega) _) _

end State.HoldsWords

/-! ### Pseudocode that keeps the invariant -/

/-- Every outcome of `x` that leaves a state leaves one that holds Words, and what `x` yields satisfies `W`. -/
def Flow.KeepsWords (p : Params) (W : α → Prop) (x : Flow α) : Prop :=
  x.Sat (fun a t => W a ∧ t.HoldsWords p) fun _ t => t.HoldsWords p

section Keeps

variable {p : Params} {s : State} {W : α → Prop}

theorem Flow.KeepsWords.bind {V : β → Prop} {x : Flow α} {f : α → State → Flow β} (hx : x.KeepsWords p W)
    (hf : ∀ a t, W a → t.HoldsWords p → (f a t).KeepsWords p V) : (x.bind f).KeepsWords p V :=
  Flow.Sat.bind hx fun a t ⟨ha, ht⟩ => hf a t ha ht

/-- What the pseudocode yields may be forgotten. -/
theorem Flow.KeepsWords.any {x : Flow α} (hx : x.KeepsWords p W) : x.KeepsWords p fun _ => True :=
  hx.mono (fun _ _ h => ⟨trivial, h.2⟩) fun _ _ h => h

theorem Flow.KeepsWords.go {x : Flow α} {a : α} {t : State} (hx : x.KeepsWords p W) (h : x = .go a t) :
    W a ∧ t.HoldsWords p := hx.1 a t h

theorem Flow.KeepsWords.raise {x : Flow α} {c : FaultCode} {t : State} (hx : x.KeepsWords p W) (h : x = .raise c t) :
    t.HoldsWords p := hx.2 c t h

theorem keepsWords_go {a : α} (ha : W a) (h : s.HoldsWords p) : (Flow.go a s).KeepsWords p W := Flow.sat_go.mpr ⟨ha, h⟩

theorem keepsWords_raise (c : FaultCode) (h : s.HoldsWords p) : (Flow.raise c s).KeepsWords p W := Flow.sat_raise.mpr h

theorem keepsWords_stop (f : Fault) : (Flow.stop f).KeepsWords p W := Flow.sat_stop

theorem keepsWords_refuse (r : Refusal) : (Flow.refuse r).KeepsWords p W := Flow.sat_refuse

/-- A step whose pseudocode keeps the invariant keeps it. -/
theorem Flow.KeepsWords.outcome {W : Unit → Prop} {x : Flow Unit} {t : State} (hx : x.KeepsWords p W)
    (h : x.outcome = .next t) : t.HoldsWords p := by
  rcases Flow.Sat.outcome hx h with ⟨-, ht⟩ | ⟨c, u, hu, rfl⟩
  · exact ht
  · exact hu.takeFault c

/-- An instruction whose execute step keeps the invariant keeps it, completed or faulted. -/
theorem Flow.KeepsWords.finish {W : IoRequest → Prop} {x : Flow IoRequest} {op : Nat} {t : State}
    (hx : x.KeepsWords p W) (h : finish op x = .next t) : t.HoldsWords p := by
  rcases finish_eq_next.mp h with ⟨io, u, hu, rfl⟩ | ⟨c, u, hu, rfl⟩
  · exact (hx.go hu).2.complete op io
  · exact (hx.raise hu).takeFault c

/-! ### Memory access (R12) -/

theorem keepsWords_load (a : Int) (h : s.HoldsWords p) : (load a s).KeepsWords p p.IsWord :=
  (sat_load a s).mono (fun _ _ ⟨_, hv, ht⟩ => by rw [hv, ht]; exact ⟨h.read _, h⟩) fun _ _ h => h

/-- A store that is not refused had an address of the arena. -/
theorem keepsWords_store (a : Int) {v : Int} (hv : p.IsWord v) (h : s.HoldsWords p) :
    (store a v s).KeepsWords p fun _ => MemAddr a :=
  (sat_store a v s).mono (fun _ _ ⟨ha, ht⟩ => by rw [ht]; exact ⟨ha, h.write ha hv⟩) fun _ _ h => h

theorem keepsWords_storeBlock (vs : List Int) :
    ∀ (a : Int) (s : State), (∀ v ∈ vs, p.IsWord v) → s.HoldsWords p → (storeBlock a vs s).KeepsWords p fun _ => True := by
  induction vs with
  | nil => exact fun _ _ _ h => keepsWords_go trivial h
  | cons v vs ih =>
    intro a s hv h
    obtain ⟨hv, hvs⟩ := List.forall_mem_cons.mp hv
    exact (keepsWords_store a hv h).bind fun _ t _ ht => ih _ t hvs ht

/-! ### Operands and results (R140 to R148, R161 to R165) -/

theorem keepsWords_checked (v : Int) (h : s.HoldsWords p) : (checked v s).KeepsWords p p.IsWord := by
  have hbits := h.wordBits
  constructor
  · intro w t hw
    obtain rfl := (checked_eq_go.mp hw).1
    exact ⟨h.cfg ▸ checked_isWord (by rw [h.cfg]; omega) hw, h⟩
  · intro c t hc
    obtain rfl := (checked_eq_raise.mp hc).1
    exact h

theorem keepsWords_div (v1 v2 : Int) (h : s.HoldsWords p) : (divWords v1 v2 s).KeepsWords p p.IsWord := by
  unfold divWords; split
  · exact keepsWords_raise _ h
  · exact keepsWords_checked _ h

/-- The stream word, of which the resolver also uses that it lay at a user address. -/
theorem sat_streamWord_words (h : s.HoldsWords p) :
    (streamWord s).Sat (fun v t => p.IsWord v ∧ p.IsWord (t.pc + 1) ∧ t.HoldsWords p) fun _ t => t.HoldsWords p := by
  rcases streamWord_answers s with ⟨he, hu⟩ | ⟨he, -⟩ <;> rw [he]
  · exact Flow.sat_go.mpr ⟨h.read _, h.succ_userAddr hu, h⟩
  · exact Flow.sat_raise.mpr h

theorem keepsWords_resolveDeferred (r : Fin 8) (h : s.HoldsWords p) :
    (resolveDeferred r s).KeepsWords p fun q => p.IsWord q.2 := by
  unfold resolveDeferred; split
  · exact (keepsWords_load _ h).bind fun _ _ hv ht => keepsWords_go hv ht
  · exact keepsWords_raise _ h

/-- R143: the incremented register held a user address. -/
theorem keepsWords_resolveAutoInc (r : Fin 8) (h : s.HoldsWords p) :
    (resolveAutoInc r s).KeepsWords p fun q => p.IsWord q.2 := by
  unfold resolveAutoInc; split
  · exact (keepsWords_load _ h).bind fun _ _ hv ht => keepsWords_go hv (ht.setReg r (h.succ_userAddr (by assumption)))
  · exact keepsWords_raise _ h

/-- R144: the decrement is checked, so that the register stays a Word even when the access then faults. -/
theorem keepsWords_resolveAutoDec (r : Fin 8) (h : s.HoldsWords p) :
    (resolveAutoDec r s).KeepsWords p fun q => p.IsWord q.2 := by
  refine (keepsWords_checked _ h).bind fun a t ha ht => ?_
  have htr := ht.setReg r ha
  split
  · exact (keepsWords_load _ htr).bind fun _ _ hv hu => keepsWords_go hv hu
  · exact keepsWords_raise _ htr

theorem keepsWords_resolveDirect (h : s.HoldsWords p) : (resolveDirect s).KeepsWords p fun q => p.IsWord q.2 := by
  refine Flow.Sat.bind (sat_streamWord_words h) fun a t ⟨_, hpc, ht⟩ => ?_
  have htpc := ht.setPc hpc
  split
  · exact (keepsWords_load _ htpc).bind fun _ _ hv hu => keepsWords_go hv hu
  · exact keepsWords_raise _ htpc

theorem keepsWords_resolveImmediate (h : s.HoldsWords p) : (resolveImmediate s).KeepsWords p fun q => p.IsWord q.2 :=
  Flow.Sat.bind (sat_streamWord_words h) fun _ _ ⟨hv, hpc, ht⟩ => keepsWords_go hv (ht.setPc hpc)

/-- R140: an operand's value is a Word, and every resolution keeps the invariant, faulted or not. -/
theorem keepsWords_resolve (o : Operand) (h : s.HoldsWords p) : (resolve o s).KeepsWords p fun q => p.IsWord q.2 := by
  unfold resolve; split
  · exact keepsWords_go (h.regs o.reg) h
  · exact keepsWords_resolveDeferred _ h
  · exact keepsWords_resolveAutoInc _ h
  · exact keepsWords_resolveAutoDec _ h
  · exact keepsWords_resolveDirect h
  · exact keepsWords_resolveImmediate h
  · exact keepsWords_raise _ h

/-- R150: a resolution advances `pc` by one or not at all. -/
theorem ResolveEffect.pc_advance {o : Operand} {s t : State} (h : ResolveEffect o s t) :
    t.pc = s.pc ∨ t.pc = s.pc + 1 := by
  rcases h with rfl | ⟨-, v, rfl⟩ | ⟨-, rfl⟩
  · exact .inl rfl
  · exact .inl rfl
  · exact .inr rfl

theorem keepsWords_writeDest (d : Dest) {v : Int} (hv : p.IsWord v) (h : s.HoldsWords p) :
    (writeDest d v s).KeepsWords p fun _ => True := by
  cases d with
  | reg r => exact keepsWords_go trivial (h.setReg r hv)
  | mem a => exact (keepsWords_store a hv h).any
  | imm => exact keepsWords_raise _ h

/-! ### Execute steps (R160 to R202) -/

/-- R160: an operation whose results are Words is all that its execute step needs. -/
theorem keepsWords_execArith {f : Int → Int → State → Flow Int}
    (hf : ∀ v1 v2 t, p.IsWord v2 → t.HoldsWords p → (f v1 v2 t).KeepsWords p p.IsWord) (d o : Operand)
    (h : s.HoldsWords p) : (execArith f d o s).KeepsWords p fun _ => True :=
  (keepsWords_resolve d h).bind fun _ _ _ h1 =>
  (keepsWords_resolve o h1).bind fun _ _ hv2 h2 =>
  (hf _ _ _ hv2 h2).bind fun _ _ hres h3 =>
  (keepsWords_writeDest _ hres h3).bind fun _ _ _ h4 => keepsWords_go trivial h4

theorem keepsWords_branchTo (h : s.HoldsWords p) : (branchTo s).KeepsWords p fun _ => True :=
  Flow.Sat.bind (sat_streamWord_words h) fun _ _ ⟨ht, _, h1⟩ => keepsWords_go trivial (h1.setPc ht)

/-- R183: the path not taken advances `pc` without a check. The bound on `pc`, which the fetch gives, keeps the result a
Word: the operand's resolution has advanced `pc` by at most one before. -/
theorem keepsWords_branchIf (cond : Int → Bool) (o : Operand) (h : s.HoldsWords p) (hpc : 0 ≤ s.pc ∧ s.pc ≤ 4000) :
    (branchIf cond o s).KeepsWords p fun _ => True := by
  have hres := keepsWords_resolve o h
  rcases branchIf_cases cond o s with ⟨c, s1, h1, he⟩ | ⟨q, s1, h1, hcase⟩
  · rw [he]
    exact keepsWords_raise c (hres.raise h1)
  · have hs1 := (hres.go h1).2
    have hpc1 : 0 ≤ s1.pc ∧ s1.pc ≤ 4001 := by
      have := (resolve_go_effect h1).pc_advance
      omega
    rcases hcase with ⟨-, -, he⟩ | ⟨-, -, he⟩ | ⟨-, he⟩ <;> rw [he]
    · exact keepsWords_go trivial (hs1.setPc (hs1.read _))
    · exact keepsWords_raise _ hs1
    · exact keepsWords_go trivial (hs1.setPc (hs1.small (by omega) (by omega)))

theorem keepsWords_pushWord {v : Int} (hv : p.IsWord v) (h : s.HoldsWords p) :
    (pushWord v s).KeepsWords p fun _ => True := by
  rcases pushWord_cases v s with ⟨hsp, he⟩ | ⟨-, he⟩ <;> rw [he]
  · have hmem := memAddr_of_heapAddr hsp
    exact keepsWords_go trivial ((h.write hmem hv).setSp (h.addr hmem))
  · exact keepsWords_raise _ h

theorem keepsWords_popInto (d : Dest) (h : s.HoldsWords p) : (popInto d s).KeepsWords p fun _ => True := by
  unfold popInto; split
  · rename_i hsp
    have hsp' : p.IsWord (s.sp - 1) := by
      rw [heapAddr_iff] at hsp
      exact h.small (by omega) (by omega)
    rw [load_of_memAddr (memAddr_of_heapAddr hsp), Flow.bind_go]
    exact (keepsWords_writeDest d (h.read _) (h.setSp hsp')).bind fun _ _ _ ht => keepsWords_go trivial ht
  · exact keepsWords_raise _ h

/-! ### The allocators (R242 to R245) -/

/-- Where an allocation of region `g` succeeds, its block starts at an address of the region. -/
def AddressIn (g : Region) : AllocResult → Prop
  | .address a => regionLo g ≤ a ∧ a ≤ regionHi g
  | .noFreeMemory => True
  | .invalidSize => True

/-- What the walk has found, if it has found a block. -/
def FoundIn (g : Region) (r : Option AllocResult) : Prop := ∀ a ∈ r, AddressIn g a

theorem keepsWords_link (g : Region) (prev : Int) {v : Int} (hv : p.IsWord v) (h : s.HoldsWords p) :
    (link g prev v s).KeepsWords p fun _ => True := by
  unfold link; split
  · exact keepsWords_go trivial (h.setFreeHead g hv)
  · exact (keepsWords_store _ hv h).any

/-- R242: the block's size, read from memory, may be any Word. What is left of it is no larger, and the address of the
part split off is a Word because it has been stored to. -/
theorem keepsWords_takeBlock {g : Region} {size prev cur nxt blockSize : Int} (hsize : 0 ≤ size)
    (hcur : regionLo g ≤ cur ∧ cur ≤ regionHi g) (hnxt : p.IsWord nxt) (hblock : p.IsWord blockSize)
    (h : s.HoldsWords p) : (takeBlock g size prev cur nxt blockSize s).KeepsWords p (FoundIn g) := by
  have hfound : FoundIn g (some (.address cur)) := by
    rintro a ⟨⟩
    exact hcur
  unfold takeBlock; split
  · exact (keepsWords_link g prev hnxt h).bind fun _ _ _ h1 => keepsWords_go hfound h1
  · split
    · split
      · exact keepsWords_refuse _
      · have hrest : p.IsWord (blockSize - size) :=
          isWord_of_between (h.small (v := 0) (by omega) (by omega)) hblock (by omega) (by omega)
        exact (keepsWords_store _ hnxt h).bind fun _ _ haddr h1 =>
          (keepsWords_store _ hrest h1).bind fun _ _ _ h2 =>
          (keepsWords_link g prev (h.addr haddr) h2).bind fun _ _ _ h3 => keepsWords_go hfound h3
    · exact keepsWords_go (by rintro a ⟨⟩) h

theorem keepsWords_allocWalk {g : Region} {size : Int} (hsize : 0 ≤ size) (fuel : Nat) :
    ∀ (prev cur : Int) (s : State), s.HoldsWords p → (allocWalk g size fuel prev cur s).KeepsWords p (AddressIn g) := by
  induction fuel with
  | zero => exact fun _ _ _ _ => keepsWords_stop _
  | succ n ih =>
    intro prev cur s h
    unfold allocWalk; split
    · exact keepsWords_go trivial h
    · split
      · rename_i hcur
        refine (keepsWords_load _ h).bind fun nxt _ hnxt h1 => (keepsWords_load _ h1).bind fun _ _ hblock h2 =>
          (keepsWords_takeBlock hsize ⟨hcur.1, by omega⟩ hnxt hblock h2).bind fun r t hr ht => ?_
        cases r with
        | some a => exact keepsWords_go (hr a rfl) ht
        | none => exact ih cur nxt t ht
      · exact keepsWords_refuse _

theorem keepsWords_allocate (g : Region) (size : Int) (h : s.HoldsWords p) :
    (allocate g size s).KeepsWords p (AddressIn g) := by
  unfold allocate; split
  · exact keepsWords_go trivial h
  · split
    · exact keepsWords_refuse _
    · have := roundSize_ge (size := size) (by omega)
      exact keepsWords_allocWalk (by omega) _ _ _ s h

/-- R243: a block that is given back lies in its region, so that its size is small. -/
theorem keepsWords_free (g : Region) (a size : Int) (h : s.HoldsWords p) :
    (free g a size s).KeepsWords p fun _ => True := by
  rcases free_cases g a size s with ⟨-, he⟩ | ⟨-, -, he⟩ | ⟨h1, h2, h3, he⟩ <;> rw [he]
  · exact keepsWords_go trivial h
  · exact keepsWords_go trivial h
  · have hn := roundSize_ge h1
    have hbnd := region_bounds g
    have ha : MemAddr a := memAddr_of_region h2 (by omega)
    have ha' : MemAddr (a + 1) := memAddr_of_region (g := g) (by omega) (by omega)
    have hw := (h.write ha (h.freeHead g)).write ha' (h.small (v := roundSize size) (by omega) (by omega))
    exact keepsWords_go trivial (hw.setFreeHead g (h.addr ha))

theorem keepsWords_initFreeList (g : Region) (h : s.HoldsWords p) :
    (initFreeList g s).KeepsWords p fun _ => True := by
  have hbnd := region_bounds g
  exact (keepsWords_store _ (h.small (by simp) (by simp)) h).bind fun _ _ hlo h1 =>
    (keepsWords_store _ (h.small (by omega) (by omega)) h1).bind fun _ _ _ h2 =>
    keepsWords_go trivial (h2.setFreeHead g (h.addr hlo))

/-! ### System calls (R220 to R229) -/

theorem allocCode_isWord {g : Region} {r : AllocResult} (hr : AddressIn g r) (h : s.HoldsWords p) :
    p.IsWord (allocCode s.cfg.codes r) := by
  cases r with
  | address a => exact h.addr (memAddr_of_region hr.1 hr.2)
  | noFreeMemory => exact h.code (by simp [allocCode, Codes.all])
  | invalidSize => exact h.code (by simp [allocCode, Codes.all])

theorem freeCode_isWord (r : FreeResult) (h : s.HoldsWords p) : p.IsWord (freeCode s.cfg.codes r) := by
  cases r <;> exact h.code (by simp [freeCode, Codes.all, Codes.faultCodes])

theorem keepsWords_memAllocService (h : s.HoldsWords p) : (memAllocService s).KeepsWords p fun _ => True := by
  unfold memAllocService; split
  · exact (keepsWords_allocate .user _ h).bind fun r t hr ht =>
      keepsWords_go trivial (ht.setReg _ (allocCode_isWord hr ht))
  · exact keepsWords_go trivial (h.setReg _ (h.code (by simp [Codes.all])))

theorem keepsWords_memFreeService (h : s.HoldsWords p) : (memFreeService s).KeepsWords p fun _ => True := by
  unfold memFreeService; split
  · exact (keepsWords_free .user _ _ h).bind fun r t _ ht => keepsWords_go trivial (ht.setReg _ (freeCode_isWord r ht))
  · exact keepsWords_go trivial (h.setReg _ (h.code (by simp [Codes.all])))

theorem keepsWords_service (id : Int) (h : s.HoldsWords p) : (service id s).KeepsWords p fun _ => True := by
  rcases service_cases id s with ⟨-, he⟩ | ⟨-, he⟩ | ⟨-, he⟩ | ⟨-, he⟩ | ⟨-, he⟩ | ⟨-, he⟩ <;> rw [he]
  · exact keepsWords_memAllocService h
  · exact keepsWords_memFreeService h
  all_goals exact keepsWords_go trivial h

theorem keepsWords_invalidCall (h : s.HoldsWords p) : (invalidCall s).KeepsWords p fun _ => True := by
  rcases invalidCall_cases s with ⟨-, he⟩ | ⟨-, he⟩ <;> rw [he]
  · exact keepsWords_raise _ h
  · exact keepsWords_go trivial (h.setReg _ (h.code (by simp [Codes.all, Codes.faultCodes])))

theorem keepsWords_callService (id : Int) (h : s.HoldsWords p) : (callService id s).KeepsWords p fun _ => True := by
  refine (keepsWords_service id (h.setMode .os)).bind fun reply t _ ht => ?_
  have htu := ht.setMode .user
  cases reply with
  | done => exact keepsWords_go trivial htu
  | blockInput => exact keepsWords_go trivial htu
  | blockOutput => exact keepsWords_go trivial htu
  | invalid => exact keepsWords_invalidCall htu

/-! ### The engine (R111 to R116) -/

/-- An instruction keeps the invariant, from the `pc` a fetch leaves. -/
theorem exec_holdsWords {i : Instr} {t : State} (h : s.HoldsWords p) (hpc : 0 ≤ s.pc ∧ s.pc ≤ 4000)
    (he : exec i s = .next t) : t.HoldsWords p := by
  cases i with
  | halt => exact (keepsWords_go (W := fun _ => True) trivial h).finish he
  | add d o => exact (keepsWords_execArith (fun _ _ _ _ ht => keepsWords_checked _ ht) d o h).finish he
  | sub d o => exact (keepsWords_execArith (fun _ _ _ _ ht => keepsWords_checked _ ht) d o h).finish he
  | mul d o => exact (keepsWords_execArith (fun _ _ _ _ ht => keepsWords_checked _ ht) d o h).finish he
  | div d o => exact (keepsWords_execArith (fun _ _ _ _ ht => keepsWords_div _ _ ht) d o h).finish he
  | move d o => exact (keepsWords_execArith (fun _ _ _ hv ht => keepsWords_go hv ht) d o h).finish he
  | br => exact (keepsWords_branchTo h).finish he
  | brmi o => exact (keepsWords_branchIf _ o h hpc).finish he
  | brpl o => exact (keepsWords_branchIf _ o h hpc).finish he
  | brz o => exact (keepsWords_branchIf _ o h hpc).finish he
  | push o => exact ((keepsWords_resolve o h).bind fun _ _ hv h1 => keepsWords_pushWord hv h1).finish he
  | pop d => exact ((keepsWords_resolve d h).bind fun _ _ _ h1 => keepsWords_popInto _ h1).finish he
  | syscall o => exact ((keepsWords_resolve o h).bind fun _ _ _ h1 => keepsWords_callService _ h1).finish he

theorem step_engine_holdsWords {t : State} (h : s.HoldsWords p) (hp : s.phase = .engine) (hs : step s = .next t) :
    t.HoldsWords p := by
  have hfetch (hu : UserAddr s.pc) : (s.setFetched (s.word s.pc)).HoldsWords p :=
    h.setFetched (h.read _) (h.succ_userAddr hu)
  rcases step_engine hp hs with ⟨-, rfl⟩ | ⟨hu, c, -, rfl⟩ | ⟨hu, i, -, he⟩
  · exact h.takeFault _
  · exact (hfetch hu).takeFault c
  · have hpc : 0 ≤ s.pc + 1 ∧ s.pc + 1 ≤ 4000 := by
      rw [userAddr_iff] at hu
      omega
    exact exec_holdsWords (hfetch hu) hpc he

/-! ### Context and queues (R284 to R292) -/

theorem keepsWords_saveContext (q : Int) (h : s.HoldsWords p) : (saveContext q s).KeepsWords p fun _ => True := by
  refine keepsWords_storeBlock _ _ s ?_ h
  simp only [List.forall_mem_append, List.forall_mem_cons, forall_mem_regs]
  exact ⟨h.regs, h.sp, h.pc, by simp⟩

theorem keepsWords_dispatch (q : Int) (h : s.HoldsWords p) : (dispatch q s).KeepsWords p fun _ => True := by
  unfold dispatch; split
  · refine keepsWords_go trivial (h.setContext (fun r => ?_) (h.read _) (h.read _) _)
    rw [savedRegs_get]
    exact h.read _
  · exact keepsWords_refuse _

/-- R284: the entry found after the new one's place is a Word, to which the new one will be linked. -/
theorem keepsWords_readyPlace (prio : Int) (fuel : Nat) :
    ∀ (prev cur : Int) (s : State), p.IsWord cur → s.HoldsWords p →
      (readyPlace prio fuel prev cur s).KeepsWords p fun place => p.IsWord place.2 := by
  induction fuel with
  | zero => exact fun _ _ _ _ _ => keepsWords_stop _
  | succ n ih =>
    intro prev cur s hcur h
    unfold readyPlace; split
    · exact keepsWords_go hcur h
    · refine (keepsWords_load _ h).bind fun q t _ ht => ?_
      split
      · exact (keepsWords_load _ ht).bind fun nxt u hnxt hu => ih cur nxt u hnxt hu
      · exact keepsWords_go hcur ht

theorem keepsWords_linkReady (prev : Int) {q : Int} (hq : p.IsWord q) (h : s.HoldsWords p) :
    (linkReady prev q s).KeepsWords p fun _ => True := by
  unfold linkReady; split
  · exact keepsWords_go trivial (h.setRqHead hq)
  · exact (keepsWords_store _ hq h).any

theorem State.HoldsWords.pcb (h : s.HoldsWords p) {q : Int} (hq : PcbInRange q) : p.IsWord q := by
  rw [pcbInRange_iff] at hq
  exact h.small (by omega) (by omega)

theorem keepsWords_insertReady (q : Int) (h : s.HoldsWords p) : (insertReady q s).KeepsWords p fun _ => True := by
  unfold insertReady; split
  · rename_i hq
    exact (keepsWords_store _ (h.code (by simp [Codes.all])) h).bind fun _ _ _ h1 =>
      (keepsWords_load _ h1).bind fun _ t _ h2 =>
      (keepsWords_readyPlace _ _ _ _ t h2.rqHead h2).bind fun _ _ hnxt h3 =>
      (keepsWords_store _ hnxt h3).bind fun _ _ _ h4 => keepsWords_linkReady _ (h.pcb hq) h4
  · exact keepsWords_go trivial (h.report _)

theorem keepsWords_insertWaiting (q : Int) (h : s.HoldsWords p) : (insertWaiting q s).KeepsWords p fun _ => True := by
  unfold insertWaiting; split
  · rename_i hq
    exact (keepsWords_store _ (h.code (by simp [Codes.all])) h).bind fun _ _ _ h1 =>
      (keepsWords_store _ h1.wqHead h1).bind fun _ _ _ h2 => keepsWords_go trivial (h2.setWqHead (h.pcb hq))
  · exact keepsWords_go trivial (h.report _)

theorem State.HoldsWords.endOfList (h : s.HoldsWords p) : p.IsWord Config.endOfList := h.small (by simp) (by simp)

theorem keepsWords_selectNext (h : s.HoldsWords p) : (selectNext s).KeepsWords p p.IsWord := by
  unfold selectNext; split
  · exact keepsWords_go h.endOfList h
  · exact (keepsWords_load _ h).bind fun _ _ hnxt h1 =>
      (keepsWords_store _ h.endOfList (h1.setRqHead hnxt)).bind fun _ _ _ h2 => keepsWords_go h.rqHead h2

theorem keepsWords_unlinkWaiting (prev cur : Int) (h : s.HoldsWords p) :
    (unlinkWaiting prev cur s).KeepsWords p fun _ => True := by
  refine (keepsWords_load _ h).bind fun nxt t hnxt ht => ?_
  refine Flow.KeepsWords.bind (W := fun _ => True) ?_ fun _ _ _ hu => (keepsWords_store _ hu.endOfList hu).any
  split
  · exact keepsWords_go trivial (ht.setWqHead hnxt)
  · exact (keepsWords_store _ hnxt ht).any

theorem keepsWords_removeWalk (pid : Int) (fuel : Nat) :
    ∀ (prev cur : Int) (s : State), s.HoldsWords p → (removeWalk pid fuel prev cur s).KeepsWords p fun _ => True := by
  induction fuel with
  | zero => exact fun _ _ _ _ => keepsWords_stop _
  | succ n ih =>
    intro prev cur s h
    unfold removeWalk; split
    · exact keepsWords_go trivial h
    · refine (keepsWords_load _ h).bind fun q t _ ht => ?_
      split
      · exact (keepsWords_unlinkWaiting _ _ ht).bind fun _ _ _ hu => keepsWords_go trivial hu
      · exact (keepsWords_load _ ht).bind fun nxt u _ hu => ih cur nxt u hu

theorem keepsWords_removeWaiting (pid : Int) (h : s.HoldsWords p) :
    (removeWaiting pid s).KeepsWords p fun _ => True := keepsWords_removeWalk pid _ _ _ s h

/-! ### Processes (R313, R331 to R333) -/

/-- R333: the values of the lines are Words, and so is what the loader answers. -/
theorem keepsWords_loadLines (ls : List (Int × Int)) :
    ∀ s : State, (∀ l ∈ ls, p.IsWord l.2) → s.HoldsWords p → (loadLines ls s).KeepsWords p p.IsWord := by
  have loadError : ∀ t : State, t.HoldsWords p → p.IsWord t.cfg.codes.loadError := fun _ ht => ht.code (by simp [Codes.all])
  induction ls with
  | nil => exact fun s _ h => keepsWords_go (loadError s h) h
  | cons l ls ih =>
    intro s hl h
    obtain ⟨hv, hls⟩ := List.forall_mem_cons.mp hl
    unfold loadLines; split
    · refine keepsWords_go ?_ h
      split
      · exact hv
      · exact loadError s h
    · split
      · exact (keepsWords_store _ hv h).bind fun _ t _ ht => ih t hls ht
      · exact keepsWords_go (loadError s h) h

theorem keepsWords_loadFile {f : ProgramFile} (hf : ∀ l ∈ f.lines.getD [], p.IsWord l.2) (h : s.HoldsWords p) :
    (loadFile f s).KeepsWords p p.IsWord := by
  unfold loadFile
  cases hl : f.lines with
  | some ls => exact keepsWords_loadLines ls s (by simpa [hl] using hf) h
  | none => exact keepsWords_go (h.code (by simp [Codes.all])) h

theorem keepsWords_abandonPcb (q : Int) (r : Report) (h : s.HoldsWords p) :
    (abandonPcb q r s).KeepsWords p fun _ => True :=
  (keepsWords_free .os q _ (h.report r)).bind fun _ _ _ ht => keepsWords_go trivial ht

theorem keepsWords_finishPcb (q : Int) {start stack priority : Int} (hstart : p.IsWord start)
    (hstack : regionLo .user ≤ stack ∧ stack ≤ regionHi .user) (hprio : p.IsWord priority) (h : s.HoldsWords p) :
    (finishPcb q start stack priority s).KeepsWords p fun _ => True := by
  have hbnd := region_bounds .user
  exact (keepsWords_store _ (h.addr (memAddr_of_region hstack.1 hstack.2)) h).bind fun _ _ _ h1 =>
    (keepsWords_store _ h1.stackSize h1).bind fun _ _ _ h2 =>
    (keepsWords_store _ (h.small (by omega) (by omega)) h2).bind fun _ _ _ h3 =>
    (keepsWords_store _ hstart h3).bind fun _ _ _ h4 =>
    (keepsWords_store _ (h4.code (by simp [Codes.all])) h4).bind fun _ _ _ h5 =>
    (keepsWords_store _ hprio h5).bind fun _ _ _ h6 => keepsWords_insertReady q h6

theorem keepsWords_createStack (q : Int) {start priority : Int} (hstart : p.IsWord start) (hprio : p.IsWord priority)
    (h : s.HoldsWords p) : (createStack q start priority s).KeepsWords p fun _ => True :=
  (keepsWords_allocate .user _ h).bind fun r t hr ht => by
    cases r with
    | address stack => exact keepsWords_finishPcb q hstart hr hprio ht
    | noFreeMemory => exact keepsWords_abandonPcb q _ ht
    | invalidSize => exact keepsWords_abandonPcb q _ ht

theorem keepsWords_initPcb (q : Int) (h : s.HoldsWords p) : (initPcb q s).KeepsWords p fun _ => True := by
  have hzero : ∀ v ∈ List.replicate Config.pcbSize.toNat (0 : Int), p.IsWord v := fun v hv => by
    rw [List.eq_of_mem_replicate hv]
    exact h.small (by omega) (by omega)
  exact (keepsWords_storeBlock _ q s hzero h).bind fun _ _ _ h1 =>
    (keepsWords_store _ h1.nextPid h1).bind fun _ _ _ h2 => keepsWords_go trivial h2.advancePid

theorem keepsWords_createProcess {f : ProgramFile} {priority : Int} (hf : ∀ l ∈ f.lines.getD [], p.IsWord l.2)
    (hprio : p.IsWord priority) (h : s.HoldsWords p) : (createProcess f priority s).KeepsWords p fun _ => True :=
  (keepsWords_allocate .os _ h).bind fun r t _ ht => by
    cases r with
    | address q =>
      refine (keepsWords_initPcb q ht).bind fun _ _ _ h1 => (keepsWords_loadFile hf h1).bind fun start u hstart hu => ?_
      split
      · exact keepsWords_abandonPcb q _ hu
      · exact keepsWords_createStack q hstart hprio hu
    | noFreeMemory => exact keepsWords_go trivial (ht.report _)
    | invalidSize => exact keepsWords_go trivial (ht.report _)

theorem keepsWords_terminateProcess (q : Int) (h : s.HoldsWords p) :
    (terminateProcess q s).KeepsWords p fun _ => True :=
  (keepsWords_load _ h).bind fun _ _ _ h1 => (keepsWords_load _ h1).bind fun _ _ _ h2 =>
  (keepsWords_free .user _ _ h2).bind fun _ _ _ h3 => (keepsWords_free .os q _ h3).bind fun r t _ ht => by
    unfold reportFree; split
    · exact keepsWords_go trivial ht
    · exact keepsWords_go trivial (ht.report _)

/-! ### Interrupts (R301 to R306) -/

theorem keepsWords_inputCompletion (pid : Int) {ch : Int} (hch : p.IsWord ch) (h : s.HoldsWords p) :
    (inputCompletion pid ch s).KeepsWords p fun _ => True := by
  refine (keepsWords_removeWaiting pid h).bind fun q t _ ht => ?_
  split
  · exact keepsWords_go trivial (ht.report _)
  · exact (keepsWords_store _ hch ht).bind fun _ _ _ hu => keepsWords_insertReady q hu

theorem keepsWords_outputCompletion (pid : Int) (h : s.HoldsWords p) :
    (outputCompletion pid s).KeepsWords p fun _ => True := by
  refine (keepsWords_removeWaiting pid h).bind fun q t _ ht => ?_
  split
  · exact keepsWords_go trivial (ht.report _)
  · exact (keepsWords_load _ ht).bind fun _ _ _ hu => keepsWords_insertReady q (hu.emit _)

/-- Pseudocode that keeps the invariant, then a move of the control point. -/
theorem Flow.KeepsWords.thenPhase {x : Flow α} (hx : x.KeepsWords p W) (ph : Phase) :
    (x.bind fun _ t => .go () (t.setPhase ph)).KeepsWords p fun _ => True :=
  hx.bind fun _ _ _ ht => keepsWords_go trivial (ht.setPhase ph)

theorem keepsWords_handleInterrupt {e : Interrupt} (hwords : ∀ w ∈ interruptWords e, p.IsWord w) (h : s.HoldsWords p) :
    (handleInterrupt e s).KeepsWords p fun _ => True := by
  obtain ⟨-, hch, hlines⟩ : p.IsWord e.payload.pid ∧ p.IsWord e.payload.ch ∧
      ∀ l ∈ e.payload.file.lines.getD [], p.IsWord l.2 := by
    simpa only [interruptWords, List.forall_mem_cons, List.forall_mem_map] using hwords
  unfold handleInterrupt; split
  · exact keepsWords_go trivial (h.setPhase _)
  · split
    · exact (keepsWords_createProcess hlines h.defaultPriority h).thenPhase _
    · split
      · exact keepsWords_go trivial (h.setPhase _)
      · split
        · exact (keepsWords_inputCompletion _ hch h).thenPhase _
        · split
          · exact (keepsWords_outputCompletion _ h).thenPhase _
          · exact keepsWords_go trivial ((h.report _).setPhase _)

theorem keepsWords_receiveStep (h : s.HoldsWords p) : (receiveStep s).KeepsWords p fun _ => True := by
  have hin := h.inputs
  unfold receiveStep
  cases hi : s.inbox with
  | nil => exact keepsWords_go trivial h
  | cons e rest =>
    obtain ⟨he, hrest⟩ := List.forall_mem_cons.mp (hi ▸ hin)
    exact keepsWords_handleInterrupt he (h.setInbox hrest)

theorem keepsWords_drainStep (h : s.HoldsWords p) : (drainStep s).KeepsWords p fun _ => True := by
  unfold drainStep; split
  · exact (keepsWords_selectNext h).bind fun q _ _ ht => keepsWords_terminateProcess q ht
  · split
    · exact (keepsWords_load _ h).bind fun _ _ hnxt ht => keepsWords_terminateProcess _ (ht.setWqHead hnxt)
    · exact keepsWords_go trivial (h.setShutdownSeen.setPhase _)

/-! ### The loop (R310, R311, R330) -/

theorem keepsWords_boot (h : s.HoldsWords p) : (boot s).KeepsWords p fun _ => True :=
  (keepsWords_initFreeList .user h).bind fun _ _ _ h1 => (keepsWords_initFreeList .os h1).thenPhase _

theorem keepsWords_startProcess {q : Int} (hq : p.IsWord q) (h : s.HoldsWords p) :
    (startProcess q s).KeepsWords p fun _ => True :=
  (keepsWords_store _ (h.code (by simp [Codes.all])) h).bind fun _ _ _ h1 =>
  (keepsWords_dispatch q (h1.setCurrent hq)).bind fun _ _ _ h2 => keepsWords_go trivial ((h2.setBudget _).setPhase _)

theorem keepsWords_selectStep (h : s.HoldsWords p) : (selectStep s).KeepsWords p fun _ => True := by
  unfold selectStep; split
  · exact keepsWords_go trivial (h.setPhase _)
  · refine (keepsWords_selectNext h).bind fun q t hq ht => ?_
    split
    · exact keepsWords_go trivial (ht.setPhase _)
    · exact keepsWords_startProcess hq ht

theorem keepsWords_blockProcess (q : Int) {reason : Int} (hr : p.IsWord reason) (h : s.HoldsWords p) :
    (blockProcess q reason s).KeepsWords p fun _ => True :=
  (keepsWords_saveContext q h).bind fun _ _ _ h1 => (keepsWords_store _ hr h1).bind fun _ _ _ h2 =>
    keepsWords_insertWaiting q h2

theorem keepsWords_route (q : Int) (st : ExitStatus) (h : s.HoldsWords p) :
    (route q st s).KeepsWords p fun _ => True := by
  cases st with
  | timeSliceExpired => exact (keepsWords_saveContext q h).bind fun _ _ _ h1 => keepsWords_insertReady q h1
  | startOfInput => exact keepsWords_blockProcess q (h.code (by simp [Codes.all])) h
  | startOfOutput => exact keepsWords_blockProcess q (h.code (by simp [Codes.all])) h
  | halted => exact keepsWords_terminateProcess q h
  | fault c => exact keepsWords_terminateProcess q h

theorem keepsWords_routeStep (st : ExitStatus) (h : s.HoldsWords p) : (routeStep st s).KeepsWords p fun _ => True :=
  (keepsWords_route s.current st (h.setMode .os)).bind fun _ _ _ ht =>
    keepsWords_go trivial ((ht.setCurrent ht.endOfList).setPhase _)

/-! ### The step -/

/-- Every step keeps the invariant, at every control point. -/
theorem step_holdsWords {t : State} (h : s.HoldsWords p) (hs : step s = .next t) : t.HoldsWords p := by
  cases hp : s.phase with
  | engine => exact step_engine_holdsWords h hp hs
  | stopped => exact step_stopped hp hs ▸ h
  | powerOn =>
    simp only [step, hp] at hs
    exact (keepsWords_boot h).outcome hs
  | receive =>
    simp only [step, hp] at hs
    exact (keepsWords_receiveStep h).outcome hs
  | drain =>
    simp only [step, hp] at hs
    exact (keepsWords_drainStep h).outcome hs
  | select =>
    simp only [step, hp] at hs
    exact (keepsWords_selectStep h).outcome hs
  | route st =>
    simp only [step, hp] at hs
    exact (keepsWords_routeStep st h).outcome hs

end Keeps

/-- Settles O58: the invariant, taken apart over the state's own parameters, is kept by every piece of pseudocode a step
can run. -/
theorem stepKeepsWords : Obligations.StepKeepsWords := by
  unfold Obligations.StepKeepsWords
  intro s t hinv hstep
  exact (step_holdsWords (State.inv_iff_holdsWords.mp hinv) hstep).inv

end Sys2Proof.Machine

/-! # The clock, the mode and the parameters along a step (R38, R42, R124)

What a step does to these three fields is said once for the engine and once for the sequencer, whose services leave them
alone; the statements about a step are read off these two lemmas. Reset meets the invariants that every step keeps. -/

namespace Sys2Proof.Machine

/-! ### Reset (R48, R321 to R323) -/

theorem reset_inv : State.reset.Inv where
  params := by decide
  memory := rfl
  cells := fun c hc => absurd hc (List.not_mem_nil)
  registers := by decide
  inputs := fun e he => absurd he (List.not_mem_nil)

/-- At power-on no invocation runs or has ended, and the sequencer, which acts first, is in OS mode. -/
theorem reset_sliceInv : State.reset.SliceInv where
  slice := by decide
  running := nofun
  stopped := nofun
  expired := nofun
  sequencer := fun _ _ => rfl

/-- Settles O59, one invariant after the other. -/
theorem resetHoldsInvariants : Obligations.ResetHoldsInvariants := ⟨reset_inv, reset_sliceInv⟩

/-! ### The engine -/

/-- R125: the cost of an instruction is one of five. -/
theorem cost_opcode (i : Instr) :
    cost i.opcode = 2 ∨ cost i.opcode = 3 ∨ cost i.opcode = 4 ∨ cost i.opcode = 6 ∨ cost i.opcode = 12 := by
  have htable : ∀ op ≤ 12, cost op = 2 ∨ cost op = 3 ∨ cost op = 4 ∨ cost op = 6 ∨ cost op = 12 := by decide
  exact htable _ i.opcode_le

/-- An instruction is charged its cost when it completes and nothing when it faults; it may end in User mode. -/
theorem exec_clock_mode {i : Instr} {s t : State} (h : exec i s = .next t) :
    (t.clock = s.clock ∨ t.clock = s.clock + cost i.opcode) ∧ t.cfg = s.cfg ∧ (t.mode = s.mode ∨ t.mode = .user) := by
  rcases exec_next h with ⟨io, u, rfl, hu, -, hmode⟩ | ⟨c, u, rfl, hu, -, -, hmode⟩
  · have hclock : u.clock = s.clock := field_of_forgetRun State.clock (fun _ => rfl) hu
    have hcfg : u.cfg = s.cfg := field_of_forgetRun State.cfg (fun _ => rfl) hu
    simp only [complete_clock, complete_cfg, complete_mode]
    exact ⟨.inr (by rw [hclock]), hcfg, hmode⟩
  · have hclock : u.clock = s.clock := field_of_forgetRun State.clock (fun _ => rfl) hu
    have hcfg : u.cfg = s.cfg := field_of_forgetRun State.cfg (fun _ => rfl) hu
    exact ⟨.inl hclock, hcfg, hmode.imp_right And.right⟩

theorem step_engine_clock_mode {s t : State} (hp : s.phase = .engine) (h : step s = .next t) :
    (t.clock = s.clock ∨ ∃ i : Instr, t.clock = s.clock + cost i.opcode) ∧ t.cfg = s.cfg ∧
      (t.mode = s.mode ∨ t.mode = .user) := by
  rcases step_engine hp h with ⟨-, rfl⟩ | ⟨-, c, -, rfl⟩ | ⟨-, i, -, he⟩
  · exact ⟨.inl rfl, rfl, .inl rfl⟩
  · exact ⟨.inl rfl, rfl, .inl rfl⟩
  · obtain ⟨hclock, hcfg, hmode⟩ := exec_clock_mode he
    exact ⟨hclock.imp_right fun hc => ⟨i, hc⟩, hcfg, hmode⟩

/-! ### The sequencer -/

/-- Two states agree on the clock, the mode and the parameters. -/
structure SameClockMode (s t : State) : Prop where
  clock : t.clock = s.clock
  mode : t.mode = s.mode
  cfg : t.cfg = s.cfg

theorem sameClockMode_of_forgetOs {s t : State} (h : t.forgetOs = s.forgetOs) : SameClockMode s t where
  clock := field_of_forgetOs State.clock (fun _ => rfl) h
  mode := field_of_forgetOs State.mode (fun _ => rfl) h
  cfg := field_of_forgetOs State.cfg (fun _ => rfl) h

theorem sameClockMode_setInbox (s : State) (es : List Interrupt) : SameClockMode s (s.setInbox es) := ⟨rfl, rfl, rfl⟩

theorem sameClockMode_advancePid (s : State) : SameClockMode s (advancePid s) := by
  obtain ⟨v, d, he⟩ := advancePid_cases s
  rw [he]
  exact ⟨rfl, rfl, rfl⟩

theorem SameClockMode.trans {s t u : State} (h : SameClockMode s t) (h' : SameClockMode t u) : SameClockMode s u :=
  ⟨h'.clock.trans h.clock, h'.mode.trans h.mode, h'.cfg.trans h.cfg⟩

theorem SameClockMode.setPhase {s t : State} (h : SameClockMode s t) (ph : Phase) : SameClockMode s (t.setPhase ph) :=
  ⟨h.clock, h.mode, h.cfg⟩

/-- A step that starts a process enters User mode. -/
theorem step_select_engine_mode {s t : State} (hp : s.phase = .select) (h : step s = .next t) (ht : t.phase = .engine) :
    t.mode = .user := by
  rcases step_select hp h with rfl | rfl | ⟨u, p, regs, sp, pc, -, -, rfl⟩
  · simp at ht
  · simp at ht
  · rfl

/-- Outside the engine and the routing, a step keeps clock, mode and parameters, unless it starts a process. -/
theorem step_sameClockMode {s t : State} (he : s.phase ≠ .engine) (hr : ∀ st, s.phase ≠ .route st)
    (h : step s = .next t) :
    SameClockMode s t ∨
      s.phase = .select ∧ t.phase = .engine ∧ t.mode = .user ∧ t.clock = s.clock ∧ t.cfg = s.cfg := by
  cases hp : s.phase with
  | engine => exact absurd hp he
  | route st => exact absurd hp (hr st)
  | powerOn =>
    obtain ⟨u, hu, rfl⟩ := step_powerOn hp h
    exact .inl ((sameClockMode_of_forgetOs hu).setPhase _)
  | receive =>
    rcases step_receive hp h with ⟨-, rfl⟩ | ⟨e, rest, u, ph, -, rfl, -, hu | hu⟩
    · exact .inl ⟨rfl, rfl, rfl⟩
    · exact .inl (((sameClockMode_setInbox s rest).trans (sameClockMode_of_forgetOs hu)).setPhase ph)
    · have hpid := (sameClockMode_setInbox s rest).trans (sameClockMode_advancePid _)
      exact .inl ((hpid.trans (sameClockMode_of_forgetOs hu)).setPhase ph)
  | drain =>
    rcases step_drain hp h with hu | rfl
    · exact .inl (sameClockMode_of_forgetOs hu)
    · exact .inl ⟨rfl, rfl, rfl⟩
  | select =>
    rcases step_select hp h with rfl | rfl | ⟨u, p, regs, sp, pc, hu, -, rfl⟩
    · exact .inl ⟨rfl, rfl, rfl⟩
    · exact .inl ⟨rfl, rfl, rfl⟩
    · have hsame := sameClockMode_of_forgetOs hu
      exact .inr ⟨rfl, rfl, rfl, hsame.clock, hsame.cfg⟩
  | stopped => exact .inl (step_stopped hp h ▸ ⟨rfl, rfl, rfl⟩)

/-- The routing of an ended invocation enters OS mode and keeps the clock and the parameters. -/
theorem step_route_clock_mode {s t : State} {st : ExitStatus} (hp : s.phase = .route st) (h : step s = .next t) :
    t.clock = s.clock ∧ t.mode = .os ∧ t.cfg = s.cfg := by
  obtain ⟨u, hu, rfl⟩ := step_route hp h
  have hsame := sameClockMode_of_forgetOs hu
  exact ⟨hsame.clock, hsame.mode, hsame.cfg⟩

theorem step_sequencer_clock {s t : State} (he : s.phase ≠ .engine) (h : step s = .next t) : t.clock = s.clock := by
  by_cases hr : ∃ st, s.phase = .route st
  · obtain ⟨st, hp⟩ := hr
    exact (step_route_clock_mode hp h).1
  · rcases step_sameClockMode he (not_exists.mp hr) h with hsame | ⟨-, -, -, hclock, -⟩
    · exact hsame.clock
    · exact hclock

/-! ### The statements -/

/-- Settles O10: a step of the sequencer keeps the clock, and one of the engine adds a cost or nothing. -/
theorem clockNeverDecreases : Obligations.ClockNeverDecreases := by
  unfold Obligations.ClockNeverDecreases
  intro s t h
  by_cases hp : s.phase = .engine
  · rcases (step_engine_clock_mode hp h).1 with hclock | ⟨i, hclock⟩
    · exact ⟨hclock.ge, fun hne => absurd hclock hne⟩
    · have hcost := cost_opcode i
      exact ⟨by omega, fun _ => ⟨hp, by omega⟩⟩
  · have hclock := step_sequencer_clock hp h
    exact ⟨hclock.ge, fun hne => absurd hclock hne⟩

/-- Settles O56, control point by control point: the engine, the routing, and the rest of the sequencer. -/
theorem modeTransitions : Obligations.ModeTransitions := by
  unfold Obligations.ModeTransitions
  intro s t h
  have hselect : s.phase = .select → t.phase = .engine → t.mode = .user := (step_select_engine_mode · h)
  by_cases hp : s.phase = .engine
  · obtain ⟨-, hcfg, hmode⟩ := step_engine_clock_mode hp h
    exact ⟨hcfg, by simp [hp], hselect, fun _ hne => ⟨hmode.resolve_left hne, .inl hp⟩⟩
  · by_cases hr : ∃ st, s.phase = .route st
    · obtain ⟨st, hst⟩ := hr
      obtain ⟨-, hmode, hcfg⟩ := step_route_clock_mode hst h
      exact ⟨hcfg, fun _ _ => hmode, hselect, fun hno => absurd hst (hno st)⟩
    · have hno := not_exists.mp hr
      have hroute : ∀ st, s.phase = .route st → t.mode = .os := fun st hst => absurd hst (hno st)
      rcases step_sameClockMode hp hno h with hsame | ⟨hs, ht, hmode, -, hcfg⟩
      · exact ⟨hsame.cfg, hroute, hselect, fun _ hne => absurd hsame.mode hne⟩
      · exact ⟨hcfg, hroute, hselect, fun _ _ => ⟨hmode, .inr ⟨hs, ht⟩⟩⟩

end Sys2Proof.Machine

/-! # How an instruction leaves `pc` (R35)

An execute step moves `pc` past the operand words it consumes; a branch then replaces it by its target or steps over the
target's word. The first part is one property of pseudocode, proved once for each operation and passed on along a sequence. -/

namespace Sys2Proof.Machine

variable {α β : Type}

/-! ### Where pseudocode leaves `pc` -/

/-- The number of operand words that resolving these operands consumes (R35, R150). -/
def operandWords (os : List Operand) : Int := (os.filter fun o => modeUsesStream o.mode).length

/-- The `k` of R35 is the number of operand words of the instruction's operands. -/
theorem streamOperands_length (i : Instr) : (i.streamOperands.length : Int) = operandWords i.operands := rfl

@[simp] theorem operandWords_nil : operandWords [] = 0 := rfl

theorem operandWords_cons (o : Operand) (os : List Operand) :
    operandWords (o :: os) = operandWords [o] + operandWords os := by
  unfold operandWords
  cases h : modeUsesStream o.mode
  · simp [h]
  · simp [h, Int.add_comm]

/-- Pseudocode that leaves `pc` at `n` whenever it goes on. -/
def Flow.EndsAt (n : Int) (x : Flow α) : Prop := x.Sat (fun _ t => t.pc = n) fun _ _ => True

theorem Flow.EndsAt.bind {m n : Int} {x : Flow α} {f : α → State → Flow β} (hx : x.EndsAt m)
    (hf : ∀ a t, t.pc = m → (f a t).EndsAt n) : (x.bind f).EndsAt n := Flow.Sat.bind hx hf

/-- An instruction that does not fault leaves `pc` where its execute step left it. -/
theorem Flow.EndsAt.finish {n : Int} {op : Nat} {t : State} {x : Flow IoRequest} (hx : x.EndsAt n)
    (h : finish op x = .next t) (ht : NotFaulted t) : t.pc = n := by
  rcases finish_eq_next.mp h with ⟨io, u, hu, rfl⟩ | ⟨c, u, -, rfl⟩
  · rw [complete_pc]
    exact hx.1 io u hu
  · exact absurd rfl (ht c)

section Rules

variable {n : Int} {s : State}

theorem endsAt_go {a : α} (h : s.pc = n) : (Flow.go a s).EndsAt n := Flow.sat_go.mpr h

theorem endsAt_raise (c : FaultCode) (s : State) : (Flow.raise c s : Flow α).EndsAt n := Flow.sat_raise.mpr trivial

/-- Pseudocode that goes on only in the state it started from. -/
theorem endsAt_of_unchanged {x : Flow α} (hx : ∀ a t, x = .go a t → t = s) (h : s.pc = n) : x.EndsAt n :=
  ⟨fun a t ht => (congrArg State.pc (hx a t ht)).trans h, fun _ _ _ => trivial⟩

theorem endsAt_load (a : Int) (h : s.pc = n) : (load a s).EndsAt n :=
  endsAt_of_unchanged (fun _ _ hl => (load_eq_go.mp hl).2.2) h

theorem endsAt_store (a v : Int) (h : s.pc = n) : (store a v s).EndsAt n :=
  (sat_store (E := fun _ _ => True) a v s).mono (fun _ _ ⟨_, ht⟩ => by rw [ht]; exact h) fun _ _ h => h

theorem endsAt_checked (v : Int) (h : s.pc = n) : (checked v s).EndsAt n :=
  endsAt_of_unchanged (fun _ _ hc => (checked_eq_go.mp hc).1) h

theorem endsAt_streamWord (h : s.pc = n) : (streamWord s).EndsAt n :=
  endsAt_of_unchanged (fun _ _ hw => (streamWord_eq_go.mp hw).2.2) h

/-! ### The resolver (R141 to R146) -/

theorem endsAt_resolveDeferred (r : Fin 8) (h : s.pc = n) : (resolveDeferred r s).EndsAt n := by
  unfold resolveDeferred; split
  · exact (endsAt_load _ h).bind fun _ _ ht => endsAt_go ht
  · exact endsAt_raise _ _

theorem endsAt_resolveAutoInc (r : Fin 8) (h : s.pc = n) : (resolveAutoInc r s).EndsAt n := by
  unfold resolveAutoInc; split
  · exact (endsAt_load _ h).bind fun _ _ ht => endsAt_go ht
  · exact endsAt_raise _ _

theorem endsAt_resolveAutoDec (r : Fin 8) (h : s.pc = n) : (resolveAutoDec r s).EndsAt n := by
  refine (endsAt_checked _ h).bind fun a t ht => ?_
  split
  · exact (endsAt_load (s := t.setReg r a) _ ht).bind fun _ _ hu => endsAt_go hu
  · exact endsAt_raise _ _

theorem endsAt_resolveDirect (h : s.pc = n) : (resolveDirect s).EndsAt (n + 1) := by
  refine (endsAt_streamWord h).bind fun a t ht => ?_
  have hpc : (t.setPc (t.pc + 1)).pc = n + 1 := by rw [State.setPc_pc, ht]
  split
  · exact (endsAt_load _ hpc).bind fun _ _ hu => endsAt_go hu
  · exact endsAt_raise _ _

theorem endsAt_resolveImmediate (h : s.pc = n) : (resolveImmediate s).EndsAt (n + 1) :=
  (endsAt_streamWord h).bind fun _ t ht => endsAt_go (by rw [State.setPc_pc, ht])

/-- R150: a resolution consumes the operand's stream word, if its mode has one. -/
theorem endsAt_resolve (o : Operand) (h : s.pc = n) : (resolve o s).EndsAt (n + operandWords [o]) := by
  have hstay : s.pc = n + 0 := h.trans (Int.add_zero n).symm
  obtain ⟨m, r⟩ := o
  unfold resolve
  simp only
  split
  · exact endsAt_go hstay
  · exact endsAt_resolveDeferred r hstay
  · exact endsAt_resolveAutoInc r hstay
  · exact endsAt_resolveAutoDec r hstay
  · exact endsAt_resolveDirect h
  · exact endsAt_resolveImmediate h
  · exact endsAt_raise _ _

/-! ### The instructions that are no branch -/

theorem endsAt_writeDest (d : Dest) (v : Int) (h : s.pc = n) : (writeDest d v s).EndsAt n := by
  cases d with
  | reg r => exact endsAt_go h
  | mem a => exact endsAt_store a v h
  | imm => exact endsAt_raise _ _

theorem endsAt_execArith {f : Int → Int → State → Flow Int} (hf : PureOp f) (d o : Operand) (h : s.pc = n) :
    (execArith f d o s).EndsAt (n + operandWords [d, o]) := by
  rw [operandWords_cons d [o], ← Int.add_assoc]
  exact (endsAt_resolve d h).bind fun _ _ h1 => (endsAt_resolve o h1).bind fun _ _ h2 =>
    (endsAt_of_unchanged (fun _ _ hgo => hf.go_state hgo) h2).bind fun _ _ h3 =>
      (endsAt_writeDest _ _ h3).bind fun _ _ h4 => endsAt_go h4

theorem endsAt_pushWord (v : Int) (h : s.pc = n) : (pushWord v s).EndsAt n := by
  unfold pushWord; split
  · exact (endsAt_store _ v h).bind fun _ _ ht => endsAt_go ht
  · exact endsAt_raise _ _

theorem endsAt_popInto (d : Dest) (h : s.pc = n) : (popInto d s).EndsAt n := by
  unfold popInto; split
  · exact (endsAt_load _ h).bind fun v t ht =>
      (endsAt_writeDest (s := t.setSp (t.sp - 1)) d v ht).bind fun _ _ hu => endsAt_go hu
  · exact endsAt_raise _ _

theorem endsAt_callService (id : Int) (h : s.pc = n) : (callService id s).EndsAt n :=
  (callService_frame id s).mono (fun _ _ ⟨_, _, _, ht, _⟩ => by rw [ht]; exact h) fun _ _ _ => trivial

end Rules

/-- R85, R87: the opcodes of the instructions without a target word. -/
theorem hasTarget_eq_false {i : Instr} (h : i.opcode ∈ [1, 2, 3, 4, 5, 10, 11, 12]) : i.hasTarget = false := by
  cases i with
  | br | brmi | brpl | brz => simp [Instr.opcode] at h
  | _ => rfl

/-- R35: an instruction other than a branch leaves `pc` behind its operand words. -/
theorem exec_pc_of_noTarget {i : Instr} {s t : State} (hi : i.hasTarget = false) (h : exec i s = .next t)
    (ht : NotFaulted t) : t.pc = s.pc + i.streamOperands.length := by
  rw [streamOperands_length]
  cases i with
  | halt => exact (endsAt_go (Int.add_zero _).symm).finish h ht
  | add d o => exact (endsAt_execArith pureOp_add d o rfl).finish h ht
  | sub d o => exact (endsAt_execArith pureOp_sub d o rfl).finish h ht
  | mul d o => exact (endsAt_execArith pureOp_mul d o rfl).finish h ht
  | div d o => exact (endsAt_execArith pureOp_div d o rfl).finish h ht
  | move d o => exact (endsAt_execArith pureOp_move d o rfl).finish h ht
  | push o => exact ((endsAt_resolve o rfl).bind fun p _ hu => endsAt_pushWord p.2 hu).finish h ht
  | pop d => exact ((endsAt_resolve d rfl).bind fun p _ hu => endsAt_popInto p.1 hu).finish h ht
  | syscall o => exact ((endsAt_resolve o rfl).bind fun p _ hu => endsAt_callService p.2 hu).finish h ht
  | br => exact nomatch hi
  | brmi o => exact nomatch hi
  | brpl o => exact nomatch hi
  | brz o => exact nomatch hi

/-! ### The branches (R182, R183) -/

/-- A completed BR stands at its target. -/
theorem execBr_pc {s t : State} (h : exec .br s = .next t) (ht : NotFaulted t) : t.pc = s.word s.pc := by
  have hexec : exec .br s = finish 6 (branchTo s) := rfl
  rw [hexec] at h
  rcases branchTo_cases s with ⟨-, he⟩ | ⟨-, he⟩ <;> rw [he] at h
  · obtain rfl := Host.Outcome.next.inj h
    simp
  · obtain rfl := Host.Outcome.next.inj h
    exact absurd rfl (ht .runtime)

/-- A completed conditional branch stands at its target or behind the target's word, by its operand's value. -/
theorem branchIf_pc {cond : Int → Bool} {op : Nat} {o : Operand} {s t : State} (hbits : 24 ≤ s.cfg.wordBits)
    (hw : s.cfg.IsWord (s.reg o.reg)) (h : finish op (branchIf cond o s) = .next t) (ht : NotFaulted t) :
    t.pc = if cond (operandValue o s) = true then s.word (s.pc + operandWords [o]) else s.pc + operandWords [o] + 1 := by
  rcases branchIf_cases cond o s with ⟨c, u, -, he⟩ | ⟨p, u, hr, hcases⟩
  · rw [he] at h
    obtain rfl := Host.Outcome.next.inj h
    exact absurd rfl (ht c)
  · obtain ⟨-, rfl, -⟩ := resolve_eq_go hbits hw hr
    have hpc : u.pc = s.pc + operandWords [o] := (endsAt_resolve o rfl).1 _ u hr
    have hmem : u.mem = s.mem := (resolve_go_effect hr).frame.2.1
    rcases hcases with ⟨hc, -, he⟩ | ⟨-, -, he⟩ | ⟨hc, he⟩ <;> rw [he] at h <;> obtain rfl := Host.Outcome.next.inj h
    · rw [if_pos hc, complete_pc, State.setPc_pc, State.word, State.word, hmem, hpc]
    · exact absurd rfl (ht .runtime)
    · rw [hc, if_neg Bool.false_ne_true, complete_pc, State.setPc_pc, hpc]

/-! ### The statement -/

/-- Settles O7: the step runs the decoded instruction behind its word, where its execute step moves `pc`. -/
theorem pcAfterEachInstruction : Obligations.PcAfterEachInstruction := by
  unfold Obligations.PcAfterEachInstruction
  intro s t i hok hregs hp hu hdec hstep ht k f
  have hexec : exec i f = .next t := by
    rcases step_engine hp hstep with ⟨hn, -⟩ | ⟨-, c, hc, -⟩ | ⟨-, j, hj, he⟩
    · exact absurd hu hn
    · rw [hdec] at hc
      exact nomatch hc
    · rw [hdec] at hj
      exact Except.ok.inj hj ▸ he
  have hstraight (hi : i.hasTarget = false) : t.pc = s.pc + 1 + k := exec_pc_of_noTarget hi hexec ht
  have hcond {cond : Int → Bool} {op : Nat} {o : Operand} (hi : i.operands = [o])
      (he : exec i f = finish op (branchIf cond o f)) :
      t.pc = if cond (operandValue o f) = true then s.word (s.pc + 1 + k) else s.pc + 2 + k := by
    have hk : k = operandWords [o] := (streamOperands_length i).trans (by rw [hi])
    rw [branchIf_pc (s := f) hok.1 (hregs _) (he.symm.trans hexec) ht, hk]
    congr 1
    show s.pc + 1 + operandWords [o] + 1 = _
    omega
  refine ⟨?_, ?_, ?_, ?_, ?_, ?_⟩
  · rintro rfl
    exact (hstraight rfl).trans (Int.add_zero _)
  · intro hop
    exact hstraight (hasTarget_eq_false hop)
  · rintro rfl
    exact execBr_pc hexec ht
  · rintro o rfl
    simpa [isNegative] using hcond rfl rfl
  · rintro o rfl
    simpa [isPositive] using hcond rfl rfl
  · rintro o rfl
    simpa [isZero] using hcond rfl rfl

end Sys2Proof.Machine

/-! # The first process (R49, R307, R331)

Each piece of process creation is given as an equation: the state it leaves, with its writes to memory as a list. The
creation after boot is then one state, and what its memory reads as follows from the addresses of the lists. -/

namespace Sys2Proof.Machine

/-! ### Updates of the state that meet -/

theorem State.setMem_setMem (s : State) (m m' : Memory) : (s.setMem m).setMem m' = s.setMem m' := rfl

theorem setFreeHead_setMem (g : Region) (v : Int) (s : State) (m : Memory) :
    (setFreeHead g v s).setMem m = setFreeHead g v (s.setMem m) := by cases g <;> rfl

theorem setFreeHead_nextPid (g : Region) (v : Int) (s : State) : (setFreeHead g v s).nextPid = s.nextPid := by
  cases g <;> rfl

theorem setFreeHead_freeDraws (g : Region) (v : Int) (s : State) : (setFreeHead g v s).freeDraws = s.freeDraws := by
  cases g <;> rfl

/-! ### A list of words written in order -/

/-- Memory with each `(address, word)` of the list written, in order. -/
def Memory.writeLines (m : Memory) (ws : List (Int × Int)) : Memory := ws.foldl (fun m w => m.write w.1.toNat w.2) m

@[simp] theorem Memory.writeLines_nil (m : Memory) : m.writeLines [] = m := rfl

@[simp] theorem Memory.writeLines_cons (m : Memory) (w : Int × Int) (ws : List (Int × Int)) :
    m.writeLines (w :: ws) = (m.write w.1.toNat w.2).writeLines ws := rfl

theorem Memory.writeLines_append (m : Memory) (ws ws' : List (Int × Int)) :
    m.writeLines (ws ++ ws') = (m.writeLines ws).writeLines ws' := List.foldl_append

theorem Memory.wf_write_memAddr {m : Memory} {a : Int} (v : Int) (h : m.wf = true) (ha : MemAddr a) :
    (m.write a.toNat v).wf = true := by
  rw [memAddr_iff] at ha
  exact Memory.wf_write v h (by simp only [Config.memSize]; omega)

theorem Memory.wf_writeLines (ws : List (Int × Int)) : ∀ m : Memory, m.wf = true → (∀ w ∈ ws, MemAddr w.1) →
    (m.writeLines ws).wf = true := by
  induction ws with
  | nil => exact fun _ h _ => h
  | cons w ws ih =>
    intro m h hws
    obtain ⟨hw, hws⟩ := List.forall_mem_cons.mp hws
    exact ih _ (Memory.wf_write_memAddr w.2 h hw) hws

/-- An address that is not in the list keeps its word. -/
theorem Memory.read_writeLines_other {b : Nat} (ws : List (Int × Int)) : ∀ m : Memory, (∀ w ∈ ws, b ≠ w.1.toNat) →
    (m.writeLines ws).read b = m.read b := by
  induction ws with
  | nil => exact fun _ _ => rfl
  | cons w ws ih =>
    intro m hb
    obtain ⟨hw, hws⟩ := List.forall_mem_cons.mp hb
    exact (ih _ hws).trans (Memory.read_write_other m w.2 hw)

/-- An address that is in the list once reads as the word beside it. -/
theorem Memory.read_writeLines_mem (ws : List (Int × Int)) : ∀ m : Memory, m.wf = true → (∀ w ∈ ws, MemAddr w.1) →
    ws.Pairwise (fun x y => x.1 ≠ y.1) → ∀ w ∈ ws, (m.writeLines ws).read w.1.toNat = w.2 := by
  induction ws with
  | nil => simp
  | cons x ws ih =>
    intro m h hws hne w hw
    obtain ⟨hx, hws⟩ := List.forall_mem_cons.mp hws
    obtain ⟨hxne, hne⟩ := List.pairwise_cons.mp hne
    rcases List.mem_cons.mp hw with hwx | hw
    · rw [hwx]
      refine (Memory.read_writeLines_other ws _ fun y hy => ?_).trans (Memory.read_write_same _ _ h)
      have hy0 := hws y hy
      have hyne := hxne y hy
      rw [memAddr_iff] at hx hy0
      omega
    · exact ih _ (Memory.wf_write_memAddr x.2 h hx) hws hne w hw

/-- What an address reads as after the writes depends on what it read as before them, and on nothing else. -/
theorem Memory.read_writeLines_congr {b : Nat} (ws : List (Int × Int)) : ∀ m m' : Memory, m.wf = true → m'.wf = true →
    (∀ w ∈ ws, MemAddr w.1) → m.read b = m'.read b → (m.writeLines ws).read b = (m'.writeLines ws).read b := by
  induction ws with
  | nil => exact fun _ _ _ _ _ h => h
  | cons w ws ih =>
    intro m m' h h' hws hb
    obtain ⟨hw, hws⟩ := List.forall_mem_cons.mp hws
    refine ih _ _ (Memory.wf_write_memAddr _ h hw) (Memory.wf_write_memAddr _ h' hw) hws ?_
    rw [Memory.read_write h, Memory.read_write h', hb]

theorem GoodLines.memAddr {ls : List (Int × Int)} (h : GoodLines ls) : ∀ l ∈ ls, MemAddr l.1 :=
  fun l hl => memAddr_of_userAddr (h l hl)

/-- The loader's writes leave everything above the user range alone. -/
theorem GoodLines.read_above {ls : List (Int × Int)} (h : GoodLines ls) (m : Memory) {b : Nat} (hb : 4000 ≤ b) :
    (m.writeLines ls).read b = m.read b := by
  refine Memory.read_writeLines_other ls m fun l hl => ?_
  have := userAddr_iff.mp (h l hl)
  omega

/-! ### The allocation that splits the only block (R242) -/

theorem freeList_single {g : Region} {b n : Int} {s : State} :
    FreeList g [(b, n)] s ↔ (regionLo g ≤ b ∧ 2 ≤ n ∧ b + n - 1 ≤ regionHi g) ∧ freeHead g s = b ∧
      s.mem.read (b + 1).toNat = n ∧ s.mem.read b.toNat = -1 := by
  simp [FreeList, SoundBlocks, freeChain]

theorem allocate_split_single {g : Region} {b n size : Int} {s : State} (hfree : FreeList g [(b, n)] s)
    (hsize : 2 ≤ size) (hrest : size + 2 ≤ n) :
    allocate g size s = .go (.address b) (setFreeHead g (b + size)
      (s.setMem (s.mem.writeLines [(b + size, -1), (b + size + 1, n - size)]))) := by
  obtain ⟨⟨hlo, -, hhi⟩, hhead, hread, hlink⟩ := freeList_single.mp hfree
  have hfuel : regionFuel g = 2999 + 1 := by cases g <;> rfl
  have hround : roundSize size = size := if_neg (by omega)
  have hmem (a : Int) (h1 : b ≤ a) (h2 : a < b + n) : MemAddr a := memAddr_of_region (g := g) (by omega) (by omega)
  unfold allocate
  rw [if_neg (by omega), if_neg (by omega), hround, hhead, hfuel,
    allocWalk_here (by omega) (by omega) hread (by omega), hlink]
  unfold takeBlock
  rw [if_neg (by omega), if_pos (by omega), if_neg (by omega), store_of_memAddr (hmem _ (by omega) (by omega)),
    Flow.bind_go, store_of_memAddr (hmem _ (by omega) (by omega)), Flow.bind_go, link_eq (.inl rfl)]
  rfl

/-! ### A new PCB (R331) -/

/-- The PCB at `p` zeroed and given the process ID `pid`. -/
def Memory.freshPcb (m : Memory) (p pid : Int) : Memory :=
  (m.writeBlock p (List.replicate 18 0)).write (p + 1).toNat pid

section FreshPcb

variable {m : Memory} {p : Int}

theorem Memory.wf_freshPcb (pid : Int) (h : m.wf = true) (hp : PcbInRange p) : (m.freshPcb p pid).wf = true := by
  have hb := pcbInRange_iff.mp hp
  exact Memory.wf_write_memAddr pid (Memory.wf_writeBlock _ m p h (by omega) (by simp; omega))
    (memAddr_of_pcb hb (by omega) (by omega))

theorem Memory.read_freshPcb_other (pid : Int) (hp : PcbInRange p) {b : Nat} (hb : (b : Int) < p ∨ p + 18 ≤ b) :
    (m.freshPcb p pid).read b = m.read b := by
  have hr := pcbInRange_iff.mp hp
  refine (Memory.read_write_other _ pid (by omega)).trans ?_
  exact Memory.read_writeBlock_other _ m p b (by omega) (by simpa using hb)

theorem Memory.read_freshPcb_pid (pid : Int) (h : m.wf = true) (hp : PcbInRange p) :
    (m.freshPcb p pid).read (p + 1).toNat = pid := by
  have hr := pcbInRange_iff.mp hp
  exact Memory.read_write_same _ pid (Memory.wf_writeBlock _ m p h (by omega) (by simp; omega))

/-- Every field but the process ID is zero. -/
theorem Memory.read_freshPcb_zero (pid : Int) (h : m.wf = true) (hp : PcbInRange p) {k : Nat} (hk : k < 18)
    (hne : k ≠ 1) : (m.freshPcb p pid).read (p + k).toNat = 0 := by
  have hr := pcbInRange_iff.mp hp
  refine (Memory.read_write_other _ pid (by omega)).trans ?_
  rw [Memory.read_writeBlock _ m p k (by simpa using hk) h (by omega) (by simp; omega), List.getElem_replicate]

theorem advancePid_of_isWord {s : State} (h : s.cfg.IsWord (s.nextPid + 1)) :
    advancePid s = s.setNextPid (s.nextPid + 1) s.freeDraws := if_pos h

theorem initPcb_eq {s : State} (hp : PcbInRange p) (hpid : s.cfg.IsWord (s.nextPid + 1)) :
    initPcb p s = .go () ((s.setMem (s.mem.freshPcb p s.nextPid)).setNextPid (s.nextPid + 1) s.freeDraws) := by
  have hr := pcbInRange_iff.mp hp
  have hlength : p + ((List.replicate Config.pcbSize.toNat (0 : Int)).length : Int) ≤ 10000 := by
    simp
    omega
  unfold initPcb
  rw [storeBlock_eq _ p s (by omega) hlength, Flow.bind_go,
    store_of_memAddr (memAddr_of_pcb hr (by simp) (by simp)), Flow.bind_go, State.setMem_setMem, Memory.freshPcb,
    advancePid_of_isWord (by simpa using hpid)]
  simp

end FreshPcb

/-! ### The loader on a file it accepts (R333) -/

theorem loadLines_goodLines {start : Int} (hstart : UserAddr start) (more ls : List (Int × Int)) :
    ∀ s : State, GoodLines ls →
      loadLines (ls ++ (-1, start) :: more) s = .go start (s.setMem (s.mem.writeLines ls)) := by
  induction ls with
  | nil =>
    intro s _
    simp [loadLines, hstart]
    rfl
  | cons l ls ih =>
    intro s hls
    obtain ⟨hl, hls⟩ := List.forall_mem_cons.mp hls
    have hne : l.1 ≠ -1 := by
      rw [userAddr_iff] at hl
      omega
    rw [List.cons_append, loadLines, if_neg hne, if_pos hl, store_of_memAddr (memAddr_of_userAddr hl), Flow.bind_go,
      ih _ hls]
    rfl

/-! ### The finished PCB on the empty Ready Queue (R284, R331) -/

theorem insertReady_empty {p : Int} {s : State} (hp : PcbInRange p) (hrq : s.rqHead = -1) :
    insertReady p s =
      .go () ((s.setMem (s.mem.writeLines [(p + 2, s.cfg.codes.ready), (p, -1)])).setRqHead p) := by
  have hmem (k : Int) (h0 : 0 ≤ k) (h17 : k ≤ 17) : MemAddr (p + k) :=
    memAddr_of_pcb (pcbInRange_iff.mp hp) (by omega) (by omega)
  unfold insertReady
  rw [if_pos hp, store_of_memAddr (hmem _ (by simp) (by simp)), Flow.bind_go,
    load_of_memAddr (hmem _ (by simp) (by simp)), Flow.bind_go, State.setMem_rqHead, hrq]
  unfold queueFuel
  rw [readyPlace_end, Flow.bind_go, store_of_memAddr (hmem _ (by simp) (by simp)), Flow.bind_go]
  simp [linkReady, State.setMem_setMem]

/-- The words process creation writes into a PCB after its stack has been allocated and the program loaded, and those
its insertion into the empty Ready Queue writes, in order. -/
def finishedPcb (p start stack priority : Int) (cfg : Params) : List (Int × Int) :=
  [(p + 6, stack), (p + 5, cfg.stackSize), (p + 15, stack - 1), (p + 16, start), (p + 17, cfg.codes.user),
    (p + 4, priority), (p + 2, cfg.codes.ready), (p, -1)]

theorem finishPcb_eq {p : Int} {s : State} (start stack priority : Int) (hp : PcbInRange p) (hrq : s.rqHead = -1) :
    finishPcb p start stack priority s =
      .go () ((s.setMem (s.mem.writeLines (finishedPcb p start stack priority s.cfg))).setRqHead p) := by
  have hmem (k : Int) (h : 0 ≤ k ∧ k ≤ 17) : MemAddr (p + k) :=
    memAddr_of_pcb (pcbInRange_iff.mp hp) (by omega) (by omega)
  unfold finishPcb
  simp only [store_of_memAddr (hmem Pcb.stackStart (by simp)), store_of_memAddr (hmem Pcb.stackSize (by simp)),
    store_of_memAddr (hmem Pcb.savedSp (by simp)), store_of_memAddr (hmem Pcb.savedPc (by simp)),
    store_of_memAddr (hmem Pcb.savedPsr (by simp)), store_of_memAddr (hmem Pcb.priority (by simp)), Flow.bind_go,
    State.setMem_mem, State.setMem_setMem, State.setMem_cfg]
  rw [insertReady_empty hp (by exact hrq)]
  rfl

/-! ### The creation after boot -/

/-- What boot and the parameters give the first creation (R245, R330): both regions one free block, no process ready, a
process ID to assign, and a stack that leaves a block behind it. -/
structure ReadyForFirst (s : State) : Prop where
  memory : s.mem.wf = true
  userList : FreeList .user [(4000, 3000)] s
  osList : FreeList .os [(7000, 3000)] s
  noneReady : s.rqHead = -1
  nextId : s.cfg.IsWord (s.nextPid + 1)
  stackLo : 2 ≤ s.cfg.stackSize
  stackHi : s.cfg.stackSize ≤ 2998

/-! The memories along the creation are irreducible: comparing two of their reads never runs the writes. -/

/-- Memory when the first PCB has been split from the OS region. -/
@[irreducible] def splitMem (s : State) : Memory := s.mem.writeLines [(7018, -1), (7019, 2982)]

/-- Memory when the first PCB has been allocated, zeroed and numbered. -/
@[irreducible] def numberedMem (s : State) : Memory := (splitMem s).freshPcb 7000 s.nextPid

/-- The state when the first PCB has been numbered and memory holds `m`. -/
def firstNumbered (s : State) (m : Memory) : State :=
  (setFreeHead .os 7018 (s.setMem m)).setNextPid (s.nextPid + 1) s.freeDraws

/-- What the first creation writes after the program has been loaded: the block behind its stack, then its PCB. -/
def createdWords (s : State) (start priority : Int) : List (Int × Int) :=
  [(4000 + s.cfg.stackSize, -1), (4000 + s.cfg.stackSize + 1, 3000 - s.cfg.stackSize)] ++
    finishedPcb 7000 start 4000 priority s.cfg

/-- Memory after the first creation. -/
@[irreducible] def createdMem (s : State) (ls : List (Int × Int)) (start priority : Int) : Memory :=
  ((numberedMem s).writeLines ls).writeLines (createdWords s start priority)

/-- The state the first creation leaves (R331). -/
def firstCreated (s : State) (ls : List (Int × Int)) (start priority : Int) : State :=
  (setFreeHead .user (4000 + s.cfg.stackSize) (firstNumbered s (createdMem s ls start priority))).setRqHead 7000

theorem pcbInRange_first : PcbInRange 7000 := by decide

section First

variable {s : State} {ls : List (Int × Int)} {start priority : Int}

theorem ReadyForFirst.wf_splitMem (h : ReadyForFirst s) : (splitMem s).wf = true := by
  unfold splitMem
  exact Memory.wf_writeLines _ _ h.memory (by decide)

theorem ReadyForFirst.wf_numberedMem (h : ReadyForFirst s) : (numberedMem s).wf = true := by
  unfold numberedMem
  exact Memory.wf_freshPcb _ h.wf_splitMem pcbInRange_first

theorem read_numberedMem_below {b : Nat} (hb : b < 7000) : (numberedMem s).read b = s.mem.read b := by
  unfold numberedMem splitMem
  refine (Memory.read_freshPcb_other _ pcbInRange_first (by omega)).trans ?_
  exact Memory.read_writeLines_other _ _ (by simp; omega)

theorem firstNumbered_setMem (m m' : Memory) : (firstNumbered s m).setMem m' = firstNumbered s m' := rfl

@[simp] theorem firstNumbered_mem (m : Memory) : (firstNumbered s m).mem = m := rfl

@[simp] theorem firstNumbered_cfg (m : Memory) : (firstNumbered s m).cfg = s.cfg := rfl

/-- Loading the program keeps the user free list, which the stack is then taken from. -/
theorem ReadyForFirst.userList_loaded (h : ReadyForFirst s) (hls : GoodLines ls) :
    FreeList .user [(4000, 3000)] (firstNumbered s ((numberedMem s).writeLines ls)) := by
  have hread (b : Nat) (h4 : 4000 ≤ b) (h7 : b < 7000) : ((numberedMem s).writeLines ls).read b = s.mem.read b :=
    (hls.read_above _ h4).trans (read_numberedMem_below h7)
  obtain ⟨hbounds, hfree, hsize, hlink⟩ := freeList_single.mp h.userList
  refine freeList_single.mpr ⟨hbounds, hfree, ?_, ?_⟩
  · exact (hread _ (by decide) (by decide)).trans hsize
  · exact (hread _ (by decide) (by decide)).trans hlink

theorem ReadyForFirst.allocatePcb_eq (h : ReadyForFirst s) :
    allocate .os Config.pcbSize s = .go (.address 7000) (setFreeHead .os 7018 (s.setMem (splitMem s))) := by
  unfold splitMem
  exact allocate_split_single h.osList (by decide) (by decide)

theorem ReadyForFirst.initPcb_eq (h : ReadyForFirst s) :
    initPcb 7000 (setFreeHead .os 7018 (s.setMem (splitMem s))) = .go () (firstNumbered s (numberedMem s)) := by
  rw [Machine.initPcb_eq pcbInRange_first (by simpa [setFreeHead_nextPid] using h.nextId), setFreeHead_setMem,
    State.setMem_setMem, setFreeHead_nextPid, setFreeHead_freeDraws, setFreeHead_mem]
  unfold firstNumbered numberedMem
  rfl

theorem loadFile_firstNumbered {f : ProgramFile} {more : List (Int × Int)}
    (hf : f.lines = some (ls ++ (-1, start) :: more)) (hls : GoodLines ls) (hstart : UserAddr start) :
    loadFile f (firstNumbered s (numberedMem s)) = .go start (firstNumbered s ((numberedMem s).writeLines ls)) := by
  unfold loadFile
  simp only [hf]
  rw [loadLines_goodLines hstart more ls _ hls, firstNumbered_setMem, firstNumbered_mem]

/-- R331: the allocation of the stack, the fields written after it, and the insertion. -/
theorem ReadyForFirst.createStack_eq (h : ReadyForFirst s) (hls : GoodLines ls) :
    createStack 7000 start priority (firstNumbered s ((numberedMem s).writeLines ls)) =
      .go () (firstCreated s ls start priority) := by
  have hlo := h.stackLo
  have hhi := h.stackHi
  have hrq (v : Int) (m m' : Memory) : (setFreeHead .user v ((firstNumbered s m).setMem m')).rqHead = -1 := h.noneReady
  unfold createStack
  rw [firstNumbered_cfg, allocate_split_single (h.userList_loaded hls) hlo (by omega), Flow.bind_go]
  simp only
  rw [finishPcb_eq _ _ _ pcbInRange_first (hrq _ _ _), setFreeHead_setMem, State.setMem_setMem,
    firstNumbered_setMem, setFreeHead_mem, setFreeHead_cfg, State.setMem_mem, State.setMem_cfg, firstNumbered_mem,
    firstNumbered_cfg, ← Memory.writeLines_append]
  unfold firstCreated createdMem
  rfl

/-- R331: the whole of the first creation. -/
theorem ReadyForFirst.createProcess_eq (h : ReadyForFirst s) {f : ProgramFile} {more : List (Int × Int)}
    (hf : f.lines = some (ls ++ (-1, start) :: more)) (hls : GoodLines ls) (hstart : UserAddr start) :
    createProcess f priority s = .go () (firstCreated s ls start priority) := by
  have hpos : ¬ start < 0 := by
    rw [userAddr_iff] at hstart
    omega
  unfold createProcess
  rw [h.allocatePcb_eq, Flow.bind_go]
  simp only
  rw [h.initPcb_eq, Flow.bind_go, loadFile_firstNumbered hf hls hstart, Flow.bind_go, if_neg hpos, h.createStack_eq hls]

/-! ### What memory reads as after it -/

theorem ReadyForFirst.createdWords_memAddr (h : ReadyForFirst s) :
    ∀ w ∈ createdWords s start priority, MemAddr w.1 := by
  have hlo := h.stackLo
  have hhi := h.stackHi
  simp [createdWords, finishedPcb, memAddr_iff]
  omega

/-- The block behind the stack lies below the PCB, so no address is written twice. -/
theorem ReadyForFirst.createdWords_pairwise (h : ReadyForFirst s) :
    (createdWords s start priority).Pairwise fun x y => x.1 ≠ y.1 := by
  have hlo := h.stackLo
  have hhi := h.stackHi
  simp [createdWords, finishedPcb]
  omega

theorem ReadyForFirst.read_createdWords (h : ReadyForFirst s) (hls : GoodLines ls) :
    ∀ w ∈ createdWords s start priority, (createdMem s ls start priority).read w.1.toNat = w.2 := by
  unfold createdMem
  exact Memory.read_writeLines_mem _ _ (Memory.wf_writeLines ls _ h.wf_numberedMem hls.memAddr) h.createdWords_memAddr
    h.createdWords_pairwise

theorem read_createdMem_other (hls : GoodLines ls) {b : Nat} (h4 : 4000 ≤ b)
    (hb : ∀ w ∈ createdWords s start priority, b ≠ w.1.toNat) :
    (createdMem s ls start priority).read b = (numberedMem s).read b := by
  unfold createdMem
  exact (Memory.read_writeLines_other _ _ hb).trans (hls.read_above _ h4)

/-- The user range holds what the loader writes there. -/
theorem ReadyForFirst.read_createdMem_user (h : ReadyForFirst s) (hls : GoodLines ls) {b : Nat} (hb : b < 4000) :
    (createdMem s ls start priority).read b = (s.mem.writeLines ls).read b := by
  have hlo := h.stackLo
  unfold createdMem
  refine (Memory.read_writeLines_other _ _ ?_).trans ?_
  · simp [createdWords, finishedPcb]
    omega
  · exact Memory.read_writeLines_congr ls _ _ h.wf_numberedMem h.memory hls.memAddr (read_numberedMem_below (by omega))

/-- The fields of the PCB that stay as its initialisation left them: 1, 3 and 7 to 14, and the block behind the PCB. -/
theorem ReadyForFirst.read_createdMem_numbered (h : ReadyForFirst s) (hls : GoodLines ls) {k : Nat}
    (hk : k ∈ [1, 3, 7, 8, 9, 10, 11, 12, 13, 14, 18, 19]) :
    (createdMem s ls start priority).read (7000 + k) = (numberedMem s).read (7000 + k) := by
  have hhi := h.stackHi
  refine read_createdMem_other hls (by omega) ?_
  simp [createdWords, finishedPcb] at hk ⊢
  omega

theorem ReadyForFirst.read_createdMem_zero (h : ReadyForFirst s) (hls : GoodLines ls) {k : Nat}
    (hk : k ∈ [3, 7, 8, 9, 10, 11, 12, 13, 14]) : (createdMem s ls start priority).read (7000 + k) = 0 := by
  rw [h.read_createdMem_numbered hls (by simp at hk ⊢; omega)]
  unfold numberedMem
  exact Memory.read_freshPcb_zero _ h.wf_splitMem pcbInRange_first (by simp at hk; omega) (by simp at hk; omega)

theorem ReadyForFirst.read_createdMem_pid (h : ReadyForFirst s) (hls : GoodLines ls) :
    (createdMem s ls start priority).read 7001 = s.nextPid := by
  refine (h.read_createdMem_numbered (k := 1) hls (by simp)).trans ?_
  unfold numberedMem
  exact Memory.read_freshPcb_pid _ h.wf_splitMem pcbInRange_first

/-- The block behind the PCB, as the split of the OS region left it. -/
theorem ReadyForFirst.read_createdMem_split (h : ReadyForFirst s) (hls : GoodLines ls) :
    (createdMem s ls start priority).read 7018 = -1 ∧ (createdMem s ls start priority).read 7019 = 2982 := by
  have hsplit : ∀ w ∈ [((7018 : Int), (-1 : Int)), (7019, 2982)], (splitMem s).read w.1.toNat = w.2 := by
    unfold splitMem
    exact Memory.read_writeLines_mem _ _ h.memory (by decide) (by decide)
  have hkeep (k : Nat) (hk : k = 18 ∨ k = 19) :
      (createdMem s ls start priority).read (7000 + k) = (splitMem s).read (7000 + k) := by
    rw [h.read_createdMem_numbered hls (by simp; omega)]
    unfold numberedMem
    exact Memory.read_freshPcb_other _ pcbInRange_first (by push_cast; omega)
  exact ⟨(hkeep 18 (.inl rfl)).trans (hsplit (7018, -1) (by simp)),
    (hkeep 19 (.inr rfl)).trans (hsplit (7019, 2982) (by simp))⟩

/-! ### The interrupt -/

theorem firstCreated_mem (ph : Phase) :
    ((firstCreated s ls start priority).setPhase ph).mem = createdMem s ls start priority := rfl

theorem firstCreated_word (ph : Phase) (b : Int) :
    ((firstCreated s ls start priority).setPhase ph).word b = (createdMem s ls start priority).read b.toNat := rfl

theorem ReadyForFirst.setInbox (h : ReadyForFirst s) (es : List Interrupt) : ReadyForFirst (s.setInbox es) :=
  ⟨h.memory, h.userList, h.osList, h.noneReady, h.nextId, h.stackLo, h.stackHi⟩

/-- R302, R307: the receive of a run-program interrupt. -/
theorem step_receive_runProgram {e : Interrupt} {rest : List Interrupt} (hp : s.phase = .receive)
    (hin : s.inbox = e :: rest) (hid : e.id = 1) :
    step s = ((createProcess e.payload.file s.cfg.defaultPriority (s.setInbox rest)).bind fun _ t =>
      .go () (t.setPhase .select)).outcome := by
  unfold step receiveStep handleInterrupt
  simp only [hp, hin]
  rw [if_neg (by omega), if_pos hid]
  rfl

end First

/-- Settles O52: the receive runs the creation, whose memory reads as the lists of its writes say. -/
theorem firstProcessIsCreated : Obligations.FirstProcessIsCreated := by
  unfold Obligations.FirstProcessIsCreated
  intro s e rest ls more start hp hin hid hok hwf huser hos hrq hpid hsize hf hls hstart
  obtain ⟨-, -, hlo, -⟩ := hok
  have hs : ReadyForFirst s := ⟨hwf, huser, hos, hrq, hpid, hlo, hsize⟩
  have h := hs.setInbox rest
  have hstep : step s = .next ((firstCreated (s.setInbox rest) ls start s.cfg.defaultPriority).setPhase .select) := by
    rw [step_receive_runProgram hp hin hid, h.createProcess_eq hf hls hstart]
    rfl
  have hwords := h.read_createdWords (start := start) (priority := s.cfg.defaultPriority) hls
  simp only [createdWords, finishedPcb, List.cons_append, List.nil_append, List.forall_mem_cons] at hwords
  obtain ⟨hlink, hblock, h6, h5, h15, h16, h17, h4, h2, h0, -⟩ := hwords
  obtain ⟨h18, h19⟩ := h.read_createdMem_split (start := start) (priority := s.cfg.defaultPriority) hls
  refine ⟨_, hstep, rfl, rfl, rfl, rfl, ?_⟩
  simp only [firstCreated_word]
  refine ⟨h0, h.read_createdMem_pid hls, h2, h.read_createdMem_zero (k := 3) hls (by simp), h4, h5, h6, fun k => ?_,
    h15, h16, h17, ?_, ?_, fun a ha => h.read_createdMem_user hls ha⟩
  · have hk : (7007 + (k.val : Int)).toNat = 7000 + (7 + k.val) := by omega
    rw [hk]
    exact h.read_createdMem_zero hls (by simp; omega)
  · exact freeList_single.mpr ⟨by show 4000 ≤ _ ∧ _ ∧ _ ≤ 6999; omega, rfl, hblock, hlink⟩
  · refine freeList_single.mpr ⟨by decide, rfl, ?_, ?_⟩
    · rw [firstCreated_mem]
      simpa using h19
    · exact h18

end Sys2Proof.Machine

/-! # The OS region is out of reach of an instruction other than SYSCALL (R62, R151, R205)

Such an instruction loads from and stores to user addresses, and PUSH and POP also use heap addresses. So no word of the OS
region changes, which the first part follows for one word at a time; and none decides what the instruction does, which the
second part shows by running two states side by side. -/

namespace Sys2Proof.Machine

variable {α β : Type}

/-! ### Pseudocode that leaves a word of memory as it is -/

/-- Every outcome of `x` that leaves a state leaves one that holds the word `w` at address `a`. -/
def Flow.LeavesWord (a : Nat) (w : Int) (x : Flow α) : Prop :=
  x.Sat (fun _ t => t.mem.read a = w) fun _ t => t.mem.read a = w

theorem Flow.LeavesWord.bind {a : Nat} {w : Int} {x : Flow α} {f : α → State → Flow β} (hx : x.LeavesWord a w)
    (hf : ∀ r t, t.mem.read a = w → (f r t).LeavesWord a w) : (x.bind f).LeavesWord a w := Flow.Sat.bind hx hf

/-- What an instruction's execute step leaves, the instruction leaves: completion and the taking of a fault write nothing. -/
theorem Flow.LeavesWord.finish {a : Nat} {w : Int} {x : Flow IoRequest} {op : Nat} {t : State} (hx : x.LeavesWord a w)
    (h : finish op x = .next t) : t.mem.read a = w := by
  rcases finish_eq_next.mp h with ⟨io, u, hu, rfl⟩ | ⟨c, u, hu, rfl⟩
  · rw [complete_mem]
    exact hx.1 io u hu
  · exact hx.2 c u hu

section Leaves

variable {a : Nat} {w : Int} {s : State}

theorem leavesWord_go (r : α) (h : s.mem.read a = w) : (Flow.go r s).LeavesWord a w := Flow.sat_go.mpr h

theorem leavesWord_raise (c : FaultCode) (h : s.mem.read a = w) : (Flow.raise c s : Flow α).LeavesWord a w :=
  Flow.sat_raise.mpr h

theorem leavesWord_load (b : Int) (h : s.mem.read a = w) : (load b s).LeavesWord a w :=
  (sat_load b s).mono (fun _ _ ⟨_, _, ht⟩ => by rw [ht]; exact h) fun _ _ h => h

/-- A store to another address. -/
theorem leavesWord_store {b : Int} (hb : b < a) (v : Int) (h : s.mem.read a = w) : (store b v s).LeavesWord a w :=
  (sat_store b v s).mono (fun _ _ ⟨h0, ht⟩ => by
    rw [memAddr_iff] at h0
    rw [ht, State.setMem_mem, Memory.read_write_other _ _ (by omega)]
    exact h) fun _ _ h => h

/-- R150: what follows a resolution starts from the same memory, with a destination inside the user range, if any. -/
theorem leavesWord_resolve_bind (o : Operand) {f : Dest × Int → State → Flow α} (h : s.mem.read a = w)
    (hf : ∀ p t, DestOk p.1 → t.mem.read a = w → (f p t).LeavesWord a w) : ((resolve o s).bind f).LeavesWord a w := by
  rcases resolve_answers o s with ⟨p, t, hr, he⟩ | ⟨c, t, hr, he⟩ <;> obtain ⟨-, hmem, -⟩ := he.frame <;> rw [hr]
  · exact hf p t (resolve_go_dest hr) (by rwa [hmem])
  · exact leavesWord_raise c (by rwa [hmem])

/-- R148: a destination is a register or a user address, so its write leaves every word from the heap region on. -/
theorem leavesWord_writeDest {d : Dest} (hd : DestOk d) (ha : 4000 ≤ a) (v : Int) (h : s.mem.read a = w) :
    (writeDest d v s).LeavesWord a w := by
  cases d with
  | reg r => exact leavesWord_go (s := s.setReg r v) () h
  | mem b =>
    have hb : b ≤ 3999 := (userAddr_iff.mp hd).2
    exact leavesWord_store (by omega) v h
  | imm => exact leavesWord_raise _ h

theorem leavesWord_execArith {f : Int → Int → State → Flow Int} (hf : PureOp f) (d o : Operand) (ha : 4000 ≤ a)
    (h : s.mem.read a = w) : (execArith f d o s).LeavesWord a w :=
  leavesWord_resolve_bind d h fun p _ hd h => leavesWord_resolve_bind o h fun q u _ h => by
    rcases hf.answers p.2 q.2 u with ⟨v, hv⟩ | ⟨c, hc⟩
    · rw [hv, Flow.bind_go]
      exact (leavesWord_writeDest hd ha v h).bind fun _ _ h => leavesWord_go _ h
    · rw [hc]
      exact leavesWord_raise c h

theorem leavesWord_branchTo (h : s.mem.read a = w) : (branchTo s).LeavesWord a w := by
  rcases branchTo_cases s with ⟨-, he⟩ | ⟨-, he⟩ <;> rw [he]
  · exact leavesWord_go (s := s.setPc _) _ h
  · exact leavesWord_raise _ h

theorem leavesWord_branchIf (cond : Int → Bool) (o : Operand) (h : s.mem.read a = w) :
    (branchIf cond o s).LeavesWord a w :=
  leavesWord_resolve_bind o h fun _ t _ h => by
    split
    · exact leavesWord_branchTo h
    · exact leavesWord_go (s := t.setPc (t.pc + 1)) _ h

/-- R201, R205: a push writes one word of the heap region. -/
theorem leavesWord_pushWord (ha : 7000 ≤ a) (v : Int) (h : s.mem.read a = w) : (pushWord v s).LeavesWord a w := by
  unfold pushWord; split
  · have hsp : s.sp + 1 ≤ 6999 := (heapAddr_iff.mp ‹_›).2
    exact (leavesWord_store (by omega) v h).bind fun _ t h => leavesWord_go (s := t.setSp (t.sp + 1)) _ h
  · exact leavesWord_raise _ h

/-- R202: a pop only reads the heap region. -/
theorem leavesWord_popInto {d : Dest} (hd : DestOk d) (ha : 4000 ≤ a) (h : s.mem.read a = w) :
    (popInto d s).LeavesWord a w := by
  unfold popInto; split
  · exact (leavesWord_load _ h).bind fun v t h =>
      (leavesWord_writeDest (s := t.setSp (t.sp - 1)) hd ha v h).bind fun _ _ h => leavesWord_go _ h
  · exact leavesWord_raise _ h

end Leaves

/-- R62, R205: an instruction other than SYSCALL leaves every word from the heap region on, PUSH from the OS region on. -/
theorem exec_leaves_word {i : Instr} {s t : State} {a : Nat} (hcall : i.opcode ≠ 12) (ha : 4000 ≤ a)
    (hpush : i.opcode = 10 → 7000 ≤ a) (h : exec i s = .next t) : t.mem.read a = s.mem.read a := by
  cases i with
  | halt => exact (leavesWord_go IoRequest.none rfl).finish h
  | add d o => exact (leavesWord_execArith pureOp_add d o ha rfl).finish h
  | sub d o => exact (leavesWord_execArith pureOp_sub d o ha rfl).finish h
  | mul d o => exact (leavesWord_execArith pureOp_mul d o ha rfl).finish h
  | div d o => exact (leavesWord_execArith pureOp_div d o ha rfl).finish h
  | move d o => exact (leavesWord_execArith pureOp_move d o ha rfl).finish h
  | br => exact (leavesWord_branchTo rfl).finish h
  | brmi o => exact (leavesWord_branchIf _ o rfl).finish h
  | brpl o => exact (leavesWord_branchIf _ o rfl).finish h
  | brz o => exact (leavesWord_branchIf _ o rfl).finish h
  | push o =>
    exact (leavesWord_resolve_bind o rfl fun p _ _ hw => leavesWord_pushWord (hpush rfl) p.2 hw).finish h
  | pop d => exact (leavesWord_resolve_bind d rfl fun _ _ hd hw => leavesWord_popInto hd ha hw).finish h
  | syscall o => exact absurd rfl hcall

/-- Settles O34: a destination is a user address, and only PUSH writes another word, in the heap region. -/
theorem userInstructionsSpareSystemMemory : Obligations.UserInstructionsSpareSystemMemory := by
  unfold Obligations.UserInstructionsSpareSystemMemory
  intro s t i _ h hcall
  exact ⟨fun a ha => exec_leaves_word hcall (by omega) (fun _ => ha) h,
    fun hpush a ha => exec_leaves_word hcall ha (fun hop => absurd hop hpush) h⟩

/-! ### Two states alike below the OS region -/

/-- Two states with canonical memories that differ in no more than the words of the OS region. -/
inductive AlikeBelowOs (s : State) : State → Prop
  | mk (m : Memory) (hs : s.mem.wf = true) (hm : m.wf = true)
      (words : ∀ a : Nat, (a : Int) < Config.osLo → m.read a = s.mem.read a) : AlikeBelowOs s (s.setMem m)

/-- The fields of `AgreeBelowOs` are all of the state but memory. -/
theorem alikeBelowOs_iff {s t : State} :
    AlikeBelowOs s t ↔ s.mem.wf = true ∧ t.mem.wf = true ∧ AgreeBelowOs s t := by
  constructor
  · rintro ⟨m, hs, hm, hw⟩
    exact ⟨hs, hm, rfl, rfl, rfl, rfl, rfl, rfl, rfl, ⟨rfl, rfl, rfl⟩, ⟨rfl, rfl, rfl, rfl, rfl, rfl, rfl, rfl, rfl, rfl,
      rfl⟩, hw⟩
  · rintro ⟨hs, ht, h⟩
    have he : t = s.setMem t.mem := by
      obtain ⟨h1, h2, h3, h4, h5, h6, h7, ⟨g1, g2, g3⟩, ⟨k1, k2, k3, k4, k5, k6, k7, k8, k9, k10, k11⟩, -⟩ := h
      cases s; cases t; simp_all [State.setMem]
    rw [he]
    exact .mk t.mem hs ht h.mem

namespace AlikeBelowOs

variable {s t : State}

theorem reg (h : AlikeBelowOs s t) (r : Fin 8) : t.reg r = s.reg r := by cases h; rfl

theorem pc (h : AlikeBelowOs s t) : t.pc = s.pc := by cases h; rfl

theorem sp (h : AlikeBelowOs s t) : t.sp = s.sp := by cases h; rfl

theorem cfg (h : AlikeBelowOs s t) : t.cfg = s.cfg := by cases h; rfl

/-- An update that neither reads nor writes memory keeps two states alike. -/
theorem update {f : State → State} (hmem : ∀ s, (f s).mem = s.mem) (hf : ∀ s m, f (s.setMem m) = (f s).setMem m)
    (h : AlikeBelowOs s t) : AlikeBelowOs (f s) (f t) := by
  obtain ⟨m, hs, hm, hw⟩ := h
  rw [hf]
  exact .mk m (by rwa [hmem]) hm (by rwa [hmem])

theorem setReg (h : AlikeBelowOs s t) (r : Fin 8) (v : Int) : AlikeBelowOs (s.setReg r v) (t.setReg r v) :=
  h.update (f := (State.setReg · r v)) (fun _ => rfl) fun _ _ => rfl

theorem setPc (h : AlikeBelowOs s t) (v : Int) : AlikeBelowOs (s.setPc v) (t.setPc v) :=
  h.update (f := (State.setPc · v)) (fun _ => rfl) fun _ _ => rfl

theorem nextPc (h : AlikeBelowOs s t) : AlikeBelowOs (s.setPc (s.pc + 1)) (t.setPc (t.pc + 1)) := by
  rw [h.pc]; exact h.setPc _

theorem setSp (h : AlikeBelowOs s t) (v : Int) : AlikeBelowOs (s.setSp v) (t.setSp v) :=
  h.update (f := (State.setSp · v)) (fun _ => rfl) fun _ _ => rfl

theorem takeFault (h : AlikeBelowOs s t) (c : FaultCode) : AlikeBelowOs (takeFault c s) (takeFault c t) :=
  h.update (f := Machine.takeFault c) (fun _ => rfl) fun _ _ => rfl

/-- R116: the exit is decided by the opcode, the request and the budget. -/
theorem complete (h : AlikeBelowOs s t) (op : Nat) (io : IoRequest) :
    AlikeBelowOs (complete op io s) (complete op io t) := by
  refine h.update (f := Machine.complete op io) (fun s => complete_mem op io s) fun s m => ?_
  have hexit : exitAfter op io ((s.setMem m).charge (cost op)) = exitAfter op io (s.charge (cost op)) := rfl
  unfold Machine.complete
  rw [hexit]
  cases exitAfter op io (s.charge (cost op)) <;> rfl

theorem read (h : AlikeBelowOs s t) {a : Int} (h0 : 0 ≤ a) (ha : a < Config.osLo) :
    t.mem.read a.toNat = s.mem.read a.toNat := by
  obtain ⟨m, -, -, hw⟩ := h
  exact hw _ (by rwa [Int.toNat_of_nonneg h0])

/-- The same word written at the same address of both memories, which both stay canonical. -/
theorem write (h : AlikeBelowOs s t) {a : Int} (ha : MemAddr a) (v : Int) :
    AlikeBelowOs (s.setMem (s.mem.write a.toNat v)) (t.setMem (t.mem.write a.toNat v)) := by
  obtain ⟨m, hs, hm, hw⟩ := h
  have hlt : a.toNat < Config.memSize := by rw [memAddr_iff] at ha; simp; omega
  refine .mk (m.write a.toNat v) (Memory.wf_write v hs hlt)
    (Memory.wf_write v hm hlt) fun b hb => ?_
  rw [State.setMem_mem, Memory.read_write hm, Memory.read_write hs, hw b hb]

end AlikeBelowOs

/-! ### Pseudocode that ends alike -/

/-- Two runs that end in the same way, with the same yield or fault, in states alike below the OS region. -/
inductive Flow.Alike : Flow α → Flow α → Prop
  | go (a : α) {s t : State} (h : AlikeBelowOs s t) : Alike (.go a s) (.go a t)
  | raise (c : FaultCode) {s t : State} (h : AlikeBelowOs s t) : Alike (.raise c s) (.raise c t)
  | stop (f : Fault) : Alike (.stop f) (.stop f)
  | refuse (r : Refusal) : Alike (.refuse r) (.refuse r)

theorem Flow.Alike.bind {x y : Flow α} {f : α → State → Flow β} (hxy : x.Alike y)
    (hf : ∀ a s t, AlikeBelowOs s t → (f a s).Alike (f a t)) : (x.bind f).Alike (y.bind f) := by
  cases hxy with
  | go a h => exact hf a _ _ h
  | raise c h => exact .raise c h
  | stop f => exact .stop f
  | refuse r => exact .refuse r

/-- An instruction whose execute step ends alike leaves states alike, completed or faulted. -/
theorem Flow.Alike.finish {x y : Flow IoRequest} {op : Nat} {u : State} (hxy : x.Alike y)
    (h : finish op x = .next u) : ∃ u', finish op y = .next u' ∧ AlikeBelowOs u u' := by
  cases hxy with
  | go io hs =>
    obtain rfl := Host.Outcome.next.inj h
    exact ⟨_, rfl, hs.complete op io⟩
  | raise c hs =>
    obtain rfl := Host.Outcome.next.inj h
    exact ⟨_, rfl, hs.takeFault c⟩
  | stop f => exact nomatch h
  | refuse r => exact nomatch h

section Alike

variable {s t : State}

/-! ### Memory access (R12) -/

theorem lt_osLo_of_userAddr {a : Int} (h : UserAddr a) : a < Config.osLo := by
  rw [userAddr_iff] at h; simp; omega

theorem lt_osLo_of_heapAddr {a : Int} (h : HeapAddr a) : a < Config.osLo := by
  rw [heapAddr_iff] at h; simp; omega

/-- A load below the OS region answers the same word. -/
theorem alike_load {a : Int} (ha : a < Config.osLo) (h : AlikeBelowOs s t) : (load a s).Alike (load a t) := by
  by_cases hm : MemAddr a
  · rw [load_of_memAddr hm, load_of_memAddr hm, h.read (memAddr_iff.mp hm).1 ha]
    exact .go _ h
  · unfold load
    rw [if_neg hm, if_neg hm]
    exact .refuse _

theorem alike_store (a v : Int) (h : AlikeBelowOs s t) : (store a v s).Alike (store a v t) := by
  unfold store; split
  · exact .go _ (h.write ‹_› v)
  · exact .refuse _

/-- The stream word is one of the user range. -/
theorem alike_streamWord (h : AlikeBelowOs s t) : (streamWord s).Alike (streamWord t) := by
  unfold streamWord; rw [h.pc]; split
  · exact alike_load (lt_osLo_of_userAddr ‹_›) h
  · exact .raise _ h

/-! ### The operations of the arithmetic instructions -/

theorem alike_checked (v : Int) (h : AlikeBelowOs s t) : (checked v s).Alike (checked v t) := by
  unfold checked; rw [h.cfg]; split
  · exact .go _ h
  · split
    · exact .raise _ h
    · exact .go _ h

theorem alike_divWords (v1 v2 : Int) (h : AlikeBelowOs s t) : (divWords v1 v2 s).Alike (divWords v1 v2 t) := by
  unfold divWords; rw [h.cfg]; split
  · exact .raise _ h
  · exact alike_checked _ h

/-! ### The resolver (R141 to R147) -/

theorem alike_resolveDeferred (r : Fin 8) (h : AlikeBelowOs s t) : (resolveDeferred r s).Alike (resolveDeferred r t) := by
  unfold resolveDeferred; rw [h.reg]; split
  · exact (alike_load (lt_osLo_of_userAddr ‹_›) h).bind fun _ _ _ h => .go _ h
  · exact .raise _ h

theorem alike_resolveAutoInc (r : Fin 8) (h : AlikeBelowOs s t) : (resolveAutoInc r s).Alike (resolveAutoInc r t) := by
  unfold resolveAutoInc; rw [h.reg]; split
  · exact (alike_load (lt_osLo_of_userAddr ‹_›) h).bind fun _ _ _ h => .go _ (h.setReg r _)
  · exact .raise _ h

theorem alike_resolveAutoDec (r : Fin 8) (h : AlikeBelowOs s t) : (resolveAutoDec r s).Alike (resolveAutoDec r t) := by
  unfold resolveAutoDec; rw [h.reg]
  refine (alike_checked _ h).bind fun a _ _ h => ?_
  split
  · exact (alike_load (lt_osLo_of_userAddr ‹_›) (h.setReg r a)).bind fun _ _ _ h => .go _ h
  · exact .raise _ (h.setReg r a)

theorem alike_resolveDirect (h : AlikeBelowOs s t) : (resolveDirect s).Alike (resolveDirect t) :=
  (alike_streamWord h).bind fun a _ _ h => by
    split
    · exact (alike_load (lt_osLo_of_userAddr ‹_›) h.nextPc).bind fun _ _ _ h => .go _ h
    · exact .raise _ h.nextPc

theorem alike_resolveImmediate (h : AlikeBelowOs s t) : (resolveImmediate s).Alike (resolveImmediate t) :=
  (alike_streamWord h).bind fun _ _ _ h => .go _ h.nextPc

/-- R151: a resolution reads only words of the user range. -/
theorem alike_resolve (o : Operand) (h : AlikeBelowOs s t) : (resolve o s).Alike (resolve o t) := by
  unfold resolve
  split
  · unfold resolveRegister
    rw [h.reg]
    exact .go _ h
  · exact alike_resolveDeferred _ h
  · exact alike_resolveAutoInc _ h
  · exact alike_resolveAutoDec _ h
  · exact alike_resolveDirect h
  · exact alike_resolveImmediate h
  · exact .raise _ h

theorem alike_writeDest (d : Dest) (v : Int) (h : AlikeBelowOs s t) : (writeDest d v s).Alike (writeDest d v t) := by
  cases d with
  | reg r => exact .go _ (h.setReg r v)
  | mem a => exact alike_store a v h
  | imm => exact .raise _ h

/-! ### Execute steps (R160 to R202) -/

theorem alike_execArith {f : Int → Int → State → Flow Int}
    (hf : ∀ v1 v2 {s t}, AlikeBelowOs s t → (f v1 v2 s).Alike (f v1 v2 t)) (d o : Operand) (h : AlikeBelowOs s t) :
    (execArith f d o s).Alike (execArith f d o t) :=
  (alike_resolve d h).bind fun _ _ _ h => (alike_resolve o h).bind fun _ _ _ h =>
    (hf _ _ h).bind fun v _ _ h => (alike_writeDest _ v h).bind fun _ _ _ h => .go _ h

theorem alike_branchTo (h : AlikeBelowOs s t) : (branchTo s).Alike (branchTo t) :=
  (alike_streamWord h).bind fun a _ _ h => .go _ (h.setPc a)

theorem alike_branchIf (cond : Int → Bool) (o : Operand) (h : AlikeBelowOs s t) :
    (branchIf cond o s).Alike (branchIf cond o t) :=
  (alike_resolve o h).bind fun _ _ _ h => by
    split
    · exact alike_branchTo h
    · exact .go _ h.nextPc

theorem alike_pushWord (v : Int) (h : AlikeBelowOs s t) : (pushWord v s).Alike (pushWord v t) := by
  unfold pushWord; rw [h.sp]; split
  · exact (alike_store _ v h).bind fun _ _ _ h => .go _ (by rw [h.sp]; exact h.setSp _)
  · exact .raise _ h

theorem alike_popInto (d : Dest) (h : AlikeBelowOs s t) : (popInto d s).Alike (popInto d t) := by
  unfold popInto; rw [h.sp]; split
  · exact (alike_load (lt_osLo_of_heapAddr ‹_›) h).bind fun v _ _ h =>
      (alike_writeDest d v (by rw [h.sp]; exact h.setSp _)).bind fun _ _ _ h => .go _ h
  · exact .raise _ h

end Alike

/-- R62, R151: an instruction other than SYSCALL takes states alike below the OS region to such states. -/
theorem exec_alike {i : Instr} {s t u : State} (hcall : i.opcode ≠ 12) (h : AlikeBelowOs s t)
    (hu : exec i s = .next u) : ∃ u', exec i t = .next u' ∧ AlikeBelowOs u u' := by
  cases i with
  | halt => exact (Flow.Alike.go IoRequest.none h).finish hu
  | add d o => exact (alike_execArith (f := addWords) (fun _ _ _ _ h => alike_checked _ h) d o h).finish hu
  | sub d o => exact (alike_execArith (f := subWords) (fun _ _ _ _ h => alike_checked _ h) d o h).finish hu
  | mul d o => exact (alike_execArith (f := mulWords) (fun _ _ _ _ h => alike_checked _ h) d o h).finish hu
  | div d o => exact (alike_execArith (fun v1 v2 _ _ h => alike_divWords v1 v2 h) d o h).finish hu
  | move d o => exact (alike_execArith (f := moveWords) (fun _ v2 _ _ h => .go v2 h) d o h).finish hu
  | br => exact (alike_branchTo h).finish hu
  | brmi o => exact (alike_branchIf _ o h).finish hu
  | brpl o => exact (alike_branchIf _ o h).finish hu
  | brz o => exact (alike_branchIf _ o h).finish hu
  | push o => exact ((alike_resolve o h).bind fun p _ _ h => alike_pushWord p.2 h).finish hu
  | pop d => exact ((alike_resolve d h).bind fun p _ _ h => alike_popInto p.1 h).finish hu
  | syscall o => exact absurd rfl hcall

/-- Settles O35: the two runs end alike, since every load is from the user range or the heap region. -/
theorem userInstructionsIgnoreOsRegion : Obligations.UserInstructionsIgnoreOsRegion := by
  unfold Obligations.UserInstructionsIgnoreOsRegion
  intro s s' t i _ hs hs' hagree hcall ht
  obtain ⟨t', ht', h⟩ := exec_alike hcall (alikeBelowOs_iff.mpr ⟨hs, hs', hagree⟩) ht
  obtain ⟨-, -, hagree'⟩ := alikeBelowOs_iff.mp h
  exact ⟨t', ht', hagree'⟩

end Sys2Proof.Machine

/-! # Decoding and encoding an instruction word (R81 to R97)

A word written as its digits is judged by R83's checks on those digits and then by its opcode. A well-formed instruction's
word has legal digits, which pass every check; what the assembler puts behind the word is counted operand by operand. -/

namespace Sys2Proof

/-! ### The operands of a word and of an instruction (R86, R91, R97) -/

/-- R86: how many operands the instruction of an opcode resolves. -/
def operandCount (op : Nat) : Nat := if op ∈ [1, 2, 3, 4, 5] then 2 else if op ∈ [0, 6] then 0 else 1

theorem checksOperand1_iff {chk : Bool} {op : Nat} :
    checksOperand1 chk op = true ↔ chk = true ∨ op ∈ [1, 2, 3, 4, 5, 7, 8, 9, 10, 11, 12] := by
  simp [checksOperand1]

theorem checksOperand2_iff {chk : Bool} {op : Nat} :
    checksOperand2 chk op = true ↔ chk = true ∨ op ∈ [1, 2, 3, 4, 5] := by
  simp [checksOperand2]

/-- R84 to R86: the instruction of a legal opcode has that opcode, and its operands are the field pairs it resolves. -/
theorem instrOf_eq_ok {f : Fields} (h : f.op ≤ 12) :
    ∃ i, instrOf f = .ok i ∧ i.opcode = f.op ∧
      i.operands = [operandOf f.m1 f.r1, operandOf f.m2 f.r2].take (operandCount f.op) := by
  obtain ⟨op, m1, r1, m2, r2⟩ := f
  simp only at h
  interval_cases op <;> exact ⟨_, rfl, rfl, rfl⟩

/-- R84: no instruction has an opcode above 12. -/
theorem instrOf_eq_invalidOpcode {f : Fields} (h : 12 < f.op) : instrOf f = .error .invalidOpcode := by
  obtain ⟨op, m1, r1, m2, r2⟩ := f
  obtain ⟨k, rfl⟩ : ∃ k, op = k + 13 := Nat.exists_eq_add_of_le' h
  rfl

/-- The field pairs of an instruction's own word give the instruction back. -/
theorem instrOf_packed (i : Instr) :
    instrOf ⟨i.opcode, i.operand1.mode, i.operand1.reg.val, i.operand2.mode, i.operand2.reg.val⟩ = .ok i := by
  cases i <;> simp only [instrOf, Instr.opcode, Instr.operand1, Instr.operand2, Instr.operands, List.headD_cons,
    List.tail_cons, operandOf_val]

/-- A field pair of a well-formed instruction's word is one of its operands, or R91's filler: both are legal. -/
theorem headD_wellFormed {os : List Operand} (h : os.all Operand.wellFormed = true) :
    (os.headD unusedOperand).wellFormed = true := by
  cases os with
  | nil => rfl
  | cons o os => exact (Bool.and_eq_true_iff.mp h).1

theorem Instr.operand1_wellFormed {i : Instr} (h : i.wellFormed = true) : i.operand1.wellFormed = true :=
  headD_wellFormed h

theorem Instr.operand2_wellFormed {i : Instr} (h : i.wellFormed = true) : i.operand2.wellFormed = true :=
  headD_wellFormed (List.all_eq_true.mpr fun o ho => List.all_eq_true.mp h o (List.mem_of_mem_tail ho))

/-! ### Decoding what was encoded (R81, R97) -/

/-- The digits of a packed word are the opcode and the digits of its operands, when these are legal. -/
theorem unpack_packWord {op : Nat} {o1 o2 : Operand} (h1 : o1.wellFormed = true) (h2 : o2.wellFormed = true) :
    unpack (packWord op o1 o2) = ⟨op, o1.mode, o1.reg.val, o2.mode, o2.reg.val⟩ := by
  obtain ⟨-, hm1⟩ := modeLegal_iff.mp h1
  obtain ⟨-, hm2⟩ := modeLegal_iff.mp h2
  exact unpack_digits (by omega) (by omega) (by omega) (by omega)

/-- Legal digits pass every check of R83, whichever of them are made. -/
theorem fieldFault_of_wellFormed (chk : Bool) {op : Nat} {o1 o2 : Operand} (h1 : o1.wellFormed = true)
    (h2 : o2.wellFormed = true) : fieldFault chk ⟨op, o1.mode, o1.reg.val, o2.mode, o2.reg.val⟩ = none :=
  fieldFault_eq_none.mpr ⟨fun _ => ⟨h1, Nat.le_of_lt_succ o1.reg.isLt⟩, fun _ => ⟨h2, Nat.le_of_lt_succ o2.reg.isLt⟩⟩

/-- Settles O1: the word's digits are those of the instruction, all of them legal, so no check of R83 applies. -/
theorem decodeEncodeRoundTrip : Obligations.DecodeEncodeRoundTrip := by
  unfold Obligations.DecodeEncodeRoundTrip
  intro chk i hi
  have h1 := Instr.operand1_wellFormed hi
  have h2 := Instr.operand2_wellFormed hi
  obtain ⟨hlo, hhi⟩ := encode_inRange i.opcode_le h1 h2
  have hfields : unpack (encode i).toNat =
      ⟨i.opcode, i.operand1.mode, i.operand1.reg.val, i.operand2.mode, i.operand2.reg.val⟩ := unpack_packWord h1 h2
  refine decode_eq_ok.mpr ⟨hlo, hhi, ?_, ?_⟩ <;> rw [hfields]
  · exact fieldFault_of_wellFormed chk h1 h2
  · exact instrOf_packed i

/-! ### The checks in their order (R80, R83, R84) -/

/-- R80: a word outside 0..999999 is no instruction word. -/
theorem decode_eq_invalidInstruction {chk : Bool} {w : Int} (h : w < 0 ∨ 999999 < w) :
    decode chk w = .error .invalidInstruction := if_pos h

/-- R83, R84: the fault of a word by its fields: of the checks of the digits, then of the opcode, the first that applies. -/
def decodeFault (chk : Bool) (f : Fields) : Option FaultCode :=
  (fieldFault chk f).or (if 12 < f.op then some .invalidOpcode else none)

/-- The order of the checks, in the words of R83 and R84. -/
theorem decodeFault_eq (chk : Bool) (op m1 r1 m2 r2 : Nat) :
    decodeFault chk ⟨op, m1, r1, m2, r2⟩ =
      if (chk = true ∨ op ∈ [1, 2, 3, 4, 5, 7, 8, 9, 10, 11, 12]) ∧ ¬ (1 ≤ m1 ∧ m1 ≤ 6) then some .invalidMode
      else if (chk = true ∨ op ∈ [1, 2, 3, 4, 5]) ∧ ¬ (1 ≤ m2 ∧ m2 ≤ 6) then some .invalidMode
      else if (chk = true ∨ op ∈ [1, 2, 3, 4, 5, 7, 8, 9, 10, 11, 12]) ∧ ¬ r1 ≤ 7 then some .invalidInstruction
      else if (chk = true ∨ op ∈ [1, 2, 3, 4, 5]) ∧ ¬ r2 ≤ 7 then some .invalidInstruction
      else if 12 < op then some .invalidOpcode
      else none := by
  simp only [← checksOperand1_iff, ← checksOperand2_iff, ← modeLegal_iff, not_le, decodeFault, fieldFault,
    Bool.and_eq_true, Bool.not_eq_true', Bool.not_eq_true, decide_eq_true_eq]
  split_ifs <;> rfl

/-- Decoding a word in range runs the checks on its fields and then reads its instruction. -/
theorem decode_of_inRange {chk : Bool} {n : Nat} (h : n ≤ 999999) :
    (∀ c, decodeFault chk (unpack n) = some c → decode chk n = .error c) ∧
      (decodeFault chk (unpack n) = none → decode chk n = instrOf (unpack n)) := by
  have hrange : ¬ ((n : Int) < 0 ∨ 999999 < (n : Int)) := by omega
  unfold decode decodeFault
  rw [if_neg hrange, Int.toNat_natCast]
  cases fieldFault chk (unpack n) with
  | some c => simp
  | none =>
    by_cases hop : 12 < (unpack n).op
    · simp [hop, instrOf_eq_invalidOpcode hop]
    · simp [hop]

/-- An unfaulted word has a legal opcode. -/
theorem decodeFault_eq_none {chk : Bool} {f : Fields} :
    decodeFault chk f = none ↔ fieldFault chk f = none ∧ f.op ≤ 12 := by
  simp [decodeFault]

/-- An operand keeps the digits of a legal register. -/
theorem operandOf_digits {m r : Nat} (h : r ≤ 7) : ((operandOf m r).mode, (operandOf m r).reg.val) = (m, r) := by
  simp only [operandOf, Fin.ofNat, Prod.mk.injEq, true_and]
  omega

/-- The operands an instruction resolves keep both digits of their field pairs, since R83 checks those pairs. -/
theorem operandDigits_of_fieldFault {chk : Bool} {op m1 r1 m2 r2 : Nat} (hop : op ≤ 12)
    (h : fieldFault chk ⟨op, m1, r1, m2, r2⟩ = none) :
    ([operandOf m1 r1, operandOf m2 r2].take (operandCount op)).map (fun o => (o.mode, o.reg.val)) =
      [(m1, r1), (m2, r2)].take (operandCount op) := by
  obtain ⟨hc1, hc2⟩ := fieldFault_eq_none.mp h
  have hcount : ∀ op ≤ 12, operandCount op = 0 ∨
      operandCount op = 1 ∧ op ∈ [1, 2, 3, 4, 5, 7, 8, 9, 10, 11, 12] ∨
      operandCount op = 2 ∧ op ∈ [1, 2, 3, 4, 5] := by decide
  rcases hcount op hop with h0 | ⟨h1, hmem⟩ | ⟨h2, hmem⟩
  · rw [h0]; rfl
  · obtain ⟨-, hr1⟩ := hc1 (checksOperand1_iff.mpr (.inr hmem))
    simp [h1, operandOf_digits hr1]
  · obtain ⟨-, hr1⟩ := hc1 (checksOperand1_iff.mpr (.inr (List.mem_append_left [7, 8, 9, 10, 11, 12] hmem)))
    obtain ⟨-, hr2⟩ := hc2 (checksOperand2_iff.mpr (.inr hmem))
    simp [h2, operandOf_digits hr1, operandOf_digits hr2]

/-- Settles O2: the fields of the word are its digits, and the statement's chain of checks is `decodeFault` of them. -/
theorem decodeChecksInOrder : Obligations.DecodeChecksInOrder := by
  unfold Obligations.DecodeChecksInOrder
  refine ⟨fun _ _ => decode_eq_invalidInstruction, ?_⟩
  intro chk op m1 r1 m2 r2 hop hm1 hr1 hm2 hr2 w checked1 checked2 fault
  have hfault : fault = decodeFault chk ⟨op, m1, r1, m2, r2⟩ := (decodeFault_eq chk op m1 r1 m2 r2).symm
  obtain ⟨herror, hok⟩ := decode_of_inRange (chk := chk)
    (show op * 10000 + m1 * 1000 + r1 * 100 + m2 * 10 + r2 ≤ 999999 by omega)
  rw [unpack_digits hm1 hr1 hm2 hr2] at herror hok
  rw [hfault]
  refine ⟨herror, fun hnone => ?_⟩
  obtain ⟨hfield, hop12⟩ := decodeFault_eq_none.mp hnone
  obtain ⟨i, hi, hopcode, hoperands⟩ := instrOf_eq_ok hop12
  refine ⟨i, (hok hnone).trans hi, hopcode, ?_⟩
  rw [hoperands]
  exact operandDigits_of_fieldFault hop12 hfield

/-- Settles O3: each word is decoded by evaluation. -/
theorem sampleWordsDecode : Obligations.SampleWordsDecode := by
  unfold Obligations.SampleWordsDecode
  decide

/-! ### The words of an assembled statement (R87, R97) -/

theorem Instr.operands_length_le (i : Instr) : i.operands.length ≤ 2 := by cases i <;> simp [Instr.operands]

/-- R87: the branches are the instructions with a target word. -/
theorem Instr.hasTarget_iff {i : Instr} : i.hasTarget = true ↔ i.opcode ∈ [6, 7, 8, 9] := by
  cases i <;> simp [Instr.hasTarget, Instr.opcode]

theorem modeUsesStream_iff {m : Nat} : modeUsesStream m = true ↔ m = 5 ∨ m = 6 := by simp [modeUsesStream]

/-- R87: with a word at hand for each operand, as many are written as there are operands in mode 5 or 6. -/
theorem streamWords_length (os : List Operand) (ws : List Int) (h : os.length ≤ ws.length) :
    ((os.zip ws).filterMap fun p => if modeUsesStream p.1.mode then some p.2 else none).length =
      (os.map fun o => if o.mode = 5 ∨ o.mode = 6 then 1 else 0).sum := by
  induction os generalizing ws with
  | nil => rfl
  | cons o os ih =>
    obtain _ | ⟨w, ws⟩ := ws
    · simp at h
    · have htail := ih ws (by simpa using h)
      by_cases ho : o.mode = 5 ∨ o.mode = 6
      · simp [modeUsesStream_iff.mpr ho, ho, htail, Nat.add_comm]
      · simp [mt modeUsesStream_iff.mp ho, ho, htail]

/-- Settles O4: the three parts of the assembled list are counted by R87's three terms. -/
theorem assembledLength : Obligations.AssembledLength := by
  unfold Obligations.AssembledLength
  intro i w1 w2 t
  have hstream := streamWords_length i.operands [w1, w2] i.operands_length_le
  have htarget : (if i.hasTarget then [t] else []).length = if i.opcode ∈ [6, 7, 8, 9] then 1 else 0 := by
    simp only [Instr.hasTarget_iff]
    split_ifs <;> rfl
  rw [assemble, List.length_append, List.length_append, hstream, htarget, List.length_singleton]

end Sys2Proof

/-! # The engine's cycle: fetch, decode, completion and fault (R110 to R125)

A step of the engine is its fetch followed by the decoding and the run of the fetched word. What an instruction leaves is
the completion of its execute step, charged, or its fault, with nothing charged; either way the sequencer's variables
stay. -/

namespace Sys2Proof.Machine

/-! ### Fetch and decode (R112 to R115) -/

/-- R112: with `pc` in the user range, a step decodes and runs what it has fetched. -/
theorem step_of_userAddr {s : State} (hp : s.phase = .engine) (hu : UserAddr s.pc) :
    step s = decodeAndRun (s.setFetched (s.word s.pc)) := by
  simp only [step, hp, engineStep, fetch, if_pos hu, load_of_memAddr (memAddr_of_userAddr hu), Flow.bind_go, State.word]

/-- R113: with `pc` outside the user range, a step takes Runtime before anything has changed. -/
theorem step_of_not_userAddr {s : State} (hp : s.phase = .engine) (hu : ¬ UserAddr s.pc) :
    step s = .next (takeFault .runtime s) := by
  simp only [step, hp, engineStep, fetch, if_neg hu]

theorem decodeAndRun_of_ok {s : State} {i : Instr} (h : decode s.cfg.checkUnused s.ir = .ok i) :
    decodeAndRun s = exec i s := by
  rw [decodeAndRun, h]

theorem decodeAndRun_of_error {s : State} {c : FaultCode} (h : decode s.cfg.checkUnused s.ir = .error c) :
    decodeAndRun s = .next (takeFault c s) := by
  rw [decodeAndRun, h]

/-- Settles O5: the fetch goes on, and what it leaves in `ir` decodes to a well-formed instruction. -/
theorem stepRunsDecodedInstruction : Obligations.StepRunsDecodedInstruction := by
  unfold Obligations.StepRunsDecodedInstruction
  intro s i hp hu hdec
  exact ⟨decode_wellFormed hdec, (step_of_userAddr hp hu).trans (decodeAndRun_of_ok hdec)⟩

/-- Settles O6: the fetch's own fault, then the decoder's. -/
theorem fetchAndDecodeFaults : Obligations.FetchAndDecodeFaults := by
  unfold Obligations.FetchAndDecodeFaults
  intro s hp
  exact ⟨fun hu => step_of_not_userAddr hp hu,
    fun c hu hdec => (step_of_userAddr hp hu).trans (decodeAndRun_of_error hdec)⟩

/-! ### Charge and exit of a completed instruction (R116, R125) -/

/-- R125: the costs as a table over the opcodes. -/
theorem cost_opcode_eq_getD (i : Instr) :
    cost i.opcode = ([12, 3, 3, 6, 6, 2, 2, 4, 4, 4, 2, 2, 12] : List Nat).getD i.opcode 0 := by
  have htable : ∀ op ≤ 12, cost op = ([12, 3, 3, 6, 6, 2, 2, 4, 4, 4, 2, 2, 12] : List Nat).getD op 0 := by decide
  exact htable _ i.opcode_le

/-- R117: an instruction that does not fault has completed, from a state with the clock, budget and control point it
started with; only SYSCALL may ask for I/O. -/
theorem exec_completed {i : Instr} {s t : State} (h : exec i s = .next t) (ht : NotFaulted t) :
    ∃ io u, t = complete i.opcode io u ∧ u.clock = s.clock ∧ u.budget = s.budget ∧ u.phase = s.phase ∧
      (i.opcode ≠ 12 → io = .none) := by
  rcases exec_next h with ⟨io, u, rfl, hu, hio, -⟩ | ⟨c, u, rfl, -⟩
  · exact ⟨io, u, rfl, field_of_forgetRun State.clock (fun _ => rfl) hu,
      field_of_forgetRun State.budget (fun _ => rfl) hu, field_of_forgetRun State.phase (fun _ => rfl) hu,
      fun hop => (hio hop).1⟩
  · exact absurd rfl (ht c)

/-- Settles O8: completion charges the cost, then tests halt and the budget, in that order. -/
theorem completedInstructionIsCharged : Obligations.CompletedInstructionIsCharged := by
  unfold Obligations.CompletedInstructionIsCharged
  intro s t i hp h ht
  obtain ⟨io, u, rfl, hclock, hbudget, hphase, hio⟩ := exec_completed h ht
  rw [← cost_opcode_eq_getD]
  refine ⟨by rw [complete_clock, hclock], by rw [complete_budget, hbudget], ?_, fun hhalt hcall => ?_⟩
  · rintro rfl
    simp [complete_phase, Instr.opcode]
  · simp [complete_phase, hio hcall, hhalt, hphase, hp]

/-! ### What a fault leaves (R117, R122) -/

/-- A completion in the engine ends with no fault. -/
theorem complete_phase_ne_fault {s : State} (hp : s.phase = .engine) (op : Nat) (io : IoRequest) (c : FaultCode) :
    (complete op io s).phase ≠ .route (.fault c) := by
  rcases complete_eq op io s with ⟨he, -⟩ | ⟨st, -, hst, he⟩ <;> rw [he]
  · simp [hp]
  · simpa using hst c

/-- Settles O9: the execute step raised the fault, and only the fault's control point is added to what it left. -/
theorem faultLeavesMemoryAndClock : Obligations.FaultLeavesMemoryAndClock := by
  unfold Obligations.FaultLeavesMemoryAndClock
  intro s t i c _ hp h hfault
  obtain ⟨x, hx, hrun, hreg⟩ := exec_effect i s
  rw [hx] at h
  rcases finish_eq_next.mp h with ⟨io, u, hu, rfl⟩ | ⟨d, u, hu, rfl⟩
  · obtain ⟨hrun, -, -⟩ := hrun.1 io u hu
    have hphase : u.phase = .engine := (field_of_forgetRun State.phase (fun _ => rfl) hrun).trans hp
    exact absurd hfault (complete_phase_ne_fault hphase _ _ _)
  · obtain ⟨hrun, hmem, hhead, hmode⟩ := hrun.2 d u hu
    obtain ⟨hregs, hsp⟩ := hreg.2 d u hu
    exact ⟨hmem, field_of_forgetRun (t := u) State.clock (fun _ => rfl) hrun,
      field_of_forgetRun (t := u) State.budget (fun _ => rfl) hrun, (sameStaging_of_forgetRun hrun).takeFault d,
      (sameOs_of_forgetRun hrun hhead).takeFault d, hregs, hsp, hmode⟩

/-! ### The sequencer's variables during an invocation (R120, R301) -/

theorem SameOs.refl (s : State) : SameOs s s := ⟨rfl, rfl, rfl, rfl, rfl, rfl, rfl, rfl, rfl, rfl, rfl⟩

theorem SameOs.trans {s t u : State} (h : SameOs s t) (h' : SameOs t u) : SameOs s u :=
  ⟨h'.1.trans h.1, h'.2.trans h.2, h'.3.trans h.3, h'.4.trans h.4, h'.5.trans h.5, h'.6.trans h.6, h'.7.trans h.7,
    h'.8.trans h.8, h'.9.trans h.9, h'.10.trans h.10, h'.11.trans h.11⟩

theorem sameOs_setFetched (s : State) (w : Int) : SameOs s (s.setFetched w) :=
  ⟨rfl, rfl, rfl, rfl, rfl, rfl, rfl, rfl, rfl, rfl, rfl⟩

/-- Completion does not look at the user free list's head. -/
theorem complete_setUserFreeHead (op : Nat) (io : IoRequest) (v : Int) (s : State) :
    (complete op io s).setUserFreeHead v = complete op io (s.setUserFreeHead v) := by
  have hexit : exitAfter op io ((s.setUserFreeHead v).charge (cost op)) = exitAfter op io (s.charge (cost op)) := rfl
  unfold complete
  rw [hexit]
  cases exitAfter op io (s.charge (cost op)) <;> rfl

/-- An instruction leaves the sequencer's variables alone, but for the head of the user free list. -/
theorem exec_sameOs {i : Instr} {s t : State} (h : exec i s = .next t) :
    SameOs s (t.setUserFreeHead s.userFreeHead) := by
  have hsame {u : State} (hu : u.forgetRun = s.forgetRun) : SameOs s (u.setUserFreeHead s.userFreeHead) :=
    sameOs_of_forgetRun hu rfl
  rcases exec_next h with ⟨io, u, rfl, hu, -⟩ | ⟨c, u, rfl, hu, -⟩
  · rw [complete_setUserFreeHead]
    exact (hsame hu).complete _ _
  · exact (hsame hu).takeFault c

/-- Settles O11: the fetch, the decoding and their faults touch none of these variables, the instruction only the head. -/
theorem engineStepTakesNoInterrupt : Obligations.EngineStepTakesNoInterrupt := by
  unfold Obligations.EngineStepTakesNoInterrupt
  intro s t hp h
  rcases step_engine hp h with ⟨-, rfl⟩ | ⟨-, c, -, rfl⟩ | ⟨-, i, -, he⟩
  · exact (SameOs.refl s).takeFault .runtime
  · exact (sameOs_setFetched s _).takeFault c
  · exact (sameOs_setFetched s _).trans (exec_sameOs he)

end Sys2Proof.Machine

/-! # The invocation invariant is kept by every step (R118, R121, R264, R268, R346)

A state that meets the invariant runs an invocation, has just ended one, or is in the sequencer's hands. The engine leads
from the first kind to the first or the second, by the charge or by a fault; a step of the sequencer leads back to itself, in
OS mode, or into an invocation with a full slice. -/

namespace Sys2Proof.Machine

/-! ### The three kinds of state the invariant speaks of -/

theorem sliceInv_of_engine {t : State} (hslice : 0 < t.cfg.timeSlice) (hp : t.phase = .engine) (hmode : t.mode = .user)
    (hpos : 0 < t.budget) (hle : t.budget ≤ t.cfg.timeSlice) : t.SliceInv where
  slice := hslice
  running _ := ⟨hmode, hpos, hle⟩
  stopped _ h := nomatch hp.symm.trans h
  expired h := nomatch hp.symm.trans h
  sequencer h _ := absurd hp h

theorem sliceInv_of_route {t : State} {st : ExitStatus} (hslice : 0 < t.cfg.timeSlice) (hp : t.phase = .route st)
    (hmode : t.mode = .user) (hover : -11 ≤ t.budget) (hle : t.budget ≤ t.cfg.timeSlice)
    (hexp : st = .timeSliceExpired → t.budget ≤ 0) : t.SliceInv where
  slice := hslice
  running h := nomatch hp.symm.trans h
  stopped _ _ := ⟨hmode, hover, hle⟩
  expired h := hexp (Phase.route.inj (hp.symm.trans h))
  sequencer _ h := absurd hp (h st)

/-- The control points at which the sequencer acts, but for the routing, its first act after an invocation (log 18). -/
def InSequencer (ph : Phase) : Prop := ph ≠ .engine ∧ ∀ st, ph ≠ .route st

theorem sliceInv_of_sequencer {t : State} (hslice : 0 < t.cfg.timeSlice) (hp : InSequencer t.phase)
    (hmode : t.mode = .os) : t.SliceInv where
  slice := hslice
  running h := absurd h hp.1
  stopped st h := absurd h (hp.2 st)
  expired h := absurd h (hp.2 _)
  sequencer _ _ := hmode

/-! ### The engine -/

/-- What the execute step of an instruction leaves of a running invocation, in User mode, is still one. -/
theorem sliceInv_of_forgetRun {s u : State} (hs : s.SliceInv) (hp : s.phase = .engine)
    (hu : u.forgetRun = s.forgetRun) (hmode : u.mode = .user) : u.SliceInv := by
  have hcfg : u.cfg = s.cfg := field_of_forgetRun State.cfg (fun _ => rfl) hu
  have hbudget : u.budget = s.budget := field_of_forgetRun State.budget (fun _ => rfl) hu
  have hphase : u.phase = s.phase := field_of_forgetRun State.phase (fun _ => rfl) hu
  obtain ⟨-, hpos, hle⟩ := hs.running hp
  exact sliceInv_of_engine (hcfg ▸ hs.slice) (hphase.trans hp) hmode (hbudget ▸ hpos) (by rwa [hbudget, hcfg])

/-- R118: the charge of one instruction overshoots a budget that is not used up by at most 11, and the invocation goes on
only with a budget left. -/
theorem complete_sliceInv {u : State} (hu : u.SliceInv) (hp : u.phase = .engine) (i : Instr) (io : IoRequest) :
    (complete i.opcode io u).SliceInv := by
  obtain ⟨hmode, hpos, hle⟩ := hu.running hp
  have hcost := cost_opcode i
  have hphase := complete_phase i.opcode io u
  have hbudget := complete_budget i.opcode io u
  have hslice : 0 < (complete i.opcode io u).cfg.timeSlice := by rw [complete_cfg]; exact hu.slice
  have hmode : (complete i.opcode io u).mode = .user := by rwa [complete_mode]
  have hover : -11 ≤ (complete i.opcode io u).budget := by omega
  have hle : (complete i.opcode io u).budget ≤ (complete i.opcode io u).cfg.timeSlice := by rw [complete_cfg]; omega
  split_ifs at hphase with hhalt hin hout hexp
  · exact sliceInv_of_route hslice hphase hmode hover hle nofun
  · exact sliceInv_of_route hslice hphase hmode hover hle nofun
  · exact sliceInv_of_route hslice hphase hmode hover hle nofun
  · exact sliceInv_of_route hslice hphase hmode hover hle fun _ => hbudget.trans_le hexp
  · exact sliceInv_of_engine hslice (hphase.trans hp) hmode (by omega) hle

/-- R117, R264: a fault ends the invocation with the budget that was left, in User mode. -/
theorem takeFault_sliceInv {u : State} (hu : u.SliceInv) (hp : u.phase = .engine) (c : FaultCode) :
    (takeFault c u).SliceInv := by
  obtain ⟨hmode, hpos, hle⟩ := hu.running hp
  exact sliceInv_of_route hu.slice (takeFault_phase c u) hmode (show -11 ≤ u.budget by omega) hle nofun

theorem exec_sliceInv {i : Instr} {s t : State} (hs : s.SliceInv) (hp : s.phase = .engine) (h : exec i s = .next t) :
    t.SliceInv := by
  obtain ⟨hmode, -, -⟩ := hs.running hp
  have hphase {u : State} (hu : u.forgetRun = s.forgetRun) : u.phase = .engine :=
    (field_of_forgetRun State.phase (fun _ => rfl) hu).trans hp
  rcases exec_next h with ⟨io, u, rfl, hu, -, hm⟩ | ⟨c, u, rfl, hu, -, -, hm⟩
  · have hm : u.mode = .user := hm.elim (·.trans hmode) id
    exact complete_sliceInv (sliceInv_of_forgetRun hs hp hu hm) (hphase hu) i io
  · have hm : u.mode = .user := hm.elim (·.trans hmode) And.right
    exact takeFault_sliceInv (sliceInv_of_forgetRun hs hp hu hm) (hphase hu) c

/-- A fetch changes nothing the invariant speaks of. -/
theorem State.SliceInv.setFetched {s : State} (h : s.SliceInv) (w : Int) : (s.setFetched w).SliceInv :=
  ⟨h.slice, h.running, h.stopped, h.expired, h.sequencer⟩

theorem step_engine_sliceInv {s t : State} (hs : s.SliceInv) (hp : s.phase = .engine) (h : step s = .next t) :
    t.SliceInv := by
  rcases step_engine hp h with ⟨-, rfl⟩ | ⟨-, c, -, rfl⟩ | ⟨-, i, -, he⟩
  · exact takeFault_sliceInv hs hp .runtime
  · exact takeFault_sliceInv (hs.setFetched _) hp c
  · exact exec_sliceInv (hs.setFetched _) hp he

/-! ### The sequencer -/

/-- R310: where a step of the sequencer leads: to another of its control points, or into an invocation in User mode
with a full slice. -/
theorem step_sequencer_phase {s t : State} (hp : s.phase ≠ .engine) (h : step s = .next t) :
    InSequencer t.phase ∨ t.phase = .engine ∧ t.mode = .user ∧ t.budget = t.cfg.timeSlice := by
  cases hph : s.phase with
  | engine => exact absurd hph hp
  | powerOn => obtain ⟨u, -, rfl⟩ := step_powerOn hph h; exact .inl ⟨nofun, nofun⟩
  | route st => obtain ⟨u, -, rfl⟩ := step_route hph h; exact .inl ⟨nofun, nofun⟩
  | stopped => rw [step_stopped hph h, hph]; exact .inl ⟨nofun, nofun⟩
  | receive =>
    rcases step_receive hph h with ⟨-, rfl⟩ | ⟨e, rest, u, ph, -, rfl, rfl | rfl, -⟩
    · rw [hph]; exact .inl ⟨nofun, nofun⟩
    · exact .inl ⟨nofun, nofun⟩
    · exact .inl ⟨nofun, nofun⟩
  | drain =>
    rcases step_drain hph h with hu | rfl
    · rw [field_of_forgetOs State.phase (fun _ => rfl) hu, hph]; exact .inl ⟨nofun, nofun⟩
    · exact .inl ⟨nofun, nofun⟩
  | select =>
    rcases step_select hph h with rfl | rfl | ⟨u, p, regs, sp, pc, -, -, rfl⟩
    · exact .inl ⟨nofun, nofun⟩
    · exact .inl ⟨nofun, nofun⟩
    · exact .inr ⟨rfl, rfl, rfl⟩

/-- A step of the sequencer that stays in it ends in OS mode: the routing enters that mode and the other steps keep it. -/
theorem step_sequencer_mode {s t : State} (hs : s.SliceInv) (hp : s.phase ≠ .engine) (h : step s = .next t)
    (ht : InSequencer t.phase) : t.mode = .os := by
  by_cases hr : ∃ st, s.phase = .route st
  · obtain ⟨st, hst⟩ := hr
    exact (step_route_clock_mode hst h).2.1
  · have hno := not_exists.mp hr
    rcases step_sameClockMode hp hno h with hsame | ⟨-, he, -⟩
    · exact hsame.mode.trans (hs.sequencer hp hno)
    · exact absurd he ht.1

/-- Settles O60: the engine keeps the bounds by its charge, the routing and the rest of the sequencer keep OS mode, and the
start of a process makes the bounds anew. -/
theorem stepKeepsSliceBounds : Obligations.StepKeepsSliceBounds := by
  unfold Obligations.StepKeepsSliceBounds
  intro s t hs h
  by_cases hp : s.phase = .engine
  · exact step_engine_sliceInv hs hp h
  · obtain ⟨hcfg, -⟩ := modeTransitions s t h
    have hslice : 0 < t.cfg.timeSlice := hcfg ▸ hs.slice
    rcases step_sequencer_phase hp h with hseq | ⟨heng, hmode, hfull⟩
    · exact sliceInv_of_sequencer hslice hseq (step_sequencer_mode hs hp h hseq)
    · exact sliceInv_of_engine hslice heng hmode (hfull ▸ hslice) hfull.le

end Sys2Proof.Machine

/-! # Which instructions can stop the machine (R111, R115, R242, R264)

How pseudocode can stop is one property, passed on along a sequence. Every execute step but a call of mem_alloc goes on or
raises a fault; the allocator's walk has the one hang and the three refusals of R242. -/

namespace Sys2Proof.Machine

variable {α β : Type}

/-! ### How pseudocode can stop -/

/-- The pseudocode stops the machine only for a reason in `fs`, and is refused only for one in `rs`. -/
def Flow.StopsIn (fs : List Fault) (rs : List Refusal) (x : Flow α) : Prop :=
  (∀ f, x = .stop f → f ∈ fs) ∧ ∀ r, x = .refuse r → r ∈ rs

/-- The pseudocode goes on or raises a fault: it never stops. -/
abbrev Flow.Answers (x : Flow α) : Prop := x.StopsIn [] []

section Rules

variable {fs : List Fault} {rs : List Refusal}

theorem stopsIn_go {a : α} {s : State} : (Flow.go a s).StopsIn fs rs := ⟨nofun, nofun⟩

theorem stopsIn_raise {c : FaultCode} {s : State} : (Flow.raise c s : Flow α).StopsIn fs rs := ⟨nofun, nofun⟩

theorem stopsIn_stop {f : Fault} (h : f ∈ fs) : (Flow.stop f : Flow α).StopsIn fs rs :=
  ⟨fun _ he => Flow.stop.inj he ▸ h, nofun⟩

theorem stopsIn_refuse {r : Refusal} (h : r ∈ rs) : (Flow.refuse r : Flow α).StopsIn fs rs :=
  ⟨nofun, fun _ he => Flow.refuse.inj he ▸ h⟩

theorem Flow.StopsIn.bind {x : Flow α} {f : α → State → Flow β} (hx : x.StopsIn fs rs)
    (hf : ∀ a t, (f a t).StopsIn fs rs) : (x.bind f).StopsIn fs rs := by
  cases x with
  | go a t => exact hf a t
  | raise c t => exact stopsIn_raise
  | stop f => exact stopsIn_stop (hx.1 f rfl)
  | refuse r => exact stopsIn_refuse (hx.2 r rfl)

/-- R111: an instruction whose execute step can stop only so answers a next state or stops so. -/
theorem Flow.StopsIn.finish {x : Flow IoRequest} (hx : x.StopsIn fs rs) (op : Nat) :
    (∃ t, finish op x = .next t) ∨ (∃ f ∈ fs, finish op x = .fault f) ∨ ∃ r ∈ rs, finish op x = .refused r := by
  cases x with
  | go io t => exact .inl ⟨_, rfl⟩
  | raise c t => exact .inl ⟨_, rfl⟩
  | stop f => exact .inr (.inl ⟨f, hx.1 f rfl, rfl⟩)
  | refuse r => exact .inr (.inr ⟨r, hx.2 r rfl, rfl⟩)

theorem Flow.Answers.finish {x : Flow IoRequest} (hx : x.Answers) (op : Nat) : ∃ t, Machine.finish op x = .next t := by
  simpa using Flow.StopsIn.finish hx op

theorem stopsIn_load (hr : .memoryRange ∈ rs) (a : Int) (s : State) : (load a s).StopsIn fs rs := by
  unfold load; split
  · exact stopsIn_go
  · exact stopsIn_refuse hr

theorem stopsIn_store (hr : .memoryRange ∈ rs) (a v : Int) (s : State) : (store a v s).StopsIn fs rs := by
  unfold store; split
  · exact stopsIn_go
  · exact stopsIn_refuse hr

end Rules

/-! ### The execute steps that always answer (R115) -/

theorem answers_resolve (o : Operand) (s : State) : (resolve o s).Answers := by
  rcases resolve_answers o s with ⟨p, t, h, -⟩ | ⟨c, t, h, -⟩ <;> rw [h]
  · exact stopsIn_go
  · exact stopsIn_raise

theorem answers_execArith {f : Int → Int → State → Flow Int} (hf : PureOp f) (d o : Operand) (s : State) :
    (execArith f d o s).Answers := by
  rcases execArith_cases hf d o s with ⟨c, u, -, h⟩ | ⟨p, u, -, ⟨c, v, -, h⟩ | ⟨q, v, -, ⟨c, -, h⟩ | ⟨w, -, hdest⟩⟩⟩
  · rw [h]; exact stopsIn_raise
  · rw [h]; exact stopsIn_raise
  · rw [h]; exact stopsIn_raise
  · rcases hdest with ⟨-, h⟩ | ⟨-, h⟩ <;> rw [h]
    · exact stopsIn_raise
    · exact stopsIn_go

theorem answers_branchTo (s : State) : (branchTo s).Answers := by
  rcases branchTo_cases s with ⟨-, h⟩ | ⟨-, h⟩ <;> rw [h]
  · exact stopsIn_go
  · exact stopsIn_raise

theorem answers_branchIf (cond : Int → Bool) (o : Operand) (s : State) : (branchIf cond o s).Answers :=
  (answers_resolve o s).bind fun p t => by
    split
    · exact answers_branchTo t
    · exact stopsIn_go

theorem answers_pushWord (v : Int) (s : State) : (pushWord v s).Answers := by
  rcases pushWord_cases v s with ⟨-, h⟩ | ⟨-, h⟩ <;> rw [h]
  · exact stopsIn_go
  · exact stopsIn_raise

theorem answers_popInto {d : Dest} (hd : DestOk d) (s : State) : (popInto d s).Answers := by
  rcases popInto_cases hd s with ⟨-, -, h⟩ | ⟨-, -, h⟩ | ⟨-, h⟩ <;> rw [h]
  · exact stopsIn_go
  · exact stopsIn_raise
  · exact stopsIn_raise

/-! ### Where an allocation stops (R242) -/

/-- The refusals of an allocation of a size that is not 0. -/
def allocRefusals : List Refusal := [.splitRemainderOne, .corruptFreeList, .memoryRange]

/-- Pseudocode of the allocator for a size that is not 0: it never ends on a cyclic list (I16), and R242 refuses three
cases. -/
abbrev Flow.StopsLikeAllocate (x : Flow α) : Prop := x.StopsIn [.freeListHang] allocRefusals

theorem allocStops_store (a v : Int) (s : State) : (store a v s).StopsLikeAllocate :=
  stopsIn_store (by simp [allocRefusals]) a v s

theorem allocStops_load (a : Int) (s : State) : (load a s).StopsLikeAllocate :=
  stopsIn_load (by simp [allocRefusals]) a s

theorem allocStops_link (g : Region) (prev v : Int) (s : State) : (link g prev v s).StopsLikeAllocate := by
  unfold link; split
  · exact stopsIn_go
  · exact allocStops_store ..

theorem allocStops_takeBlock (g : Region) (size prev cur nxt blockSize : Int) (s : State) :
    (takeBlock g size prev cur nxt blockSize s).StopsLikeAllocate := by
  unfold takeBlock; split
  · exact (allocStops_link ..).bind fun _ _ => stopsIn_go
  · split
    · split
      · exact stopsIn_refuse (by simp [allocRefusals])
      · exact (allocStops_store ..).bind fun _ _ => (allocStops_store ..).bind fun _ _ =>
          (allocStops_link ..).bind fun _ _ => stopsIn_go
    · exact stopsIn_go

theorem allocStops_allocWalk (g : Region) (size : Int) (fuel : Nat) :
    ∀ (prev cur : Int) (s : State), (allocWalk g size fuel prev cur s).StopsLikeAllocate := by
  induction fuel with
  | zero => exact fun _ _ _ => stopsIn_stop (List.mem_singleton_self _)
  | succ n ih =>
    intro prev cur s
    unfold allocWalk; split
    · exact stopsIn_go
    · split
      · exact (allocStops_load ..).bind fun _ _ => (allocStops_load ..).bind fun _ _ =>
          (allocStops_takeBlock ..).bind fun r t => by
            cases r with
            | some a => exact stopsIn_go
            | none => exact ih _ _ t
      · exact stopsIn_refuse (by simp [allocRefusals])

theorem allocStops_allocate (g : Region) {size : Int} (h : size ≠ 0) (s : State) :
    (allocate g size s).StopsLikeAllocate := by
  unfold allocate; split
  · exact stopsIn_go
  · exact allocStops_allocWalk ..

/-! ### Where a system call stops (R220 to R229) -/

theorem stopsIn_afterService {fs : List Fault} {rs : List Refusal} (reply : ServiceReply) (s : State) :
    (afterService reply s).StopsIn fs rs := by
  cases reply with
  | done => exact stopsIn_go
  | blockInput => exact stopsIn_go
  | blockOutput => exact stopsIn_go
  | invalid =>
    rw [afterService]
    rcases invalidCall_cases s with ⟨-, h⟩ | ⟨-, h⟩ <;> rw [h]
    · exact stopsIn_raise
    · exact stopsIn_go

theorem answers_memFreeService (s : State) : (memFreeService s).Answers := by
  rcases memFreeService_cases s with ⟨-, h⟩ | ⟨-, -, h⟩ | ⟨-, -, h⟩ <;> rw [h]
  · exact stopsIn_go
  · exact stopsIn_go
  · exact stopsIn_go

/-- R224: a size outside 1..3000 never reaches the allocator. -/
theorem memAllocService_stops (s : State) :
    (memAllocService s).Answers ∨ SizeAccepted (s.reg s.cfg.sizeReg) ∧ (memAllocService s).StopsLikeAllocate := by
  unfold memAllocService
  by_cases h : SizeAccepted (s.reg s.cfg.sizeReg)
  · have hpos := h.1
    rw [if_pos h]
    exact .inr ⟨h, (allocStops_allocate .user (by omega) s).bind fun _ _ => stopsIn_go⟩
  · rw [if_neg h]
    exact .inl stopsIn_go

theorem service_stops (id : Int) (s : State) :
    (service id s).Answers ∨ id = 4 ∧ SizeAccepted (s.reg s.cfg.sizeReg) ∧ (service id s).StopsLikeAllocate := by
  rcases service_cases id s with ⟨h4, h⟩ | ⟨-, h⟩ | ⟨-, h⟩ | ⟨-, h⟩ | ⟨-, h⟩ | ⟨-, h⟩ <;> rw [h]
  · exact (memAllocService_stops s).imp_right (And.intro h4)
  · exact .inl (answers_memFreeService s)
  all_goals exact .inl stopsIn_go

/-- A call stops only as mem_alloc does, with an accepted size. -/
theorem callService_stops (id : Int) (s : State) :
    (callService id s).Answers ∨
      id = 4 ∧ SizeAccepted (s.reg s.cfg.sizeReg) ∧ (callService id s).StopsLikeAllocate :=
  (service_stops id (s.setMode .os)).imp (·.bind fun reply _ => stopsIn_afterService reply _)
    fun ⟨h4, hsize, hs⟩ => ⟨h4, hsize, hs.bind fun reply _ => stopsIn_afterService reply _⟩

/-! ### Every instruction runs (R111, R115, R264) -/

/-- An instruction other than SYSCALL answers a next state. -/
theorem exec_answers {i : Instr} (hcall : i.opcode ≠ 12) (s : State) : ∃ t, exec i s = .next t := by
  cases i with
  | halt => exact ⟨_, rfl⟩
  | add d o => exact (answers_execArith pureOp_add d o s).finish 1
  | sub d o => exact (answers_execArith pureOp_sub d o s).finish 2
  | mul d o => exact (answers_execArith pureOp_mul d o s).finish 3
  | div d o => exact (answers_execArith pureOp_div d o s).finish 4
  | move d o => exact (answers_execArith pureOp_move d o s).finish 5
  | br => exact (answers_branchTo s).finish 6
  | brmi o => exact (answers_branchIf isNegative o s).finish 7
  | brpl o => exact (answers_branchIf isPositive o s).finish 8
  | brz o => exact (answers_branchIf isZero o s).finish 9
  | push o => exact Flow.Answers.finish ((answers_resolve o s).bind fun p t => answers_pushWord p.2 t) 10
  | pop d =>
    rcases execPop_cases d s with ⟨c, t, -, h⟩ | ⟨p, t, hr, h⟩
    · exact ⟨_, h⟩
    · obtain ⟨u, hu⟩ := (answers_popInto (resolve_go_dest hr) t).finish 11
      exact ⟨u, h.trans hu⟩
  | syscall o => exact absurd rfl hcall

/-- SYSCALL answers a next state, or is a mem_alloc call of an accepted size that stops as an allocation can. -/
theorem execSyscall_stops {o : Operand} {s : State} (hok : s.cfg.Ok) (hregs : RegsAreWords s) :
    (∃ t, execSyscall o s = .next t) ∨
    operandReady o s ∧ operandValue o s = 4 ∧ SizeAccepted ((operandAfter o s).reg s.cfg.sizeReg) ∧
      (execSyscall o s = .fault .freeListHang ∨ ∃ r ∈ allocRefusals, execSyscall o s = .refused r) := by
  rcases execSyscall_cases o s with ⟨c, t, -, h⟩ | ⟨p, t, hr, h⟩
  · exact .inl ⟨_, h⟩
  · have hcfg : t.cfg = s.cfg := field_of_forgetRun State.cfg (fun _ => rfl) (resolve_go_effect hr).frame.1
    obtain ⟨hready, rfl, rfl⟩ := resolve_eq_go hok.1 (hregs _) hr
    rw [h]
    rcases callService_stops (operandValue o s) (operandAfter o s) with hans | ⟨h4, hsize, hstops⟩
    · exact .inl (hans.finish 12)
    · rw [hcfg] at hsize
      rcases hstops.finish 12 with hnext | ⟨f, hf, he⟩ | hrefused
      · exact .inl hnext
      · exact .inr ⟨hready, h4, hsize, .inl (List.mem_singleton.mp hf ▸ he)⟩
      · exact .inr ⟨hready, h4, hsize, .inr hrefused⟩

/-- Settles O33: SYSCALL is the one instruction that can stop, by the walk of mem_alloc. -/
theorem everyInstructionAnswers : Obligations.EveryInstructionAnswers := by
  unfold Obligations.EveryInstructionAnswers
  intro s i hok hregs _
  cases i with
  | syscall o =>
    refine (execSyscall_stops hok hregs).imp id fun ⟨hready, h4, hsize, hstop⟩ => ?_
    refine ⟨o, rfl, hready, h4, hsize.1, hsize.2, ?_⟩
    rcases hstop with hhang | ⟨r, hr, he⟩
    · exact .inr (.inr (.inr hhang))
    · simp only [allocRefusals, List.mem_cons, List.not_mem_nil, or_false] at hr
      rcases hr with rfl | rfl | rfl
      · exact .inl he
      · exact .inr (.inl he)
      · exact .inr (.inr (.inl he))
  | _ => exact .inl (exec_answers (by simp [Instr.opcode]) s)

end Sys2Proof.Machine

/-! # The loop starts the head of the Ready Queue (R110, R286, R292, R310)

The selection unlinks the head and the start marks it Running, which are two words of its PCB; every word the dispatch reads,
and every link of the rest of the queue, is another one. -/

namespace Sys2Proof.Machine

/-! ### The start of a process (R110, R286, R292, R310) -/

/-- R286: SelectNext at a PCB of the OS region: its link becomes the head, and itself ends no list any more. -/
theorem selectNext_eq {s : State} {p : Int} (hp : 7000 ≤ p ∧ p + 17 ≤ 9999) (hhead : s.rqHead = p) :
    selectNext s = .go p ((s.setRqHead (s.word p)).setMem (s.mem.write p.toNat (-1))) := by
  have hmem : MemAddr p := memAddr_of_pcb hp (by omega) (by omega)
  unfold selectNext
  rw [hhead, if_neg (by simp; omega)]
  simp [hmem, State.word]

/-- R110, R292: the state with the saved context of the PCB at `p` live, at the start of a slice. -/
def resumed (p : Int) (s : State) : State :=
  startSlice (s.setContext (savedRegs p s.mem) (s.word (p + 15)) (s.word (p + 16)) .user)

/-- R310: the start of a PCB of the OS region: marked Running, made current, resumed. -/
theorem startProcess_eq {s : State} {p : Int} (hp : 7000 ≤ p ∧ p + 17 ≤ 9999) :
    startProcess p s =
      .go () (resumed p ((s.setMem (s.mem.write (p + 2).toNat s.cfg.codes.running)).setCurrent p)) := by
  unfold startProcess
  rw [store_of_memAddr (memAddr_of_pcb hp (by simp) (by simp)), Flow.bind_go, dispatch_eq (by omega) (by omega),
    Flow.bind_go]
  rfl

/-- R286, R310: what memory holds once the head `p` of the Ready Queue is selected and marked Running. -/
def startedMem (p : Int) (s : State) : Memory := (s.mem.write p.toNat (-1)).write (p + 2).toNat s.cfg.codes.running

/-- The state in which the process `p` starts its slice. -/
def startedState (p : Int) (s : State) : State :=
  resumed p (((s.setRqHead (s.word p)).setMem (startedMem p s)).setCurrent p)

/-- R310: the loop starts the process at the head of the Ready Queue, whatever `shutdownSeen` is. -/
theorem step_select_started {s : State} {p : Int} (hphase : s.phase = .select) (hp : 7000 ≤ p ∧ p + 17 ≤ 9999)
    (hhead : s.rqHead = p) : step s = .next (startedState p s) := by
  have hne : p ≠ Config.endOfList := by simp; omega
  simp only [step, hphase, selectStep]
  rw [if_neg fun ⟨_, hempty, _⟩ => hne (hhead ▸ hempty), selectNext_eq hp hhead, Flow.bind_go, if_neg hne,
    startProcess_eq hp]
  rfl

/-- Only the link and the state of the started PCB change. -/
theorem read_startedMem_other {p : Int} {s : State} (hp : 7000 ≤ p) {a : Nat} (h0 : (a : Int) ≠ p)
    (h2 : (a : Int) ≠ p + 2) : (startedMem p s).read a = s.mem.read a := by
  unfold startedMem
  rw [Memory.read_write_other _ _ (by omega), Memory.read_write_other _ _ (by omega)]

/-- Settles O45: only the link and the state field of the selected PCB are written, so its saved context and the links
of the other PCBs read as before. -/
theorem selectStartsReadyHead : Obligations.SelectStartsReadyHead := by
  unfold Obligations.SelectStartsReadyHead
  intro s p ps hphase hwf hsound hchain
  obtain ⟨hlo, hhi⟩ := hsound.inRange (List.mem_cons_self ..)
  obtain ⟨hhead, hrest⟩ := queueChain_head hchain
  have hother {a : Nat} := read_startedMem_other (s := s) (a := a) hlo
  have hfield (k : Int) (h3 : 3 ≤ k) : (startedMem p s).read (p + k).toNat = s.word (p + k) :=
    hother (by omega) (by omega)
  refine ⟨startedState p s, step_select_started hphase ⟨hlo, hhi⟩ hhead, rfl, rfl, rfl, rfl, fun r => ?_,
    hfield 15 (by omega), hfield 16 (by omega), ?_, ?_, fun a ha => ?_, rfl, ⟨rfl, rfl, rfl⟩⟩
  · have hsaved : (startedState p s).reg r = (savedRegs p (startedMem p s))[r.val] := rfl
    rw [hsaved, savedRegs_get, Int.add_assoc, hfield _ (by omega)]
  · have hwf' : (s.mem.write p.toNat (-1)).wf = true := Memory.wf_write _ hwf (by simp; omega)
    exact Memory.read_write_same _ _ hwf'
  · refine (queueChain_congr ps _ fun q hq => ?_).mpr hrest
    have hq' := hsound.inRange (List.mem_cons_of_mem _ hq)
    have hapart := pcbsApart_iff.mp (hsound.apart (xs := [p]) (List.mem_singleton_self p) hq)
    exact hother (by omega) (by omega)
  · simp only [List.mem_cons, List.not_mem_nil, or_false, not_or] at ha
    exact hother ha.1 ha.2

end Sys2Proof.Machine

/-! # The resolver mode by mode, and the order of operand faults (R141 to R149, R160, R183, R201, R202, R220)

Each mode's resolver is said once as an equation on the whole state. An instruction begins with the resolution of its
operands in their order, so a fault of one of them is the outcome of the whole execute step. -/

namespace Sys2Proof.Machine

/-! ### What each mode does (R141 to R146) -/

theorem load_of_userAddr {a : Int} (h : UserAddr a) (s : State) : load a s = .go (s.word a) s :=
  load_of_memAddr (memAddr_of_userAddr h) s

theorem streamWord_of_userAddr {s : State} (h : UserAddr s.pc) : streamWord s = .go (s.word s.pc) s :=
  streamWord_eq_go.mpr ⟨h, rfl, rfl⟩

theorem streamWord_of_not_userAddr {s : State} (h : ¬ UserAddr s.pc) : streamWord s = .raise .runtime s :=
  streamWord_eq_raise.mpr ⟨h, rfl, rfl⟩

/-- R142. -/
theorem resolveDeferred_eq (r : Fin 8) (s : State) :
    resolveDeferred r s =
      if UserAddr (s.reg r) then .go (.mem (s.reg r), s.word (s.reg r)) s else .raise .invalidAddress s := by
  unfold resolveDeferred
  split
  case isTrue hu => rw [load_of_userAddr hu, Flow.bind_go]
  case isFalse => rfl

/-- R143. -/
theorem resolveAutoInc_eq (r : Fin 8) (s : State) :
    resolveAutoInc r s =
      if UserAddr (s.reg r) then .go (.mem (s.reg r), s.word (s.reg r)) (s.setReg r (s.reg r + 1))
      else .raise .invalidAddress s := by
  unfold resolveAutoInc
  split
  case isTrue hu => rw [load_of_userAddr hu, Flow.bind_go]
  case isFalse => rfl

/-- R144: once the decrement has answered `a`, under either policy, the register holds `a` whether the access faults or
not. -/
theorem resolveAutoDec_of_checked {r : Fin 8} {s : State} {a : Int} (h : checked (s.reg r - 1) s = .go a s) :
    resolveAutoDec r s =
      if UserAddr a then .go (.mem a, s.word a) (s.setReg r a) else .raise .invalidAddress (s.setReg r a) := by
  unfold resolveAutoDec
  rw [h, Flow.bind_go]
  split
  case isTrue hu => rw [load_of_userAddr hu, Flow.bind_go]; rfl
  case isFalse => rfl

/-- R144: a decrement that overflows ends the resolution before the register changes. -/
theorem resolveAutoDec_of_overflow {r : Fin 8} {s : State} {c : FaultCode} (h : checked (s.reg r - 1) s = .raise c s) :
    resolveAutoDec r s = .raise c s := by
  unfold resolveAutoDec
  rw [h, Flow.bind_raise]

/-- R145: `pc` is advanced past the pointer word before that word is checked. -/
theorem resolveDirect_eq (s : State) :
    resolveDirect s =
      if ¬ UserAddr s.pc then .raise .runtime s
      else if UserAddr (s.word s.pc) then .go (.mem (s.word s.pc), s.word (s.word s.pc)) (s.setPc (s.pc + 1))
      else .raise .invalidAddress (s.setPc (s.pc + 1)) := by
  unfold resolveDirect
  by_cases hp : UserAddr s.pc
  · rw [if_neg (not_not_intro hp), streamWord_of_userAddr hp, Flow.bind_go]
    split
    case isTrue hu => rw [load_of_userAddr hu, Flow.bind_go]; rfl
    case isFalse => rfl
  · rw [if_pos hp, streamWord_of_not_userAddr hp, Flow.bind_raise]

/-- R146. -/
theorem resolveImmediate_eq (s : State) :
    resolveImmediate s =
      if UserAddr s.pc then .go (.imm, s.word s.pc) (s.setPc (s.pc + 1)) else .raise .runtime s := by
  unfold resolveImmediate
  split
  case isTrue hp => rw [streamWord_of_userAddr hp, Flow.bind_go]
  case isFalse hp => rw [streamWord_of_not_userAddr hp, Flow.bind_raise]

/-! ### The decrement of the least Word (D2) -/

/-- The least Word is the only one whose predecessor is no Word. -/
theorem isWord_pred_iff {p : Params} {x : Int} (hx : p.IsWord x) : p.IsWord (x - 1) ↔ x ≠ p.wordMin := by
  rw [isWord_iff] at *; omega

theorem wrapWord_wordMin_pred {p : Params} (h : 24 ≤ p.wordBits) : wrapWord p (p.wordMin - 1) = p.wordMax := by
  obtain ⟨hmin, hmax, hpow⟩ := wordRange p (by omega)
  have hlarge := wordRange_large h
  have hword : p.IsWord p.wordMax := isWord_iff.mpr ⟨by omega, le_rfl⟩
  exact wrapWord_eq (by omega) hword ⟨1, by rw [hpow]; omega⟩

theorem not_userAddr_wordMax {p : Params} (h : 24 ≤ p.wordBits) : ¬ UserAddr p.wordMax := by
  have hlarge := wordRange_large h
  rw [userAddr_iff]; omega

/-- Settles O12: one equation for each mode; in mode 4 the decrement is exact but at the least Word, where it overflows
or wraps to the greatest Word, which is no user address. -/
theorem resolveEachMode : Obligations.ResolveEachMode := by
  unfold Obligations.ResolveEachMode
  intro s r hok hword x p dec adv
  have hpred : s.cfg.IsWord (x - 1) ↔ x ≠ s.cfg.wordMin := isWord_pred_iff hword
  refine ⟨rfl, resolveDeferred_eq r s, resolveAutoInc_eq r s, fun hne => ?decrements, fun hmin hpol => ?overflows,
    fun hmin hpol => ?wraps, resolveDirect_eq s, resolveImmediate_eq s, fun m hm => ?illegal⟩
  case decrements => exact resolveAutoDec_of_checked (checked_of_isWord (hpred.mpr hne))
  case overflows =>
    have hraise : checked (x - 1) s = .raise .arithmeticOverflow s :=
      checked_eq_raise.mpr ⟨rfl, rfl, fun h => hpred.mp h hmin, hpol⟩
    exact resolveAutoDec_of_overflow hraise
  case wraps =>
    have hwrap : wrapWord s.cfg (x - 1) = s.cfg.wordMax := hmin ▸ wrapWord_wordMin_pred hok.1
    have hgo : checked (x - 1) s = .go s.cfg.wordMax s :=
      checked_eq_go.mpr ⟨rfl, .inr ⟨fun h => hpred.mp h hmin, hpol, hwrap.symm⟩⟩
    exact (resolveAutoDec_of_checked hgo).trans (if_neg (not_userAddr_wordMax hok.1))
  case illegal => exact resolve_of_not_wellFormed (decide_eq_false hm) s

/-! ### The order of operand faults (R149) -/

/-- R16, R117: the fault of the first part of an execute step is the outcome of the instruction. -/
theorem finish_bind_of_raise {α : Type} {op : Nat} {x : Flow α} {f : α → State → Flow IoRequest} {c : FaultCode}
    {t : State} (h : x = .raise c t) : finish op (x.bind f) = .next (takeFault c t) := by
  rw [h, Flow.bind_raise, finish_raise]

/-- R16: an execute step whose first part goes on is the rest of it. -/
theorem finish_bind_of_go {α : Type} {op : Nat} {x : Flow α} {f : α → State → Flow IoRequest} {a : α} {t : State}
    (h : x = .go a t) : finish op (x.bind f) = finish op (f a t) := by
  rw [h, Flow.bind_go]

/-- R149: every instruction that resolves an operand begins with the resolution of operand 1. -/
theorem exec_of_operand1_raise {i : Instr} {o : Operand} {os : List Operand} {s t : State} {c : FaultCode}
    (hi : i.operands = o :: os) (h : resolve o s = .raise c t) : exec i s = .next (takeFault c t) := by
  cases i with
  | halt | br => cases hi
  | _ => cases hi; exact finish_bind_of_raise h

/-- R149, R160: an instruction of two operands resolves operand 2 in the state operand 1 left. -/
theorem exec_of_operand2_raise {i : Instr} {d o : Operand} {s s1 t : State} {p : Dest × Int} {c : FaultCode}
    (hi : i.operands = [d, o]) (hd : resolve d s = .go p s1) (ho : resolve o s1 = .raise c t) :
    exec i s = .next (takeFault c t) := by
  cases i with
  | add | sub | mul | div | move => cases hi; exact (finish_bind_of_go hd).trans (finish_bind_of_raise ho)
  | _ => cases hi

/-- Settles O13: the fault order is that of the operands, whatever the instruction does with their values. -/
theorem operandFaultsInOrder : Obligations.OperandFaultsInOrder := by
  unfold Obligations.OperandFaultsInOrder
  have hone (o : Operand) :
      ∀ i ∈ [Instr.brmi o, .brpl o, .brz o, .push o, .pop o, .syscall o], i.operands = [o] := by
    simp [Instr.operands]
  have htwo (d o : Operand) :
      ∀ i ∈ [Instr.add d o, .sub d o, .mul d o, .div d o, .move d o], i.operands = [d, o] := by
    simp [Instr.operands]
  exact ⟨fun _ _ _ o h i hi => exec_of_operand1_raise (hone o i hi) h,
    fun _ _ _ d o h i hi => exec_of_operand1_raise (htwo d o i hi) h,
    fun _ _ _ _ _ d o hd ho i hi => exec_of_operand2_raise (htwo d o i hi) hd ho⟩

end Sys2Proof.Machine

/-! # ADD, SUB, MUL, DIV and MOVE: the result, where it goes, and the frame (R160 to R168)

On two operands that can be resolved, each of the five instructions is one operation on their values and the write of its
result to operand 1's destination. The four arithmetic ones check an exact result, DIV's being the truncated quotient, so
their statements are those of one checked result. -/

namespace Sys2Proof.Machine

/-! ### The write of a result (R148, R160) -/

theorem afterBoth_cfg (d o : Operand) (s : State) : (afterBoth d o s).cfg = s.cfg := by
  have hafter (o : Operand) (s : State) : (operandAfter o s).cfg = s.cfg := by
    unfold operandAfter; split <;> rfl
  exact (hafter o _).trans (hafter d s)

/-- The five instructions of R161 to R165 share one execute step. -/
theorem exec_eq_finish_execArith {i : Instr} {d o : Operand}
    (hi : i ∈ [Instr.add d o, .sub d o, .mul d o, .div d o, .move d o]) (s : State) :
    ∃ f, PureOp f ∧ exec i s = finish i.opcode (execArith f d o s) := by
  simp only [List.mem_cons, List.not_mem_nil, or_false] at hi
  rcases hi with rfl | rfl | rfl | rfl | rfl
  · exact ⟨addWords, pureOp_add, rfl⟩
  · exact ⟨subWords, pureOp_sub, rfl⟩
  · exact ⟨mulWords, pureOp_mul, rfl⟩
  · exact ⟨divWords, pureOp_div, rfl⟩
  · exact ⟨moveWords, pureOp_move, rfl⟩

/-- The instruction `i` ends by writing `w` to operand 1's destination, or with the fault of an immediate one. -/
def WritesResult (i : Instr) (d o : Operand) (s : State) (w : Int) : Prop :=
  (d.mode ≠ 6 → exec i s = .next (complete i.opcode .none (putDest (operandDest d s) w (afterBoth d o s)))) ∧
  (d.mode = 6 → exec i s = .next (takeFault .immediateMode (afterBoth d o s)))

section Ready

variable {f : Int → Int → State → Flow Int} {i : Instr} {d o : Operand} {s : State}

/-- R148, R160: an operation that answers has its result written. -/
theorem writesResult_of_go {w : Int} (hbits : 24 ≤ s.cfg.wordBits) (hready : bothReady d o s)
    (hexec : exec i s = finish i.opcode (execArith f d o s))
    (hf : f (operandValue d s) (secondValue d o s) (afterBoth d o s) = .go w (afterBoth d o s)) :
    WritesResult i d o s w := by
  unfold WritesResult
  rw [hexec, execArith_of_ready f hbits hready, hf, Flow.bind_go]
  rcases writeDest_answers (operandDest_ok hready.1) w (afterBoth d o s) with ⟨hdest, hw⟩ | ⟨hdest, hw⟩ <;> rw [hw]
  · exact ⟨fun _ => rfl, fun hmode => absurd (operandDest_eq_imm.mpr hmode) hdest⟩
  · exact ⟨fun hmode => absurd (operandDest_eq_imm.mp hdest) hmode, fun _ => rfl⟩

/-- R160: an operation that faults does so before the destination is looked at. -/
theorem exec_of_operation_raise {c : FaultCode} (hbits : 24 ≤ s.cfg.wordBits) (hready : bothReady d o s)
    (hexec : exec i s = finish i.opcode (execArith f d o s))
    (hf : f (operandValue d s) (secondValue d o s) (afterBoth d o s) = .raise c (afterBoth d o s)) :
    exec i s = .next (takeFault c (afterBoth d o s)) := by
  rw [hexec, execArith_of_ready f hbits hready]
  exact finish_bind_of_raise hf

end Ready

/-! ### Checked results (R160, R166, R167) -/

/-- D2: under the Wrap policy a checked result is the one Word congruent to the exact result. -/
theorem checked_of_wrap {r w : Int} {s : State} (hbits : 0 < s.cfg.wordBits) (hpol : s.cfg.overflow = .wrap)
    (hw : s.cfg.IsWord w) (hdvd : (2 ^ s.cfg.wordBits : Int) ∣ w - r) : checked r s = .go w s := by
  have hwrap : wrapWord s.cfg r = w := wrapWord_eq hbits hw hdvd
  by_cases hr : s.cfg.IsWord r
  · have hself : wrapWord s.cfg r = r := wrapWord_eq hbits hr (by simp)
    rw [checked_of_isWord hr, ← hself, hwrap]
  · exact checked_eq_go.mpr ⟨rfl, .inr ⟨hr, hpol, hwrap.symm⟩⟩

/-- The execute step of `i` is that of an operation which, on these operands, checks the exact result `r`. -/
def ChecksResult (i : Instr) (d o : Operand) (s : State) (r : Int) : Prop :=
  ∃ f, exec i s = finish i.opcode (execArith f d o s) ∧
    f (operandValue d s) (secondValue d o s) (afterBoth d o s) = checked r (afterBoth d o s)

theorem checksResult_add (d o : Operand) (s : State) :
    ChecksResult (.add d o) d o s (operandValue d s + secondValue d o s) := ⟨addWords, rfl, rfl⟩

theorem checksResult_sub (d o : Operand) (s : State) :
    ChecksResult (.sub d o) d o s (operandValue d s - secondValue d o s) := ⟨subWords, rfl, rfl⟩

theorem checksResult_mul (d o : Operand) (s : State) :
    ChecksResult (.mul d o) d o s (operandValue d s * secondValue d o s) := ⟨mulWords, rfl, rfl⟩

namespace ChecksResult

variable {i : Instr} {d o : Operand} {s : State} {r : Int}

theorem of_isWord (h : ChecksResult i d o s r) (hbits : 24 ≤ s.cfg.wordBits) (hready : bothReady d o s)
    (hr : s.cfg.IsWord r) : WritesResult i d o s r := by
  obtain ⟨f, hexec, hf⟩ := h
  rw [← afterBoth_cfg d o s] at hr
  exact writesResult_of_go hbits hready hexec (hf.trans (checked_of_isWord hr))

theorem of_overflow (h : ChecksResult i d o s r) (hbits : 24 ≤ s.cfg.wordBits) (hready : bothReady d o s)
    (hr : ¬ s.cfg.IsWord r) (hpol : s.cfg.overflow = .fault) :
    exec i s = .next (takeFault .arithmeticOverflow (afterBoth d o s)) := by
  obtain ⟨f, hexec, hf⟩ := h
  rw [← afterBoth_cfg d o s] at hr hpol
  exact exec_of_operation_raise hbits hready hexec (hf.trans (checked_eq_raise.mpr ⟨rfl, rfl, hr, hpol⟩))

theorem of_wrap (h : ChecksResult i d o s r) (hbits : 24 ≤ s.cfg.wordBits) (hready : bothReady d o s)
    (hpol : s.cfg.overflow = .wrap) {w : Int} (hw : s.cfg.IsWord w) (hdvd : (2 ^ s.cfg.wordBits : Int) ∣ w - r) :
    WritesResult i d o s w := by
  obtain ⟨f, hexec, hf⟩ := h
  have hpos : 0 < s.cfg.wordBits := by omega
  rw [← afterBoth_cfg d o s] at hpos hpol hw hdvd
  exact writesResult_of_go hbits hready hexec (hf.trans (checked_of_wrap hpos hpol hw hdvd))

end ChecksResult

/-- Settles O14: each of the three operations checks its exact result. -/
theorem addSubMulResult : Obligations.AddSubMulResult := by
  unfold Obligations.AddSubMulResult
  intro s d o hok hready v1 v2 u
  have result {i : Instr} {r : Int} (h : ChecksResult i d o s r) :
      (s.cfg.IsWord r → d.mode ≠ 6 →
        exec i s = .next (complete i.opcode .none (putDest (operandDest d s) r u))) ∧
      (s.cfg.IsWord r → d.mode = 6 → exec i s = .next (takeFault .immediateMode u)) ∧
      (¬ s.cfg.IsWord r → s.cfg.overflow = .fault → exec i s = .next (takeFault .arithmeticOverflow u)) :=
    ⟨fun hr => (h.of_isWord hok.1 hready hr).1, fun hr => (h.of_isWord hok.1 hready hr).2,
      h.of_overflow hok.1 hready⟩
  intro c hc
  simp only [List.mem_cons, List.not_mem_nil, or_false] at hc
  rcases hc with rfl | rfl | rfl
  · exact result (checksResult_add d o s)
  · exact result (checksResult_sub d o s)
  · exact result (checksResult_mul d o s)

/-! ### Division (R164) -/

/-- R11, R164: the truncated quotient is the one whose remainder is smaller than the divisor and has the dividend's sign. -/
theorem quotTz_eq_of_remainder {a b q m : Int} (hb : b ≠ 0) (h : a = q * b + m) (hlt : |m| < |b|) (hsign : 0 ≤ m * a) :
    quotTz a b = q := by
  have hsum : m + b * q = a := by rw [h]; ring
  have habs : |m| < (b.natAbs : Int) := by rwa [Int.natCast_natAbs]
  obtain ⟨hlo, hhi⟩ := abs_lt.mp habs
  rcases lt_trichotomy a 0 with ha | ha | ha
  · have hm : m ≤ 0 := nonpos_of_mul_nonneg_left hsign ha
    exact ((Int.tdiv_tmod_unique' ha.le hb).mpr ⟨hsum, hlo, hm⟩).1
  · have hdvd : |b| ∣ m := (abs_dvd b m).mpr ⟨-q, by linarith⟩
    have hm : m = 0 := Int.eq_zero_of_abs_lt_dvd hdvd hlt
    exact ((Int.tdiv_tmod_unique ha.ge hb).mpr ⟨hsum, hm.ge, hhi⟩).1
  · have hm : 0 ≤ m := nonneg_of_mul_nonneg_left hsign ha
    exact ((Int.tdiv_tmod_unique ha.le hb).mpr ⟨hsum, hm, hhi⟩).1

theorem divWords_zero (v : Int) (s : State) : divWords v 0 s = .raise s.cfg.divZeroCode s := if_pos rfl

theorem divWords_of_ne_zero {v2 : Int} (h : v2 ≠ 0) (v1 : Int) (s : State) :
    divWords v1 v2 s = checked (quotTz v1 v2) s := if_neg h

theorem checksResult_div {d o : Operand} {s : State} {q m : Int} (h0 : secondValue d o s ≠ 0)
    (heq : operandValue d s = q * secondValue d o s + m) (hlt : |m| < |secondValue d o s|)
    (hsign : 0 ≤ m * operandValue d s) : ChecksResult (.div d o) d o s q := by
  have hq : quotTz (operandValue d s) (secondValue d o s) = q := quotTz_eq_of_remainder h0 heq hlt hsign
  exact ⟨divWords, rfl, by rw [divWords_of_ne_zero h0, hq]⟩

/-- Settles O15: a divisor of 0 is the operation's own fault; any other divisor has its truncated quotient checked. -/
theorem divResult : Obligations.DivResult := by
  unfold Obligations.DivResult
  intro s d o hok hready v1 v2 u
  refine ⟨fun h0 => ?zero, fun q m h0 heq hlt hsign => ?quotient⟩
  case zero =>
    have hraise : divWords v1 v2 u = .raise s.cfg.divZeroCode u := by
      rw [h0, divWords_zero, afterBoth_cfg]
    exact exec_of_operation_raise hok.1 hready rfl hraise
  case quotient =>
    have h := checksResult_div h0 heq hlt hsign
    exact ⟨fun hq => (h.of_isWord hok.1 hready hq).1, fun hq => (h.of_isWord hok.1 hready hq).2,
      h.of_overflow hok.1 hready⟩

/-- The quotient of the least Word by -1 is one more than the greatest Word. -/
theorem neg_wordMin {p : Params} : -p.wordMin = p.wordMax + 1 := by
  simp [Params.wordMin, Params.wordMax, leastWord, greatestWord]

/-- Settles O16: the small quotients are Words at every word size R9 allows; the last three rows turn on the divisor. -/
theorem divisionTable : Obligations.DivisionTable := by
  unfold Obligations.DivisionTable
  intro s hok
  have row {a b q : Int} (h : b ≠ 0 ∧ quotTz a b = q ∧ -8388608 ≤ q ∧ q ≤ 8388607) : divWords a b s = .go q s := by
    obtain ⟨hb, rfl, hlo, hhi⟩ := h
    rw [divWords_of_ne_zero hb, checked_of_isWord (isWord_of_small hok.1 hlo hhi)]
  have hlarge := wordRange_large hok.1
  refine ⟨row (by decide), row (by decide), row (by decide), row (by decide), row (by decide), row (by decide),
    row (by decide), row (by decide), row (by decide), divWords_zero 5 s, divWords_zero 0 s, fun hpol => ?negOne, ?one⟩
  case negOne =>
    have hq : quotTz s.cfg.wordMin (-1) = s.cfg.wordMax + 1 := by
      rw [quotTz, Int.tdiv_neg, Int.tdiv_one, neg_wordMin]
    have hnot : ¬ s.cfg.IsWord (s.cfg.wordMax + 1) := by rw [isWord_iff]; omega
    rw [divWords_of_ne_zero (by decide), hq]
    exact checked_eq_raise.mpr ⟨rfl, rfl, hnot, hpol⟩
  case one =>
    have hword : s.cfg.IsWord s.cfg.wordMin := isWord_iff.mpr ⟨le_rfl, by omega⟩
    rw [divWords_of_ne_zero one_ne_zero, quotTz, Int.tdiv_one, checked_of_isWord hword]

/-! ### MOVE (R165) -/

/-- Settles O17: MOVE's operation answers operand 2's value, unchecked. -/
theorem moveResult : Obligations.MoveResult := by
  unfold Obligations.MoveResult
  intro s d o hok hready v u
  exact writesResult_of_go (f := moveWords) (i := .move d o) hok.1 hready rfl rfl

/-! ### The Wrap policy (R167) -/

/-- Settles O18: the checked result of each operation wraps; the quotient of the least Word by -1 exceeds the least Word by
`2^WORD_BITS`. -/
theorem wrapPolicyReduces : Obligations.WrapPolicyReduces := by
  unfold Obligations.WrapPolicyReduces
  intro s d o hok hpol hready v1 v2 u writes
  have hwrites {i : Instr} {r : Int} (h : ChecksResult i d o s r) : writes i r :=
    fun _ hw hdvd => h.of_wrap hok.1 hready hpol hw hdvd
  refine ⟨hwrites (checksResult_add d o s), hwrites (checksResult_sub d o s), hwrites (checksResult_mul d o s),
    fun q m h0 heq hlt hsign => hwrites (checksResult_div h0 heq hlt hsign),
    fun (hmin : operandValue d s = s.cfg.wordMin) (hneg : secondValue d o s = -1) => ?_⟩
  have hlarge := wordRange_large hok.1
  obtain ⟨hwmin, -, hpow⟩ := wordRange s.cfg (by have := hok.1; omega)
  have hword : s.cfg.IsWord s.cfg.wordMin := isWord_iff.mpr ⟨le_rfl, by omega⟩
  have hdvd : (2 ^ s.cfg.wordBits : Int) ∣ s.cfg.wordMin - -s.cfg.wordMin := ⟨-1, by rw [hpow, hwmin]; ring⟩
  have hquot : ChecksResult (.div d o) d o s (-s.cfg.wordMin) :=
    checksResult_div (m := 0) (by rw [hneg]; decide) (by rw [hmin, hneg]; ring) (by rw [hneg]; decide) (by simp)
  exact (hquot.of_wrap hok.1 hready hpol hword hdvd).1

/-! ### The frame (R149, R160, R165) -/

theorem steppedRegs_subset_destRegs (o : Operand) : ∀ r ∈ steppedRegs o, r ∈ destRegs o := by
  unfold destRegs
  split
  case isTrue hmode => simp [steppedRegs, operandSteps, hmode]
  case isFalse => exact fun _ hr => hr

theorem mem_destAddrs_of_operandDest {o : Operand} {s : State} {a : Int} (hw : o.wellFormed = true)
    (h : operandDest o s = .mem a) : a ∈ destAddrs o s := by
  obtain ⟨m, r⟩ := o
  rcases wellFormed_cases hw with hm | hm | hm | hm | hm | hm <;> simp only at hm <;> subst hm
  case inl | inr.inr.inr.inr.inr => exact nomatch h
  all_goals
    cases h
    exact List.mem_singleton_self _

/-- A destination written after its operand's resolution changes memory at the operand's address only. -/
theorem putDest_memSameBut {d : Operand} {s : State} (hready : operandReady d s) (v : Int) (u : State) :
    MemSameBut (destAddrs d s) u (putDest (operandDest d s) v u) := by
  have hdest := operandDest_ok hready
  cases h : operandDest d s with
  | reg r => exact MemSameBut.refl _ _
  | mem a =>
    rw [h] at hdest
    exact memSameBut_write (MemSameBut.refl _ u) (mem_destAddrs_of_operandDest hready.1 h) hdest.1 rfl
  | imm => exact MemSameBut.refl _ _

/-- Equal memories before and after may be put on either side of what a step wrote. -/
theorem MemSameBut.of_mem_eq {as : List Int} {s s' t t' : State} (h : MemSameBut as s t) (hs : s.mem = s'.mem)
    (ht : t'.mem = t.mem) : MemSameBut as s' t' := by
  intro a ha
  rw [ht, ← hs]
  exact h a ha

/-- An execute step that goes on wrote memory at operand 1's address only: the two resolutions and the operation write
none. -/
theorem execArith_go_memSameBut {f : Int → Int → State → Flow Int} (hf : PureOp f) {d o : Operand} {s t : State}
    {io : IoRequest} (hbits : 24 ≤ s.cfg.wordBits) (hw : s.cfg.IsWord (s.reg d.reg))
    (h : execArith f d o s = .go io t) : MemSameBut (destAddrs d s) s t := by
  rcases execArith_cases hf d o s with ⟨c, s1, -, he⟩ | ⟨p, s1, h1, ⟨c, s2, -, he⟩ |
    ⟨q, s2, h2, ⟨c, -, he⟩ | ⟨v, -, hend⟩⟩⟩
  case inl | inr.inl | inr.inr.inl => exact nomatch he.symm.trans h
  rcases hend with ⟨-, he⟩ | ⟨-, he⟩
  · exact nomatch he.symm.trans h
  · obtain ⟨-, rfl⟩ := Flow.go.inj (he.symm.trans h)
    obtain ⟨hready, rfl, -⟩ := resolve_eq_go hbits hw h1
    have hmem : s2.mem = s.mem := (resolve_go_effect h2).frame.2.1.trans (resolve_go_effect h1).frame.2.1
    exact (putDest_memSameBut hready v s2).of_mem_eq hmem rfl

/-- Settles O19: what the shared execute step may touch, by the way it ends; completion and the fault add the charge and the
control point. -/
theorem arithmeticMoveFrame : Obligations.ArithmeticMoveFrame := by
  unfold Obligations.ArithmeticMoveFrame
  intro s t d o hok hregs i hi h
  obtain ⟨f, hf, hexec⟩ := exec_eq_finish_execArith hi s
  have hrun := runEffect_execArith hf 0 d o s
  have hreg := regEffect_execArith hf d o s
  rw [hexec] at h
  rcases finish_eq_next.mp h with ⟨io, u, hu, rfl⟩ | ⟨c, u, hu, rfl⟩
  · obtain ⟨hforget, hkept, -⟩ := hrun.1 io u hu
    obtain ⟨-, hhead, hmode⟩ := hkept (by decide)
    obtain ⟨hr, hsp⟩ := hreg.1 io u hu
    have hmem := execArith_go_memSameBut hf hok.1 (hregs d.reg) hu
    exact ⟨hr.complete _ _, (complete_sp ..).trans hsp, (complete_mode ..).trans hmode,
      (sameStaging_of_forgetRun hforget).complete _ _, (sameOs_of_forgetRun hforget hhead).complete _ _,
      hmem.of_mem_eq rfl (complete_mem ..)⟩
  · obtain ⟨hforget, hmem, hhead, hmode⟩ := hrun.2 c u hu
    obtain ⟨hr, hsp⟩ := hreg.2 c u hu
    have hr' : RegsSameBut (destRegs d ++ steppedRegs o) s u := hr.mono fun r hr => by
      rw [List.mem_append] at hr ⊢
      exact hr.imp_left (steppedRegs_subset_destRegs d r)
    exact ⟨hr', hsp, hmode.resolve_right (fun hcall => nomatch hcall.1), (sameStaging_of_forgetRun hforget).takeFault c,
      (sameOs_of_forgetRun hforget hhead).takeFault c, (MemSameBut.refl _ s).of_mem_eq rfl hmem⟩

end Sys2Proof.Machine

/-! # HALT and the branches: the result and the frame (R116, R180 to R187)

A branch taken ends as BR does, in the state operand 1's resolution left; one not taken only steps over the target's word.
The frame is that of every instruction but for memory: the resolver and the read of the target store nothing. -/

namespace Sys2Proof.Machine

/-! ### HALT (R116, R180) -/

/-- R116: the halt is tested before the budget. -/
theorem complete_halt (io : IoRequest) (s : State) : complete 0 io s = endInvocation .halted (s.charge 12) := by
  have hexit : exitAfter 0 io (s.charge (cost 0)) = some .halted := if_pos rfl
  rw [complete, hexit]
  rfl

/-- Settles O20: HALT's execute step does nothing, so only its completion is seen. -/
theorem haltResult : Obligations.HaltResult := by
  unfold Obligations.HaltResult
  intro s
  exact congrArg Host.Outcome.next (complete_halt .none s)

/-! ### BR (R181, R182, R187) -/

theorem branchTo_of_userAddr {s : State} (h : UserAddr s.pc) : branchTo s = .go .none (s.setPc (s.word s.pc)) := by
  rw [branchTo, readTarget, streamWord_of_userAddr h, Flow.bind_go]

theorem branchTo_of_not_userAddr {s : State} (h : ¬ UserAddr s.pc) : branchTo s = .raise .runtime s := by
  rw [branchTo, readTarget, streamWord_of_not_userAddr h, Flow.bind_raise]

/-- Settles O21: BR is its execute step, finished. -/
theorem brResult : Obligations.BrResult := by
  unfold Obligations.BrResult
  intro s
  exact ⟨fun h => congrArg (finish 6) (branchTo_of_userAddr h), fun h => congrArg (finish 6) (branchTo_of_not_userAddr h)⟩

/-! ### The conditional branches (R183 to R186) -/

/-- R151: a resolution writes no memory. -/
theorem operandAfter_mem (o : Operand) (s : State) : (operandAfter o s).mem = s.mem := by
  unfold operandAfter
  split <;> rfl

section Ready

variable {cond : Int → Bool} {o : Operand} {s : State}

theorem branchIf_of_taken (hbits : 24 ≤ s.cfg.wordBits) (hready : operandReady o s) (hc : cond (operandValue o s) = true) :
    branchIf cond o s = branchTo (operandAfter o s) := by
  rw [branchIf, resolve_of_ready hbits hready, Flow.bind_go, if_pos hc]

theorem branchIf_of_not_taken (hbits : 24 ≤ s.cfg.wordBits) (hready : operandReady o s)
    (hc : cond (operandValue o s) = false) :
    branchIf cond o s = .go .none ((operandAfter o s).setPc ((operandAfter o s).pc + 1)) := by
  rw [branchIf, resolve_of_ready hbits hready, Flow.bind_go, hc, if_neg Bool.false_ne_true]

end Ready

/-- Settles O22: the three instructions are one execute step at three conditions; the path not taken reads no target. -/
theorem conditionalBranchResult : Obligations.ConditionalBranchResult := by
  unfold Obligations.ConditionalBranchResult
  intro s o hok hready v u
  have hword : u.word u.pc = s.word u.pc := by rw [State.word, State.word, operandAfter_mem]
  have result (cond : Int → Bool) (op : Nat) :
      (cond v = true → UserAddr u.pc →
        finish op (branchIf cond o s) = .next (complete op .none (u.setPc (s.word u.pc)))) ∧
      (cond v = true → ¬ UserAddr u.pc → finish op (branchIf cond o s) = .next (takeFault .runtime u)) ∧
      (cond v = false → finish op (branchIf cond o s) = .next (complete op .none (u.setPc (u.pc + 1)))) := by
    refine ⟨fun hc hu => ?_, fun hc hu => ?_, fun hc => ?_⟩
    · rw [branchIf_of_taken hok.1 hready hc, branchTo_of_userAddr hu, finish_go, hword]
    · rw [branchIf_of_taken hok.1 hready hc, branchTo_of_not_userAddr hu, finish_raise]
    · rw [branchIf_of_not_taken hok.1 hready hc, finish_go]
  intro c hc
  simp only [List.mem_cons, List.not_mem_nil, or_false] at hc
  rcases hc with rfl | rfl | rfl
  · exact result isNegative 7
  · exact result isPositive 8
  · exact result isZero 9

/-! ### The frame (R180, R182, R183) -/

/-- From `s` to `t` nothing has changed but the registers listed, `pc`, the charge and the control point. -/
def OnlyRegsAndPc (ls : List (Fin 8)) (s t : State) : Prop :=
  RegsSameBut ls s t ∧ t.sp = s.sp ∧ t.mode = s.mode ∧ SameStaging s t ∧ SameOs s t ∧ t.mem = s.mem

/-- An execute step that touches no more than that, whether it goes on or raises a fault. -/
abbrev Flow.OnlyRegsAndPc (ls : List (Fin 8)) (s : State) (x : Flow IoRequest) : Prop :=
  x.Sat (fun _ t => Machine.OnlyRegsAndPc ls s t) fun _ t => Machine.OnlyRegsAndPc ls s t

theorem OnlyRegsAndPc.refl (ls : List (Fin 8)) (s : State) : OnlyRegsAndPc ls s s :=
  ⟨RegsSameBut.refl ls s, rfl, rfl, ⟨rfl, rfl, rfl⟩, SameOs.refl s, rfl⟩

theorem OnlyRegsAndPc.setPc {ls : List (Fin 8)} {s t : State} (h : OnlyRegsAndPc ls s t) (v : Int) :
    OnlyRegsAndPc ls s (t.setPc v) := by
  obtain ⟨hregs, hsp, hmode, hstaging, hos, hmem⟩ := h
  exact ⟨hregs, hsp, hmode, ⟨hstaging.1, hstaging.2, hstaging.3⟩, hos.trans (sameOs_of_forgetRun rfl rfl), hmem⟩

theorem ResolveEffect.onlyRegsAndPc {o : Operand} {s t : State} (h : ResolveEffect o s t) :
    OnlyRegsAndPc (steppedRegs o) s t := by
  obtain ⟨hforget, hmem, hsp, hmode, hhead⟩ := h.frame
  exact ⟨h.regs, hsp, hmode, sameStaging_of_forgetRun hforget, sameOs_of_forgetRun hforget hhead, hmem⟩

/-- Completion adds the charge and the control point, a fault the control point only. -/
theorem Flow.OnlyRegsAndPc.finish {ls : List (Fin 8)} {s t : State} {op : Nat} {x : Flow IoRequest}
    (hx : x.OnlyRegsAndPc ls s) (h : Machine.finish op x = .next t) : Machine.OnlyRegsAndPc ls s t := by
  rcases finish_eq_next.mp h with ⟨io, u, hu, rfl⟩ | ⟨c, u, hu, rfl⟩
  · obtain ⟨hregs, hsp, hmode, hstaging, hos, hmem⟩ := hx.1 io u hu
    exact ⟨hregs.complete op io, (complete_sp ..).trans hsp, (complete_mode ..).trans hmode, hstaging.complete op io,
      hos.complete op io, (complete_mem ..).trans hmem⟩
  · obtain ⟨hregs, hsp, hmode, hstaging, hos, hmem⟩ := hx.2 c u hu
    exact ⟨hregs, hsp, hmode, hstaging.takeFault c, hos.takeFault c, hmem⟩

theorem branchTo_onlyRegsAndPc (s : State) : (branchTo s).OnlyRegsAndPc [] s := by
  have hs := OnlyRegsAndPc.refl [] s
  rcases branchTo_cases s with ⟨-, he⟩ | ⟨-, he⟩ <;> rw [he]
  · exact Flow.sat_go.mpr (hs.setPc _)
  · exact Flow.sat_raise.mpr hs

theorem branchIf_onlyRegsAndPc (cond : Int → Bool) (o : Operand) (s : State) :
    (branchIf cond o s).OnlyRegsAndPc (steppedRegs o) s := by
  rcases branchIf_cases cond o s with ⟨c, s1, hr, he⟩ | ⟨p, s1, hr, hend⟩
  · rw [he]
    exact Flow.sat_raise.mpr (resolve_raise_effect hr).onlyRegsAndPc
  · have hs1 := (resolve_go_effect hr).onlyRegsAndPc
    rcases hend with ⟨-, -, he⟩ | ⟨-, -, he⟩ | ⟨-, he⟩ <;> rw [he]
    · exact Flow.sat_go.mpr (hs1.setPc _)
    · exact Flow.sat_raise.mpr hs1
    · exact Flow.sat_go.mpr (hs1.setPc _)

/-- Settles O23: HALT's execute step changes nothing, BR's only `pc`, and a conditional branch's also what the resolution of
its operand does. -/
theorem controlFrame : Obligations.ControlFrame := by
  unfold Obligations.ControlFrame
  intro s t i _ hi h
  have conditional {cond : Int → Bool} {op : Nat} {o : Operand} (he : finish op (branchIf cond o s) = .next t) :
      OnlyRegsAndPc ([o].flatMap steppedRegs) s t := by
    simpa using (branchIf_onlyRegsAndPc cond o s).finish he
  cases i with
  | halt => exact Flow.OnlyRegsAndPc.finish (op := 0) (Flow.sat_go.mpr (.refl [] s)) h
  | br => exact (branchTo_onlyRegsAndPc s).finish (op := 6) h
  | brmi o => exact conditional (cond := isNegative) (op := 7) h
  | brpl o => exact conditional (cond := isPositive) (op := 8) h
  | brz o => exact conditional (cond := isZero) (op := 9) h
  | _ => simp [Instr.opcode] at hi

end Sys2Proof.Machine

/-! # PUSH and POP: the result, the round trip and the frame (R200 to R203)

On an operand that can be resolved each of the two is one stack operation in the state the resolution leaves, where `sp` and
memory are those of the start. The round trip runs POP's equation in the state PUSH's leaves. The registers, `sp` and the
rest of the frame are a rule for every instruction but SYSCALL; what is stored is said for each of the two. -/

namespace Sys2Proof.Machine

/-- R150: a resolution does not move `sp`. -/
theorem operandAfter_sp (o : Operand) (s : State) : (operandAfter o s).sp = s.sp := by
  unfold operandAfter
  split <;> rfl

/-! ### The two stack operations (R201, R202, D19, D20) -/

theorem pushWord_of_heapAddr {s : State} (h : HeapAddr (s.sp + 1)) (v : Int) :
    pushWord v s = .go .none ((s.setMem (s.mem.write (s.sp + 1).toNat v)).setSp (s.sp + 1)) := by
  rcases pushWord_cases v s with ⟨-, he⟩ | ⟨hout, -⟩
  · exact he
  · exact absurd h hout

theorem pushWord_of_not_heapAddr {s : State} (h : ¬ HeapAddr (s.sp + 1)) (v : Int) :
    pushWord v s = .raise .stackOverflow s := if_neg h

theorem popInto_of_heapAddr {d : Dest} {s : State} (hd : DestOk d) (h : HeapAddr s.sp) (himm : d ≠ .imm) :
    popInto d s = .go .none (putDest d (s.word s.sp) (s.setSp (s.sp - 1))) := by
  rcases popInto_cases hd s with ⟨-, -, he⟩ | ⟨-, hd', -⟩ | ⟨hout, -⟩
  · exact he
  · exact absurd hd' himm
  · exact absurd h hout

/-- D20: the immediate destination faults when `sp` has moved already. -/
theorem popInto_imm_of_heapAddr {s : State} (h : HeapAddr s.sp) :
    popInto .imm s = .raise .immediateMode (s.setSp (s.sp - 1)) := by
  rcases popInto_cases (d := .imm) trivial s with ⟨-, hd, -⟩ | ⟨-, -, he⟩ | ⟨hout, -⟩
  · exact absurd rfl hd
  · exact he
  · exact absurd h hout

theorem popInto_of_not_heapAddr {s : State} (h : ¬ HeapAddr s.sp) (d : Dest) :
    popInto d s = .raise .stackUnderflow s := if_neg h

/-! ### The result (R201 to R203) -/

section Ready

variable {o : Operand} {s : State}

theorem exec_push_of_ready (hbits : 24 ≤ s.cfg.wordBits) (hready : operandReady o s) :
    exec (.push o) s = finish 10 (pushWord (operandValue o s) (operandAfter o s)) :=
  finish_bind_of_go (resolve_of_ready hbits hready)

theorem exec_pop_of_ready (hbits : 24 ≤ s.cfg.wordBits) (hready : operandReady o s) :
    exec (.pop o) s = finish 11 (popInto (operandDest o s) (operandAfter o s)) :=
  finish_bind_of_go (resolve_of_ready hbits hready)

/-- R201. -/
theorem exec_push_of_heapAddr (hbits : 24 ≤ s.cfg.wordBits) (hready : operandReady o s) (h : HeapAddr (s.sp + 1)) :
    exec (.push o) s = .next (complete 10 .none
      (((operandAfter o s).setMem (s.mem.write (s.sp + 1).toNat (operandValue o s))).setSp (s.sp + 1))) := by
  rw [← operandAfter_sp o s] at h
  rw [exec_push_of_ready hbits hready, pushWord_of_heapAddr h, finish_go, operandAfter_sp, operandAfter_mem]

end Ready

/-- Settles O24: the cell tested is the one above the `sp` of the start. -/
theorem pushResult : Obligations.PushResult := by
  unfold Obligations.PushResult
  intro s o hok hready u a
  refine ⟨exec_push_of_heapAddr hok.1 hready, fun (hout : ¬ HeapAddr (s.sp + 1)) => ?_⟩
  rw [← operandAfter_sp o s] at hout
  rw [exec_push_of_ready hok.1 hready, pushWord_of_not_heapAddr hout, finish_raise]

/-- Settles O25: the word popped is that of the start, since a resolution writes no memory. -/
theorem popResult : Obligations.PopResult := by
  unfold Obligations.PopResult
  intro s d hok hready u
  have hsp : u.sp = s.sp := operandAfter_sp d s
  have hword : u.word u.sp = s.word s.sp := by rw [hsp, State.word, State.word, operandAfter_mem]
  have hcell : HeapAddr u.sp ↔ 4000 ≤ s.sp ∧ s.sp ≤ 6999 := by rw [hsp, heapAddr_iff]
  rw [exec_pop_of_ready hok.1 hready, ← hcell, ← hword, ← hsp]
  refine ⟨fun hin hmode => ?_, fun hin hmode => ?_, fun hout => ?_⟩
  · have hdest : operandDest d s ≠ .imm := mt operandDest_eq_imm.mp hmode
    rw [popInto_of_heapAddr (operandDest_ok hready) hin hdest, finish_go]
  · rw [operandDest_eq_imm.mpr hmode, popInto_imm_of_heapAddr hin, finish_raise]
  · rw [popInto_of_not_heapAddr hout, finish_raise]

/-! ### The frame (R122, R201, R202) -/

theorem steppedRegs_subset_writtenRegs (cfg : Params) (i : Instr) :
    ∀ r ∈ i.operands.flatMap steppedRegs, r ∈ writtenRegs cfg i := by
  intro r hr
  cases i with
  | halt | br => exact hr
  | brmi | brpl | brz | push => simpa [Instr.operands, writtenRegs] using hr
  | pop d => exact steppedRegs_subset_destRegs d r (by simpa [Instr.operands] using hr)
  | syscall o => exact List.mem_cons_of_mem _ (by simpa [Instr.operands] using hr)
  | add d o | sub d o | mul d o | div d o | move d o =>
    have hstep : r ∈ steppedRegs d ∨ r ∈ steppedRegs o := by simpa [Instr.operands] using hr
    exact List.mem_append.mpr (hstep.imp_left (steppedRegs_subset_destRegs d r))

/-- The frame of every instruction but SYSCALL, faults included: only the registers it may write, `sp` for PUSH and POP,
`pc`, memory, the charge and the control point change. -/
theorem exec_frame {i : Instr} {s t : State} (hcall : i.opcode ≠ 12) (h : exec i s = .next t) :
    RegsSameBut (writtenRegs s.cfg i) s t ∧
      (t.sp = s.sp ∨ i.opcode = 10 ∧ t.sp = s.sp + 1 ∨ i.opcode = 11 ∧ t.sp = s.sp - 1) ∧
      t.mode = s.mode ∧ SameStaging s t ∧ SameOs s t := by
  obtain ⟨x, hx, hrun, hreg⟩ := exec_effect i s
  rw [hx] at h
  rcases finish_eq_next.mp h with ⟨io, u, hu, rfl⟩ | ⟨c, u, hu, rfl⟩
  · obtain ⟨hforget, hkept, -⟩ := hrun.1 io u hu
    obtain ⟨-, hhead, hmode⟩ := hkept hcall
    obtain ⟨hr, hsp⟩ := hreg.1 io u hu
    exact ⟨hr.complete _ _, by rwa [complete_sp], (complete_mode ..).trans hmode,
      (sameStaging_of_forgetRun hforget).complete _ _, (sameOs_of_forgetRun hforget hhead).complete _ _⟩
  · obtain ⟨hforget, -, hhead, hmode⟩ := hrun.2 c u hu
    obtain ⟨hr, hsp⟩ := hreg.2 c u hu
    have hr' : RegsSameBut (writtenRegs s.cfg i) s u := hr.mono (steppedRegs_subset_writtenRegs _ i)
    exact ⟨hr', hsp.imp_right .inr, hmode.resolve_right fun hc => hcall hc.1,
      (sameStaging_of_forgetRun hforget).takeFault c, (sameOs_of_forgetRun hforget hhead).takeFault c⟩

/-- R201: a push stores at `sp + 1` only, and nothing when it faults. -/
theorem exec_push_memSameBut {o : Operand} {s t : State} (h : exec (.push o) s = .next t) :
    MemSameBut [s.sp + 1] s t := by
  have hsame {u : State} (hu : u.mem = s.mem) : MemSameBut [s.sp + 1] s u := (MemSameBut.refl _ s).of_mem_eq rfl hu
  rcases execPush_cases o s with ⟨c, s1, hr, he⟩ | ⟨p, s1, hr, he⟩
  · obtain rfl := Host.Outcome.next.inj (he.symm.trans h)
    exact hsame (resolve_raise_effect hr).frame.2.1
  · obtain ⟨-, hmem, hsp, -⟩ := (resolve_go_effect hr).frame
    have hfinish : finish 10 (pushWord p.2 s1) = .next t := he.symm.trans h
    rcases pushWord_cases p.2 s1 with ⟨hin, hpush⟩ | ⟨-, hpush⟩ <;> rw [hpush] at hfinish <;> cases hfinish
    · have hcell : 4000 ≤ s1.sp + 1 := (heapAddr_iff.mp hin).1
      have hmember : s1.sp + 1 ∈ [s.sp + 1] := by rw [hsp]; exact List.mem_singleton_self _
      exact memSameBut_write (hsame hmem) hmember (by omega) (complete_mem ..)
    · exact hsame hmem

/-- R202: a pop stores at its destination only, and nothing when it faults. -/
theorem exec_pop_memSameBut {d : Operand} {s t : State} (hbits : 24 ≤ s.cfg.wordBits) (hw : s.cfg.IsWord (s.reg d.reg))
    (h : exec (.pop d) s = .next t) : MemSameBut (destAddrs d s) s t := by
  have hsame {u : State} (hu : u.mem = s.mem) : MemSameBut (destAddrs d s) s u :=
    (MemSameBut.refl _ s).of_mem_eq rfl hu
  rcases execPop_cases d s with ⟨c, s1, hr, he⟩ | ⟨p, s1, hr, he⟩
  · obtain rfl := Host.Outcome.next.inj (he.symm.trans h)
    exact hsame (resolve_raise_effect hr).frame.2.1
  · have hmem : s1.mem = s.mem := (resolve_go_effect hr).frame.2.1
    obtain ⟨hready, rfl, -⟩ := resolve_eq_go hbits hw hr
    have hfinish : finish 11 (popInto (operandDest d s) s1) = .next t := he.symm.trans h
    rcases popInto_cases (operandDest_ok hready) s1 with ⟨-, -, hpop⟩ | ⟨-, -, hpop⟩ | ⟨-, hpop⟩ <;>
      rw [hpop] at hfinish <;> cases hfinish
    · exact (putDest_memSameBut hready _ (s1.setSp (s1.sp - 1))).of_mem_eq hmem (complete_mem ..)
    · exact hsame hmem
    · exact hsame hmem

/-- Settles O27: the common frame at the opcodes 10 and 11, and what each of the two stores. -/
theorem stackFrame : Obligations.StackFrame := by
  unfold Obligations.StackFrame
  intro s t o hok hregs
  refine ⟨fun h => ?push, fun h => ?pop⟩
  case push =>
    obtain ⟨hr, hsp, hmode, hstaging, hos⟩ := exec_frame (by simp [Instr.opcode]) h
    have hsp' : t.sp = s.sp ∨ t.sp = s.sp + 1 := by simpa [Instr.opcode] using hsp
    exact ⟨hr, hsp', hmode, hstaging, hos, exec_push_memSameBut h⟩
  case pop =>
    obtain ⟨hr, hsp, hmode, hstaging, hos⟩ := exec_frame (by simp [Instr.opcode]) h
    have hsp' : t.sp = s.sp ∨ t.sp = s.sp - 1 := by simpa [Instr.opcode] using hsp
    exact ⟨hr, hsp', hmode, hstaging, hos, exec_pop_memSameBut hok.1 (hregs o.reg) h⟩

/-! ### The round trip (R200 to R202) -/

/-- R141, R202: a pop into a register changes that register and `sp`. -/
theorem exec_pop_register {s : State} (h : HeapAddr s.sp) (r : Fin 8) :
    exec (.pop ⟨1, r⟩) s = .next (complete 11 .none ((s.setSp (s.sp - 1)).setReg r (s.word s.sp))) :=
  congrArg (finish 11) (popInto_of_heapAddr (d := .reg r) trivial h Dest.noConfusion)

/-- Settles O26: PUSH's equation gives the state POP runs in, POP's the state it leaves. -/
theorem pushThenPopRestores : Obligations.PushThenPopRestores := by
  unfold Obligations.PushThenPopRestores
  intro s t o r hok hwf hready hcell hpush
  have ht := Host.Outcome.next.inj (hpush.symm.trans (exec_push_of_heapAddr hok.1 hready hcell))
  have hsp : t.sp = s.sp + 1 := by rw [ht, complete_sp, State.setSp_sp]
  have hmem : t.mem = s.mem.write (s.sp + 1).toNat (operandValue o s) := by
    rw [ht, complete_mem, State.setSp_mem, State.setMem_mem]
  have hword : t.word t.sp = operandValue o s := by
    rw [State.word, hsp, hmem, Memory.read_write_same _ _ hwf]
  have hpop := exec_pop_register (hsp.symm ▸ hcell) r
  have hregs : RegsSameBut (steppedRegs o ++ [r]) s _ :=
    (exec_frame (by simp [Instr.opcode]) hpush).1.trans (exec_frame (by simp [Instr.opcode]) hpop).1
  refine ⟨_, hpop, ?reg, ?sp, ?mem, ?memory, hregs.mono (by simp [or_comm])⟩
  case reg => rw [complete_reg, State.setReg_reg_same, hword]
  case sp => rw [complete_sp, State.setReg_sp, State.setSp_sp, hsp]; omega
  case mem => rw [complete_mem, State.setReg_mem, State.setSp_mem]
  case memory => exact (exec_push_memSameBut hpush).of_mem_eq rfl (complete_mem ..)

end Sys2Proof.Machine

/-! # The free lists: first fit, reuse, and the lists boot makes (R240 to R245)

An allocation passes over the blocks that are too small and then writes at most two things: the header of the remainder,
inside the block it splits, and the link to what takes the block's place. A deallocation writes a header and the head. So
three rules about a free list in memory carry all the statements: a header written outside the headers of its blocks leaves
it a free list, a header in front of it makes it one block longer, and a new link behind its front part replaces the rest. -/

namespace Sys2Proof.Machine

/-! ### The free list in memory (R240) -/

theorem SoundBlocks.sub {g : Region} {bs cs : List (Int × Int)} (h : SoundBlocks g bs) (hs : cs.Sublist bs) :
    SoundBlocks g cs :=
  ⟨fun b hb => h.1 b (hs.subset hb), h.2.sublist hs⟩

/-- The two header words of a block of a sound list lie in the arena. -/
theorem SoundBlocks.memAddr {g : Region} {bs : List (Int × Int)} (h : SoundBlocks g bs) {b : Int × Int} (hb : b ∈ bs) :
    MemAddr b.1 ∧ MemAddr (b.1 + 1) := by
  obtain ⟨hlo, hn, hhi⟩ := h.1 b hb
  exact ⟨memAddr_of_region (g := g) hlo (by omega), memAddr_of_region (g := g) (by omega) (by omega)⟩

/-- A free list is one of every state with the same memory and head. -/
theorem FreeList.congr {g : Region} {bs : List (Int × Int)} {s t : State} (h : FreeList g bs s) (hmem : t.mem = s.mem)
    (hhead : freeHead g t = freeHead g s) : FreeList g bs t := by
  unfold FreeList at *
  rwa [hmem, hhead]

theorem FreeList.congr_user {bs : List (Int × Int)} {s t : State} (h : FreeList .user bs s) (hmem : t.mem = s.mem)
    (hhead : t.userFreeHead = s.userFreeHead) : FreeList .user bs t := h.congr hmem hhead

/-- A free list reads only the headers of its blocks. -/
theorem freeChain_congr {m m' : Memory} (bs : List (Int × Int)) (h : Int)
    (hread : ∀ b ∈ bs, m'.read b.1.toNat = m.read b.1.toNat ∧ m'.read (b.1 + 1).toNat = m.read (b.1 + 1).toNat) :
    freeChain m' h bs ↔ freeChain m h bs := by
  have hlinks : queueChain m' h (bs.map Prod.fst) ↔ queueChain m h (bs.map Prod.fst) := by
    refine queueChain_congr _ h fun p hp => ?_
    obtain ⟨b, hb, rfl⟩ := List.mem_map.mp hp
    exact (hread b hb).1
  have hsizes : (∀ b ∈ bs, m'.read (b.1 + 1).toNat = b.2) ↔ ∀ b ∈ bs, m.read (b.1 + 1).toNat = b.2 :=
    forall₂_congr fun b hb => by rw [(hread b hb).2]
  rw [freeChain_iff, freeChain_iff, hlinks, hsizes]

/-! ### Headers (R240) -/

/-- R240: memory with a block's header at `a`: its link, then its size. -/
def State.putHeader (a link size : Int) (s : State) : State :=
  s.setMem ((s.mem.write a.toNat link).write (a + 1).toNat size)

/-- The header of the block at `b` shares no word with one at `a`. -/
def HeadersApart (a b : Int) : Prop := b + 1 < a ∨ a + 1 < b

section PutHeader

variable {g : Region} {s : State} {a link size : Int}

@[simp] theorem freeHead_putHeader : freeHead g (s.putHeader a link size) = freeHead g s := freeHead_setMem ..

theorem wf_putHeader (hwf : s.mem.wf = true) (ha : MemAddr a) (ha1 : MemAddr (a + 1)) :
    (s.putHeader a link size).mem.wf = true :=
  Memory.wf_write_memAddr _ (Memory.wf_write_memAddr _ hwf ha) ha1

theorem read_putHeader_link (hwf : s.mem.wf = true) (ha : 0 ≤ a) :
    (s.putHeader a link size).mem.read a.toNat = link :=
  (Memory.read_write_other _ _ (by omega)).trans (Memory.read_write_same _ _ hwf)

theorem read_putHeader_size (hwf : s.mem.wf = true) (ha : MemAddr a) :
    (s.putHeader a link size).mem.read (a + 1).toNat = size :=
  Memory.read_write_same _ _ (Memory.wf_write_memAddr _ hwf ha)

theorem memSameBut_putHeader (ha : 0 ≤ a) : MemSameBut [a, a + 1] s (s.putHeader a link size) := by
  have hlink : MemSameBut [a, a + 1] s (s.setMem (s.mem.write a.toNat link)) :=
    memSameBut_write (MemSameBut.refl _ s) (by simp) ha rfl
  exact memSameBut_write hlink (a := a + 1) (by simp) (by omega) rfl

/-- A header written apart from a block's header leaves that one alone. -/
theorem read_putHeader_apart (ha : 0 ≤ a) {b : Int} (hb : 0 ≤ b) (hapart : HeadersApart a b) :
    (s.putHeader a link size).mem.read b.toNat = s.mem.read b.toNat ∧
      (s.putHeader a link size).mem.read (b + 1).toNat = s.mem.read (b + 1).toNat := by
  have hsame := memSameBut_putHeader (s := s) (link := link) (size := size) ha
  unfold HeadersApart at hapart
  exact ⟨hsame _ (by simp; omega), hsame _ (by simp; omega)⟩

/-- A header written apart from the headers of a chain's blocks leaves the chain. -/
theorem freeChain_putHeader {bs : List (Int × Int)} {h : Int} (hsound : SoundBlocks g bs) (ha : 0 ≤ a)
    (hapart : ∀ b ∈ bs, HeadersApart a b.1) : freeChain (s.putHeader a link size).mem h bs ↔ freeChain s.mem h bs :=
  freeChain_congr bs h fun b hb => read_putHeader_apart ha (hsound.memAddr hb).1.1 (hapart b hb)

theorem FreeList.putHeader {bs : List (Int × Int)} (h : FreeList g bs s) (ha : 0 ≤ a)
    (hapart : ∀ b ∈ bs, HeadersApart a b.1) : FreeList g bs (s.putHeader a link size) := by
  refine ⟨h.1, ?_⟩
  rw [freeHead_putHeader]
  exact (freeChain_putHeader h.1 ha hapart).mpr h.2

end PutHeader

/-- Blocks that are apart have headers that are apart. -/
theorem SoundBlocks.headersApart {g : Region} {b : Int × Int} {bs : List (Int × Int)} (h : SoundBlocks g (b :: bs)) :
    ∀ x ∈ bs, HeadersApart b.1 x.1 := by
  intro x hx
  have hb := h.1 b (List.mem_cons_self ..)
  have hx2 := h.1 x (List.mem_cons_of_mem _ hx)
  have hapart := (List.pairwise_cons.mp h.2).1 x hx
  unfold BlocksApart at hapart
  unfold HeadersApart
  omega

/-- R240, R243: a header whose link leads to a chain makes a chain one block longer. -/
theorem freeChain_cons_putHeader {g : Region} {s : State} {a n h : Int} {bs : List (Int × Int)} (hwf : s.mem.wf = true)
    (hsound : SoundBlocks g ((a, n) :: bs)) (hchain : freeChain s.mem h bs) :
    freeChain (s.putHeader a h n).mem a ((a, n) :: bs) := by
  obtain ⟨ha, ha1⟩ := hsound.memAddr (List.mem_cons_self ..)
  refine ⟨rfl, read_putHeader_size hwf ha, ?_⟩
  rw [read_putHeader_link hwf ha.1]
  exact (freeChain_putHeader (hsound.sub (List.sublist_cons_self ..)) ha.1 hsound.headersApart).mpr hchain

/-! ### The link to the rest of a list (R242) -/

/-- Behind a block, a chain is the chain from its link. -/
theorem freeChain_suffix {m : Memory} {b : Int × Int} {back : List (Int × Int)} (front : List (Int × Int)) :
    ∀ h : Int, freeChain m h (front ++ b :: back) → freeChain m (m.read b.1.toNat) back := by
  induction front with
  | nil => exact fun _ ⟨_, _, hback⟩ => hback
  | cons x front ih => exact fun _ ⟨_, _, hrest⟩ => ih _ hrest

/-- A chain whose front part is kept but for the link of its last block, which now leads to another chain. -/
theorem freeChain_relink {m m' : Memory} {b : Int × Int} {back back' : List (Int × Int)}
    (hback : freeChain m' (m'.read b.1.toNat) back') (hsize : m'.read (b.1 + 1).toNat = m.read (b.1 + 1).toNat)
    (front : List (Int × Int)) : ∀ h : Int, freeChain m h (front ++ b :: back) →
      (∀ x ∈ front, m'.read x.1.toNat = m.read x.1.toNat ∧ m'.read (x.1 + 1).toNat = m.read (x.1 + 1).toNat) →
      freeChain m' h (front ++ b :: back') := by
  induction front with
  | nil =>
    rintro h ⟨hhead, hn, -⟩ -
    exact ⟨hhead, hsize.trans hn, hback⟩
  | cons x front ih =>
    rintro h ⟨hhead, hn, hrest⟩ hkeep
    obtain ⟨⟨hlink, hsz⟩, hkeep⟩ := List.forall_mem_cons.mp hkeep
    refine ⟨hhead, hsz.trans hn, ?_⟩
    rw [hlink]
    exact ih _ hrest hkeep

/-- What `Link` leaves. -/
def relinked (g : Region) (prev v : Int) (s : State) : State :=
  if prev = -1 then setFreeHead g v s else s.setMem (s.mem.write prev.toNat v)

/-- The predecessor a walk has after it has passed over these blocks: the last of them, or none. -/
def walkPrev (skipped : List (Int × Int)) : Int := (skipped.map Prod.fst).getLastD (-1)

theorem relinked_nil (g : Region) (v : Int) (s : State) : relinked g (walkPrev []) v s = setFreeHead g v s := rfl

theorem walkPrev_concat (front : List (Int × Int)) (b : Int × Int) : walkPrev (front ++ [b]) = b.1 := by
  simp [walkPrev]

/-- Whether blocks are sound does not depend on their order. -/
theorem soundBlocks_middle {g : Region} {front back : List (Int × Int)} {b : Int × Int} :
    SoundBlocks g (front ++ b :: back) ↔ SoundBlocks g (b :: (front ++ back)) := by
  have hperm : (front ++ b :: back).Perm (b :: (front ++ back)) := List.perm_middle
  exact and_congr (forall_congr' fun x => imp_congr_left hperm.mem_iff) (hperm.pairwise_iff fun hxy => Or.symm hxy)

section Relink

variable {g : Region} {s : State} {skipped : List (Int × Int)}

theorem relinked_concat {front : List (Int × Int)} {b : Int × Int} (h : SoundBlocks g (front ++ [b])) (v : Int) :
    relinked g (walkPrev (front ++ [b])) v s = s.setMem (s.mem.write b.1.toNat v) := by
  have hb : 0 ≤ b.1 := (h.memAddr (by simp)).1.1
  rw [walkPrev_concat]
  exact if_neg (by omega)

theorem link_walkPrev (h : SoundBlocks g skipped) (v : Int) :
    link g (walkPrev skipped) v s = .go () (relinked g (walkPrev skipped) v s) := by
  refine link_eq ?_
  rcases skipped.eq_nil_or_concat' with rfl | ⟨front, b, rfl⟩
  · exact .inl rfl
  · rw [walkPrev_concat]
    exact .inr (h.memAddr (by simp)).1

theorem memSameBut_relinked (h : SoundBlocks g skipped) (v : Int) :
    MemSameBut (lastLink (skipped.map Prod.fst)) s (relinked g (walkPrev skipped) v s) := by
  rcases skipped.eq_nil_or_concat' with rfl | ⟨front, b, rfl⟩
  · exact (MemSameBut.refl _ s).of_mem_eq rfl (setFreeHead_mem ..)
  · rw [relinked_concat h]
    exact memSameBut_write (MemSameBut.refl _ s) (by simp [lastLink]) (h.memAddr (by simp)).1.1 rfl

/-- R242: the front part of a free list, linked to another chain, is followed by that chain. -/
theorem FreeList.relinked {back back' : List (Int × Int)} {k : Int} (h : FreeList g (skipped ++ back) s)
    (hwf : s.mem.wf = true) (hsound : SoundBlocks g (skipped ++ back')) (hback : freeChain s.mem k back') :
    FreeList g (skipped ++ back') (relinked g (walkPrev skipped) k s) := by
  refine ⟨hsound, ?_⟩
  rcases skipped.eq_nil_or_concat' with rfl | ⟨front, b, rfl⟩
  · rwa [relinked_nil, freeHead_setFreeHead, setFreeHead_mem]
  · have hb : 0 ≤ b.1 := (hsound.memAddr (b := b) (by simp)).1.1
    rw [relinked_concat (hsound.sub (List.sublist_append_left ..)), freeHead_setMem, State.setMem_mem]
    simp only [List.append_assoc, List.singleton_append] at h hsound ⊢
    have hkeep (x : Int × Int) (hx : x ∈ front ++ back') :
        (s.mem.write b.1.toNat k).read x.1.toNat = s.mem.read x.1.toNat ∧
          (s.mem.write b.1.toNat k).read (x.1 + 1).toNat = s.mem.read (x.1 + 1).toNat := by
      have hapart := (soundBlocks_middle.mp hsound).headersApart x hx
      have hx0 : 0 ≤ x.1 := ((soundBlocks_middle.mp hsound).memAddr (List.mem_cons_of_mem _ hx)).1.1
      unfold HeadersApart at hapart
      exact ⟨Memory.read_write_other _ _ (by omega), Memory.read_write_other _ _ (by omega)⟩
    refine freeChain_relink ?_ (Memory.read_write_other _ _ (by omega)) front _ h.2 fun x hx =>
      hkeep x (List.mem_append_left _ hx)
    rw [Memory.read_write_same _ _ hwf]
    exact (freeChain_congr back' k fun x hx => hkeep x (List.mem_append_right _ hx)).mpr hback

end Relink

/-! ### The first fit (R242) -/

section Allocate

variable {g : Region} {s : State} {size : Int} {skipped rest : List (Int × Int)} {b : Int × Int}

/-- R242: an allocation passes over the blocks that are too small, and its walk stands at what follows them. -/
theorem allocate_walks {back : List (Int × Int)} (hsize : 1 ≤ size) (hfree : FreeList g (skipped ++ back) s)
    (hlength : skipped.length ≤ 1500) (hsmall : ∀ x ∈ skipped, x.2 < roundSize size) :
    ∃ fuel k, queueChain s.mem k (back.map Prod.fst) ∧
      allocate g size s = allocWalk g (roundSize size) (fuel + 1) (walkPrev skipped) k s := by
  have hfuel : regionFuel g = skipped.length + (2999 - skipped.length + 1) := by
    have h3000 : regionFuel g = 3000 := by cases g <;> rfl
    omega
  have hchain : queueChain s.mem (freeHead g s) (skipped.map Prod.fst ++ back.map Prod.fst) := by
    rw [← List.map_append]
    exact hfree.chain
  obtain ⟨k, hk, hwalk⟩ := allocWalk_skip skipped (2999 - skipped.length + 1) (-1) _ hchain
    (fun x hx => hfree.block (List.mem_append_left _ hx)) hsmall
  refine ⟨2999 - skipped.length, k, hk, ?_⟩
  rw [allocate, if_neg (by omega), if_neg (by omega), hfuel]
  exact hwalk

theorem allocate_of_all_small (hsize : 1 ≤ size) (hfree : FreeList g skipped s) (hlength : skipped.length ≤ 1500)
    (hsmall : ∀ x ∈ skipped, x.2 < roundSize size) : allocate g size s = .go .noFreeMemory s := by
  rw [← List.append_nil skipped] at hfree
  obtain ⟨fuel, k, hend, hwalk⟩ := allocate_walks hsize hfree hlength hsmall
  rw [hwalk, show k = -1 from hend]
  exact allocWalk_end

/-- R242: `b` is the first block of the free list that is large enough for an allocation of `size` words. -/
structure FirstFit (g : Region) (size : Int) (skipped : List (Int × Int)) (b : Int × Int) (rest : List (Int × Int))
    (s : State) : Prop where
  positive : 1 ≤ size
  list : FreeList g (skipped ++ b :: rest) s
  short : skipped.length ≤ 1500
  small : ∀ x ∈ skipped, x.2 < roundSize size
  fits : roundSize size ≤ b.2

namespace FirstFit

variable (h : FirstFit g size skipped b rest s)
include h

theorem sound_skipped : SoundBlocks g skipped := h.list.1.sub (List.sublist_append_left ..)

theorem block : regionLo g ≤ b.1 ∧ 2 ≤ b.2 ∧ b.1 + b.2 - 1 ≤ regionHi g ∧ s.mem.read (b.1 + 1).toNat = b.2 :=
  h.list.block (by simp)

/-- What follows the block on the list. -/
theorem chain_rest : freeChain s.mem (s.mem.read b.1.toNat) rest :=
  freeChain_suffix skipped _ h.list.2

/-- R242: the walk decides at `b`. -/
theorem allocate_meets :
    ∃ fuel, allocate g size s = allocWalk g (roundSize size) (fuel + 1) (walkPrev skipped) b.1 s := by
  obtain ⟨fuel, k, hk, hwalk⟩ := allocate_walks h.positive h.list h.short h.small
  obtain ⟨rfl, -⟩ := queueChain_head hk
  exact ⟨fuel, hwalk⟩

/-- R242: the answer of the block that is taken or split. -/
theorem allocate_of_takeBlock_go {r : AllocResult} {t : State}
    (ht : takeBlock g (roundSize size) (walkPrev skipped) b.1 (s.mem.read b.1.toNat) b.2 s = .go (some r) t) :
    allocate g size s = .go r t := by
  obtain ⟨fuel, hwalk⟩ := h.allocate_meets
  obtain ⟨hlo, hn, hhi, hread⟩ := h.block
  rw [hwalk, allocWalk_here hlo (by omega) hread h.fits, ht]
  rfl

/-- R242: a block of the exact size is unlinked whole. -/
theorem allocate_exact (hexact : b.2 = roundSize size) :
    allocate g size s = .go (.address b.1) (relinked g (walkPrev skipped) (s.mem.read b.1.toNat) s) := by
  refine h.allocate_of_takeBlock_go ?_
  rw [takeBlock, if_pos hexact, link_walkPrev h.sound_skipped, Flow.bind_go]

/-- R242: a larger block is split: the header of its remainder is written, and the remainder takes its place. -/
theorem allocate_split (hlarge : roundSize size + 1 < b.2) :
    allocate g size s = .go (.address b.1) (relinked g (walkPrev skipped) (b.1 + roundSize size)
      (s.putHeader (b.1 + roundSize size) (s.mem.read b.1.toNat) (b.2 - roundSize size))) := by
  have hround := roundSize_ge h.positive
  obtain ⟨hlo, -, hhi, -⟩ := h.block
  have hmem (a : Int) (h1 : b.1 ≤ a) (h2 : a < b.1 + b.2) : MemAddr a :=
    memAddr_of_region (g := g) (by omega) (by omega)
  refine h.allocate_of_takeBlock_go ?_
  rw [takeBlock, if_neg (by omega), if_pos (by omega), if_neg (by omega), store_of_memAddr (hmem _ (by omega) (by omega)),
    Flow.bind_go, store_of_memAddr (hmem _ (by omega) (by omega)), Flow.bind_go, link_walkPrev h.sound_skipped,
    Flow.bind_go]
  rfl

/-- R242: a block one word too large is refused. -/
theorem allocate_refused (hone : b.2 = roundSize size + 1) : allocate g size s = .refuse .splitRemainderOne := by
  obtain ⟨fuel, hwalk⟩ := h.allocate_meets
  obtain ⟨hlo, hn, hhi, hread⟩ := h.block
  rw [hwalk, allocWalk_here hlo (by omega) hread h.fits, takeBlock, if_neg (by omega), if_pos (by omega),
    if_pos (by omega), Flow.bind_refuse]

/-- R242: unlinking the block leaves the list without it. -/
theorem freeList_exact (hwf : s.mem.wf = true) :
    FreeList g (skipped ++ rest) (relinked g (walkPrev skipped) (s.mem.read b.1.toNat) s) :=
  h.list.relinked hwf (h.list.1.sub (by simp)) h.chain_rest

/-- The remainder of a split block is sound in the block's place. -/
theorem sound_split (hlarge : roundSize size + 1 < b.2) :
    SoundBlocks g (skipped ++ (b.1 + roundSize size, b.2 - roundSize size) :: rest) := by
  have hround := roundSize_ge h.positive
  obtain ⟨hbounds, hpairs⟩ := soundBlocks_middle.mp h.list.1
  obtain ⟨hb, hothers⟩ := List.forall_mem_cons.mp hbounds
  obtain ⟨hapart, hpairs⟩ := List.pairwise_cons.mp hpairs
  refine soundBlocks_middle.mpr ⟨List.forall_mem_cons.mpr ⟨?_, hothers⟩,
    List.pairwise_cons.mpr ⟨fun x hx => ?_, hpairs⟩⟩
  · simp only
    omega
  · have hx := hapart x hx
    unfold BlocksApart at hx ⊢
    simp only
    omega

/-- R242: splitting the block leaves its remainder in its place. -/
theorem freeList_split (hwf : s.mem.wf = true) (hlarge : roundSize size + 1 < b.2) :
    FreeList g (skipped ++ (b.1 + roundSize size, b.2 - roundSize size) :: rest)
      (relinked g (walkPrev skipped) (b.1 + roundSize size)
        (s.putHeader (b.1 + roundSize size) (s.mem.read b.1.toNat) (b.2 - roundSize size))) := by
  have hround := roundSize_ge h.positive
  have hsound := h.sound_split hlarge
  have hfirst := soundBlocks_middle.mp hsound
  obtain ⟨ha, ha1⟩ := hfirst.memAddr (List.mem_cons_self ..)
  have hapart : ∀ x ∈ skipped ++ b :: rest, HeadersApart (b.1 + roundSize size) x.1 := by
    intro x hx
    rcases List.mem_cons.mp (List.perm_middle.mem_iff.mp hx) with rfl | hx
    · exact .inl (by omega)
    · exact hfirst.headersApart x hx
  exact (h.list.putHeader ha.1 hapart).relinked (wf_putHeader hwf ha ha1) hsound
    (freeChain_cons_putHeader hwf (hsound.sub (List.sublist_append_right ..)) h.chain_rest)

/-- R242: splitting the block writes the remainder's header and the link to it. -/
theorem memSameBut_split (hlarge : roundSize size + 1 < b.2) :
    MemSameBut (lastLink (skipped.map Prod.fst) ++ [b.1 + roundSize size, b.1 + roundSize size + 1]) s
      (relinked g (walkPrev skipped) (b.1 + roundSize size)
        (s.putHeader (b.1 + roundSize size) (s.mem.read b.1.toNat) (b.2 - roundSize size))) := by
  obtain ⟨ha, -⟩ := (soundBlocks_middle.mp (h.sound_split hlarge)).memAddr (List.mem_cons_self ..)
  intro a hout
  obtain ⟨hlink, hheader⟩ := not_or.mp (mt List.mem_append.mpr hout)
  exact (memSameBut_relinked h.sound_skipped _ a hlink).trans (memSameBut_putHeader ha.1 a hheader)

/-- R242: what an allocation that finds a block leaves, whole or split, as one statement. -/
theorem allocate_takes (hwf : s.mem.wf = true)
    (hn : roundSize size = b.2 ∨ roundSize size + 1 < b.2) :
    ∃ t, allocate g size s = .go (.address b.1) t ∧
      FreeList g (skipped ++ (if roundSize size = b.2 then rest
        else (b.1 + roundSize size, b.2 - roundSize size) :: rest)) t ∧
      MemSameBut (lastLink (skipped.map Prod.fst) ++ if roundSize size = b.2 then []
        else [b.1 + roundSize size, b.1 + roundSize size + 1]) s t := by
  rcases hn with hexact | hlarge
  · rw [if_pos hexact, if_pos hexact, List.append_nil]
    exact ⟨_, h.allocate_exact hexact.symm, h.freeList_exact hwf, memSameBut_relinked h.sound_skipped _⟩
  · rw [if_neg (by omega), if_neg (by omega)]
    exact ⟨_, h.allocate_split hlarge, h.freeList_split hwf hlarge, h.memSameBut_split hlarge⟩

end FirstFit

end Allocate

/-- Settles O36: the walk meets the first block that is large enough, which is unlinked, split or refused. -/
theorem allocateTakesFirstFit : Obligations.AllocateTakesFirstFit := by
  unfold Obligations.AllocateTakesFirstFit
  intro g s size skipped rest b hwf hsize hfree hlength n hsmall
  have hfirst (hfits : n ≤ b.2) : FirstFit g size skipped b rest s := ⟨hsize, hfree, hlength, hsmall, hfits⟩
  refine ⟨fun hexact => ?_, fun hlarge => ?_, fun hone => ?_⟩
  · have h := hfirst (by omega)
    exact ⟨_, h.allocate_exact hexact, h.freeList_exact hwf, memSameBut_relinked h.sound_skipped _⟩
  · have h := hfirst (by omega)
    exact ⟨_, h.allocate_split hlarge, h.freeList_split hwf hlarge, h.memSameBut_split hlarge⟩
  · exact (hfirst (by omega)).allocate_refused hone

/-- Settles O37: the walk writes nothing before it takes a block. -/
theorem failedAllocationChangesNothing : Obligations.FailedAllocationChangesNothing := by
  unfold Obligations.FailedAllocationChangesNothing
  intro g s size bs
  exact ⟨fun hneg => if_pos hneg, allocate_of_all_small⟩

/-! ### Reuse (R243, R244) -/

/-- Settles O38: the freed block is the first of the list, so it is unlinked by its link alone, which is the old head. -/
theorem freeThenAllocateReuses : Obligations.FreeThenAllocateReuses := by
  unfold Obligations.FreeThenAllocateReuses
  intro g s a size bs hwf hsize hfree n hsound
  obtain ⟨hlo, -, hhi⟩ := hsound.1 (a, n) (List.mem_cons_self ..)
  obtain ⟨ha, ha1⟩ := hsound.memAddr (List.mem_cons_self ..)
  let u := s.putHeader a (freeHead g s) n
  have hlist : FreeList g ((a, n) :: bs) (setFreeHead g a u) := by
    refine ⟨hsound, ?_⟩
    rw [setFreeHead_mem, freeHead_setFreeHead]
    exact freeChain_cons_putHeader hwf hsound hfree.2
  have hfirst : FirstFit g size [] (a, n) bs (setFreeHead g a u) :=
    ⟨hsize, hlist, Nat.zero_le _, List.forall_mem_nil _, le_rfl⟩
  have hwf' : (setFreeHead g a u).mem.wf = true := by
    rw [setFreeHead_mem]
    exact wf_putHeader hwf ha ha1
  exact ⟨_, free_of_inRegion hsize hlo hhi s, hlist, (memSameBut_putHeader ha.1).of_mem_eq rfl (setFreeHead_mem ..),
    _, hfirst.allocate_exact rfl, hfirst.freeList_exact hwf', setFreeHead_mem ..⟩

/-! ### Boot (R245, R330) -/

theorem initFreeList_eq_putHeader (g : Region) (s : State) :
    initFreeList g s = .go () (setFreeHead g (regionLo g) (s.putHeader (regionLo g) (-1) 3000)) := initFreeList_eq g s

/-- R245: the whole region as one block is a sound list. -/
theorem soundBlocks_region (g : Region) : SoundBlocks g [(regionLo g, 3000)] := by
  have hbounds := region_bounds g
  refine ⟨?_, List.pairwise_singleton ..⟩
  simp
  omega

/-- R245: what InitFreeList leaves is the free list of one block. -/
theorem freeList_initialised (g : Region) {s : State} (hwf : s.mem.wf = true) :
    FreeList g [(regionLo g, 3000)] (setFreeHead g (regionLo g) (s.putHeader (regionLo g) (-1) 3000)) := by
  refine ⟨soundBlocks_region g, ?_⟩
  rw [setFreeHead_mem, freeHead_setFreeHead]
  exact freeChain_cons_putHeader hwf (soundBlocks_region g) rfl

/-- R330: the state boot leaves: both regions initialised, the user region first, and the loop entered. -/
def booted (s : State) : State :=
  (setFreeHead .os 7000
    ((setFreeHead .user 4000 (s.putHeader 4000 (-1) 3000)).putHeader 7000 (-1) 3000)).setPhase .receive

theorem step_powerOn_booted {s : State} (hphase : s.phase = .powerOn) : step s = .next (booted s) := by
  simp only [step, hphase, boot]
  rw [initFreeList_eq_putHeader, Flow.bind_go, initFreeList_eq_putHeader, Flow.bind_go]
  rfl

/-- Settles O50: the OS region is initialised last, which leaves the user list's header and head alone. -/
theorem bootInitialisesFreeLists : Obligations.BootInitialisesFreeLists := by
  unfold Obligations.BootInitialisesFreeLists
  intro s hphase hwf
  have hwf' : (setFreeHead .user 4000 (s.putHeader 4000 (-1) 3000)).mem.wf = true :=
    wf_putHeader hwf (by decide) (by decide)
  have huser := (freeList_initialised .user hwf).putHeader (a := 7000) (link := -1) (size := 3000) (by decide)
    (by unfold HeadersApart; decide)
  have hmem : MemSameBut [4000, 4001, 7000, 7001] s (booted s) := by
    intro a ha
    have hos := memSameBut_putHeader (s := setFreeHead .user 4000 (s.putHeader 4000 (-1) 3000)) (a := 7000) (link := -1)
      (size := 3000) (by decide)
    have huser := memSameBut_putHeader (s := s) (a := 4000) (link := -1) (size := 3000) (by decide)
    simp only [List.mem_cons, List.not_mem_nil, or_false, not_or] at ha
    exact (hos a (by simp; omega)).trans (huser a (by simp; omega))
  exact ⟨booted s, step_powerOn_booted hphase, rfl, rfl, rfl, huser.congr rfl rfl,
    (freeList_initialised .os hwf').congr rfl rfl, hmem⟩

end Sys2Proof.Machine

/-! # SYSCALL: the services one by one, and the frame (R220 to R229)

A call on an operand that can be resolved runs one service in OS mode in the state the resolution leaves, and what the
service answers decides how the instruction ends, back in User mode. So each statement turns on the one answer of its service,
mem_alloc's being that of an allocation from the user region. -/

namespace Sys2Proof.Machine

/-! ### The state a service runs in (R220, R222) -/

/-- R150: a resolution changes only the registers and `pc`. -/
theorem operandAfter_forgetRun (o : Operand) (s : State) : (operandAfter o s).forgetRun = s.forgetRun := by
  unfold operandAfter
  split <;> rfl

theorem operandAfter_cfg (o : Operand) (s : State) : (operandAfter o s).cfg = s.cfg :=
  field_of_forgetRun State.cfg (fun _ => rfl) (operandAfter_forgetRun o s)

theorem operandAfter_clock (o : Operand) (s : State) : (operandAfter o s).clock = s.clock :=
  field_of_forgetRun State.clock (fun _ => rfl) (operandAfter_forgetRun o s)

theorem operandAfter_budget (o : Operand) (s : State) : (operandAfter o s).budget = s.budget :=
  field_of_forgetRun State.budget (fun _ => rfl) (operandAfter_forgetRun o s)

theorem operandAfter_userFreeHead (o : Operand) (s : State) : (operandAfter o s).userFreeHead = s.userFreeHead := by
  unfold operandAfter
  split <;> rfl

/-- R222: the state in which a call runs its service. -/
def callState (o : Operand) (s : State) : State := (operandAfter o s).setMode .os

theorem callState_cfg (o : Operand) (s : State) : (callState o s).cfg = s.cfg := operandAfter_cfg o s

theorem callState_mem (o : Operand) (s : State) : (callState o s).mem = s.mem := operandAfter_mem o s

theorem callState_userFreeHead (o : Operand) (s : State) : (callState o s).userFreeHead = s.userFreeHead :=
  operandAfter_userFreeHead o s

theorem callState_clock (o : Operand) (s : State) : (callState o s).clock = s.clock := operandAfter_clock o s

/-! ### The services that change no memory (R223, R226 to R228) -/

theorem service_of_stub {id : Int} (h : id ∈ ([1, 2, 3, 6, 7, 10, 11] : List Int)) (s : State) :
    service id s = .go .done s := by
  simp only [List.mem_cons, List.not_mem_nil, or_false] at h
  rcases h with rfl | rfl | rfl | rfl | rfl | rfl | rfl <;> rfl

theorem service_of_invalid {id : Int} (h : ¬ (1 ≤ id ∧ id ≤ 11)) (s : State) : service id s = .go .invalid s := by
  have hid (k : Int) (hk : 1 ≤ k ∧ k ≤ 11) : id ≠ k := fun he => h (he ▸ hk)
  have hnone : serviceOf id = none := by simp [serviceOf, hid]
  rw [service, hnone]

/-! ### How a call ends (R116, R220) -/

section Ready

variable {o : Operand} {s t : State}

theorem exec_syscall_of_ready (hbits : 24 ≤ s.cfg.wordBits) (hready : operandReady o s) :
    exec (.syscall o) s = finish 12 (callService (operandValue o s) (operandAfter o s)) :=
  finish_bind_of_go (resolve_of_ready hbits hready)

/-- R220: the reply of the service decides how the instruction ends. -/
theorem exec_syscall_of_service {reply : ServiceReply} (hbits : 24 ≤ s.cfg.wordBits) (hready : operandReady o s)
    (hservice : service (operandValue o s) (callState o s) = .go reply t) :
    exec (.syscall o) s = finish 12 (afterService reply (t.setMode .user)) := by
  rw [exec_syscall_of_ready hbits hready, callService]
  exact finish_bind_of_go hservice

end Ready

/-- R116: an I/O request ends the invocation before the budget is tested. -/
theorem complete_input (s : State) : complete 12 .input s = (s.charge 12).setPhase (.route .startOfInput) := rfl

theorem complete_output (s : State) : complete 12 .output s = (s.charge 12).setPhase (.route .startOfOutput) := rfl

/-- Settles O28: these services leave the state as it is and differ in their reply. -/
theorem syscallStubsAndBlocks : Obligations.SyscallStubsAndBlocks := by
  unfold Obligations.SyscallStubsAndBlocks
  intro s o hok hready u v
  have hv : v = u.charge 12 := by
    simp only [v, ← operandAfter_clock o s, ← operandAfter_budget o s]
    rfl
  refine ⟨fun hid => ?stub, fun hid => ?input, fun hid => ?output⟩
  case stub => exact exec_syscall_of_service hok.1 hready (service_of_stub hid _)
  case input =>
    have hservice : service (operandValue o s) (callState o s) = .go .blockInput (callState o s) := by rw [hid]; rfl
    rw [hv]
    exact (exec_syscall_of_service hok.1 hready hservice).trans (congrArg Host.Outcome.next (complete_input u))
  case output =>
    have hservice : service (operandValue o s) (callState o s) = .go .blockOutput (callState o s) := by rw [hid]; rfl
    rw [hv]
    exact (exec_syscall_of_service hok.1 hready hservice).trans (congrArg Host.Outcome.next (complete_output u))

/-- Settles O29: what an invalid call does is said by the policy. -/
theorem syscallInvalidId : Obligations.SyscallInvalidId := by
  unfold Obligations.SyscallInvalidId
  intro s o hok hready hid u
  have hcfg : u.cfg = s.cfg := operandAfter_cfg o s
  have hexec : exec (.syscall o) s = finish 12 (invalidCall u) :=
    exec_syscall_of_service hok.1 hready (service_of_invalid hid _)
  rw [hexec, ← hcfg]
  rcases invalidCall_cases u with ⟨hpol, he⟩ | ⟨hpol, he⟩ <;> rw [he, hpol]
  · exact ⟨fun _ => rfl, nofun⟩
  · exact ⟨nofun, fun _ => rfl⟩

/-! ### mem_free (R225, R243) -/

/-- Settles O30: the three answers of the service, each with the state it leaves. -/
theorem memFreeResult : Obligations.MemFreeResult := by
  unfold Obligations.MemFreeResult
  intro s o hok hready hid u size a n inHeap
  have answer {t : State} (h : memFreeService (callState o s) = .go .done t) :
      exec (.syscall o) s = .next (complete 12 .none (t.setMode .user)) := by
    rw [exec_syscall_of_service (reply := .done) hok.1 hready (by rw [hid]; exact h)]
    rfl
  have hcases := memFreeService_cases (callState o s)
  simp only [callState_cfg, callState_mem, callState_userFreeHead] at hcases
  rcases hcases with ⟨hbad, he⟩ | ⟨hgood, hout, he⟩ | ⟨hgood, hin, he⟩
  · exact ⟨fun _ => answer he, fun hgood => absurd hgood hbad, fun hgood => absurd hgood hbad⟩
  · exact ⟨fun hbad => absurd hgood hbad, fun _ _ => answer he, fun _ hin => absurd hin hout⟩
  · exact ⟨fun hbad => absurd hgood hbad, fun _ hout => absurd hin hout, fun _ _ => answer he⟩

/-! ### The frame (R222, R229) -/

/-- R122, R229: a call whose ID is neither mem_alloc's nor mem_free's changes no memory and no head, faults included. -/
theorem exec_syscall_mem {o : Operand} {s t : State} (hbits : 24 ≤ s.cfg.wordBits) (hw : s.cfg.IsWord (s.reg o.reg))
    (h4 : operandValue o s ≠ 4) (h5 : operandValue o s ≠ 5) (h : exec (.syscall o) s = .next t) :
    t.mem = s.mem ∧ t.userFreeHead = s.userFreeHead := by
  rcases execSyscall_cases o s with ⟨c, u, hr, he⟩ | ⟨p, u, hr, he⟩
  · obtain rfl := Host.Outcome.next.inj (he.symm.trans h)
    obtain ⟨-, hmem, -, -, hhead⟩ := (resolve_raise_effect hr).frame
    exact ⟨hmem, hhead⟩
  · obtain ⟨-, hmem, -, -, hhead⟩ := (resolve_go_effect hr).frame
    obtain ⟨-, rfl, -⟩ := resolve_eq_go hbits hw hr
    have hcall := callService_frame (operandValue o s) u
    rcases finish_eq_next.mp (he.symm.trans h) with ⟨io, v, hv, rfl⟩ | ⟨c, v, hv, rfl⟩
    · obtain ⟨m, k, rs, rfl, -, hsame⟩ := hcall.1 io v hv
      obtain ⟨rfl, rfl⟩ := hsame h4 h5
      exact ⟨(complete_mem ..).trans hmem, (complete_userFreeHead ..).trans hhead⟩
    · obtain ⟨-, rfl⟩ := hcall.2 c v hv
      exact ⟨hmem, hhead⟩

/-- R62, R229: a call writes nothing below the heap. -/
theorem exec_syscall_sameBelow {o : Operand} {s t : State} (h : exec (.syscall o) s = .next t) : SameBelow 4000 s t := by
  have hsame {u v : State} (hu : u.mem = s.mem) (huv : SameBelow 4000 u v) : SameBelow 4000 s v := fun a ha => by
    rw [huv a ha, hu]
  rcases execSyscall_cases o s with ⟨c, u, hr, he⟩ | ⟨p, u, hr, he⟩
  · obtain rfl := Host.Outcome.next.inj (he.symm.trans h)
    exact hsame (resolve_raise_effect hr).frame.2.1 (SameBelow.refl _ _)
  · have hmem := (resolve_go_effect hr).frame.2.1
    have hcall := sat_callService_above p.2 u
    rcases finish_eq_next.mp (he.symm.trans h) with ⟨io, v, hv, rfl⟩ | ⟨c, v, hv, rfl⟩
    · intro a ha
      rw [complete_mem]
      exact hsame hmem (hcall.1 io v hv) a ha
    · exact hsame hmem (hcall.2 c v hv)

/-- R229: the registers a call may change, and that `sp` stays. -/
theorem exec_syscall_regs {o : Operand} {s t : State} (h : exec (.syscall o) s = .next t) :
    RegsSameBut (s.cfg.resultReg :: steppedRegs o) s t ∧ t.sp = s.sp := by
  obtain ⟨x, hx, -, hreg⟩ := exec_effect (.syscall o) s
  rw [hx] at h
  rcases finish_eq_next.mp h with ⟨io, u, hu, rfl⟩ | ⟨c, u, hu, rfl⟩
  · obtain ⟨hr, hsp⟩ := hreg.1 io u hu
    exact ⟨hr.complete _ _, (complete_sp ..).trans (by simpa [Instr.opcode] using hsp)⟩
  · obtain ⟨hr, hsp⟩ := hreg.2 c u hu
    have hsp' : u.sp = s.sp := by simpa [Instr.opcode] using hsp
    exact ⟨hr.mono (steppedRegs_subset_writtenRegs s.cfg (.syscall o)), hsp'⟩

/-- R120, R123, R222: an instruction leaves the staging registers alone, and the mode, but for the User
mode after a call. -/
theorem exec_staging_mode {i : Instr} {s t : State} (h : exec i s = .next t) :
    SameStaging s t ∧ (t.mode = s.mode ∨ t.mode = .user) := by
  rcases exec_next h with ⟨io, u, rfl, hforget, -, hmode⟩ | ⟨c, u, rfl, hforget, -, -, hmode⟩
  · exact ⟨(sameStaging_of_forgetRun hforget).complete _ _, by rwa [complete_mode]⟩
  · exact ⟨(sameStaging_of_forgetRun hforget).takeFault c, hmode.imp_right And.right⟩

/-- Settles O32: the frame shared by all instructions, the registers of a call, and what its services write. -/
theorem syscallFrame : Obligations.SyscallFrame := by
  unfold Obligations.SyscallFrame
  intro s t o hok hregs h
  obtain ⟨hr, hsp⟩ := exec_syscall_regs h
  obtain ⟨hstaging, hmode⟩ := exec_staging_mode h
  exact ⟨hr, hsp, hstaging, exec_sameOs h, hmode, fun a ha => exec_syscall_sameBelow h a (by omega),
    fun h4 h5 => exec_syscall_mem hok.1 (hregs o.reg) h4 h5 h⟩

/-! ### mem_alloc (R222, R224, R242) -/

section MemAlloc

variable {o : Operand} {s t : State}

theorem memAllocService_of_accepted (h : SizeAccepted (s.reg s.cfg.sizeReg)) :
    memAllocService s = (allocate .user (s.reg s.cfg.sizeReg) s).bind fun r t =>
      .go .done (t.setReg t.cfg.resultReg (allocCode t.cfg.codes r)) := if_pos h

/-- R224: what mem_alloc asks the allocator for. -/
def allocSize (o : Operand) (s : State) : Int := (operandAfter o s).reg s.cfg.sizeReg

/-- R224: a mem_alloc call of an accepted size. -/
structure AllocCall (o : Operand) (s : State) : Prop where
  bits : 24 ≤ s.cfg.wordBits
  ready : operandReady o s
  id : operandValue o s = 4
  accepted : 1 ≤ allocSize o s ∧ allocSize o s ≤ 3000

/-- R222: the call's free list is that of the start. -/
theorem freeList_callState {bs : List (Int × Int)} (h : FreeList .user bs s) : FreeList .user bs (callState o s) :=
  h.congr_user (callState_mem o s) (callState_userFreeHead o s)

namespace AllocCall

variable (h : AllocCall o s)
include h

theorem service_eq : service (operandValue o s) (callState o s) =
    (allocate .user (allocSize o s) (callState o s)).bind fun r t =>
      .go .done (t.setReg t.cfg.resultReg (allocCode t.cfg.codes r)) := by
  have hsize : (callState o s).reg (callState o s).cfg.sizeReg = allocSize o s := by rw [callState_cfg]; rfl
  have haccepted : SizeAccepted ((callState o s).reg (callState o s).cfg.sizeReg) := by rw [hsize]; exact h.accepted
  rw [h.id, ← hsize]
  exact memAllocService_of_accepted haccepted

/-- R224: the allocator's answer is put into the result register. -/
theorem exec_of_go {r : AllocResult} (ht : allocate .user (allocSize o s) (callState o s) = .go r t) :
    exec (.syscall o) s =
      .next (complete 12 .none ((t.setMode .user).setReg s.cfg.resultReg (allocCode s.cfg.codes r))) := by
  have hcfg : t.cfg = s.cfg :=
    (field_of_forgetOs State.cfg (fun _ => rfl) ((osOnly_allocate ..).1 r t ht)).trans (callState_cfg o s)
  have hservice := h.service_eq
  rw [ht, Flow.bind_go, hcfg] at hservice
  rw [exec_syscall_of_service h.bits h.ready hservice]
  rfl

theorem exec_of_refuse {r : Refusal} (hr : allocate .user (allocSize o s) (callState o s) = .refuse r) :
    exec (.syscall o) s = .refused r := by
  have hservice := h.service_eq
  rw [hr, Flow.bind_refuse] at hservice
  rw [exec_syscall_of_ready h.bits h.ready, callService]
  exact congrArg (fun x => finish 12 (Flow.bind x _)) hservice

end AllocCall

end MemAlloc

/-- Settles O31: a call of an accepted size answers as the allocation does, in the state the resolution left. -/
theorem memAllocResult : Obligations.MemAllocResult := by
  unfold Obligations.MemAllocResult
  intro s o hok hwf hready hid u size n
  have hcall (hsize : 1 ≤ size ∧ size ≤ 3000) : AllocCall o s := ⟨hok.1, hready, hid, hsize⟩
  have hfirst {skipped rest : List (Int × Int)} {b : Int × Int} (hsize : 1 ≤ size ∧ size ≤ 3000)
      (hlist : FreeList .user (skipped ++ b :: rest) s) (hlength : skipped.length ≤ 1500)
      (hsmall : ∀ x ∈ skipped, x.2 < n) (hfits : n ≤ b.2) : FirstFit .user (allocSize o s) skipped b rest (callState o s) :=
    ⟨hsize.1, freeList_callState hlist, hlength, hsmall, hfits⟩
  refine ⟨fun hbad => ?invalid, fun hsize bs hlist hlength hsmall => ?none,
    fun hsize skipped b rest hlist hlength hsmall hn => ?taken,
    fun hsize skipped b rest hlist hlength hsmall hone => ?refused⟩
  case invalid =>
    have hrejected : ¬ SizeAccepted ((callState o s).reg (callState o s).cfg.sizeReg) := by
      rw [callState_cfg]
      exact hbad
    have hservice : service (operandValue o s) (callState o s) =
        .go .done ((callState o s).setReg s.cfg.resultReg s.cfg.codes.invalidSize) := by
      rw [hid, ← callState_cfg o s]
      exact if_neg hrejected
    exact exec_syscall_of_service hok.1 hready hservice
  case none =>
    exact (hcall hsize).exec_of_go (allocate_of_all_small hsize.1 (freeList_callState hlist) hlength hsmall)
  case taken =>
    have hfits : n ≤ b.2 := by omega
    have hwf' : (callState o s).mem.wf = true := by rwa [callState_mem]
    obtain ⟨t, ht, hlist', hmem⟩ := (hfirst hsize hlist hlength hsmall hfits).allocate_takes hwf' hn
    have hclock : t.clock = s.clock :=
      (field_of_forgetOs State.clock (fun _ => rfl) ((osOnly_allocate ..).1 _ t ht)).trans (callState_clock o s)
    have hexec := (hcall hsize).exec_of_go ht
    refine ⟨_, hexec, ?_, complete_mode .., ?_, (exec_syscall_regs hexec).1,
      hlist'.congr_user (complete_mem ..) (complete_userFreeHead ..),
      hmem.of_mem_eq (callState_mem o s) (complete_mem ..)⟩
    · rw [complete_reg, State.setReg_reg_same]
      rfl
    · rw [complete_clock, State.setReg_clock, State.setMode_clock, hclock]
      rfl
  case refused =>
    have hfits : n ≤ b.2 := by omega
    exact (hcall hsize).exec_of_refuse ((hfirst hsize hlist hlength hsmall hfits).allocate_refused hone)

end Sys2Proof.Machine

/-! # A blocking call puts its process into the Waiting Queue (R227, R228, R285, R291, R311)

Routing saves the context into the fields `GPR0` to `SAVED_PC` of the PCB and then writes its fields `REASON`, `STATE` and
`NEXT`. All of them lie in that PCB, so the links of the processes that wait already read as before. -/

namespace Sys2Proof.Machine

/-! ### What memory holds after the routing (R285, R291, R311) -/

/-- R291: memory with the context of `s` saved into the PCB at `p`. -/
def savedMem (p : Int) (s : State) : Memory := s.mem.writeBlock (p + 7) (s.regs.toList ++ [s.sp, s.pc])

/-- R285, R311: the words written after the context: the reason, the state and the link of the PCB at `p`. -/
def waitingWords (p reason : Int) (s : State) : List (Int × Int) :=
  [(p + 3, reason), (p + 2, s.cfg.codes.waiting), (p, s.wqHead)]

/-- Memory once the process of the PCB at `p` waits. -/
def waitingMem (p reason : Int) (s : State) : Memory := (savedMem p s).writeLines (waitingWords p reason s)

section Blocked

variable {p reason : Int} {s : State}

/-- R311: the routing of a process that asked for I/O. -/
theorem blockProcess_eq (hp : PcbInRange p) :
    blockProcess p reason s = .go () ((s.setMem (waitingMem p reason s)).setWqHead p) := by
  have hr := pcbInRange_iff.mp hp
  have hmem (k : Int) (h : 0 ≤ k ∧ k ≤ 17) : MemAddr (p + k) := memAddr_of_pcb hr (by omega) (by omega)
  unfold blockProcess insertWaiting
  rw [saveContext_eq (by omega) (by omega), Flow.bind_go, store_of_memAddr (hmem Pcb.reason (by simp)), Flow.bind_go,
    if_pos hp, store_of_memAddr (hmem Pcb.state (by simp)), Flow.bind_go, store_of_memAddr (hmem Pcb.next (by simp)),
    Flow.bind_go]
  simp only [Pcb.next, Int.add_zero]
  rfl

theorem wf_savedMem (hwf : s.mem.wf = true) (hp : PcbInRange p) : (savedMem p s).wf = true := by
  have hr := pcbInRange_iff.mp hp
  exact Memory.wf_writeBlock _ _ _ hwf (by omega) (by simp; omega)

/-- R285, R311: the words written after the context lie in front of field 4. -/
theorem read_waitingMem_saved (hp : PcbInRange p) {k : Int} (hk : 4 ≤ k) :
    (waitingMem p reason s).read (p + k).toNat = (savedMem p s).read (p + k).toNat := by
  have hr := pcbInRange_iff.mp hp
  refine Memory.read_writeLines_other _ _ ?_
  simp [waitingWords]
  omega

/-- R291: field `7 + k` of the PCB holds word `k` of the context. -/
theorem read_waitingMem_context (hwf : s.mem.wf = true) (hp : PcbInRange p) {k : Nat} (hk : k < 10) {a : Int}
    (ha : a = p + 7 + k) :
    (waitingMem p reason s).read a.toNat = (s.regs.toList ++ [s.sp, s.pc])[k]'(by simpa using hk) := by
  have hr := pcbInRange_iff.mp hp
  rw [ha, Int.add_assoc, read_waitingMem_saved hp (by omega), ← Int.add_assoc]
  exact Memory.read_writeBlock _ _ _ k _ hwf (by omega) (by simp; omega)

theorem read_waitingMem_words (hwf : s.mem.wf = true) (hp : PcbInRange p) :
    ∀ w ∈ waitingWords p reason s, (waitingMem p reason s).read w.1.toNat = w.2 := by
  have hr := pcbInRange_iff.mp hp
  refine Memory.read_writeLines_mem _ _ (wf_savedMem hwf hp) ?_ ?_
  · simp [waitingWords, memAddr_iff]
    omega
  · simp [waitingWords]

/-- Only the PCB changes. -/
theorem read_waitingMem_other (hp : PcbInRange p) {a : Nat} (ha : (a : Int) < p ∨ p + 18 ≤ a) :
    (waitingMem p reason s).read a = s.mem.read a := by
  have hr := pcbInRange_iff.mp hp
  refine (Memory.read_writeLines_other _ _ ?_).trans (Memory.read_writeBlock_other _ _ _ _ (by omega) ?_)
  · simp [waitingWords]
    omega
  · simp
    omega

/-- R285: the process is in front of those that waited already. -/
theorem queueChain_waitingMem {ps : List Int} (hwf : s.mem.wf = true) (hsound : SoundPcbs (p :: ps))
    (hchain : queueChain s.mem s.wqHead ps) : queueChain (waitingMem p reason s) p (p :: ps) := by
  have hp : PcbInRange p := hsound.1 p (List.mem_cons_self ..)
  have hlink : (waitingMem p reason s).read p.toNat = s.wqHead :=
    read_waitingMem_words hwf hp (p, s.wqHead) (by simp [waitingWords])
  simp only [queueChain, Pcb.next, Int.add_zero, hlink, true_and]
  refine (queueChain_congr ps _ fun q hq => ?_).mpr hchain
  have hq' := hsound.inRange (List.mem_cons_of_mem _ hq)
  have hapart := pcbsApart_iff.mp (hsound.apart (xs := [p]) (List.mem_singleton_self p) hq)
  exact read_waitingMem_other hp (by omega)

end Blocked

/-! ### The routing (R310, R311) -/

/-- R227, R228: the code of the event a blocking call waits for. -/
def waitReason (st : ExitStatus) (c : Codes) : Int := if st = .startOfInput then c.inputWait else c.outputWait

/-- The state the routing of a blocking call leaves. -/
def blockedState (reason : Int) (s : State) : State :=
  ((((s.setMode .os).setMem (waitingMem s.current reason s)).setWqHead s.current).setCurrent (-1)).setPhase .receive

theorem step_route_blocked {s : State} {st : ExitStatus} (hphase : s.phase = .route st)
    (hst : st = .startOfInput ∨ st = .startOfOutput) (hp : PcbInRange s.current) :
    step s = .next (blockedState (waitReason st s.cfg.codes) s) := by
  have hroute : route s.current st (s.setMode .os) =
      blockProcess s.current (waitReason st s.cfg.codes) (s.setMode .os) := by
    rcases hst with rfl | rfl <;> rfl
  simp only [step, hphase, routeStep]
  rw [hroute, blockProcess_eq hp, Flow.bind_go]
  rfl

/-- Settles O44: the routing writes only the PCB of the process, each word of it once. -/
theorem blockingCallWaits : Obligations.BlockingCallWaits := by
  unfold Obligations.BlockingCallWaits
  intro s st ps hphase hst hwf p hsound hchain
  have hp : PcbInRange p := hsound.1 p (List.mem_cons_self ..)
  let reason := waitReason st s.cfg.codes
  have hwords := read_waitingMem_words (reason := reason) hwf hp
  have hcontext {k : Nat} (hk : k < 10) {a : Int} (ha : a = p + 7 + k) :=
    read_waitingMem_context (reason := reason) hwf hp hk ha
  refine ⟨blockedState reason s, step_route_blocked hphase hst hp, rfl, rfl, queueChain_waitingMem hwf hsound hchain,
    fun r => ?_, ?_, ?_, ?_, ?_, rfl, rfl⟩
  · refine (hcontext (k := r.val) (by omega) rfl).trans ?_
    simp [State.reg]
  · refine (hcontext (k := 8) (by omega) (by omega)).trans ?_
    simp
  · refine (hcontext (k := 9) (by omega) (by omega)).trans ?_
    simp
  · exact hwords (p + 3, reason) (by simp [waitingWords])
  · exact hwords (p + 2, s.cfg.codes.waiting) (by simp [waitingWords])

end Sys2Proof.Machine

/-! # The two queues: insertion and removal (R283 to R287)

A queue is cut where the walk stops, into the entries before that place and those behind it. The insertion and the removal
are then each one list of written words: the PCB's own fields, and the link that leads to that place, which is the head's
where no entry is before it. Fields of different PCBs are different words, so every other word reads as before. -/

namespace Sys2Proof.Machine

/-! ### Frames of memory -/

theorem MemSameBut.word {as : List Int} {s t : State} (h : MemSameBut as s t) {a : Int} (h0 : 0 ≤ a) (ha : a ∉ as) :
    t.word a = s.word a := h _ (by rwa [Int.toNat_of_nonneg h0])

theorem MemSameBut.trans {as bs : List Int} {s t u : State} (h : MemSameBut as s t) (h' : MemSameBut bs t u) :
    MemSameBut (as ++ bs) s u := by
  intro a ha
  rw [List.mem_append, not_or] at ha
  exact (h' a ha.2).trans (h a ha.1)

theorem MemSameBut.mono {as bs : List Int} {s t : State} (h : MemSameBut as s t) (hsub : as ⊆ bs) :
    MemSameBut bs s t := fun a ha => h a fun hmem => ha (hsub hmem)

theorem memSameBut_writeLines {as : List Int} {s t : State} (ws : List (Int × Int)) (hws : ∀ w ∈ ws, MemAddr w.1)
    (has : ws.map Prod.fst ⊆ as) (ht : t.mem = s.mem.writeLines ws) : MemSameBut as s t := by
  intro a ha
  rw [ht]
  refine Memory.read_writeLines_other ws _ fun w hw haw => ha ?_
  rw [haw, Int.toNat_of_nonneg (hws w hw).1]
  exact has (List.mem_map_of_mem hw)

/-! ### Fields of PCBs -/

/-- Two fields of sound PCBs are the same word only if they are the same field of the same PCB. -/
theorem SoundPcbs.field_inj {ps : List Int} (h : SoundPcbs ps) {p q : Int} (hp : p ∈ ps) (hq : q ∈ ps) {j k : Int}
    (hj : 0 ≤ j ∧ j ≤ 17) (hk : 0 ≤ k ∧ k ≤ 17) (heq : p + j = q + k) : p = q ∧ j = k := by
  have hcases := pairwise_mem h.2 hp hq
  simp only [pcbsApart_iff] at hcases
  omega

theorem SoundPcbs.memAddr {ps : List Int} (h : SoundPcbs ps) {p k : Int} (hp : p ∈ ps) (hk : 0 ≤ k ∧ k ≤ 17) :
    MemAddr (p + k) := memAddr_of_pcb (h.inRange hp) (by omega) (by omega)

theorem SoundPcbs.ne {ps qs : List Int} (h : SoundPcbs (ps ++ qs)) {p q : Int} (hp : p ∈ ps) (hq : q ∈ qs) : p ≠ q := by
  have hapart := pcbsApart_iff.mp (h.apart hp hq)
  omega

theorem mem_of_mem_lastLink {ps : List Int} {q : Int} (h : q ∈ lastLink ps) : q ∈ ps :=
  List.mem_of_getLast? (mem_lastLink.mp h)

/-- An entry before the last one is another PCB. -/
theorem SoundPcbs.dropLast_ne {ps : List Int} (h : SoundPcbs ps) {q : Int} (hq : q ∈ ps.dropLast) : q ∉ lastLink ps := by
  rcases ps.eq_nil_or_concat' with rfl | ⟨front, x, rfl⟩
  · simp at hq
  · rw [List.dropLast_concat] at hq
    simpa [lastLink] using h.ne hq (List.mem_singleton_self x)

theorem SoundPcbs.of_middle {front back : List Int} {p : Int} (h : SoundPcbs (front ++ p :: back)) :
    SoundPcbs (p :: (front ++ back)) := by
  have hperm : (front ++ p :: back).Perm (p :: (front ++ back)) := List.perm_middle
  exact ⟨fun q hq => h.1 q (hperm.mem_iff.mpr hq), (hperm.pairwise_iff fun hxy => Or.symm hxy).mp h.2⟩

/-! ### The link behind the front part of a queue -/

/-- The word by which the entry behind `front` is linked to `k`; none where `front` is empty. -/
def linkWords (front : List Int) (k : Int) : List (Int × Int) := (lastLink front).map fun q => (q, k)

/-- The head of a queue, once what is behind `front` starts at `k`. -/
def linkHead (front : List Int) (k h : Int) : Int := if front = [] then k else h

@[simp] theorem linkWords_fst (front : List Int) (k : Int) : (linkWords front k).map Prod.fst = lastLink front := by
  simp [linkWords, Function.comp_def]

theorem mem_linkWords {front : List Int} {k : Int} {w : Int × Int} :
    w ∈ linkWords front k ↔ w.1 ∈ lastLink front ∧ w.2 = k := by
  obtain ⟨a, v⟩ := w
  simp [linkWords, eq_comm]

theorem pairwise_linkWords (front : List Int) (k : Int) : (linkWords front k).Pairwise fun x y => x.1 ≠ y.1 := by
  rcases front.eq_nil_or_concat' with rfl | ⟨front, x, rfl⟩ <;> simp [linkWords, lastLink]

theorem queueChain_eq_headD {m : Memory} {k : Int} {ps : List Int} (h : queueChain m k ps) : k = ps.headD (-1) := by
  cases ps with
  | nil => exact h
  | cons p ps => exact (queueChain_head h).1

/-- A queue whose words changed only in the link behind its front part. -/
theorem queueChain_linkHead {m m' : Memory} {front back back' : List Int} {h k : Int} (hsound : SoundPcbs front)
    (hchain : queueChain m h (front ++ back)) (hlink : ∀ q ∈ lastLink front, m'.read q.toNat = k)
    (hkeep : ∀ q ∈ front, q ∉ lastLink front → m'.read q.toNat = m.read q.toNat) (hback : queueChain m' k back') :
    queueChain m' (linkHead front k h) (front ++ back') :=
  queueChain_relink hback front h hchain (fun q hq => hkeep q (List.mem_of_mem_dropLast hq) (hsound.dropLast_ne hq))
    fun q hq => hlink q (mem_lastLink.mpr hq)

/-! ### InsertReady (R284) -/

/-- The PCB at `p` belongs into the Ready Queue between `front` and `back`: behind the entries of at least its priority
and before the first of lower priority. -/
structure ReadyAt (p : Int) (front back : List Int) (s : State) : Prop where
  memory : s.mem.wf = true
  sound : SoundPcbs (p :: (front ++ back))
  short : (front ++ back).length ≤ 166
  chain : queueChain s.mem s.rqHead (front ++ back)
  atLeast : ∀ q ∈ front, s.word (p + 4) ≤ s.word (q + 4)
  lower : ∀ q ∈ back.head?, s.word (q + 4) < s.word (p + 4)

/-- The words InsertReady writes, in order. -/
def readyWords (p : Int) (front back : List Int) (cfg : Params) : List (Int × Int) :=
  (p + 2, cfg.codes.ready) :: (p, back.headD (-1)) :: linkWords front p

/-- The state InsertReady leaves. -/
def readied (p : Int) (front back : List Int) (s : State) : State :=
  (s.setMem (s.mem.writeLines (readyWords p front back s.cfg))).setRqHead (linkHead front p s.rqHead)

theorem linkReady_eq {front : List Int} (h : SoundPcbs front) (p : Int) (s : State) :
    linkReady (front.getLastD (-1)) p s =
      .go () ((s.setMem (s.mem.writeLines (linkWords front p))).setRqHead (linkHead front p s.rqHead)) := by
  rcases front.eq_nil_or_concat' with rfl | ⟨front, x, rfl⟩
  · rfl
  · have hx := h.inRange (p := x) (by simp)
    have hne : x ≠ -1 := by omega
    have hmem : MemAddr x := memAddr_of_pcb hx (by omega) (by omega)
    simp [linkReady, linkWords, linkHead, lastLink, hne, hmem]
    rfl

namespace ReadyAt

variable {p : Int} {front back : List Int} {s t : State}

theorem inRange (h : ReadyAt p front back s) : 7000 ≤ p ∧ p + 17 ≤ 9999 := h.sound.inRange (List.mem_cons_self ..)

theorem soundFront (h : ReadyAt p front back s) : SoundPcbs front :=
  h.sound.sub ((List.sublist_append_left ..).trans (List.sublist_cons_self ..))

/-- Every entry of the queue is another PCB. -/
theorem ne (h : ReadyAt p front back s) {q : Int} (hq : q ∈ front ++ back) : p ≠ q :=
  h.sound.ne (ps := [p]) (List.mem_singleton_self p) hq

/-- No field of the PCB is the link of an entry of the queue. -/
theorem field_ne (h : ReadyAt p front back s) {q k : Int} (hq : q ∈ front ++ back) (hk : 0 ≤ k ∧ k ≤ 17) :
    p + k ≠ q := fun heq =>
  h.ne hq (h.sound.field_inj (k := 0) (List.mem_cons_self ..) (List.mem_cons_of_mem _ hq) hk (by omega) (by omega)).1

/-- The place depends on the links of the queue and on the priorities only. -/
theorem of_same (h : ReadyAt p front back s) (hwf : t.mem.wf = true) (hhead : t.rqHead = s.rqHead)
    (hlink : ∀ q ∈ front ++ back, t.word q = s.word q)
    (hprio : ∀ q ∈ p :: (front ++ back), t.word (q + 4) = s.word (q + 4)) : ReadyAt p front back t where
  memory := hwf
  sound := h.sound
  short := h.short
  chain := by
    rw [hhead]
    exact (queueChain_congr _ _ hlink).mpr h.chain
  atLeast q hq := by
    rw [hprio p (by simp), hprio q (by simp [hq])]
    exact h.atLeast q hq
  lower q hq := by
    rw [hprio p (by simp), hprio q (by simp [List.mem_of_mem_head? hq])]
    exact h.lower q hq

/-- Marking the PCB Ready changes neither a link of the queue nor a priority. -/
theorem marked (h : ReadyAt p front back s) (v : Int) :
    ReadyAt p front back (s.setMem (s.mem.write (p + 2).toNat v)) := by
  have hp := h.inRange
  have hmem : MemAddr (p + 2) := memAddr_of_pcb hp (by omega) (by omega)
  have hsame : MemSameBut [p + 2] s (s.setMem (s.mem.write (p + 2).toNat v)) :=
    memSameBut_write (MemSameBut.refl _ s) (by simp) hmem.1 rfl
  have hkeep {q : Int} (hq : q ∈ p :: (front ++ back)) (k : Int) (hk : 0 ≤ k ∧ k ≤ 17) (hne : p = q → k ≠ 2) :
      (s.setMem (s.mem.write (p + 2).toNat v)).word (q + k) = s.word (q + k) := by
    refine hsame.word (h.sound.memAddr hq hk).1 fun heq => ?_
    have hfield := h.sound.field_inj hq (List.mem_cons_self ..) hk (by omega) (List.mem_singleton.mp heq)
    exact hne hfield.1.symm hfield.2
  refine h.of_same (Memory.wf_write_memAddr v h.memory hmem) rfl (fun q hq => ?_) fun q hq => ?_
  · simpa using hkeep (List.mem_cons_of_mem _ hq) 0 (by omega) (by omega)
  · exact hkeep hq 4 (by omega) (by omega)

/-- The walk stops behind `front`. -/
theorem readyPlace_eq (h : ReadyAt p front back s) :
    readyPlace (s.mem.read (p + Pcb.priority).toNat) queueFuel Config.endOfList s.rqHead s =
      .go (front.getLastD (-1), back.headD (-1)) s := by
  have hfuel : queueFuel = front.length + (10000 - front.length + 1) := by
    have hshort := h.short
    simp only [queueFuel, Config.memSize, List.length_append] at hshort ⊢
    omega
  obtain ⟨k, hk, hwalk⟩ := readyPlace_skip front (10000 - front.length + 1) (-1) s.rqHead h.chain
    (fun q hq => h.soundFront.inRange hq) h.atLeast
  rw [hfuel]
  refine hwalk.trans ?_
  rw [queueChain_eq_headD hk]
  cases back with
  | nil => exact readyPlace_end
  | cons q back => exact readyPlace_here (h.sound.inRange (by simp)) (h.lower q rfl)

/-- R284: what InsertReady does. -/
theorem insertReady_eq (h : ReadyAt p front back s) : insertReady p s = .go () (readied p front back s) := by
  have hmem (k : Int) (hk : 0 ≤ k ∧ k ≤ 17) : MemAddr (p + k) := h.sound.memAddr (List.mem_cons_self ..) hk
  have hmarked := h.marked s.cfg.codes.ready
  unfold insertReady
  rw [if_pos (pcbInRange_iff.mpr h.inRange), store_of_memAddr (hmem Pcb.state (by simp)), Flow.bind_go,
    load_of_memAddr (hmem Pcb.priority (by simp)), Flow.bind_go,
    hmarked.readyPlace_eq, Flow.bind_go, store_of_memAddr (hmem Pcb.next (by simp)), Flow.bind_go,
    linkReady_eq h.soundFront]
  simp [readied, readyWords, State.setMem_setMem]

theorem readyWords_memAddr (h : ReadyAt p front back s) : ∀ w ∈ readyWords p front back s.cfg, MemAddr w.1 := by
  have hp := h.inRange
  refine List.forall_mem_cons.mpr ⟨memAddr_of_pcb hp (by simp) (by simp), List.forall_mem_cons.mpr
    ⟨memAddr_of_pcb hp (by simp) (by simp), fun w hw => ?_⟩⟩
  have hw := h.soundFront.inRange (mem_of_mem_lastLink (mem_linkWords.mp hw).1)
  exact memAddr_of_pcb hw (by omega) (by omega)

/-- Each word InsertReady writes is written once. -/
theorem read_readied (h : ReadyAt p front back s) :
    ∀ w ∈ readyWords p front back s.cfg, (readied p front back s).word w.1 = w.2 := by
  have hlink {w : Int × Int} (hw : w ∈ linkWords front p) : w.1 ∈ front ++ back :=
    List.mem_append_left _ (mem_of_mem_lastLink (mem_linkWords.mp hw).1)
  refine Memory.read_writeLines_mem _ _ h.memory h.readyWords_memAddr ?_
  refine List.pairwise_cons.mpr ⟨List.forall_mem_cons.mpr ⟨by simp, fun w hw => ?_⟩, List.pairwise_cons.mpr
    ⟨fun w hw => ?_, pairwise_linkWords front p⟩⟩
  · exact h.field_ne (hlink hw) (by omega)
  · simpa using h.field_ne (k := 0) (hlink hw) (by omega)

theorem memSameBut_readied (h : ReadyAt p front back s) :
    MemSameBut (lastLink front ++ [p, p + 2]) s (readied p front back s) := by
  refine memSameBut_writeLines _ h.readyWords_memAddr ?_ rfl
  intro a
  simp [readyWords]
  tauto

/-- R284: the PCB stands in its place. -/
theorem chain_readied (h : ReadyAt p front back s) :
    queueChain (readied p front back s).mem (readied p front back s).rqHead (front ++ p :: back) := by
  have hread := h.read_readied
  have hkeep {q : Int} (hq : q ∈ front ++ back) (hlink : q ∉ lastLink front) :
      (readied p front back s).word q = s.word q := by
    have hqr := h.sound.inRange (List.mem_cons_of_mem _ hq)
    refine h.memSameBut_readied.word (by omega) fun hmem => ?_
    have h0 := h.field_ne (k := 0) hq (by omega)
    have h2 := h.field_ne (k := 2) hq (by omega)
    simp only [List.mem_append, hlink, false_or, List.mem_cons, List.not_mem_nil, or_false] at hmem
    omega
  refine queueChain_linkHead h.soundFront h.chain (fun q hq => ?_) (fun q hq hlink => ?_) ⟨rfl, ?_⟩
  · exact hread (q, p) (by simp [readyWords, mem_linkWords, hq])
  · exact hkeep (List.mem_append_left _ hq) hlink
  · obtain ⟨k, hk, -⟩ := queueChain_suffix front _ h.chain
    have hnext : (readied p front back s).mem.read (p + Pcb.next).toNat = back.headD (-1) := by
      rw [Pcb.next, Int.add_zero]
      exact hread (p, _) (List.mem_cons_of_mem _ (List.mem_cons_self ..))
    rw [hnext, ← queueChain_eq_headD hk]
    refine (queueChain_congr back k fun q hq => ?_).mpr hk
    have hsound : SoundPcbs (front ++ back) := h.sound.sub (List.sublist_cons_self ..)
    exact hkeep (List.mem_append_right _ hq) fun hlink => hsound.ne (mem_of_mem_lastLink hlink) hq rfl

end ReadyAt

/-- Settles O40: the walk stops at the place, and what it inserts there is said by `readied`; the range test comes first. -/
theorem insertReadyKeepsOrder : Obligations.InsertReadyKeepsOrder := by
  unfold Obligations.InsertReadyKeepsOrder
  refine ⟨fun s p front back hwf hsound hshort hchain hfront hback => ?_, fun s p hp => ?_⟩
  · have h : ReadyAt p front back s := ⟨hwf, hsound, hshort, hchain, hfront, hback⟩
    exact ⟨_, h.insertReady_eq, h.chain_readied, h.read_readied (p + 2, _) (by simp [readyWords]),
      h.memSameBut_readied, rfl⟩
  · have hp : ¬ PcbInRange p := mt pcbInRange_iff.mp hp
    exact ⟨if_neg hp, if_neg hp⟩

end Sys2Proof.Machine

/-! # RemoveWaiting: the waiting process of an ID (R287)

The walk passes over the entries of other IDs. At its end nothing has changed; at the entry it looks for, the link that led
there leads on to the next entry, and the entry's own link is ended. -/

namespace Sys2Proof.Machine

/-- R287: the walk stands at what follows the entries of other processes. -/
theorem removeWaiting_walks {pid : Int} {s : State} {front back : List Int} (hsound : SoundPcbs front)
    (hshort : front.length ≤ 166) (hchain : queueChain s.mem s.wqHead (front ++ back))
    (hothers : ∀ q ∈ front, s.word (q + 1) ≠ pid) :
    ∃ fuel, removeWaiting pid s = removeWalk pid (fuel + 1) (front.getLastD (-1)) (back.headD (-1)) s := by
  have hfuel : queueFuel = front.length + (10000 - front.length + 1) := by
    simp only [queueFuel, Config.memSize]
    omega
  obtain ⟨k, hk, hwalk⟩ := removeWalk_skip front (10000 - front.length + 1) (-1) s.wqHead hchain
    (fun q hq => hsound.inRange hq) hothers
  refine ⟨10000 - front.length, ?_⟩
  rw [removeWaiting, hfuel, ← queueChain_eq_headD hk]
  exact hwalk

/-- R287: no process of the ID waits. -/
theorem removeWaiting_none {pid : Int} {s : State} {ps : List Int} (hsound : SoundPcbs ps) (hshort : ps.length ≤ 166)
    (hchain : queueChain s.mem s.wqHead ps) (hothers : ∀ q ∈ ps, s.word (q + 1) ≠ pid) :
    removeWaiting pid s = .go (-1) s := by
  rw [← List.append_nil ps] at hchain
  obtain ⟨fuel, hwalk⟩ := removeWaiting_walks hsound hshort hchain hothers
  exact hwalk.trans removeWalk_end

/-- The PCB at `p` is the first of the process ID `pid` in the Waiting Queue, behind `front` and before `back`. -/
structure WaitsAt (pid p : Int) (front back : List Int) (s : State) : Prop where
  memory : s.mem.wf = true
  sound : SoundPcbs (front ++ p :: back)
  short : (front ++ p :: back).length ≤ 166
  chain : queueChain s.mem s.wqHead (front ++ p :: back)
  others : ∀ q ∈ front, s.word (q + 1) ≠ pid
  own : s.word (p + 1) = pid

/-- The words RemoveWaiting writes at `p`, whose link is `next`, in order. -/
def unlinkWords (p next : Int) (front : List Int) : List (Int × Int) := linkWords front next ++ [(p, -1)]

/-- The state RemoveWaiting leaves at `p`. -/
def unlinked (p : Int) (front : List Int) (s : State) : State :=
  (s.setMem (s.mem.writeLines (unlinkWords p (s.word p) front))).setWqHead (linkHead front (s.word p) s.wqHead)

theorem unlinkWaiting_eq {p : Int} {front : List Int} (h : SoundPcbs front) (hp : MemAddr p) (s : State) :
    unlinkWaiting (front.getLastD (-1)) p s = .go () (unlinked p front s) := by
  rcases front.eq_nil_or_concat' with rfl | ⟨front, x, rfl⟩
  · simp [unlinkWaiting, hp]
    rfl
  · have hx := h.inRange (p := x) (by simp)
    have hne : x ≠ -1 := by omega
    have hmem : MemAddr x := memAddr_of_pcb hx (by omega) (by omega)
    simp [unlinkWaiting, unlinked, unlinkWords, linkWords, linkHead, lastLink, hne, hmem, hp, State.setMem_setMem]
    rfl

namespace WaitsAt

variable {pid p : Int} {front back : List Int} {s : State}

theorem inRange (h : WaitsAt pid p front back s) : 7000 ≤ p ∧ p + 17 ≤ 9999 := h.sound.inRange (by simp)

theorem memAddr (h : WaitsAt pid p front back s) : MemAddr p := memAddr_of_pcb h.inRange (by omega) (by omega)

theorem soundFront (h : WaitsAt pid p front back s) : SoundPcbs front := h.sound.sub (List.sublist_append_left ..)

/-- Every other entry of the queue is another PCB. -/
theorem ne (h : WaitsAt pid p front back s) {q : Int} (hq : q ∈ front ++ back) : p ≠ q :=
  h.sound.of_middle.ne (ps := [p]) (List.mem_singleton_self p) hq

/-- R287: what RemoveWaiting does. -/
theorem removeWaiting_eq (h : WaitsAt pid p front back s) :
    removeWaiting pid s = .go p (unlinked p front s) := by
  have hshort := h.short
  rw [List.length_append] at hshort
  obtain ⟨fuel, hwalk⟩ := removeWaiting_walks h.soundFront (by omega) h.chain h.others
  rw [hwalk, List.headD_cons, removeWalk_here h.inRange h.own, unlinkWaiting_eq h.soundFront h.memAddr]
  rfl

theorem unlinkWords_memAddr (h : WaitsAt pid p front back s) (next : Int) :
    ∀ w ∈ unlinkWords p next front, MemAddr w.1 := by
  refine List.forall_mem_append.mpr ⟨fun w hw => ?_, by simpa using h.memAddr⟩
  have hw := h.soundFront.inRange (mem_of_mem_lastLink (mem_linkWords.mp hw).1)
  exact memAddr_of_pcb hw (by omega) (by omega)

/-- Each word RemoveWaiting writes is written once. -/
theorem read_unlinked (h : WaitsAt pid p front back s) :
    ∀ w ∈ unlinkWords p (s.word p) front, (unlinked p front s).word w.1 = w.2 := by
  refine Memory.read_writeLines_mem _ _ h.memory (h.unlinkWords_memAddr _) ?_
  refine List.pairwise_append.mpr ⟨pairwise_linkWords .., List.pairwise_singleton .., fun x hx y hy => ?_⟩
  rw [List.mem_singleton.mp hy]
  exact (h.ne (List.mem_append_left _ (mem_of_mem_lastLink (mem_linkWords.mp hx).1))).symm

theorem memSameBut_unlinked (h : WaitsAt pid p front back s) :
    MemSameBut (lastLink front ++ [p]) s (unlinked p front s) :=
  memSameBut_writeLines _ (h.unlinkWords_memAddr _) (by simp [unlinkWords]) rfl

theorem wf_unlinked (h : WaitsAt pid p front back s) : (unlinked p front s).mem.wf = true :=
  Memory.wf_writeLines _ _ h.memory (h.unlinkWords_memAddr _)

/-- R287: the rest of the queue stays in its order. -/
theorem chain_unlinked (h : WaitsAt pid p front back s) :
    queueChain (unlinked p front s).mem (unlinked p front s).wqHead (front ++ back) := by
  have hkeep {q : Int} (hq : q ∈ front ++ back) (hlink : q ∉ lastLink front) :
      (unlinked p front s).word q = s.word q := by
    have hqr := h.sound.of_middle.inRange (List.mem_cons_of_mem _ hq)
    refine h.memSameBut_unlinked.word (by omega) fun hmem => ?_
    rcases List.mem_append.mp hmem with hmem | hmem
    · exact hlink hmem
    · exact h.ne hq (List.mem_singleton.mp hmem).symm
  refine queueChain_linkHead h.soundFront h.chain (fun q hq => ?_) (fun q hq hlink => ?_) ?_
  · exact h.read_unlinked (q, s.word p) (List.mem_append_left _ (mem_linkWords.mpr ⟨hq, rfl⟩))
  · exact hkeep (List.mem_append_left _ hq) hlink
  · obtain ⟨k, hk, -⟩ := queueChain_suffix front _ h.chain
    refine (queueChain_congr back _ fun q hq => ?_).mpr (queueChain_head hk).2
    have hsound : SoundPcbs (front ++ back) := h.sound.of_middle.sub (List.sublist_cons_self ..)
    exact hkeep (List.mem_append_right _ hq) fun hlink => hsound.ne (mem_of_mem_lastLink hlink) hq rfl

end WaitsAt

/-- Settles O41: the walk finds no entry of the ID, or it stops at the first one, which `unlinked` takes out. -/
theorem removeWaitingUnlinks : Obligations.RemoveWaitingUnlinks := by
  unfold Obligations.RemoveWaitingUnlinks
  rintro s pid front back hwf hshort hsound hchain hothers
  constructor
  · rintro rfl
    rw [List.append_nil] at hshort hsound hchain
    exact removeWaiting_none hsound hshort hchain hothers
  · rintro p ps rfl hown
    have h : WaitsAt pid p front ps s := ⟨hwf, hsound, hshort, hchain, hothers, hown⟩
    exact ⟨_, h.removeWaiting_eq, h.chain_unlinked, h.read_unlinked (p, -1) (by simp [unlinkWords]),
      h.memSameBut_unlinked, rfl⟩

end Sys2Proof.Machine

/-! # The context switch: save, dispatch, and the requeue of an expired slice (R290 to R293, R311)

The saved context is the fields `GPR0` to `SAVED_PC` of one PCB. It holds no link and no priority, so the place of that PCB
in the Ready Queue is the same before and after the save, and the insertion writes none of it. -/

namespace Sys2Proof.Machine

/-! ### What a saved context is read back as (R291, R292) -/

section Saved

variable {p : Int} {s : State}

/-- R291: word `k` of the saved context, in memory. -/
theorem read_savedMem (hwf : s.mem.wf = true) (h0 : 0 ≤ p + 7) (h1 : p + 16 ≤ 9999) {k : Nat} (hk : k < 10) :
    (savedMem p s).read (p + 7 + k).toNat = (s.regs.toList ++ [s.sp, s.pc])[k]'(by simpa using hk) :=
  Memory.read_writeBlock _ _ _ k _ hwf h0 (by simp; omega)

theorem read_savedMem_reg (hwf : s.mem.wf = true) (h0 : 0 ≤ p + 7) (h1 : p + 16 ≤ 9999) (r : Fin 8) :
    (savedMem p s).read (p + 7 + (r.val : Int)).toNat = s.reg r := by
  rw [read_savedMem hwf h0 h1 (by omega)]
  simp [State.reg]

theorem read_savedMem_sp (hwf : s.mem.wf = true) (h0 : 0 ≤ p + 7) (h1 : p + 16 ≤ 9999) :
    (savedMem p s).read (p + 15).toNat = s.sp := by
  have hread := read_savedMem (k := 8) hwf h0 h1 (by omega)
  rw [show p + 7 + (8 : Nat) = p + 15 by omega] at hread
  rw [hread]
  simp

theorem read_savedMem_pc (hwf : s.mem.wf = true) (h0 : 0 ≤ p + 7) (h1 : p + 16 ≤ 9999) :
    (savedMem p s).read (p + 16).toNat = s.pc := by
  have hread := read_savedMem (k := 9) hwf h0 h1 (by omega)
  rw [show p + 7 + (9 : Nat) = p + 16 by omega] at hread
  rw [hread]
  simp

/-- R292, R293: the registers a dispatch reads are those that were saved. -/
theorem savedRegs_savedMem (hwf : s.mem.wf = true) (h0 : 0 ≤ p + 7) (h1 : p + 16 ≤ 9999) :
    savedRegs p (savedMem p s) = s.regs := by
  refine Vector.ext fun i hi => ?_
  exact (savedRegs_get p _ ⟨i, hi⟩).trans (read_savedMem_reg hwf h0 h1 ⟨i, hi⟩)

theorem read_savedMem_other (h0 : 0 ≤ p + 7) {a : Nat} (ha : (a : Int) < p + 7 ∨ p + 17 ≤ a) :
    (savedMem p s).read a = s.mem.read a :=
  Memory.read_writeBlock_other _ _ _ _ h0 (by simp; omega)

/-- The addresses of a saved context. -/
theorem mem_contextAddrs {a : Int} :
    a ∈ (List.range 10).map (fun k => p + 7 + (k : Int)) ↔ p + 7 ≤ a ∧ a ≤ p + 16 := by
  simp only [List.mem_map, List.bind_eq_flatMap, List.mem_flatMap, List.mem_range, List.pure_def, List.mem_singleton]
  constructor
  · rintro ⟨_, ⟨k, hk, rfl⟩, rfl⟩
    omega
  · exact fun ⟨h1, h2⟩ => ⟨a - p - 7, ⟨(a - p - 7).toNat, by omega, by omega⟩, by omega⟩

end Saved

/-- Settles O39: the dispatch reads the ten words of the context, each of which holds what was saved. -/
theorem saveThenDispatchRestores : Obligations.SaveThenDispatchRestores := by
  unfold Obligations.SaveThenDispatchRestores
  intro s p hwf h7 h16
  have h0 : 0 ≤ p + 7 := h7.1
  have h1 : p + 16 ≤ 9999 := Int.lt_add_one_iff.mp h16.2
  refine ⟨s.setMem (savedMem p s), saveContext_eq h0 (by omega), fun a ha => ?_, fun u hu => ?_⟩
  · rw [mem_contextAddrs] at ha
    exact read_savedMem_other h0 (by omega)
  · have hmem : u.mem = savedMem p s := hu
    have hregs : savedRegs p u.mem = s.regs := hmem ▸ savedRegs_savedMem hwf h0 h1
    have hsp : u.word (p + 15) = s.sp := by rw [State.word, hmem, read_savedMem_sp hwf h0 h1]
    have hpc : u.word (p + 16) = s.pc := by rw [State.word, hmem, read_savedMem_pc hwf h0 h1]
    rw [dispatch_eq h0 h1, hregs, hsp, hpc]
    rfl

/-! ### The requeue of an expired slice (R290, R311) -/

section Expired

variable {p : Int} {front back : List Int} {s : State}

/-- Saving the context of the PCB does not move its place. -/
theorem ReadyAt.saved (h : ReadyAt p front back s) : ReadyAt p front back (s.setMem (savedMem p s)) := by
  have hp := h.inRange
  have hkeep {q k : Int} (hq : q ∈ p :: (front ++ back)) (hk : 0 ≤ k ∧ k ≤ 4) :
      (s.setMem (savedMem p s)).word (q + k) = s.word (q + k) := by
    have hcases := pairwise_mem h.sound.2 hq (List.mem_cons_self ..)
    have hqr := h.sound.inRange hq
    simp only [pcbsApart_iff] at hcases
    exact read_savedMem_other (by omega) (by omega)
  refine h.of_same (wf_savedMem h.memory (pcbInRange_iff.mpr hp)) rfl (fun q hq => ?_) fun q hq => hkeep hq (by omega)
  simpa using hkeep (k := 0) (List.mem_cons_of_mem _ hq) (by omega)

/-- The insertion writes no field of the PCB but `NEXT` and `STATE`, so none of the saved context. -/
theorem ReadyAt.word_context (h : ReadyAt p front back s) {k : Int} (hk : 3 ≤ k ∧ k ≤ 17) :
    (readied p front back s).word (p + k) = s.word (p + k) := by
  have hp := h.inRange
  refine h.memSameBut_readied.word (by omega) fun hmem => ?_
  rcases List.mem_append.mp hmem with hlink | hfield
  · exact h.field_ne (List.mem_append_left _ (mem_of_mem_lastLink hlink)) (by omega) rfl
  · simp at hfield
    omega

/-- The state the routing of an expired slice leaves: the context saved, the process in its place in the queue. -/
def requeued (p : Int) (front back : List Int) (s : State) : State :=
  ((readied p front back ((s.setMode .os).setMem (savedMem p s))).setCurrent (-1)).setPhase .receive

theorem step_route_expired (hphase : s.phase = .route .timeSliceExpired) (h : ReadyAt s.current front back s) :
    step s = .next (requeued s.current front back s) := by
  have hp := h.inRange
  have hsaved : ReadyAt s.current front back ((s.setMode .os).setMem (savedMem s.current s)) :=
    h.saved.of_same h.saved.memory rfl (fun _ _ => rfl) fun _ _ => rfl
  have hroute : route s.current .timeSliceExpired (s.setMode .os) =
      .go () (readied s.current front back ((s.setMode .os).setMem (savedMem s.current s))) := by
    rw [route, saveContext_eq (by omega) (by omega), Flow.bind_go]
    exact hsaved.insertReady_eq
  simp only [step, hphase, routeStep]
  rw [hroute, Flow.bind_go]
  rfl

end Expired

/-- Settles O43: the saved context and the inserted PCB, word by word. -/
theorem expiredSliceRequeues : Obligations.ExpiredSliceRequeues := by
  unfold Obligations.ExpiredSliceRequeues
  intro s front back hphase hwf p hsound hshort hchain hfront hback
  have h : ReadyAt p front back s := ⟨hwf, hsound, hshort, hchain, hfront, hback⟩
  have hp := h.inRange
  have h0 : 0 ≤ p + 7 := by omega
  have h1 : p + 16 ≤ 9999 := by omega
  have hcontext {k : Int} (hk : 3 ≤ k ∧ k ≤ 17) : (requeued p front back s).word (p + k) = _ :=
    h.saved.word_context hk
  refine ⟨requeued p front back s, step_route_expired hphase h, rfl, rfl, h.saved.chain_readied, fun r => ?_,
    (hcontext (by omega)).trans (read_savedMem_sp hwf h0 h1), (hcontext (by omega)).trans (read_savedMem_pc hwf h0 h1),
    h.saved.read_readied (p + 2, _) (by simp [readyWords]), rfl, rfl, rfl, rfl, rfl⟩
  rw [Int.add_assoc]
  refine (hcontext (by omega)).trans ?_
  rw [← Int.add_assoc]
  exact read_savedMem_reg hwf h0 h1 r

end Sys2Proof.Machine

/-! # Completion interrupts (R284, R287, R304, R305)

A completion takes the waiting process out of its queue, writes or sends its saved character, and inserts it into the Ready
Queue. The PCBs of both queues share no word, so what the first two parts write leaves the place in the Ready Queue alone,
and the insertion leaves the rest of the Waiting Queue alone. -/

namespace Sys2Proof.Machine

/-! ### What the console is sent -/

@[simp] theorem readied_outbox (p : Int) (front back : List Int) (s : State) :
    (readied p front back s).outbox = s.outbox := rfl

@[simp] theorem unlinked_outbox (p : Int) (front : List Int) (s : State) : (unlinked p front s).outbox = s.outbox := rfl

/-! ### The process that waits -/

/-- R304, R305: the address of the saved character register of the PCB at `p`. -/
def charAddr (p : Int) (s : State) : Int := p + 7 + (s.cfg.charReg.val : Int)

/-- The process of the PCB at `p` waits between `front` and `back`, and belongs into the Ready Queue between `above` and
`below`. -/
structure WakesAt (pid p : Int) (front back above below : List Int) (s : State) : Prop where
  waits : WaitsAt pid p front back s
  ready : ReadyAt p above below s
  sound : SoundPcbs (front ++ p :: back ++ (above ++ below))

/-- What is left between the removal and the insertion: the process is out of the Waiting Queue, and besides the words of
the removal only its saved character register may have changed. -/
structure Woken (p : Int) (front : List Int) (s v : State) : Prop where
  memory : v.mem.wf = true
  rqHead : v.rqHead = s.rqHead
  wqHead : v.wqHead = (unlinked p front s).wqHead
  cfg : v.cfg = s.cfg
  same : MemSameBut [charAddr p s] (unlinked p front s) v

section Wakes

variable {pid p : Int} {front back above below : List Int} {s v : State}

theorem charAddr_bounds (p : Int) (s : State) : p + 7 ≤ charAddr p s ∧ charAddr p s ≤ p + 14 := by
  unfold charAddr
  omega

theorem charAddr_unlinked : p + Pcb.gpr0 + ((unlinked p front s).cfg.charReg.val : Int) = charAddr p s := rfl

theorem WakesAt.memAddr_char (h : WakesAt pid p front back above below s) : MemAddr (charAddr p s) := by
  have hchar := charAddr_bounds p s
  exact memAddr_of_pcb h.waits.inRange (by omega) (by omega)

/-- R304: the character written into the saved register. -/
theorem WakesAt.woken_store (h : WakesAt pid p front back above below s) (ch : Int) :
    Woken p front s ((unlinked p front s).setMem ((unlinked p front s).mem.write (charAddr p s).toNat ch)) where
  memory := Memory.wf_write_memAddr ch h.waits.wf_unlinked h.memAddr_char
  rqHead := rfl
  wqHead := rfl
  cfg := rfl
  same := memSameBut_write (MemSameBut.refl _ _) (List.mem_singleton_self _) h.memAddr_char.1 rfl

/-- R305: the character sent to the console. -/
theorem WakesAt.woken_emit (h : WakesAt pid p front back above below s) (o : HostOutput) :
    Woken p front s ((unlinked p front s).emit o) where
  memory := h.waits.wf_unlinked
  rqHead := rfl
  wqHead := rfl
  cfg := rfl
  same := fun _ _ => rfl

/-- The removal of the process leaves the fields of all PCBs but for links. -/
theorem WakesAt.word_unlinked (h : WakesAt pid p front back above below s) {q k : Int}
    (hq : q ∈ front ++ p :: back ++ (above ++ below)) (hk : 1 ≤ k ∧ k ≤ 17) :
    (unlinked p front s).word (q + k) = s.word (q + k) := by
  refine h.waits.memSameBut_unlinked.word (h.sound.memAddr hq (by omega)).1 fun hmem => ?_
  have hwaits : q + k ∈ front ++ p :: back := by
    refine (List.mem_append.mp hmem).elim (fun hlink => ?_) fun hp => ?_
    · exact List.mem_append_left _ (mem_of_mem_lastLink hlink)
    · exact List.mem_append_right _ (List.mem_singleton.mp hp ▸ List.mem_cons_self ..)
  have hfield := h.sound.field_inj (j := k) (k := 0) hq (List.mem_append_left _ hwaits) (by omega) (by omega) (by omega)
  omega

theorem WakesAt.word_char_unlinked (h : WakesAt pid p front back above below s) :
    (unlinked p front s).word (charAddr p s) = s.word (charAddr p s) := by
  have hchar := charAddr_bounds p s
  have hfield := h.word_unlinked (q := p) (k := charAddr p s - p) (by simp) (by omega)
  rwa [add_sub_cancel] at hfield

/-- An entry of the Ready Queue is no entry of the Waiting Queue, and its fields are not those of one. -/
theorem WakesAt.field_ne (h : WakesAt pid p front back above below s) {q r j k : Int} (hq : q ∈ front ++ p :: back)
    (hr : r ∈ above ++ below) (hj : 0 ≤ j ∧ j ≤ 17) (hk : 0 ≤ k ∧ k ≤ 17) : q + j ≠ r + k := fun heq =>
  h.sound.ne hq hr
    (h.sound.field_inj (List.mem_append_left _ hq) (List.mem_append_right _ hr) hj hk heq).1

/-- The place in the Ready Queue is still the one. -/
theorem WakesAt.readyAt_woken (h : WakesAt pid p front back above below s) (hv : Woken p front s v) :
    ReadyAt p above below v := by
  have hchar := charAddr_bounds p s
  have hp : p ∈ front ++ p :: back := by simp
  refine h.ready.of_same hv.memory hv.rqHead (fun q hq => ?_) fun q hq => ?_
  · have hq0 := (h.ready.sound.memAddr (k := 0) (List.mem_cons_of_mem _ hq) (by omega)).1
    have hne {r j : Int} (hr : r ∈ front ++ p :: back) (hj : 0 ≤ j ∧ j ≤ 17) : r + j ≠ q := by
      simpa using h.field_ne (k := 0) hr hq hj (by omega)
    have hnot : q ∉ [charAddr p s] := by
      have hne' := hne (j := charAddr p s - p) hp (by omega)
      simp only [List.mem_singleton]
      omega
    refine (hv.same.word (by omega) hnot).trans (h.waits.memSameBut_unlinked.word (by omega) fun hmem => ?_)
    rcases List.mem_append.mp hmem with hlink | hown
    · exact hne (j := 0) (List.mem_append_left _ (mem_of_mem_lastLink hlink)) (by omega) (by simp)
    · exact hne (j := 0) hp (by omega) (by simpa using (List.mem_singleton.mp hown).symm)
  · have hmem : q ∈ front ++ p :: back ++ (above ++ below) := by
      simp only [List.mem_cons, List.mem_append] at hq ⊢
      tauto
    refine (hv.same.word (h.sound.memAddr hmem (by omega)).1 fun heq => ?_).trans (h.word_unlinked hmem (by omega))
    have hfield := h.sound.field_inj (j := 4) (k := charAddr p s - p) hmem (List.mem_append_left _ hp) (by omega)
      (by omega) (by rw [List.mem_singleton.mp heq]; omega)
    omega

/-- R287: the rest of the Waiting Queue is still in its order after the insertion. -/
theorem WakesAt.waiting_chain (h : WakesAt pid p front back above below s) (hv : Woken p front s v) :
    queueChain (readied p above below v).mem (readied p above below v).wqHead (front ++ back) := by
  have hchar := charAddr_bounds p s
  have hhead : (readied p above below v).wqHead = (unlinked p front s).wqHead := hv.wqHead
  rw [hhead]
  refine (queueChain_congr _ _ fun q hq => ?_).mpr h.waits.chain_unlinked
  have hq' : q ∈ front ++ p :: back := by
    simp only [List.mem_append, List.mem_cons] at hq ⊢
    tauto
  have hq0 := (h.waits.sound.memAddr (k := 0) hq' (by omega)).1
  have hne {k : Int} (hk : 0 ≤ k ∧ k ≤ 17) : p + k ≠ q := fun heq =>
    h.waits.ne hq (h.waits.sound.field_inj (k := 0) (by simp) hq' hk (by omega) (by omega)).1
  have h0 := hne (k := 0) (by omega)
  have h2 := hne (k := 2) (by omega)
  have hnot : q ∉ [charAddr p s] := by
    have hne' := hne (k := charAddr p s - p) (by omega)
    simp only [List.mem_singleton]
    omega
  refine ((h.readyAt_woken hv).memSameBut_readied.word (by omega) fun hmem => ?_).trans (hv.same.word (by omega) hnot)
  rcases List.mem_append.mp hmem with hlink | hown
  · have hother := h.field_ne (j := 0) (k := 0) hq' (List.mem_append_left _ (mem_of_mem_lastLink hlink)) (by omega)
      (by omega)
    exact hother rfl
  · simp only [List.mem_cons, List.not_mem_nil, or_false] at hown
    omega

/-- Removal, character and insertion change no word but these. -/
theorem WakesAt.memSameBut_readied (h : WakesAt pid p front back above below s) (hv : Woken p front s v) :
    MemSameBut (lastLink front ++ lastLink above ++ [p, p + 2, charAddr p s]) s (readied p above below v) := by
  refine ((h.waits.memSameBut_unlinked.trans hv.same).trans (h.readyAt_woken hv).memSameBut_readied).mono fun a => ?_
  simp only [List.mem_append, List.mem_cons, List.not_mem_nil, or_false]
  tauto

theorem WakesAt.word_char (h : WakesAt pid p front back above below s) (hv : Woken p front s v) :
    (readied p above below v).word (charAddr p s) = v.word (charAddr p s) := by
  have hchar := charAddr_bounds p s
  have hword := (h.readyAt_woken hv).word_context (k := charAddr p s - p) (by omega)
  rwa [add_sub_cancel] at hword

/-- What the completion of either kind leaves in memory and in the queues. -/
theorem WakesAt.result (h : WakesAt pid p front back above below s) (hv : Woken p front s v) :
    queueChain (readied p above below v).mem (readied p above below v).rqHead (above ++ p :: below) ∧
      queueChain (readied p above below v).mem (readied p above below v).wqHead (front ++ back) ∧
      (readied p above below v).word (p + 2) = s.cfg.codes.ready ∧
      MemSameBut (lastLink front ++ lastLink above ++ [p, p + 2, charAddr p s]) s (readied p above below v) := by
  have hready := h.readyAt_woken hv
  refine ⟨hready.chain_readied, h.waiting_chain hv, ?_, h.memSameBut_readied hv⟩
  rw [← hv.cfg]
  exact hready.read_readied (p + 2, _) (by simp [readyWords])

/-! ### The handlers (R304, R305) -/

theorem WakesAt.ne_end (h : WakesAt pid p front back above below s) : p ≠ Config.endOfList := by
  have hp := h.waits.inRange
  simp only [Config.endOfList]
  omega

theorem WakesAt.inputCompletion_eq (h : WakesAt pid p front back above below s) (ch : Int) :
    inputCompletion pid ch s = .go () (readied p above below
      ((unlinked p front s).setMem ((unlinked p front s).mem.write (charAddr p s).toNat ch))) := by
  unfold inputCompletion
  rw [h.waits.removeWaiting_eq, Flow.bind_go, if_neg h.ne_end, charAddr_unlinked, store_of_memAddr h.memAddr_char,
    Flow.bind_go]
  exact (h.readyAt_woken (h.woken_store ch)).insertReady_eq

theorem WakesAt.outputCompletion_eq (h : WakesAt pid p front back above below s) :
    outputCompletion pid s = .go () (readied p above below
      ((unlinked p front s).emit (.char ((unlinked p front s).word (charAddr p s))))) := by
  unfold outputCompletion
  rw [h.waits.removeWaiting_eq, Flow.bind_go, if_neg h.ne_end, charAddr_unlinked, load_of_memAddr h.memAddr_char,
    Flow.bind_go]
  exact (h.readyAt_woken (h.woken_emit _)).insertReady_eq

end Wakes

/-! ### The steps that receive a completion (R301, R302) -/

section Receive

variable {s t : State} {e : Interrupt} {rest : List Interrupt}

/-- R301, R302: a received interrupt is handled with the rest left to receive. -/
theorem step_receive_handles (hphase : s.phase = .receive) (hinbox : s.inbox = e :: rest) :
    step s = (handleInterrupt e (s.setInbox rest)).outcome := by
  simp [step, hphase, receiveStep, hinbox]

theorem step_receive_input (hphase : s.phase = .receive) (hinbox : s.inbox = e :: rest) (hid : e.id = 3)
    (h : inputCompletion e.payload.pid e.payload.ch (s.setInbox rest) = .go () t) :
    step s = .next (t.setPhase .select) := by
  rw [step_receive_handles hphase hinbox]
  simp [handleInterrupt, hid, h, Flow.outcome]

theorem step_receive_output (hphase : s.phase = .receive) (hinbox : s.inbox = e :: rest) (hid : e.id = 4)
    (h : outputCompletion e.payload.pid (s.setInbox rest) = .go () t) : step s = .next (t.setPhase .select) := by
  rw [step_receive_handles hphase hinbox]
  simp [handleInterrupt, hid, h, Flow.outcome]

end Receive

/-- Settles O47: input and output differ in what they do between the removal and the insertion. -/
theorem completionWakesWaitingProcess : Obligations.CompletionWakesWaitingProcess := by
  unfold Obligations.CompletionWakesWaitingProcess
  intro s e rest front back above below p hphase hinbox hwf hsound hshort hwaiting hready hothers hown habove hbelow hid
  simp only [List.length_append, List.length_cons] at hshort
  have hp : SoundPcbs (p :: (above ++ below)) := by
    rw [List.append_assoc] at hsound
    exact hsound.sub (((List.sublist_append_right back _).cons_cons p).trans (List.sublist_append_right front _))
  have h : WakesAt e.payload.pid p front back above below (s.setInbox rest) :=
    ⟨⟨hwf, hsound.sub (List.sublist_append_left ..), by simp; omega, hwaiting, hothers, hown⟩,
      ⟨hwf, hp, by simp; omega, hready, habove, hbelow⟩, hsound⟩
  rcases hid with hid | hid
  · have hv := h.woken_store e.payload.ch
    obtain ⟨hrq, hwq, hmark, hsame⟩ := h.result hv
    refine ⟨_, step_receive_input hphase hinbox hid (h.inputCompletion_eq _), rfl, rfl, hrq, hwq, hmark, hsame,
      fun _ => ⟨?_, by simp⟩, fun h4 => by omega⟩
    exact (h.word_char hv).trans (Memory.read_write_same _ _ h.waits.wf_unlinked)
  · have hv := h.woken_emit (.char ((unlinked p front (s.setInbox rest)).word (charAddr p (s.setInbox rest))))
    obtain ⟨hrq, hwq, hmark, hsame⟩ := h.result hv
    have hword := h.word_char_unlinked
    refine ⟨_, step_receive_output hphase hinbox hid h.outputCompletion_eq, rfl, rfl, hrq, hwq, hmark, hsame,
      fun h3 => by omega, fun _ => ⟨(h.word_char hv).trans hword, ?_⟩⟩
    rw [State.setPhase_outbox, readied_outbox, State.emit_outbox, unlinked_outbox, hword]
    rfl

/-- Settles O48: the walk finds no entry, so the handler reports before it writes. -/
theorem completionWithoutWaiterReports : Obligations.CompletionWithoutWaiterReports := by
  unfold Obligations.CompletionWithoutWaiterReports
  intro s e rest ps hphase hinbox _ hshort hsound hchain hothers hid
  have hnone : removeWaiting e.payload.pid (s.setInbox rest) = .go (-1) (s.setInbox rest) :=
    removeWaiting_none hsound hshort hchain hothers
  rcases hid with hid | hid
  · refine step_receive_input hphase hinbox hid (t := report .noSuchWaitingProcess (s.setInbox rest)) ?_
    unfold inputCompletion
    rw [hnone]
    rfl
  · refine step_receive_output hphase hinbox hid (t := report .noSuchWaitingProcess (s.setInbox rest)) ?_
    unfold outputCompletion
    rw [hnone]
    rfl

end Sys2Proof.Machine

/-! # The end of a process: termination, and the draining of a shutdown (R264, R265, R306, R311, R313)

Termination frees a stack in the heap region and a PCB in the OS region, so each deallocation writes one header. The routing
of a halt or a fault runs it for the current process, the draining for the heads of the two queues. -/

namespace Sys2Proof.Machine

/-! ### Termination (R313) -/

/-- The PCB at `p` lies in the OS region, and the stack it records is a block of the heap region. -/
structure StackInHeap (p : Int) (s : State) : Prop where
  pcbLo : 7000 ≤ p
  pcbHi : p + 17 ≤ 9999
  size : 2 ≤ s.word (p + 5)
  lo : 4000 ≤ s.word (p + 6)
  hi : s.word (p + 6) + s.word (p + 5) - 1 ≤ 6999

/-- Memory with the headers of the stack and of the PCB at `p` in front of the two free lists. -/
def freedMem (p : Int) (s : State) : Memory :=
  (((s.mem.write (s.word (p + 6)).toNat s.userFreeHead).write (s.word (p + 6) + 1).toNat (s.word (p + 5))).write
    p.toNat s.osFreeHead).write (p + 1).toNat 18

/-- The state termination leaves. -/
def terminated (p : Int) (s : State) : State :=
  ((s.setMem (freedMem p s)).setUserFreeHead (s.word (p + 6))).setOsFreeHead p

@[simp] theorem terminated_phase (p : Int) (s : State) : (terminated p s).phase = s.phase := rfl

@[simp] theorem terminated_rqHead (p : Int) (s : State) : (terminated p s).rqHead = s.rqHead := rfl

@[simp] theorem terminated_wqHead (p : Int) (s : State) : (terminated p s).wqHead = s.wqHead := rfl

section Terminate

variable {p : Int} {s t : State}

theorem StackInHeap.terminateProcess_eq (h : StackInHeap p s) : terminateProcess p s = .go () (terminated p s) := by
  obtain ⟨hlo, hhi, hsize, hstart, hend⟩ := h
  have hmem (k : Int) (hk : 0 ≤ k ∧ k ≤ 17) : MemAddr (p + k) := memAddr_of_pcb ⟨hlo, hhi⟩ (by omega) (by omega)
  have hround : roundSize (s.word (p + 5)) = s.word (p + 5) := if_neg (by omega)
  have hstack : free .user (s.word (p + 6)) (s.word (p + 5)) s = _ :=
    free_of_inRegion (g := .user) (by omega) hstart (by rw [hround]; exact hend) s
  have hpcb (u : State) : free .os p Config.pcbSize u = _ :=
    free_of_inRegion (g := .os) (size := Config.pcbSize) (by decide) hlo (show p + 18 - 1 ≤ 9999 by omega) u
  unfold terminateProcess
  rw [load_of_memAddr (hmem Pcb.stackStart (by simp)), Flow.bind_go, load_of_memAddr (hmem Pcb.stackSize (by simp)),
    Flow.bind_go]
  simp only [State.word] at hstack
  rw [Pcb.stackStart, Pcb.stackSize, hstack, Flow.bind_go, hpcb, Flow.bind_go]
  simp only [State.word] at hround
  rw [hround]
  rfl

/-- Termination writes the two headers only. -/
theorem StackInHeap.memSameBut_terminated (h : StackInHeap p s) :
    MemSameBut [s.word (p + 6), s.word (p + 6) + 1, p, p + 1] s (terminated p s) := by
  have hlo := h.pcbLo
  have hstart := h.lo
  intro a ha
  simp only [List.mem_cons, List.not_mem_nil, or_false, not_or] at ha
  have hmem : (terminated p s).mem = freedMem p s := rfl
  rw [hmem, freedMem, Memory.read_write_other _ _ (by omega), Memory.read_write_other _ _ (by omega),
    Memory.read_write_other _ _ (by omega), Memory.read_write_other _ _ (by omega)]

/-- The stack is recorded in two words of the PCB. -/
theorem StackInHeap.of_same (h : StackInHeap p s) (h5 : t.word (p + 5) = s.word (p + 5))
    (h6 : t.word (p + 6) = s.word (p + 6)) : StackInHeap p t :=
  ⟨h.pcbLo, h.pcbHi, h5 ▸ h.size, h6 ▸ h.lo, h5 ▸ h6 ▸ h.hi⟩

/-! ### The routing of a halt or a fault (R264, R265, R311) -/

theorem step_route_terminates {st : ExitStatus} (hphase : s.phase = .route st) (hst : st = .halted ∨ ∃ c, st = .fault c)
    (h : StackInHeap s.current s) :
    step s = .next (((terminated s.current (s.setMode .os)).setCurrent (-1)).setPhase .receive) := by
  have hos : StackInHeap s.current (s.setMode .os) := h.of_same rfl rfl
  have hroute : route s.current st (s.setMode .os) = .go () (terminated s.current (s.setMode .os)) := by
    rcases hst with rfl | ⟨c, rfl⟩ <;> exact hos.terminateProcess_eq
  simp only [step, hphase, routeStep]
  rw [hroute]
  rfl

end Terminate

/-- Settles O42: both kinds of status run the termination. -/
theorem faultOrHaltTerminatesProcess : Obligations.FaultOrHaltTerminatesProcess := by
  unfold Obligations.FaultOrHaltTerminatesProcess
  intro s st hphase hst p a n hp hn ha hhi
  exact step_route_terminates hphase hst ⟨hp.1, hp.2, hn, ha, hhi⟩

/-! ### The draining of the queues (R306) -/

section Drain

variable {p : Int} {s : State}

/-- R286, R306: the state in which the head of the Ready Queue is terminated. -/
def readyTaken (p : Int) (s : State) : State := (s.setRqHead (s.word p)).setMem (s.mem.write p.toNat (-1))

theorem memSameBut_readyTaken (hp : 0 ≤ p) : MemSameBut [p] s (readyTaken p s) :=
  memSameBut_write (MemSameBut.refl _ s) (List.mem_singleton_self p) hp rfl

/-- SelectNext changes only the link of the PCB. -/
theorem word_readyTaken (hp : 0 ≤ p) {k : Int} (hk : 1 ≤ k) : (readyTaken p s).word (p + k) = s.word (p + k) :=
  (memSameBut_readyTaken hp).word (by omega) (by simp; omega)

theorem StackInHeap.taken (h : StackInHeap p s) : StackInHeap p (readyTaken p s) := by
  have hp : 0 ≤ p := by have := h.pcbLo; omega
  exact h.of_same (word_readyTaken hp (by omega)) (word_readyTaken hp (by omega))

theorem step_drain_ready (hphase : s.phase = .drain) (hhead : s.rqHead = p) (h : StackInHeap p s) :
    step s = .next (terminated p (readyTaken p s)) := by
  have hlo := h.pcbLo
  have hne : s.rqHead ≠ Config.endOfList := by
    simp only [Config.endOfList]
    omega
  have hselect : selectNext s = .go p (readyTaken p s) := selectNext_eq ⟨hlo, h.pcbHi⟩ hhead
  simp only [step, hphase, drainStep]
  rw [if_pos hne, hselect, Flow.bind_go, h.taken.terminateProcess_eq]
  rfl

theorem step_drain_waiting (hphase : s.phase = .drain) (hempty : s.rqHead = -1) (hhead : s.wqHead = p)
    (h : StackInHeap p s) : step s = .next (terminated p (s.setWqHead (s.word p))) := by
  have hlo := h.pcbLo
  have hne : p ≠ Config.endOfList := by
    simp only [Config.endOfList]
    omega
  have hmem : MemAddr (p + Pcb.next) := memAddr_of_pcb ⟨hlo, h.pcbHi⟩ (by simp) (by simp)
  have htaken : StackInHeap p (s.setWqHead (s.word p)) := h.of_same rfl rfl
  simp only [step, hphase, drainStep]
  rw [if_neg (not_not_intro hempty), hhead, if_pos hne, load_of_memAddr hmem, Flow.bind_go, Pcb.next, Int.add_zero]
  exact congrArg Flow.outcome htaken.terminateProcess_eq

/-- R306: with both queues empty the shutdown is done. -/
theorem step_drain_empty (hphase : s.phase = .drain) (hready : s.rqHead = -1) (hwaiting : s.wqHead = -1) :
    step s = .next (s.setShutdownSeen.setPhase .select) := by
  simp [step, hphase, drainStep, hready, hwaiting, Flow.outcome]

/-- R310: the loop's stop test after a shutdown. -/
theorem step_select_stops (hphase : s.phase = .select) (hready : s.rqHead = -1) (hwaiting : s.wqHead = -1)
    (hseen : s.shutdownSeen = true) : step s = .next (s.setPhase .stopped) := by
  simp [step, hphase, selectStep, hready, hwaiting, hseen, Flow.outcome]

end Drain

/-- Settles O49: the drain takes the head of the Ready Queue, then that of the Waiting Queue, and terminates it. -/
theorem shutdownDrainsAndStops : Obligations.ShutdownDrainsAndStops := by
  unfold Obligations.ShutdownDrainsAndStops
  intro s hphase
  refine ⟨fun hready hwaiting => ⟨step_drain_empty hphase hready hwaiting, step_select_stops rfl hready hwaiting rfl⟩,
    ?_, ?_⟩
  · rintro p hhead hlo hhi a n rfl rfl hsize hstart hend
    have h : StackInHeap p s := ⟨hlo, hhi, hsize, hstart, hend⟩
    have h6 : (readyTaken p s).word (p + 6) = s.word (p + 6) := word_readyTaken (by omega) (by omega)
    refine ⟨_, step_drain_ready hphase hhead h, by simp [readyTaken, hphase], by simp [readyTaken], h6, rfl, ?_⟩
    refine ((memSameBut_readyTaken (by omega)).trans h.taken.memSameBut_terminated).mono fun b => ?_
    simp only [h6, List.mem_append, List.mem_cons, List.not_mem_nil, or_false]
    tauto
  · rintro p hempty hhead hlo hhi a n rfl rfl hsize hstart hend
    have h : StackInHeap p s := ⟨hlo, hhi, hsize, hstart, hend⟩
    have htaken : StackInHeap p (s.setWqHead (s.word p)) := h.of_same rfl rfl
    exact ⟨_, step_drain_waiting hphase hempty hhead h, by simp [hphase], by simp, rfl, rfl,
      htaken.memSameBut_terminated⟩

end Sys2Proof.Machine

/-! # Process IDs (R282)

Only process creation writes the next process ID, and the receive is the only step that creates one. -/

namespace Sys2Proof.Machine

theorem advancePid_nextPid {s : State} (h : s.cfg.IsWord (s.nextPid + 1)) :
    (advancePid s).nextPid = s.nextPid + 1 := by
  unfold advancePid
  rw [if_pos h]
  rfl

theorem nextPid_of_forgetOs {s t : State} (h : t.forgetOs = s.forgetOs) : t.nextPid = s.nextPid :=
  field_of_forgetOs State.nextPid (fun _ => rfl) h

/-- The receive leaves the next process ID or advances it once. -/
theorem step_receive_nextPid {s t : State} (hphase : s.phase = .receive) (h : step s = .next t)
    (hword : s.cfg.IsWord (s.nextPid + 1)) : t.nextPid = s.nextPid ∨ t.nextPid = s.nextPid + 1 := by
  rcases step_receive hphase h with ⟨-, rfl⟩ | ⟨e, rest, u, ph, -, rfl, -, hu | hu⟩
  · exact .inl rfl
  · exact .inl (nextPid_of_forgetOs hu :)
  · exact .inr ((nextPid_of_forgetOs hu :).trans (advancePid_nextPid hword))

/-- Every step but the receive leaves the next process ID alone. -/
theorem step_nextPid {s t : State} (hphase : s.phase ≠ .receive) (h : step s = .next t) : t.nextPid = s.nextPid := by
  cases hp : s.phase with
  | receive => exact absurd hp hphase
  | engine => exact (engineStepTakesNoInterrupt s t hp h).nextPid
  | powerOn =>
    obtain ⟨u, hu, rfl⟩ := step_powerOn hp h
    exact (nextPid_of_forgetOs hu :)
  | drain =>
    rcases step_drain hp h with hu | rfl
    · exact nextPid_of_forgetOs hu
    · rfl
  | select =>
    rcases step_select hp h with rfl | rfl | ⟨u, p, regs, sp, pc, hu, -, rfl⟩
    · rfl
    · rfl
    · exact (nextPid_of_forgetOs hu :)
  | route st =>
    obtain ⟨u, hu, rfl⟩ := step_route hp h
    exact (nextPid_of_forgetOs hu :)
  | stopped => rw [step_stopped hp h]

/-- Settles O54, by whether the step is the receive. -/
theorem processIdsAdvanceByOne : Obligations.ProcessIdsAdvanceByOne := by
  unfold Obligations.ProcessIdsAdvanceByOne
  intro s t h hword
  by_cases hphase : s.phase = .receive
  · exact (step_receive_nextPid hphase h hword).imp_right fun hnext => ⟨hnext, hphase⟩
  · exact .inl (step_nextPid hphase h)

end Sys2Proof.Machine

/-! # The turns of the loop that start no process, and the dump (R301, R302, R308, R310, R312, R318) -/

namespace Sys2Proof.Machine

section Turns

variable {s : State} {e : Interrupt}

/-- R301, R318: the blocking receive with nothing to receive. -/
theorem step_receive_waits (hphase : s.phase = .receive) (hinbox : s.inbox = []) : step s = .next s := by
  simp [step, hphase, receiveStep, hinbox, Flow.outcome]

/-- R302: the console's no-op. -/
theorem handleInterrupt_noop (hid : e.id = 0) (s : State) : handleInterrupt e s = .go () (s.setPhase .select) :=
  if_pos hid

theorem handleInterrupt_shutdown (hid : e.id = 2) (s : State) : handleInterrupt e s = .go () (s.setPhase .drain) := by
  simp [handleInterrupt, hid]

/-- R308: an ID that names no handler. -/
theorem handleInterrupt_invalid (hid : ¬ (0 ≤ e.id ∧ e.id ≤ 4)) (s : State) :
    handleInterrupt e s = .go () ((report .invalidInterrupt s).setPhase .select) := by
  unfold handleInterrupt
  rw [if_neg (by omega), if_neg (by omega), if_neg (by omega), if_neg (by omega), if_neg (by omega)]

/-- R310: no process is ready, and the loop does not stop. -/
theorem step_select_none (hphase : s.phase = .select) (hready : s.rqHead = -1)
    (hgoes : ¬ (s.shutdownSeen = true ∧ s.wqHead = -1)) : step s = .next (s.setPhase .receive) := by
  have hselect : selectNext s = .go Config.endOfList s := if_pos hready
  simp only [step, hphase, selectStep]
  rw [if_neg fun ⟨hseen, _, hwaiting⟩ => hgoes ⟨hseen, hwaiting⟩, hselect]
  rfl

end Turns

/-- Settles O46, turn by turn. -/
theorem loopWaitsAndStops : Obligations.LoopWaitsAndStops := by
  unfold Obligations.LoopWaitsAndStops
  intro s
  refine ⟨step_receive_waits, fun e rest hphase hinbox => ?_, step_select_none, step_select_stops, fun hphase => ?_⟩
  · rw [step_receive_handles hphase hinbox]
    refine ⟨fun hid => ?_, fun hid => ?_, fun hid => ?_⟩
    · rw [handleInterrupt_noop hid]
      rfl
    · rw [handleInterrupt_shutdown hid]
      rfl
    · rw [handleInterrupt_invalid hid]
      rfl
  · simp [step, hphase]

/-- Word `k` of a dumped window. -/
theorem window_get (s : State) {start length : Int} (hstart : 0 ≤ start) {k : Nat} (hk : (k : Int) < length) :
    ((List.range length.toNat).map fun k => s.mem.read (start.toNat + k))[k]? = some (s.word (start + k)) := by
  have haddr : (start + k).toNat = start.toNat + k := by omega
  have hlt : k < length.toNat := by omega
  simp [State.word, haddr, hlt]

/-- Settles O57: the window is inside the arena or not. -/
theorem dumpReadsRegistersAndWindow : Obligations.DumpReadsRegistersAndWindow := by
  unfold Obligations.DumpReadsRegistersAndWindow
  intro s label start length
  refine ⟨fun hbad => if_neg hbad, fun hwindow => ⟨_, if_pos hwindow, rfl, rfl, rfl, rfl, rfl, rfl, rfl, rfl, rfl, ?_,
    fun k hk => window_get s hwindow.1 hk⟩⟩
  rw [List.length_map, List.length_range, Int.toNat_of_nonneg hwindow.2.1]

end Sys2Proof.Machine

/-! # Power-on, the loader, and a creation that fails (R321, R323, R332, R333)

A file is read past its accepted lines in one equation, so each way it can end is one line of the loader. A creation
whose program is not loaded gives its PCB back: the block is put in front of the remainder it was split from. -/

namespace Sys2Proof.Machine

/-! ### Power-on (R321, R323) -/

/-- R321: every general register is zero at power-on. -/
theorem reset_reg : ∀ r, State.reset.reg r = 0 := by decide

/-- Settles O55: the registers one by one, every other value as `State.reset` gives it. -/
theorem resetPowerOnValues : Obligations.ResetPowerOnValues :=
  ⟨rfl, rfl, rfl, rfl, rfl, reset_reg, rfl, rfl, rfl, rfl, rfl, rfl, rfl, rfl⟩

/-! ### The loader (R333) -/

section Loader

variable {s : State} {rest : List (Int × Int)}

/-- The accepted lines are written in order, and the loader goes on with what follows them. -/
theorem GoodLines.loadLines_append {ls : List (Int × Int)} (more : List (Int × Int)) :
    ∀ {s : State}, GoodLines ls → loadLines (ls ++ more) s = loadLines more (s.setMem (s.mem.writeLines ls)) := by
  induction ls with
  | nil => exact fun _ => rfl
  | cons l ls ih =>
    intro s hls
    obtain ⟨hl, hls⟩ := List.forall_mem_cons.mp hls
    have hne : l.1 ≠ -1 := by
      rw [userAddr_iff] at hl
      omega
    rw [List.cons_append, loadLines, if_neg hne, if_pos hl, store_of_memAddr (memAddr_of_userAddr hl), Flow.bind_go,
      ih hls]
    rfl

/-- The line of address -1 ends the file with the starting address. -/
theorem loadLines_start (v : Int) :
    loadLines ((-1, v) :: rest) s = .go (if UserAddr v then v else s.cfg.codes.loadError) s := if_pos rfl

/-- A line at any other address that is no user address is a load error, and nothing is written. -/
theorem loadLines_bad {bad : Int × Int} (hne : bad.1 ≠ -1) (hbad : ¬ UserAddr bad.1) :
    loadLines (bad :: rest) s = .go s.cfg.codes.loadError s := by
  rw [loadLines, if_neg hne, if_neg hbad]

theorem loadLines_nil : loadLines [] s = .go s.cfg.codes.loadError s := rfl

theorem loadFile_some (name : List Int) (ls : List (Int × Int)) : loadFile ⟨name, some ls⟩ s = loadLines ls s := rfl

/-- A file that cannot be opened. -/
theorem loadFile_none {f : ProgramFile} (hf : f.lines = none) : loadFile f s = .go s.cfg.codes.loadError s := by
  unfold loadFile
  rw [hf]

end Loader

/-- Settles O51, by what follows the accepted lines: the starting address, a refused line, nothing; or no file. -/
theorem loaderWritesLines : Obligations.LoaderWritesLines := by
  unfold Obligations.LoaderWritesLines
  intro s name ls rest v hls
  refine ⟨?_, fun bad hne hbad => ?_, ?_, loadFile_none rfl⟩
  · rw [loadFile_some, hls.loadLines_append, loadLines_start]
    rfl
  · rw [loadFile_some, hls.loadLines_append, loadLines_bad hne hbad]
    rfl
  · rw [loadFile_some, ← List.append_nil ls, hls.loadLines_append, loadLines_nil, List.append_nil]
    rfl

/-! ### The PCB that is given back (R331, D41) -/

/-- The state in which the PCB at `p` has been given back and the failure `r` reported. -/
def abandoned (p : Int) (r : Report) (s : State) : State :=
  setFreeHead .os p ((report r s).putHeader p s.osFreeHead 18)

@[simp] theorem abandoned_inbox (p : Int) (r : Report) (s : State) : (abandoned p r s).inbox = s.inbox := rfl

@[simp] theorem abandoned_rqHead (p : Int) (r : Report) (s : State) : (abandoned p r s).rqHead = s.rqHead := rfl

@[simp] theorem abandoned_wqHead (p : Int) (r : Report) (s : State) : (abandoned p r s).wqHead = s.wqHead := rfl

@[simp] theorem abandoned_nextPid (p : Int) (r : Report) (s : State) : (abandoned p r s).nextPid = s.nextPid := rfl

@[simp] theorem abandoned_outbox (p : Int) (r : Report) (s : State) :
    (abandoned p r s).outbox = s.outbox ++ [.report r] := rfl

section Abandon

variable {p : Int} {s : State} (r : Report)

theorem abandonPcb_eq (hp : PcbInRange p) : abandonPcb p r s = .go () (abandoned p r s) := by
  obtain ⟨hlo, hhi⟩ := pcbInRange_iff.mp hp
  have hfree : free .os p Config.pcbSize (report r s) = _ :=
    free_of_inRegion (g := .os) (size := Config.pcbSize) (by decide) hlo (show p + 18 - 1 ≤ 9999 by omega) _
  rw [abandonPcb, hfree, Flow.bind_go]
  rfl

/-- The PCB that is given back is the first block of the OS list. -/
theorem FreeList.abandoned {bs : List (Int × Int)} (h : FreeList .os bs s) (hwf : s.mem.wf = true)
    (hsound : SoundBlocks .os ((p, 18) :: bs)) : FreeList .os ((p, 18) :: bs) (abandoned p r s) :=
  ⟨hsound, freeChain_cons_putHeader (s := report r s) hwf hsound h.2⟩

theorem memSameBut_abandoned (hp : 0 ≤ p) : MemSameBut [p, p + 1] s (abandoned p r s) :=
  memSameBut_putHeader (s := report r s) hp

end Abandon

/-! ### The creation up to the load, with the OS region one free block (R331) -/

@[simp] theorem firstNumbered_inbox (s : State) (m : Memory) : (firstNumbered s m).inbox = s.inbox := rfl

@[simp] theorem firstNumbered_rqHead (s : State) (m : Memory) : (firstNumbered s m).rqHead = s.rqHead := rfl

@[simp] theorem firstNumbered_wqHead (s : State) (m : Memory) : (firstNumbered s m).wqHead = s.wqHead := rfl

@[simp] theorem firstNumbered_nextPid (s : State) (m : Memory) : (firstNumbered s m).nextPid = s.nextPid + 1 := rfl

@[simp] theorem firstNumbered_outbox (s : State) (m : Memory) : (firstNumbered s m).outbox = s.outbox := rfl

/-- The state a creation leaves whose file cannot be opened (R332): a PCB split off, numbered, and given back. -/
def failedCreation (s : State) : State :=
  abandoned 7000 (.loadFailed s.cfg.codes.loadError) (firstNumbered s (numberedMem s))

section Numbered

variable {s : State}

theorem wf_splitMem (hwf : s.mem.wf = true) : (splitMem s).wf = true := by
  unfold splitMem
  exact Memory.wf_writeLines _ _ hwf (by decide)

theorem wf_numberedMem (hwf : s.mem.wf = true) : (numberedMem s).wf = true := by
  unfold numberedMem
  exact Memory.wf_freshPcb _ (wf_splitMem hwf) pcbInRange_first

/-- The words behind the PCB are those of the split. -/
theorem read_numberedMem_above {b : Nat} (hb : 7018 ≤ b) : (numberedMem s).read b = (splitMem s).read b := by
  unfold numberedMem
  exact Memory.read_freshPcb_other _ pcbInRange_first (by omega)

/-- The remainder of the block the PCB was split from is the OS list. -/
theorem freeList_firstNumbered (hwf : s.mem.wf = true) :
    FreeList .os [(7018, 2982)] (firstNumbered s (numberedMem s)) := by
  have hsplit : ∀ w ∈ [((7018 : Int), (-1 : Int)), (7019, 2982)], (splitMem s).read w.1.toNat = w.2 := by
    unfold splitMem
    exact Memory.read_writeLines_mem _ _ hwf (by decide) (by decide)
  exact freeList_single.mpr ⟨by decide, rfl,
    (read_numberedMem_above (by decide)).trans (hsplit (7019, 2982) (by simp)),
    (read_numberedMem_above (by decide)).trans (hsplit (7018, -1) (by simp))⟩

/-- R332: a creation whose file cannot be opened, from the allocation of its PCB to the report. -/
theorem createProcess_unopened {f : ProgramFile} (priority : Int) (hos : FreeList .os [(7000, 3000)] s)
    (hpid : s.cfg.IsWord (s.nextPid + 1)) (hf : f.lines = none) (hcode : s.cfg.codes.loadError < 0) :
    createProcess f priority s = .go () (failedCreation s) := by
  have halloc : allocate .os Config.pcbSize s = .go (.address 7000) (setFreeHead .os 7018 (s.setMem (splitMem s))) := by
    unfold splitMem
    exact allocate_split_single hos (by decide) (by decide)
  have hinit : initPcb 7000 (setFreeHead .os 7018 (s.setMem (splitMem s))) =
      .go () (firstNumbered s (numberedMem s)) := by
    rw [initPcb_eq pcbInRange_first (by simpa [setFreeHead_nextPid] using hpid), setFreeHead_setMem,
      State.setMem_setMem, setFreeHead_nextPid, setFreeHead_freeDraws, setFreeHead_mem]
    unfold firstNumbered numberedMem
    rfl
  unfold createProcess
  rw [halloc, Flow.bind_go]
  simp only
  rw [hinit, Flow.bind_go, loadFile_none hf, Flow.bind_go, firstNumbered_cfg, if_pos hcode,
    abandonPcb_eq _ pcbInRange_first]
  rfl

theorem freeList_failedCreation (hwf : s.mem.wf = true) :
    FreeList .os [(7000, 18), (7018, 2982)] (failedCreation s) :=
  (freeList_firstNumbered hwf).abandoned _ (wf_numberedMem hwf) ⟨by simp [regionLo, regionHi], by simp [BlocksApart]⟩

/-- Nothing below the OS region is written. -/
theorem read_failedCreation_below {a : Nat} (ha : a < 7000) : (failedCreation s).mem.read a = s.mem.read a :=
  (memSameBut_abandoned _ (by decide) a (by simp; omega)).trans (read_numberedMem_below ha)

end Numbered

/-- D32: the load error is a negative code. -/
theorem loadError_neg {c : Params} (h : c.Ok) : c.codes.loadError < 0 := by
  obtain ⟨-, -, -, ⟨-, -, ⟨-, hneg⟩, -⟩, -⟩ := h
  exact hneg _ (by simp [Codes.serviceErrors])

/-- Settles O53: the creation splits a PCB from the OS region, numbers it, and gives it back. -/
theorem failedLoadIsReported : Obligations.FailedLoadIsReported := by
  unfold Obligations.FailedLoadIsReported
  intro s e rest hphase hinbox hid hok hwf hos hpid hfile
  have hstep : step s = .next ((failedCreation (s.setInbox rest)).setPhase .select) := by
    rw [step_receive_runProgram hphase hinbox hid,
      createProcess_unopened (s := s.setInbox rest) _ (hos.congr rfl rfl) hpid hfile (loadError_neg hok)]
    rfl
  have hlist := freeList_failedCreation (s := s.setInbox rest) hwf
  refine ⟨_, hstep, rfl, ?_, ?_, ?_, ?_, ?_, hlist.congr rfl rfl, fun a ha => read_failedCreation_below ha⟩ <;>
    simp [failedCreation]

end Sys2Proof.Machine
